-- ==== Sys2Proof/Word.lean ====
section
/-! DEFINITION. The word types of HUFF-CORE (spec/00_scope.md R8, R9; spec/10_state.md R52). -/

namespace Sys2Proof

/-- A register of the interface, a command word, a frequency count: 32 bits (R9 `REG_W`, `CNT_W`). -/
abbrev Word := BitVec 32

/-- A literal, the unit of the byte ports: 8 bits (R9 `LIT_W`). -/
abbrev Byte := BitVec 8

/-- A symbol field: 9 bits, of which the values 0..256 are symbols (R8, R9 `SYM_W`). -/
abbrev Symbol := BitVec 9

/-- An index into the node store: 10 bits (R52). -/
abbrev NodeIx := BitVec 10

/-- A node weight: 41 bits, unsigned (R9 `WGT_W`). -/
abbrev Weight := BitVec 41

end Sys2Proof
end

