-- ==== Sys2Proof/Syntax.lean ====
section
/-! DEFINITION. The commands of HUFF-CORE: one constructor per row of spec/opcode_table.json
(spec/30_encoding.md R103). -/

namespace Sys2Proof

/-- A command, with the operand fields of its word (R100, R102). -/
inductive Instr where
  /-- `NOP` (R242) -/
  | nop
  /-- `CLEAR` (R245) -/
  | clear
  /-- `BUILD` (R131) -/
  | build
  /-- `GENCODES` (R151) -/
  | gencodes
  /-- `HDRWR`, flag `M` (R171) -/
  | hdrwr (m : Bool)
  /-- `HDRRD`, flag `M` (R181) -/
  | hdrrd (m : Bool)
  /-- `ENCSYM`, the symbol operand `IMM9` (R200) -/
  | encsym (sym : Symbol)
  /-- `ENCSTREAM`, flag `T` (R204) -/
  | encstream (t : Bool)
  /-- `DECSYM` (R221) -/
  | decsym
  /-- `DECSTREAM` (R231) -/
  | decstream
  /-- `FLUSH`, flags `K` and `Y` (R210) -/
  | flush (k y : Bool)
  deriving DecidableEq, Repr

/-- Why a word is `Illegal`: the three cases of R106. -/
inductive IllegalReason where
  /-- the opcode is 0x0B-0xFF -/
  | opcode
  /-- a must-be-zero bit of the format is 1 -/
  | mustBeZero
  /-- an `ENCSYM` whose `IMM9` is 257..511 -/
  | symbolRange
  deriving DecidableEq, Repr

/-- What the decoder makes of a word (R105). -/
inductive Decoded where
  | command (i : Instr)
  | illegal (why : IllegalReason)
  deriving DecidableEq, Repr

end Sys2Proof
end

