-- ==== Sys2Proof/WellFormed.lean ====
section
/-! DEFINITION. Which terms of `Instr` are commands: the operand range of R102 and R106. -/

namespace Sys2Proof

/-- The one check on a command's operands: a symbol operand is 0..256 (R102, R106). -/
def Instr.wf : Instr → Bool
  | .nop => true
  | .clear => true
  | .build => true
  | .gencodes => true
  | .hdrwr _ => true
  | .hdrrd _ => true
  | .encsym sym => sym.toNat ≤ 256
  | .encstream _ => true
  | .decsym => true
  | .decstream => true
  | .flush _ _ => true

end Sys2Proof
end

