-- ==== Sys2Proof/Decode.lean ====
section
/-! DEFINITION. The decoder of command words, total on 32-bit words (spec/30_encoding.md R100-R108), and
the encoder. -/

namespace Sys2Proof

/-- The field `OP`, bits [7:0] (R100). -/
def opField (v : Word) : Nat := (v.extractLsb' 0 8).toNat

/-- The symbol operand, bits [24:16], zero-extended: no sign, scale or shift (R102). -/
def symField (v : Word) : Symbol := v.extractLsb' 16 9

/-- A command of format `N`: bits [31:8] must be 0 (R101). -/
def decodeN (v : Word) (i : Instr) : Decoded :=
  if v.extractLsb' 8 24 = 0#24 then .command i else .illegal .mustBeZero

/-- A command of format `F`: the flag is bit 8, bits [31:9] must be 0 (R101, R102). -/
def decodeF (v : Word) (i : Bool → Instr) : Decoded :=
  if v.extractLsb' 9 23 = 0#23 then .command (i (v.getLsbD 8)) else .illegal .mustBeZero

/-- A command of format `F2`: the flags are bits 8 and 9, bits [31:10] must be 0 (R101, R102). -/
def decodeF2 (v : Word) (i : Bool → Bool → Instr) : Decoded :=
  if v.extractLsb' 10 22 = 0#22 then .command (i (v.getLsbD 8) (v.getLsbD 9))
  else .illegal .mustBeZero

/-- A command of format `S`: bits [31:25] and [15:8] must be 0, the symbol 0..256 (R101, R102, R106). -/
def decodeS (v : Word) (i : Symbol → Instr) : Decoded :=
  if v.extractLsb' 25 7 = 0#7 ∧ v.extractLsb' 8 8 = 0#8 then
    if (symField v).toNat ≤ 256 then .command (i (symField v)) else .illegal .symbolRange
  else .illegal .mustBeZero

/-- The decoder of R105. -/
def decode (v : Word) : Decoded :=
  match opField v with
  | 0x00 => decodeN v .nop
  | 0x01 => decodeN v .clear
  | 0x02 => decodeN v .build
  | 0x03 => decodeN v .gencodes
  | 0x04 => decodeF v .hdrwr
  | 0x05 => decodeF v .hdrrd
  | 0x06 => decodeS v .encsym
  | 0x07 => decodeF v .encstream
  | 0x08 => decodeN v .decsym
  | 0x09 => decodeN v .decstream
  | 0x0A => decodeF2 v .flush
  | _ => .illegal .opcode

/-- The command of a decoded word, if it is one. -/
def Decoded.toOption : Decoded → Option Instr
  | .command i => some i
  | .illegal _ => none

/-- The decoder on a word numbered as spec/opcode_table.json numbers it: a command is one 32-bit word
(R108) that is not laid out in any memory (R99), so the number is the word. -/
def decodeTableWord (nbits w : Nat) : Option Instr :=
  (decode (BitVec.ofNat 32 (w % 2 ^ nbits))).toOption

/-- A flag as the bit `n` of a word. -/
def flagAt (n : Nat) (b : Bool) : Word := if b then 1#32 <<< n else 0#32

/-- The word of a command: `match` of R103 with the used fields set (R100, R102). -/
def encode : Instr → Word
  | .nop => 0x00000000#32
  | .clear => 0x00000001#32
  | .build => 0x00000002#32
  | .gencodes => 0x00000003#32
  | .hdrwr m => 0x00000004#32 ||| flagAt 8 m
  | .hdrrd m => 0x00000005#32 ||| flagAt 8 m
  | .encsym sym => 0x00000006#32 ||| (sym.setWidth 32 <<< 16)
  | .encstream t => 0x00000007#32 ||| flagAt 8 t
  | .decsym => 0x00000008#32
  | .decstream => 0x00000009#32
  | .flush k y => 0x0000000A#32 ||| flagAt 8 k ||| flagAt 9 y

end Sys2Proof
end

