-- ==== Sys2Proof/Config.lean ====
section
/-! DEFINITION. What is fixed for one HUFF-CORE (spec/00_scope.md R9) and the values the spec leaves
open: constants with no body, so that no proof can see what they are. -/

namespace Sys2Proof

/-- What a source answers when it cannot deliver what is asked: `EOD` or `Err` (R87, R90). -/
inductive EndKind where
  | eod
  | err
  deriving DecidableEq, Repr, Inhabited

/-- `EOS`, the sentinel symbol (R8). -/
def Config.eos : Nat := 256

/-- `SYM_COUNT` (R9). -/
def Config.symCount : Nat := 257

/-- `NODE_CAP`, the entries of the node store (R9, R10). -/
def Config.nodeCap : Nat := 513

/-- `INT_MAX`, the most internal nodes of a tree (R9, R10). -/
def Config.intMax : Nat := 256

/-- `CODE_MAX`, the longest code in bits (R9, R10). -/
def Config.codeMax : Nat := 256

/-- The constant of the `ID` register (R33). -/
def Config.idValue : Word := 0x48554631

/-- The OPEN parameter `MAGIC` (R9, R43; 92_eei_decisions.md D6; log entry 6). -/
opaque Config.magic : Word

/-- The OPEN parameter `XPORT_PACK`: the bytes that the transport makes of a bit stream, the last one padded (R9, R94;
92_eei_decisions.md D8; log entry 29). No step of the machine reads it. -/
opaque Config.xportPack : List Bool → List Byte

/-- Free draw: what a register read returns while the block is busy (R82; log entry 7). -/
opaque Config.freeWord : Nat → Word

/-- Free draw: bits of a stream whose position the spec leaves open (R93, R290; log entries 8, 9). -/
opaque Config.freeBits : Nat → List Bool

/-- Free draw: bytes of a stream whose position the spec leaves open (R93, R290; log entries 8, 9). -/
opaque Config.freeBytes : Nat → List Byte

/-- Free draw: how a source ends whose position the spec leaves open (R93, R290; log entries 8, 9). -/
opaque Config.freeEnd : Nat → EndKind

/-- Free value: the `sym` field of an internal node, which holds no meaning (R53; log entry 12). -/
opaque Config.deadSym : NodeIx → Symbol

/-- Free value: the `l` field of a leaf, which holds no meaning (R53; log entry 12). -/
opaque Config.deadLeft : NodeIx → NodeIx

/-- Free value: the `r` field of a leaf, which holds no meaning (R53; log entry 12). -/
opaque Config.deadRight : NodeIx → NodeIx

end Sys2Proof
end

