-- ==== Sys2Proof/Machine/State.lean ====
section
/-! DEFINITION. The state of HUFF-CORE (spec/10_state.md), of its four stream ports (spec/20_memory.md) and of
the host that drives it, as plain data; the reasons a step can stop; the state after reset. -/

namespace Sys2Proof.Machine

/-! ## The stores -/

/-- An entry of the node store (R52). -/
structure Node where
  leaf : Bool
  sym  : Symbol
  w    : Weight
  l    : NodeIx
  r    : NodeIx
  deriving DecidableEq, Repr

/-- An entry of the code table (R54): the field `len` is the length of `bits` (log entry 11). -/
structure Code where
  valid : Bool
  bits  : List Bool
  deriving DecidableEq, Repr

/-! ## The registers -/

/-- The stored flags of `STATUS` (R36-R40); `ROOT_LEAF` is computed from the stores (R40). -/
structure Flags where
  busy       : Bool
  done       : Bool
  err        : Bool
  ovr        : Bool
  treeValid  : Bool
  codesValid : Bool
  eos        : Bool
  deriving DecidableEq, Repr

/-- The event counters (R47). -/
structure Counters where
  bitsIn   : Word
  bitsOut  : Word
  bytesIn  : Word
  bytesOut : Word
  deriving DecidableEq, Repr

/-- The errors of R250, `OK` apart. -/
inductive Err where
  | format
  | truncHdr
  | missingTerm
  | hdrInvalid
  | notReady
  | noCode
  | io
  | illegalCmd
  deriving DecidableEq, Repr

/-! ## The stream ports -/

/-- The four ports (R86). -/
inductive Port where
  | bitSource
  | bitSink
  | byteSource
  | byteSink
  deriving DecidableEq, Repr

/-- What a sink answers (R89, R90, R92). -/
inductive Reply where
  | ok
  | err
  deriving DecidableEq, Repr

/-- A source agent (R87, R90): what it has not delivered yet, how it ends, and whether it answers requests
now (R304; log entry 5). -/
structure Source (α : Type) where
  rest      : List α
  term      : EndKind
  answering : Bool
  deriving DecidableEq, Repr

/-- A sink agent (R89, R90, R92): what it has accepted, oldest first; its answers to its next requests, and to
all requests after those (log entry 4); how many flushes it answered `Ok`; whether it answers requests now. -/
structure Sink (α : Type) where
  out        : List α
  answers    : List Reply
  thereafter : Reply
  flushes    : Nat
  answering  : Bool
  deriving DecidableEq, Repr

/-- A request of the block to a port (R15). -/
inductive Request where
  | bitRead (n : Nat)
  | bitWrite (n v : Nat)
  | byteRead
  | byteWrite (b : Byte)
  | flush (p : Port)
  deriving DecidableEq, Repr

/-- The four port agents, and the requests they have answered, oldest first (R86; log entry 14). -/
structure Ports where
  bitSource  : Source Bool
  bitSink    : Sink Bool
  byteSource : Source Byte
  byteSink   : Sink Byte
  trace      : List Request
  deriving DecidableEq, Repr

/-! ## The sequencer: the hidden state of R55 and R56 -/

/-- A field `l` or `r` of an internal node, which `HDRRD` has still to fill (R181). -/
inductive Link where
  | root
  | left (parent : NodeIx)
  | right (parent : NodeIx)
  deriving DecidableEq, Repr

/-- One piece of a running command that the sequencer has still to do. The list of them is the sequencer's
position (R56); the `walk`, `emit` and `parse` entries in it are the traversal stacks of `GENCODES` (each entry
with its path), `HDRWR` and `HDRRD`, and a `descend` entry is the decoder's cursor. -/
inductive Job where
  /-- `return` of the command's pseudocode (R261) -/
  | ret
  /-- one bit-sink write: `put` of R171, a code bit of R199 -/
  | put (n v : Nat)
  /-- the completion of an illegal word (R106, R240) -/
  | illegal (v : Word)
  /-- the body of `CLEAR` (R245) -/
  | clear
  /-- `BUILD`: examine the symbols from `s` on (R131) -/
  | scan (s : Nat)
  /-- `BUILD`: the merge loop and what follows it (R131) -/
  | merge
  /-- `GENCODES` up to `walk(ROOT, "")` (R151) -/
  | gencodes
  /-- `walk(i, path)` (R151) -/
  | walk (i : NodeIx) (path : List Bool)
  /-- `GENCODES` after the walk (R151) -/
  | codesDone
  /-- `HDRWR` up to `emit(ROOT)` (R171) -/
  | hdrwr (m : Bool)
  /-- `emit(i)` (R171) -/
  | emit (i : NodeIx)
  /-- `HDRRD` up to its first request (R181) -/
  | hdrrd (m : Bool)
  /-- `HDRRD`: the magic phase (R182) -/
  | readMagic
  /-- `HDRRD`: the tree read begins (R181) -/
  | treeStart
  /-- `parse()`, whose node goes into `link` (R181) -/
  | parse (link : Link)
  /-- `parse()`: the symbol field of leaf `i` (R181) -/
  | leafSym (i : NodeIx)
  /-- `HDRRD` after `parse()` (R181) -/
  | treeDone
  /-- `ENCSYM` up to `putcode` (R200) -/
  | encsym (sym : Symbol)
  /-- `ENCSTREAM` up to its loop (R204) -/
  | encstream (t : Bool)
  /-- one turn of the loop of `ENCSTREAM`, and what follows the loop (R204) -/
  | encByte (t : Bool)
  /-- `DECSYM` (`stream` false) or `DECSTREAM` (true) up to `decode1` (R221, R231) -/
  | decode (stream : Bool)
  /-- `decode1()` up to its loop (R221) -/
  | decode1 (stream : Bool)
  /-- the loop of `decode1()`, and what follows it; `mid` says that `depth` is not 0 (R221, R231) -/
  | descend (stream : Bool) (i : NodeIx) (mid : Bool)
  /-- `ByteWrite` of `DECSTREAM` (R231) -/
  | putByte (b : Byte)
  /-- `Flush` of the bit sink (R210) -/
  | flushBits
  /-- `Flush` of the byte sink (R210) -/
  | flushBytes
  deriving DecidableEq, Repr

/-- The sequencer, and the variables of the pseudocode that live across its positions (R55, R56, R181). -/
structure Seq where
  /-- what the running command has still to do, next first -/
  jobs        : List Job
  /-- the port whose answer the sequencer waits for (R86) -/
  outstanding : Option Port
  /-- the ports that the running command uses, from its acceptance to its completion (R302) -/
  inUse       : List Port
  /-- `Q` of `BUILD`, least key first (R55, R132) -/
  queue       : List NodeIx
  /-- `n`, the next entry of the node store to be written (R131, R181) -/
  next        : Nat
  /-- `k` of `BUILD`, `leaves` of `HDRRD` -/
  leaves      : Nat
  /-- `ints` of `HDRRD` -/
  ints        : Nat
  /-- `got` of `HDRRD` -/
  got         : Nat
  /-- the symbols whose `seen` is 1 in `HDRRD` -/
  seen        : List Symbol
  deriving DecidableEq, Repr

/-- The sequencer between commands: everything empty (R55, R56). -/
def Seq.idle : Seq where
  jobs        := []
  outstanding := none
  inUse       := []
  queue       := []
  next        := 0
  leaves      := 0
  ints        := 0
  got         := 0
  seen        := []

/-! ## The outside world -/

/-- What the outside world does to the block (R14, R20, R290) and to the ports (R19, R302; log entry 25). -/
inductive Action where
  /-- `MemRead(off, width)` -/
  | read (off width : Nat)
  /-- `MemWrite(off, width, v)` -/
  | write (off width : Nat) (v : Word)
  /-- the reset input is asserted and released (R290) -/
  | reset
  /-- a port begins or ceases to answer requests (R304) -/
  | answer (p : Port) (on : Bool)
  /-- another stream stands at the bit source -/
  | attachBitSource (rest : List Bool) (term : EndKind)
  /-- another stream stands at the byte source -/
  | attachByteSource (rest : List Byte) (term : EndKind)
  /-- another stream, empty so far, stands at the bit sink -/
  | attachBitSink (answers : List Reply) (thereafter : Reply)
  /-- another stream, empty so far, stands at the byte sink -/
  | attachByteSink (answers : List Reply) (thereafter : Reply)
  deriving DecidableEq, Repr

/-- An action and when it comes, if the block is busy: once the block is idle (`none`: the host waits, R117), or
after `n` more positions of the sequencer, whether or not the command has completed by then (log entry 2). -/
structure Event where
  after : Option Nat
  what  : Action
  deriving DecidableEq, Repr

/-- HUFF-CORE, its ports and its host. -/
structure State where
  /-- `CTRL.IRQ_EN` (R35) -/
  irqEn     : Bool
  /-- `STATUS` (R36-R40) -/
  flags     : Flags
  /-- `ERR_CODE` (R41) -/
  errCode   : BitVec 4
  /-- `ERR_INFO` (R42) -/
  errInfo   : Word
  /-- `ROOT` (R44) -/
  root      : NodeIx
  /-- `NODE_COUNT` (R44) -/
  nodeCount : BitVec 10
  /-- `LEAF_COUNT` (R44) -/
  leafCount : BitVec 9
  /-- `SYM` (R45) -/
  sym       : Symbol
  /-- `NODE_SEL` (R46) -/
  nodeSel   : BitVec 10
  /-- `CODE_SEL` (R48) -/
  codeSel   : BitVec 9
  /-- `BITS_IN`, `BITS_OUT`, `BYTES_IN`, `BYTES_OUT` (R47) -/
  counters  : Counters
  /-- `FREQ[0..255]` (R50); `FREQ[256]` is hardwired (R51) -/
  freq      : Vector Word 256
  /-- `NODE[0..512]` (R52) -/
  nodes     : Vector Node 513
  /-- `CODE[0..256]` (R54) -/
  codes     : Vector Code 257
  /-- the hidden state (R55, R56) -/
  seq       : Seq
  /-- the port agents (R86-R92) -/
  ports     : Ports
  /-- what the outside world does next, first first (log entry 2) -/
  events    : List Event
  /-- what the host's last `MemRead` returned (log entry 14) -/
  readData  : Word
  /-- how many free values have been drawn (log entry 14) -/
  draws     : Nat
  deriving DecidableEq, Repr

/-- HUFF-CORE has no trap, vector or handler, and no error stops it (R262-R264): every error of a command is a
completion code, and a port that never answers leaves the block busy (R304). So no step faults, and there is no
fault reason. Safe: nothing is hidden behind a fault. -/
inductive Fault
  deriving DecidableEq, Repr

/-- Why a step gives no next state. -/
inductive Refusal where
  /-- Raised by `exec` for an instruction with no meaning yet. None is left. Safe. -/
  | notModelled (mnemonic : String)
  /-- Raised by a host access that is not an aligned 32-bit access to an offset below 0x1000: "A model refuses
  it" (R85). Safe: the model stops where the hardware does something the spec does not say. -/
  | badAccess
  /-- Raised when another agent takes from, or puts into, a port that the running command uses: a host the spec
  does not cover (R302). Safe: the model stops. -/
  | streamInterleaved
  deriving DecidableEq, Repr

/-! ## Reset -/

/-- A node store entry after reset: contents unspecified and unobservable (R62); log entry 10. -/
def Node.blank : Node where
  leaf := false
  sym  := 0
  w    := 0
  l    := 0
  r    := 0

/-- A code table entry after reset: `valid = 0` (R62); its bits are log entry 11. -/
def Code.blank : Code where
  valid := false
  bits  := []

/-- `STATUS = 0` (R291). -/
def Flags.zero : Flags where
  busy       := false
  done       := false
  err        := false
  ovr        := false
  treeValid  := false
  codesValid := false
  eos        := false

/-- The four counters at 0 (R291). -/
def Counters.zero : Counters where
  bitsIn   := 0
  bitsOut  := 0
  bytesIn  := 0
  bytesOut := 0

/-- A source with nothing to deliver (log entry 3). -/
def Source.empty {α : Type} : Source α where
  rest      := []
  term      := .eod
  answering := true

/-- A sink that has accepted nothing and accepts what comes (log entry 3). -/
def Sink.empty {α : Type} : Sink α where
  out        := []
  answers    := []
  thereafter := .ok
  flushes    := 0
  answering  := true

/-- The ports before anything stands at them (log entry 3): reset does not reach the ports (R293). -/
def Ports.empty : Ports where
  bitSource  := Source.empty
  bitSink    := Sink.empty
  byteSource := Source.empty
  byteSink   := Sink.empty
  trace      := []

/-- The machine right after reset (R62, R291). -/
def State.reset : State where
  irqEn     := false
  flags     := Flags.zero
  errCode   := 0
  errInfo   := 0
  root      := 0
  nodeCount := 0
  leafCount := 0
  sym       := 0
  nodeSel   := 0
  codeSel   := 0
  counters  := Counters.zero
  freq      := Vector.replicate 256 0
  nodes     := Vector.replicate 513 Node.blank
  codes     := Vector.replicate 257 Code.blank
  seq       := Seq.idle
  ports     := Ports.empty
  events    := []
  readData  := 0
  draws     := 0

end Sys2Proof.Machine
end

