-- ==== Sys2Proof/Machine/Bits.lean ====
section
/-! DEFINITION. Bit strings, first bit first (spec/00_scope.md R12; spec/20_memory.md R88). -/

namespace Sys2Proof.Machine

/-- `bin_n(v)`: the `n` bits of `v`, most significant first (R12). -/
def bin : Nat → Nat → List Bool
  | 0, _ => []
  | n + 1, v => v.testBit n :: bin n v

/-- The unsigned number of a bit string whose first bit is the most significant (R88). -/
def ofBits (bits : List Bool) : Nat := bits.foldl (fun v b => 2 * v + b.toNat) 0

/-- The first `n` elements and what follows them, if there are that many (R87). -/
def takeExact {α : Type} : Nat → List α → Option (List α × List α)
  | 0, xs => some ([], xs)
  | _ + 1, [] => none
  | n + 1, x :: xs => (takeExact n xs).map (fun p => (x :: p.1, p.2))

/-- A flag as a word: 0 or 1. -/
def bitWord (b : Bool) : Word := if b then 1#32 else 0#32

end Sys2Proof.Machine
end

