-- ==== Sys2Proof/Machine/Operands.lean ====
section
/-! DEFINITION. The operands of commands: the fields of the command word come with the instruction, and every
other operand is a store (spec/10_state.md R30). Also the stores' windows (R46, R48). -/

namespace Sys2Proof.Machine

/-! ## `FREQ` -/

/-- `FREQ[s]`: the sentinel's count is hardwired to 1 (R50, R51). -/
def State.freqAt (s : State) (sym : Nat) : Word := if sym = 256 then 1#32 else s.freq.getD sym 0#32

/-- A host write of `FREQ[s]`, `s = 0..255`: all 32 bits (R50). -/
def State.setFreq (s : State) (sym : Nat) (v : Word) : State :=
  { s with freq := s.freq.setIfInBounds sym v }

/-! ## The node store -/

/-- `NODE[i]`; past the store's end, which no rule reads, the blank entry (log entry 19). -/
def State.node (s : State) (i : NodeIx) : Node := s.nodes.getD i.toNat Node.blank

/-- A write of `NODE[i]`. -/
def State.setNode (s : State) (i : NodeIx) (n : Node) : State :=
  { s with nodes := s.nodes.setIfInBounds i.toNat n }

/-- The record written for a leaf: its `l` and `r` hold no meaning (R53; log entry 12). -/
def leafNode (i : NodeIx) (sym : Symbol) (w : Weight) : Node where
  leaf := true
  sym  := sym
  w    := w
  l    := Config.deadLeft i
  r    := Config.deadRight i

/-- The record written for an internal node: its `sym` holds no meaning (R53; log entry 12). -/
def internalNode (i : NodeIx) (w : Weight) (l r : NodeIx) : Node where
  leaf := false
  sym  := Config.deadSym i
  w    := w
  l    := l
  r    := r

/-! ## The code table -/

/-- `CODE[s]`; past the table's end, which no rule reads, the blank entry (log entry 19). -/
def State.code (s : State) (sym : Symbol) : Code := s.codes.getD sym.toNat Code.blank

/-- A write of `CODE[s]`. -/
def State.setCode (s : State) (sym : Symbol) (c : Code) : State :=
  { s with codes := s.codes.setIfInBounds sym.toNat c }

/-- `CODE[s].len`: 9 bits (R54). -/
def Code.len (c : Code) : BitVec 9 := BitVec.ofNat 9 c.bits.length

/-- `CODE[s].valid <- 0` for every symbol; the other fields keep their contents. -/
def invalidated (codes : Vector Code 257) : Vector Code 257 :=
  codes.map (fun c => { c with valid := false })

/-- The code table is discarded: `STATUS.CODES_VALID <- 0` and every `CODE[s].valid <- 0` (R58). -/
def State.dropCodes (s : State) : State :=
  { s with flags.codesValid := false, codes := invalidated s.codes }

/-- There is no tree: `STATUS.TREE_VALID = 0` and `ROOT`, `NODE_COUNT`, `LEAF_COUNT` are 0 (R57). -/
def State.dropTree (s : State) : State :=
  { s with flags.treeValid := false, root := 0, nodeCount := 0, leafCount := 0 }

/-- The node store holds a tree (R57). -/
def State.setTree (s : State) (root : NodeIx) (nodes leaves : Nat) : State :=
  { s with
    flags.treeValid := true
    root            := root
    nodeCount       := BitVec.ofNat 10 nodes
    leafCount       := BitVec.ofNat 9 leaves }

/-! ## The windows -/

/-- The node window shows an entry only of a valid tree, below `NODE_COUNT` (R46). -/
def State.nodeShown (s : State) : Bool := s.flags.treeValid && s.nodeSel.toNat < s.nodeCount.toNat

/-- The word `NODE_INFO` for a node that is shown (R46). -/
def Node.info (n : Node) : Word :=
  if n.leaf then 1#1 ++ 1#1 ++ 0#1 ++ n.sym ++ 0#10 ++ 0#10
  else 1#1 ++ 0#1 ++ 0#1 ++ 0#9 ++ n.r ++ n.l

/-- `NODE_INFO` (R46). -/
def State.nodeInfo (s : State) : Word := if s.nodeShown then (s.node s.nodeSel).info else 0#32

/-- `NODE_WLO` (R46). -/
def State.nodeWlo (s : State) : Word :=
  if s.nodeShown then (s.node s.nodeSel).w.extractLsb' 0 32 else 0#32

/-- `NODE_WHI` (R46). -/
def State.nodeWhi (s : State) : Word :=
  if s.nodeShown then ((s.node s.nodeSel).w.extractLsb' 32 9).setWidth 32 else 0#32

/-- The code window shows an entry only of a valid table, of a symbol that has a code (R48). -/
def State.codeShown (s : State) : Bool :=
  s.flags.codesValid && s.codeSel.toNat ≤ 256 && (s.code s.codeSel).valid

/-- `CODE_LEN` (R48). -/
def State.codeLen (s : State) : Word :=
  if s.codeShown then 1#1 ++ 0#22 ++ (s.code s.codeSel).len else 0#32

/-- Word `j` of a code in the window: bit `31 - k` is path bit `32*j + k`, 0 past the code's end (R48). -/
def codeWord (bits : List Bool) (j : Nat) : Word :=
  BitVec.ofNat 32 (ofBits ((List.range 32).map (fun k => bits.getD (32 * j + k) false)))

/-- `CODE_BITSj` (R48). -/
def State.codeBits (s : State) (j : Nat) : Word :=
  if s.codeShown then codeWord (s.code s.codeSel).bits j else 0#32

end Sys2Proof.Machine
end

