-- ==== Sys2Proof/Machine/Flags.lean ====
section
/-! DEFINITION. The flags: `STATUS` as a word, its write-1-to-clear bits, the interrupt output (spec/10_state.md
R35-R40; spec/60_exceptions.md R270), the error codes (R250). -/

namespace Sys2Proof.Machine

/-- `STATUS.ROOT_LEAF = STATUS.TREE_VALID AND NODE[ROOT].leaf` (R40). -/
def State.rootLeaf (s : State) : Bool := s.flags.treeValid && (s.node s.root).leaf

/-- The word `STATUS`: bit 0 `BUSY`, 1 `DONE`, 2 `ERR`, 3 `OVR`, 4 `TREE_VALID`, 5 `CODES_VALID`, 6 `EOS`,
7 `ROOT_LEAF`, the others 0 (R36-R40). -/
def State.status (s : State) : Word :=
  0#24 ++ BitVec.ofBool s.rootLeaf ++ BitVec.ofBool s.flags.eos ++ BitVec.ofBool s.flags.codesValid
    ++ BitVec.ofBool s.flags.treeValid ++ BitVec.ofBool s.flags.ovr ++ BitVec.ofBool s.flags.err
    ++ BitVec.ofBool s.flags.done ++ BitVec.ofBool s.flags.busy

/-- A host write of `STATUS` while idle: `DONE`, `ERR` and `OVR` clear where the written bit is 1, the other
bits ignore the write (R37, R38, R39, R84). -/
def State.clearStatus (s : State) (v : Word) : State :=
  { s with
    flags.done := s.flags.done && !v.getLsbD 1
    flags.err  := s.flags.err && !v.getLsbD 2
    flags.ovr  := s.flags.ovr && !v.getLsbD 3 }

/-- The interrupt output `IRQ = CTRL.IRQ_EN AND STATUS.DONE` (R35, R270). -/
def State.irq (s : State) : Bool := s.irqEn && s.flags.done

/-- The codes of R250. -/
def Err.code : Err → BitVec 4
  | .format => 1
  | .truncHdr => 2
  | .missingTerm => 3
  | .hdrInvalid => 4
  | .notReady => 5
  | .noCode => 6
  | .io => 7
  | .illegalCmd => 8

/-- The information word of `IO`: the port's number (R250). -/
def Port.number : Port → Word
  | .bitSource => 0
  | .bitSink => 1
  | .byteSource => 2
  | .byteSink => 3

/-- `STATUS.EOS` at the completion of a decoder command (R40). -/
def State.setEos (s : State) (b : Bool) : State := { s with flags.eos := b }

end Sys2Proof.Machine
end

