-- ==== Sys2Proof/Machine/Ops.lean ====
section
/-! DEFINITION. The shared operations: acceptance and completion of a command (spec/45_control.md R240;
spec/60_exceptions.md R261, R262), the sequencer's jobs, the port requests (spec/20_memory.md R86-R93), the
registers of the host interface (spec/10_state.md R32), reset (spec/70_reset_and_hazards.md R290). -/

namespace Sys2Proof.Machine

/-! ## Acceptance and completion -/

/-- The ports that a job, and what it leads to, makes requests to. -/
def Job.uses : Job → List Port
  | .put _ _ | .hdrwr _ | .emit _ | .encsym _ | .flushBits => [.bitSink]
  | .hdrrd _ | .readMagic | .treeStart | .parse _ | .leafSym _ => [.bitSource]
  | .encstream _ | .encByte _ => [.byteSource, .bitSink]
  | .decode false | .decode1 false | .descend false _ _ => [.bitSource]
  | .decode true | .decode1 true | .descend true _ _ => [.bitSource, .byteSink]
  | .putByte _ | .flushBytes => [.byteSink]
  | .ret | .illegal _ | .clear | .scan _ | .merge | .gencodes | .walk _ _ | .codesDone | .treeDone => []

/-- Does the running command use the port? It does from its acceptance to its completion (R302; log entry 17). -/
def State.uses (s : State) (p : Port) : Bool := s.seq.inUse.contains p

/-- Acceptance of a command whose pseudocode is `jobs`: `STATUS.BUSY <- 1`, `STATUS.DONE <- 0` (R240), the hidden
state fresh (R55, R56), and the ports of its jobs in use (R302). -/
def State.accept (s : State) (jobs : List Job) : State :=
  { s with
    flags.busy := true
    flags.done := false
    seq        := { Seq.idle with jobs := jobs, inUse := jobs.flatMap Job.uses } }

/-- Successful completion: `ERR_CODE <- 0`, `ERR_INFO <- 0`, `STATUS.DONE <- 1`, `STATUS.BUSY <- 0`; `STATUS.ERR` is
left (R261). -/
def State.complete (s : State) : State :=
  { s with
    errCode    := 0
    errInfo    := 0
    flags.done := true
    flags.busy := false
    seq        := Seq.idle }

/-- Taking an error, `raise e(info)`: the command stops, what it did before stands, and `ERR_CODE`, `ERR_INFO`,
`STATUS.ERR`, `STATUS.DONE` and `STATUS.BUSY` are written (R16, R262). Nothing is saved and nothing is restored: there is
no return from it but the next command and the host's clearing of `STATUS.ERR` (R263, R264; `State.clearStatus`). -/
def State.raise (s : State) (e : Err) (info : Word) : State :=
  { s with
    errCode    := e.code
    errInfo    := info
    flags.err  := true
    flags.done := true
    flags.busy := false
    seq        := Seq.idle }

/-- `raise` in `DECSYM` and `DECSTREAM`, which also writes `STATUS.EOS <- 0` (R262). -/
def State.raiseDec (s : State) (e : Err) (info : Word) : State := (s.setEos false).raise e info

/-! ## The sequencer's jobs -/

/-- What the command does next, before what it had still to do. -/
def State.push (s : State) (jobs : List Job) : State := { s with seq.jobs := jobs ++ s.seq.jobs }

/-- The request of job `j` is outstanding at port `p`: the block waits without limit (R86). -/
def State.await (s : State) (p : Port) (j : Job) : State :=
  { s with seq.jobs := j :: s.seq.jobs, seq.outstanding := some p }

/-! ## Port requests -/

/-- The response of a source (R15). -/
inductive Response (α : Type) where
  | data (v : α)
  | eod
  | err
  deriving DecidableEq, Repr

/-- A source's terminal condition as its response. -/
def endResponse {α : Type} : EndKind → Response α
  | .eod => .eod
  | .err => .err

/-- A request has got its one response (R86). -/
def State.answered (s : State) (r : Request) : State :=
  { s with ports.trace := s.ports.trace ++ [r], seq.outstanding := none }

/-- The bit source after it has answered `EOD` or `Err`: its content is a free draw (R93). -/
def State.endBits (s : State) : State :=
  { s with
    ports.bitSource.rest := Config.freeBits s.draws
    ports.bitSource.term := Config.freeEnd s.draws
    draws                := s.draws + 1 }

/-- The byte source after it has answered `EOD` or `Err`: its content is a free draw (R93). -/
def State.endBytes (s : State) : State :=
  { s with
    ports.byteSource.rest := Config.freeBytes s.draws
    ports.byteSource.term := Config.freeEnd s.draws
    draws                 := s.draws + 1 }

/-- `BitRead(n)` (R15, R87, R88), with the counter `BITS_IN` (R47); `none` while the port does not answer. -/
def State.bitRead (s : State) (n : Nat) : Option (Response Nat × State) :=
  if s.ports.bitSource.answering then
    match takeExact n s.ports.bitSource.rest with
    | some (bits, rest) =>
      some (.data (ofBits bits),
        { s.answered (.bitRead n) with
          ports.bitSource.rest := rest
          counters.bitsIn      := s.counters.bitsIn + BitVec.ofNat 32 n })
    | none => some (endResponse s.ports.bitSource.term, (s.answered (.bitRead n)).endBits)
  else none

/-- `ByteRead()` (R15, R90), with the counter `BYTES_IN` (R47); `none` while the port does not answer. -/
def State.byteRead (s : State) : Option (Response Byte × State) :=
  if s.ports.byteSource.answering then
    match s.ports.byteSource.rest with
    | b :: rest =>
      some (.data b,
        { s.answered .byteRead with
          ports.byteSource.rest := rest
          counters.bytesIn      := s.counters.bytesIn + 1 })
    | [] => some (endResponse s.ports.byteSource.term, (s.answered .byteRead).endBytes)
  else none

/-- A sink's answer to its next request (R89). -/
def Sink.reply {α : Type} (k : Sink α) : Reply := k.answers.headD k.thereafter

/-- A sink that has given an answer. -/
def Sink.replied {α : Type} (k : Sink α) : Sink α := { k with answers := k.answers.tail }

/-- `BitWrite(n, v)`: on `Ok` the bits `bin_n(v)` are appended and counted, on `Err` nothing is (R15, R47, R88, R89);
`none` while the port does not answer. -/
def State.bitWrite (s : State) (n v : Nat) : Option (Reply × State) :=
  if s.ports.bitSink.answering then
    match s.ports.bitSink.reply with
    | .ok =>
      some (.ok,
        { s.answered (.bitWrite n v) with
          ports.bitSink    := { s.ports.bitSink.replied with out := s.ports.bitSink.out ++ bin n v }
          counters.bitsOut := s.counters.bitsOut + BitVec.ofNat 32 n })
    | .err =>
      some (.err, { s.answered (.bitWrite n v) with ports.bitSink := s.ports.bitSink.replied })
  else none

/-- `ByteWrite(b)` (R15, R47, R90); `none` while the port does not answer. -/
def State.byteWrite (s : State) (b : Byte) : Option (Reply × State) :=
  if s.ports.byteSink.answering then
    match s.ports.byteSink.reply with
    | .ok =>
      some (.ok,
        { s.answered (.byteWrite b) with
          ports.byteSink    := { s.ports.byteSink.replied with out := s.ports.byteSink.out ++ [b] }
          counters.bytesOut := s.counters.bytesOut + 1 })
    | .err =>
      some (.err, { s.answered (.byteWrite b) with ports.byteSink := s.ports.byteSink.replied })
  else none

/-- A sink that has been asked to flush: only the number of flushes it granted is kept (R92; log entry 22). -/
def Sink.flushed {α : Type} (k : Sink α) : Sink α :=
  match k.reply with
  | .ok => { k.replied with flushes := k.flushes + 1 }
  | .err => k.replied

/-- `Flush(bit sink)` (R15, R92); `none` while the port does not answer. -/
def State.flushBitSink (s : State) : Option (Reply × State) :=
  if s.ports.bitSink.answering then
    some (s.ports.bitSink.reply,
      { s.answered (.flush .bitSink) with ports.bitSink := s.ports.bitSink.flushed })
  else none

/-- `Flush(byte sink)` (R15, R92); `none` while the port does not answer. -/
def State.flushByteSink (s : State) : Option (Reply × State) :=
  if s.ports.byteSink.answering then
    some (s.ports.byteSink.reply,
      { s.answered (.flush .byteSink) with ports.byteSink := s.ports.byteSink.flushed })
  else none

/-- The bit stream that the bit sink has accepted, as bytes on the transport's medium: packed and padded by the open
parameter `XPORT_PACK` (R94). It is for claims about bytes; nothing in HUFF-CORE depends on it (log entry 29). -/
def State.packed (s : State) : List Byte := Config.xportPack s.ports.bitSink.out

/-- Does the port answer requests now? -/
def State.answering (s : State) : Port → Bool
  | .bitSource => s.ports.bitSource.answering
  | .bitSink => s.ports.bitSink.answering
  | .byteSource => s.ports.byteSource.answering
  | .byteSink => s.ports.byteSink.answering

/-- The port begins or ceases to answer requests. -/
def State.setAnswering (s : State) (p : Port) (on : Bool) : State :=
  match p with
  | .bitSource => { s with ports.bitSource.answering := on }
  | .bitSink => { s with ports.bitSink.answering := on }
  | .byteSource => { s with ports.byteSource.answering := on }
  | .byteSink => { s with ports.byteSink.answering := on }

/-! ## The registers of the host interface -/

/-- Only aligned 32-bit accesses to offsets 0x000-0xFFF exist (R80, R85). -/
def legalAccess (off width : Nat) : Bool := width = 4 && off % 4 = 0 && off < 0x1000

/-- What a read returns while the block is idle (R32-R51, R81). -/
def State.readReg (s : State) (off : Nat) : Word :=
  match off with
  | 0x000 => Config.idValue
  | 0x008 => bitWord s.irqEn
  | 0x00C => s.status
  | 0x010 => s.errCode.setWidth 32
  | 0x014 => s.errInfo
  | 0x018 => Config.magic
  | 0x01C => s.root.setWidth 32
  | 0x020 => s.nodeCount.setWidth 32
  | 0x024 => s.leafCount.setWidth 32
  | 0x028 => s.sym.setWidth 32
  | 0x02C => s.nodeSel.setWidth 32
  | 0x030 => s.nodeInfo
  | 0x034 => s.nodeWlo
  | 0x038 => s.nodeWhi
  | 0x03C => s.codeSel.setWidth 32
  | 0x040 => s.codeLen
  | 0x064 => s.counters.bitsIn
  | 0x068 => s.counters.bitsOut
  | 0x06C => s.counters.bytesIn
  | 0x070 => s.counters.bytesOut
  | _ =>
    if 0x044 ≤ off ∧ off ≤ 0x060 then s.codeBits ((off - 0x044) / 4)
    else if 0x400 ≤ off ∧ off ≤ 0x800 then s.freqAt ((off - 0x400) / 4)
    else 0#32

/-- What a read returns while the block is busy, with the free word `any` for what the spec leaves open (R82). -/
def State.readBusy (s : State) (off : Nat) (any : Word) : Word :=
  match off with
  | 0x000 => Config.idValue
  | 0x008 => bitWord s.irqEn
  | 0x00C => any ||| 1#32
  | 0x018 => Config.magic
  | _ => any

/-- A host read: the word goes to the host, the block does not change (R81, R82). -/
def State.hostRead (s : State) (off : Nat) : State :=
  if s.flags.busy then
    { s with readData := s.readBusy off (Config.freeWord s.draws), draws := s.draws + 1 }
  else { s with readData := s.readReg off }

/-- A host write while idle to a register other than `CMD` (R32, R84). -/
def State.writeReg (s : State) (off : Nat) (v : Word) : State :=
  match off with
  | 0x008 => { s with irqEn := v.getLsbD 0 }
  | 0x00C => s.clearStatus v
  | 0x02C => { s with nodeSel := v.extractLsb' 0 10 }
  | 0x03C => { s with codeSel := v.extractLsb' 0 9 }
  | _ => if 0x400 ≤ off ∧ off ≤ 0x7FC then s.setFreq ((off - 0x400) / 4) v else s

/-- A host write while busy is dropped: it only sets `STATUS.OVR` (R39, R83). -/
def State.dropWrite (s : State) : State := { s with flags.ovr := true }

/-! ## Reset -/

/-- A port whose request is abandoned: where its stream stands is a free draw (R290; log entry 9). Where no request is
outstanding, also in the middle of a command, the ports stand where they stood: that is the model's choice, since D22
of spec/92_eei_decisions.md leaves a port's position open after any reset during a command (log entry 31). -/
def State.abandonRequest (s : State) : State :=
  match s.seq.outstanding with
  | none => s
  | some .bitSource => s.endBits
  | some .byteSource => s.endBytes
  | some .bitSink => { s with ports.bitSink.out := Config.freeBits s.draws, draws := s.draws + 1 }
  | some .byteSink => { s with ports.byteSink.out := Config.freeBytes s.draws, draws := s.draws + 1 }

/-- The reset input: every register and store takes its reset value, a running command is abandoned (R290); reset
does not reach the ports (R293) or the host. -/
def State.doReset (s : State) : State :=
  { State.reset with
    ports    := s.abandonRequest.ports
    events   := s.events
    readData := s.readData
    draws    := s.abandonRequest.draws }

end Sys2Proof.Machine
end

