-- ==== Sys2Proof/Machine/CodeTable.lean ====
section
/-! DEFINITION. The code-table generator: what the jobs of `GENCODES` do (spec/41_code_table.md). -/

namespace Sys2Proof.Machine

/-- `GENCODES` up to its walk (R151, R152). -/
def runGencodes (s : State) : State :=
  if s.flags.treeValid then
    State.push { s with codes := invalidated s.codes } [.walk s.root [], .codesDone]
  else s.raise .notReady 0

/-- `walk(i, path)`: depth first, left subtree first, 0 for left and 1 for right (R150, R151). -/
def runWalk (i : NodeIx) (path : List Bool) (s : State) : State :=
  let n := s.node i
  if n.leaf then s.setCode n.sym { valid := true, bits := path }
  else s.push [.walk n.l (path ++ [false]), .walk n.r (path ++ [true])]

/-- `STATUS.CODES_VALID <- 1` (R151). -/
def runCodesDone (s : State) : State := { s with flags.codesValid := true }

end Sys2Proof.Machine
end

