-- ==== Sys2Proof/Machine/Control.lean ====
section
/-! DEFINITION. The control commands: what the job of `CLEAR` does (spec/45_control.md). -/

namespace Sys2Proof.Machine

/-- The body of `CLEAR`: `CTRL` and the ports are not touched (R245, R246). The node store keeps its entries, which no
host can see without a tree (log entry 28). -/
def runClear (s : State) : State :=
  let s := s.dropTree.dropCodes
  { s with
    freq      := Vector.replicate 256 0
    flags.eos := false
    flags.err := false
    flags.ovr := false
    sym       := 0
    nodeSel   := 0
    codeSel   := 0
    counters  := Counters.zero }

end Sys2Proof.Machine
end

