-- ==== Sys2Proof/Machine/Decoder.lean ====
section
/-! DEFINITION. The bit-stream symbol decoder: what the jobs of `DECSYM` and `DECSTREAM` do
(spec/44_decoder.md). -/

namespace Sys2Proof.Machine

/-- The precondition of `DECSYM` and `DECSTREAM` (R221, R231, R251). -/
def runDecode (stream : Bool) (s : State) : State :=
  if s.flags.treeValid then s.push [.decode1 stream] else s.raiseDec .notReady 0

/-- `decode1()` up to its loop: a root that is a literal leaf has no terminator (R221, R234). -/
def runDecode1 (stream : Bool) (s : State) : State :=
  let n := s.node s.root
  if n.leaf ∧ n.sym ≠ 256#9 then s.raiseDec .missingTerm 2
  else s.push [.descend stream s.root false]

/-- What follows `decode1()` in `DECSYM` (R221). -/
def State.gotSymbol (s : State) (sym : Symbol) : State :=
  State.setEos { s with sym := sym } (sym = 256#9)

/-- What follows `decode1()` in `DECSTREAM`: the sentinel ends the command, a literal is written (R231). -/
def State.gotStreamSymbol (s : State) (sym : Symbol) : State :=
  let s := { s with sym := sym }
  if sym = 256#9 then s.setEos true else s.push [.putByte (sym.setWidth 8), .decode1 true]

/-- The loop of `decode1()`: the node is tested before each read; 0 goes left, 1 right; `EOD` is `MISSING_TERM(0)` at
the root and `MISSING_TERM(1)` below it (R221, R222, R224). -/
def runDescend (stream : Bool) (i : NodeIx) (mid : Bool) (s : State) : State :=
  let n := s.node i
  if n.leaf then if stream then s.gotStreamSymbol n.sym else s.gotSymbol n.sym
  else
    match s.bitRead 1 with
    | none => s.await .bitSource (.descend stream i mid)
    | some (.err, s) => s.raiseDec .io Port.bitSource.number
    | some (.eod, s) => s.raiseDec .missingTerm (bitWord mid)
    | some (.data v, s) => s.push [.descend stream (if v = 0 then n.l else n.r) true]

/-- `ByteWrite(s[7:0])` of `DECSTREAM` (R231). -/
def runPutByte (b : Byte) (s : State) : State :=
  match s.byteWrite b with
  | none => s.await .byteSink (.putByte b)
  | some (.ok, s) => s
  | some (.err, s) => s.raiseDec .io Port.byteSink.number

end Sys2Proof.Machine
end

