-- ==== Sys2Proof/Machine/Encoder.lean ====
section
/-! DEFINITION. The bit-stream symbol encoder: what the jobs of `ENCSYM`, `ENCSTREAM` and `FLUSH` do
(spec/43_encoder.md). -/

namespace Sys2Proof.Machine

/-- `putcode(s)`: one 1-bit write for each bit of the code, the step at the root first (R199). -/
def putcode (c : Code) : List Job := c.bits.map (fun b => .put 1 b.toNat)

/-- A symbol's code is written, if it has one (R202). -/
def State.encode (s : State) (sym : Symbol) : State :=
  let c := s.code sym
  if c.valid then s.push (putcode c) else s.raise .noCode (sym.setWidth 32)

/-- `ENCSYM(sym)` (R200, R201). -/
def runEncsym (sym : Symbol) (s : State) : State :=
  if s.flags.codesValid then s.encode sym else s.raise .notReady 1

/-- `ENCSTREAM(T)` up to its loop (R201, R204). -/
def runEncstream (t : Bool) (s : State) : State :=
  if s.flags.codesValid then s.push [.encByte t] else s.raise .notReady 1

/-- One turn of the loop of `ENCSTREAM`, and the terminator after it (R204, R206, R207). -/
def runEncByte (t : Bool) (s : State) : State :=
  match s.byteRead with
  | none => s.await .byteSource (.encByte t)
  | some (.err, s) => s.raise .io Port.byteSource.number
  | some (.eod, s) => if t then s.encode 256 else s
  | some (.data b, s) => (s.push [.encByte t]).encode (b.setWidth 9)

/-- `Flush` of the bit sink (R210). -/
def runFlushBits (s : State) : State :=
  match s.flushBitSink with
  | none => s.await .bitSink .flushBits
  | some (.ok, s) => s
  | some (.err, s) => s.raise .io Port.bitSink.number

/-- `Flush` of the byte sink (R210). -/
def runFlushBytes (s : State) : State :=
  match s.flushByteSink with
  | none => s.await .byteSink .flushBytes
  | some (.ok, s) => s
  | some (.err, s) => s.raise .io Port.byteSink.number

end Sys2Proof.Machine
end

