-- ==== Sys2Proof/Machine/HeaderCodec.lean ====
section
/-! DEFINITION. The tree header serializer and deserializer: what the jobs of `HDRWR` and `HDRRD` do
(spec/42_header_codec.md). -/

namespace Sys2Proof.Machine

/-! ## HDRWR -/

/-- `put(n, v)`: one bit-sink write, `IO(1)` on `Err` (R171, R174, R199). -/
def runPut (n v : Nat) (s : State) : State :=
  match s.bitWrite n v with
  | none => s.await .bitSink (.put n v)
  | some (.ok, s) => s
  | some (.err, s) => s.raise .io Port.bitSink.number

/-- `HDRWR(M)` up to `emit(ROOT)` (R171). -/
def runHdrwr (m : Bool) (s : State) : State :=
  if s.flags.treeValid then
    s.push ((if m then [.put 32 Config.magic.toNat] else []) ++ [.emit s.root])
  else s.raise .notReady 0

/-- `emit(i)`: preorder, left subtree first (R110, R171). -/
def runEmit (i : NodeIx) (s : State) : State :=
  let n := s.node i
  if n.leaf then s.push [.put 1 1, .put 9 n.sym.toNat]
  else s.push [.put 1 0, .emit n.l, .emit n.r]

/-! ## HDRRD -/

/-- `HDRRD(M)` up to its first request (R181). -/
def runHdrrd (m : Bool) (s : State) : State :=
  let s : State := { s with seq.got := 0 }
  s.push ((if m then [.readMagic] else []) ++ [.treeStart])

/-- The magic phase: it leaves the old tree and code table when it fails (R181, R182). -/
def runReadMagic (s : State) : State :=
  match s.bitRead 32 with
  | none => s.await .bitSource .readMagic
  | some (.eod, s) => s.raise .truncHdr 0
  | some (.err, s) => s.raise .io Port.bitSource.number
  | some (.data v, s) =>
    if BitVec.ofNat 32 v = Config.magic then { s with seq.got := 32 }
    else s.raise .format (BitVec.ofNat 32 v)

/-- The tree read begins: the old tree and code table are discarded (R181). The node store keeps its entries until
they are written again (log entry 28). -/
def runTreeStart (s : State) : State :=
  let s := s.dropTree.dropCodes
  let s : State := { s with seq.seen := [], seq.next := 0, seq.ints := 0, seq.leaves := 0 }
  s.push [.parse .root, .treeDone]

/-- `get(k)` in the tree phase: `job` waits for the answer, `use` takes the value (R181, R184). It can fail at the last
read a header may have, where R305 counts fewer (log entry 30). -/
def State.get (s : State) (k : Nat) (job : Job) (use : Nat → State → State) : State :=
  match s.bitRead k with
  | none => s.await .bitSource job
  | some (.eod, s) => s.raise .truncHdr (BitVec.ofNat 32 s.seq.got)
  | some (.err, s) => s.raise .io Port.bitSource.number
  | some (.data v, s) => use v { s with seq.got := s.seq.got + k }

/-- The field that waits for a node gets its index (R181; log entry 18). -/
def State.link (s : State) (link : Link) (i : NodeIx) : State :=
  match link with
  | .root => s
  | .left p => s.setNode p { s.node p with l := i }
  | .right p => s.setNode p { s.node p with r := i }

/-- `parse()` once the discriminator `b` has been read: the node gets the next index; an internal node is recorded
and its subtrees are read, left first (R181, R185 (c), R186, R187). -/
def parseNode (link : Link) (b : Nat) (s : State) : State :=
  let i := BitVec.ofNat 10 s.seq.next
  let s := State.link { s with seq.next := s.seq.next + 1 } link i
  if b = 1 then s.push [.leafSym i]
  else if s.seq.ints = Config.intMax then s.raise .hdrInvalid 3
  else
    let s : State := { s with seq.ints := s.seq.ints + 1 }
    (s.setNode i (internalNode i 0 (Config.deadLeft i) (Config.deadRight i))).push
      [.parse (.left i), .parse (.right i)]

/-- `parse()` (R181). -/
def runParse (link : Link) (s : State) : State := s.get 1 (.parse link) (parseNode link)

/-- The information word of `HDR_INVALID` for a symbol: the reason in [1:0], the symbol in [24:16] (R185). -/
def symInfo (reason : Word) (sym : Nat) : Word := reason + (BitVec.ofNat 32 sym <<< 16)

/-- `parse()` once a leaf's symbol field has been read (R181, R185 (a) and (b), R187). After the magic, the field of a
257th leaf is read number 771, and its command can still fail there, where R305 counts fewer reads: the model follows
R181 and R185 (log entry 30). -/
def parseSym (i : NodeIx) (v : Nat) (s : State) : State :=
  let sym := BitVec.ofNat 9 v
  if v > 256 then s.raise .hdrInvalid (symInfo 1 v)
  else if s.seq.seen.contains sym then s.raise .hdrInvalid (symInfo 2 v)
  else
    let s : State := { s with seq.seen := sym :: s.seq.seen, seq.leaves := s.seq.leaves + 1 }
    s.setNode i (leafNode i sym 0)

/-- The symbol field of a leaf (R181). -/
def runLeafSym (i : NodeIx) (s : State) : State := s.get 9 (.leafSym i) (parseSym i)

/-- The tree is complete; the root is node 0 (R181, R183, R186). -/
def runTreeDone (s : State) : State := s.setTree 0 s.seq.next s.seq.leaves

end Sys2Proof.Machine
end

