-- ==== Sys2Proof/Machine/TreeBuilder.lean ====
section
/-! DEFINITION. The tree builder: what the jobs of `BUILD` do (spec/40_tree_builder.md). -/

namespace Sys2Proof.Machine

/-- The order of the priority queue: `(NODE[i].w, i)`, lexicographic (R132). -/
def State.keyLe (s : State) (i j : NodeIx) : Bool :=
  (s.node i).w < (s.node j).w || ((s.node i).w = (s.node j).w && i ≤ j)

/-- `Q.insert(i)`: the queue is kept with its least key first (R55, R132). -/
def State.insertKey (s : State) (i : NodeIx) : List NodeIx → List NodeIx
  | [] => [i]
  | j :: q => if s.keyLe i j then i :: j :: q else j :: s.insertKey i q

/-- `NODE[n] <- node;  Q.insert(n);  n <- n + 1` (R131). The entries that a command does not write keep what they
held: what stands at an index of `NODE_COUNT` or more is open and unobservable (R53), and the model's choice (log
entry 28). -/
def State.enqueue (s : State) (node : NodeIx → Node) : State :=
  let i := BitVec.ofNat 10 s.seq.next
  let s := s.setNode i (node i)
  { s with seq.queue := s.insertKey i s.seq.queue, seq.next := s.seq.next + 1 }

/-- A symbol with a count of at least 1 gets a leaf (R131). -/
def State.scanSymbol (s : State) (sym : Nat) : State :=
  let c := s.freqAt sym
  if c = 0#32 then s
  else
    let s := s.enqueue (fun i => leafNode i (BitVec.ofNat 9 sym) (c.setWidth 41))
    { s with seq.leaves := s.seq.leaves + 1 }

/-- The loop over the symbols, in increasing order (R131). -/
def runScan (sym : Nat) (s : State) : State :=
  (s.scanSymbol sym).push [if sym < 256 then .scan (sym + 1) else .merge]

/-- The end of `BUILD`: the last node of the queue is the root (R131). -/
def State.buildDone (s : State) (root : NodeIx) : State :=
  (State.setTree { s with seq.queue := [] } root s.seq.next s.seq.leaves).dropCodes

/-- One turn of the merge loop: the first node removed is the left child, the second the right, the weight their
sum (R131, R132, R135, R136). The queue is never empty, since the sentinel has a leaf (R138). -/
def runMerge (s : State) : State :=
  match s.seq.queue with
  | a :: b :: q =>
    (State.enqueue { s with seq.queue := q }
      (fun i => internalNode i ((s.node a).w + (s.node b).w) a b)).push [.merge]
  | [a] => s.buildDone a
  | [] => s

end Sys2Proof.Machine
end

