-- ==== Sys2Proof/Machine/Sequencer.lean ====
section
/-! DEFINITION. The sequencer, which runs one command at a time to completion (spec/00_scope.md R20;
spec/45_control.md R241), one position after another. -/

namespace Sys2Proof.Machine

/-- What one job does, once it has been taken from the jobs. -/
def runJob (j : Job) (s : State) : State :=
  match j with
  | .ret => s.complete
  | .put n v => runPut n v s
  | .illegal v => s.raise .illegalCmd v
  | .clear => runClear s
  | .scan sym => runScan sym s
  | .merge => runMerge s
  | .gencodes => runGencodes s
  | .walk i path => runWalk i path s
  | .codesDone => runCodesDone s
  | .hdrwr m => runHdrwr m s
  | .emit i => runEmit i s
  | .hdrrd m => runHdrrd m s
  | .readMagic => runReadMagic s
  | .treeStart => runTreeStart s
  | .parse link => runParse link s
  | .leafSym i => runLeafSym i s
  | .treeDone => runTreeDone s
  | .encsym sym => runEncsym sym s
  | .encstream t => runEncstream t s
  | .encByte t => runEncByte t s
  | .decode stream => runDecode stream s
  | .decode1 stream => runDecode1 stream s
  | .descend stream i mid => runDescend stream i mid s
  | .putByte b => runPutByte b s
  | .flushBits => runFlushBits s
  | .flushBytes => runFlushBytes s

/-- The sequencer moves on by one position. -/
def advance (s : State) : State :=
  match s.seq.jobs with
  | [] => s
  | j :: js => runJob j { s with seq.jobs := js }

/-- The sequencer waits for the answer of a port that does not answer (R86, R304). -/
def State.blocked (s : State) : Bool :=
  match s.seq.outstanding with
  | none => false
  | some p => !s.answering p

/-- The sequencer moves on by at most `n` positions: it stops at the completion, and where a port does not answer. -/
def run : Nat → State → State
  | 0, s => s
  | n + 1, s => if s.flags.busy && !s.blocked then run n (advance s) else s

/-- How many positions one step takes at most: enough for any command on a valid tree and a valid code table to
complete, if the ports answer (R237, R305; log entry 1). A command that has not completed then goes on in the next
step. -/
def State.burst (s : State) : Nat :=
  4096 + 4 * s.ports.bitSource.rest.length + 258 * (s.ports.byteSource.rest.length + 1)

/-- The sequencer runs on: to the completion, or to where a port does not answer. -/
def State.runOn (s : State) : State := run s.burst s

end Sys2Proof.Machine
end

