-- ==== Sys2Proof/Machine/Commands.lean ====
section
/-! DEFINITION. The eleven commands (spec/30_encoding.md R103): for each, its acceptance (R240), and its meaning, the
command run from its acceptance to its completion. -/

namespace Sys2Proof.Machine

/-! ## Acceptance: the pseudocode the sequencer is set to run -/

/-- `NOP` accepted (R242). -/
def beginNop (s : State) : State := s.accept [.ret]

/-- `CLEAR` accepted (R245). -/
def beginClear (s : State) : State := s.accept [.clear, .ret]

/-- `BUILD` accepted (R131). -/
def beginBuild (s : State) : State := s.accept [.scan 0, .ret]

/-- `GENCODES` accepted (R151). -/
def beginGencodes (s : State) : State := s.accept [.gencodes, .ret]

/-- `HDRWR(M)` accepted (R171). -/
def beginHdrwr (m : Bool) (s : State) : State := s.accept [.hdrwr m, .ret]

/-- `HDRRD(M)` accepted (R181). -/
def beginHdrrd (m : Bool) (s : State) : State := s.accept [.hdrrd m, .ret]

/-- `ENCSYM(sym)` accepted (R200). -/
def beginEncsym (sym : Symbol) (s : State) : State := s.accept [.encsym sym, .ret]

/-- `ENCSTREAM(T)` accepted (R204). -/
def beginEncstream (t : Bool) (s : State) : State := s.accept [.encstream t, .ret]

/-- `DECSYM` accepted (R221). -/
def beginDecsym (s : State) : State := s.accept [.decode false, .ret]

/-- `DECSTREAM` accepted (R231). -/
def beginDecstream (s : State) : State := s.accept [.decode true, .ret]

/-- `FLUSH(K, Y)` accepted: the bit sink first (R210, R211). -/
def beginFlush (k y : Bool) (s : State) : State :=
  s.accept ((if k then [.flushBits] else []) ++ (if y then [.flushBytes] else []) ++ [.ret])

/-- A command accepted (R240). -/
def start (i : Instr) (s : State) : State :=
  match i with
  | .nop => beginNop s
  | .clear => beginClear s
  | .build => beginBuild s
  | .gencodes => beginGencodes s
  | .hdrwr m => beginHdrwr m s
  | .hdrrd m => beginHdrrd m s
  | .encsym sym => beginEncsym sym s
  | .encstream t => beginEncstream t s
  | .decsym => beginDecsym s
  | .decstream => beginDecstream s
  | .flush k y => beginFlush k y s

/-! ## The meanings -/

/-- `NOP` (R242). -/
def execNop (s : State) : Host.Outcome State Fault Refusal := .next (beginNop s).runOn

/-- `CLEAR` (R245). -/
def execClear (s : State) : Host.Outcome State Fault Refusal := .next (beginClear s).runOn

/-- `BUILD` (R131). -/
def execBuild (s : State) : Host.Outcome State Fault Refusal := .next (beginBuild s).runOn

/-- `GENCODES` (R151). -/
def execGencodes (s : State) : Host.Outcome State Fault Refusal := .next (beginGencodes s).runOn

/-- `HDRWR(M)` (R171). -/
def execHdrwr (m : Bool) (s : State) : Host.Outcome State Fault Refusal := .next (beginHdrwr m s).runOn

/-- `HDRRD(M)` (R181). -/
def execHdrrd (m : Bool) (s : State) : Host.Outcome State Fault Refusal := .next (beginHdrrd m s).runOn

/-- `ENCSYM(sym)` (R200). -/
def execEncsym (sym : Symbol) (s : State) : Host.Outcome State Fault Refusal :=
  .next (beginEncsym sym s).runOn

/-- `ENCSTREAM(T)` (R204). -/
def execEncstream (t : Bool) (s : State) : Host.Outcome State Fault Refusal :=
  .next (beginEncstream t s).runOn

/-- `DECSYM` (R221). -/
def execDecsym (s : State) : Host.Outcome State Fault Refusal := .next (beginDecsym s).runOn

/-- `DECSTREAM` (R231). -/
def execDecstream (s : State) : Host.Outcome State Fault Refusal := .next (beginDecstream s).runOn

/-- `FLUSH(K, Y)` (R210). -/
def execFlush (k y : Bool) (s : State) : Host.Outcome State Fault Refusal := .next (beginFlush k y s).runOn

end Sys2Proof.Machine
end

