-- ==== Sys2Proof/Machine/Dispatch.lean ====
section
/-! DEFINITION. One arm per command: its meaning. -/

namespace Sys2Proof.Machine

/-- What a command does to the machine, from its acceptance to its completion. -/
def exec (i : Instr) (s : State) : Host.Outcome State Fault Refusal :=
  match i with
  | .nop => Sys2Proof.Machine.execNop s
  | .clear => Sys2Proof.Machine.execClear s
  | .build => Sys2Proof.Machine.execBuild s
  | .gencodes => Sys2Proof.Machine.execGencodes s
  | .hdrwr m => Sys2Proof.Machine.execHdrwr m s
  | .hdrrd m => Sys2Proof.Machine.execHdrrd m s
  | .encsym sym => Sys2Proof.Machine.execEncsym sym s
  | .encstream t => Sys2Proof.Machine.execEncstream t s
  | .decsym => Sys2Proof.Machine.execDecsym s
  | .decstream => Sys2Proof.Machine.execDecstream s
  | .flush k y => Sys2Proof.Machine.execFlush k y s

end Sys2Proof.Machine
end

