-- ==== Sys2Proof/Machine/Turn.lean ====
section
/-! DEFINITION. Whose turn it is, and what it does: the host's accesses and the other actions of the outside world,
between the sequencer's positions (spec/20_memory.md R80-R85; spec/45_control.md R240; spec/70_reset_and_hazards.md
R290, R302, R304; log entry 2). -/

namespace Sys2Proof.Machine

/-- The next action of the outside world comes while the block is busy, not once it is idle. -/
def State.early (s : State) : Bool :=
  match s.events with
  | { after := some _, what := _ } :: _ => true
  | _ => false

/-- An illegal word accepted: it completes at once, with itself as information (R106, R240). -/
def beginIllegal (v : Word) (s : State) : State := s.accept [.illegal v, .ret]

/-- The host writes `v` to `CMD` while the block is idle (R34, R106, R240). If the outside world acts next while the
command runs, the command is only accepted, and goes on in the steps that follow: the next access sees `STATUS.BUSY = 1`
(R84). -/
def launch (v : Word) (s : State) : Host.Outcome State Fault Refusal :=
  match decode v with
  | .command i => if s.early then .next (start i s) else exec i s
  | .illegal _ => .next (if s.early then beginIllegal v s else (beginIllegal v s).runOn)

/-- A host write (R83, R84, R85). -/
def hostWrite (off width : Nat) (v : Word) (s : State) : Host.Outcome State Fault Refusal :=
  if legalAccess off width then
    if s.flags.busy then .next s.dropWrite
    else if off = 0x004 then launch v s
    else .next (s.writeReg off v)
  else .refused .badAccess

/-- Another stream stands at a port: not while a command uses the port (R302). -/
def attach (p : Port) (s t : State) : Host.Outcome State Fault Refusal :=
  if s.uses p then .refused .streamInterleaved else .next t

/-- An action of the outside world. -/
def act (a : Action) (s : State) : Host.Outcome State Fault Refusal :=
  match a with
  | .read off width => if legalAccess off width then .next (s.hostRead off) else .refused .badAccess
  | .write off width v => hostWrite off width v s
  | .reset => .next s.doReset
  | .answer p on => .next (s.setAnswering p on)
  | .attachBitSource rest term =>
    attach .bitSource s { s with ports.bitSource.rest := rest, ports.bitSource.term := term }
  | .attachByteSource rest term =>
    attach .byteSource s { s with ports.byteSource.rest := rest, ports.byteSource.term := term }
  | .attachBitSink answers thereafter =>
    attach .bitSink s { s with
      ports.bitSink.out := [], ports.bitSink.flushes := 0
      ports.bitSink.answers := answers, ports.bitSink.thereafter := thereafter }
  | .attachByteSink answers thereafter =>
    attach .byteSink s { s with
      ports.byteSink.out := [], ports.byteSink.flushes := 0
      ports.byteSink.answers := answers, ports.byteSink.thereafter := thereafter }

/-- While the block is idle only the outside world acts (R241, R280). While it is busy, the sequencer runs on until
the block is idle, or until the next action comes. -/
def turn (s : State) : Host.Outcome State Fault Refusal :=
  match s.events with
  | [] => .next (if s.flags.busy then s.runOn else s)
  | e :: es =>
    if s.flags.busy then
      match e.after with
      | none => .next s.runOn
      | some 0 => act e.what { s with events := es }
      | some (n + 1) =>
        .next (run (n + 1) { s with events := { after := some 0, what := e.what } :: es })
    else act e.what { s with events := es }

/-- The host's next access writes the command word `w` to `CMD`, and nothing comes after it; the block is idle, so
that the write is not dropped (R34, R39). -/
def State.withCommand (s : State) (w : Word) : State :=
  { s with
    flags.busy := false
    seq        := Seq.idle
    events     := [{ after := none, what := .write 0x004 4 w }] }

end Sys2Proof.Machine
end

