-- ==== Sys2Proof/Machine/Step.lean ====
section
/-! DEFINITION. One step of the machine. -/

namespace Sys2Proof.Machine

/-- One step: one action of the outside world, with the command it starts if it writes `CMD`; or, while a command
runs, the sequencer running on (log entries 1, 2). -/
def step (s : State) : Host.Outcome State Fault Refusal := turn s

/-- HUFF-CORE fetches no instruction (R31, R99): the host writes each command to `CMD`. So `s` with the host's next
access the write of that word (log entry 2). -/
def State.withFetchWord (s : State) (nbits w : Nat) : State :=
  s.withCommand (BitVec.ofNat 32 (w % 2 ^ nbits))

end Sys2Proof.Machine
end

