-- ==== Sys2Proof/Machine/Programs.lean ====
section
/-! DEFINITION. The assembler syntax of commands, the pseudo-instructions and the host's notation
(spec/30_encoding.md R115-R117; log entry 27). -/

namespace Sys2Proof.Machine

/-! ## Pseudo-instructions -/

/-- The pseudo-instructions (R116). -/
inductive Pseudo where
  | enceos
  | compress
  | decompress
  deriving DecidableEq, Repr

/-- The expansions of R116. -/
def Pseudo.expand : Pseudo → List Instr
  | .enceos => [.encsym 256]
  | .compress => [.build, .gencodes, .hdrwr true, .encstream true, .flush true false]
  | .decompress => [.hdrrd true, .decstream, .flush false true]

/-- The host runs the commands of an expansion, waiting for each, and stops at the first that completes with an
error (R116), or at one that has not completed. -/
def runAll : List Instr → State → Host.Outcome State Fault Refusal
  | [], s => .next s
  | i :: is, s =>
    match exec i s with
    | .next t => if t.flags.busy ∨ t.errCode ≠ 0#4 then .next t else runAll is t
    | .fault f => .fault f
    | .refused r => .refused r

/-! ## The host's notation (R117): each access waits for the block to be idle -/

/-- `wr off, v` after a `wait`. -/
def wr (off : Nat) (v : Word) : Event := { after := none, what := .write off 4 v }

/-- `rd off` after a `wait`. -/
def rd (off : Nat) : Event := { after := none, what := .read off 4 }

/-- A command on its own line: `wr 0x004` of its word; the `wait` is that of the next access. -/
def cmd (i : Instr) : Event := wr 0x004 (encode i)

/-! ## Assembler syntax (R115) -/

/-- A mnemonic is case-insensitive. -/
def upper (c : Char) : Char :=
  if 97 ≤ c.toNat ∧ c.toNat ≤ 122 then Char.ofNat (c.toNat - 32) else c

/-- The value of a digit in a base up to 16. -/
def digit (base : Nat) (c : Char) : Option Nat :=
  let n := c.toNat
  let d := if 48 ≤ n ∧ n ≤ 57 then some (n - 48)
    else if 65 ≤ n ∧ n ≤ 70 then some (n - 55)
    else if 97 ≤ n ∧ n ≤ 102 then some (n - 87)
    else none
  d.bind (fun k => if k < base then some k else none)

/-- The value of a numeral with at least one digit. -/
def numeral (base : Nat) : List Char → Option Nat
  | [] => none
  | cs => cs.foldl (fun v c => v.bind (fun n => (digit base c).map (fun k => base * n + k))) (some 0)

/-- `<sym>`: a decimal or `0x` number, a character literal, or `EOS` (R115). -/
def operand (cs : List Char) : Option Nat :=
  match cs with
  | ['E', 'O', 'S'] => some 256
  | ['\'', c, '\''] => if c.toNat < 256 then some c.toNat else none
  | '0' :: 'x' :: ds => numeral 16 ds
  | ds => numeral 10 ds

/-- A mnemonic with its flags, in capitals, and the operand if there is one: the commands it stands for. -/
def assembleWord (word : List Char) (arg : Option (List Char)) : Option (List Instr) :=
  match word, arg with
  | ['N', 'O', 'P'], none => some [.nop]
  | ['C', 'L', 'E', 'A', 'R'], none => some [.clear]
  | ['B', 'U', 'I', 'L', 'D'], none => some [.build]
  | ['G', 'E', 'N', 'C', 'O', 'D', 'E', 'S'], none => some [.gencodes]
  | ['H', 'D', 'R', 'W', 'R'], none => some [.hdrwr false]
  | ['H', 'D', 'R', 'W', 'R', '.', 'M'], none => some [.hdrwr true]
  | ['H', 'D', 'R', 'R', 'D'], none => some [.hdrrd false]
  | ['H', 'D', 'R', 'R', 'D', '.', 'M'], none => some [.hdrrd true]
  | ['E', 'N', 'C', 'S', 'Y', 'M'], some a =>
    (operand a).bind (fun n => if n ≤ 256 then some [.encsym (BitVec.ofNat 9 n)] else none)
  | ['E', 'N', 'C', 'S', 'T', 'R', 'E', 'A', 'M'], none => some [.encstream false]
  | ['E', 'N', 'C', 'S', 'T', 'R', 'E', 'A', 'M', '.', 'T'], none => some [.encstream true]
  | ['D', 'E', 'C', 'S', 'Y', 'M'], none => some [.decsym]
  | ['D', 'E', 'C', 'S', 'T', 'R', 'E', 'A', 'M'], none => some [.decstream]
  | ['F', 'L', 'U', 'S', 'H'], none => some [.flush false false]
  | ['F', 'L', 'U', 'S', 'H', '.', 'K'], none => some [.flush true false]
  | ['F', 'L', 'U', 'S', 'H', '.', 'Y'], none => some [.flush false true]
  | ['F', 'L', 'U', 'S', 'H', '.', 'K', 'Y'], none => some [.flush true true]
  | ['E', 'N', 'C', 'E', 'O', 'S'], none => some Pseudo.enceos.expand
  | ['C', 'O', 'M', 'P', 'R', 'E', 'S', 'S'], none => some Pseudo.compress.expand
  | ['D', 'E', 'C', 'O', 'M', 'P', 'R', 'E', 'S', 'S'], none => some Pseudo.decompress.expand
  | _, _ => none

/-- The mnemonic of a command with its flags, in capitals (R115). -/
def Instr.mnemonic : Instr → List Char
  | .nop => ['N', 'O', 'P']
  | .clear => ['C', 'L', 'E', 'A', 'R']
  | .build => ['B', 'U', 'I', 'L', 'D']
  | .gencodes => ['G', 'E', 'N', 'C', 'O', 'D', 'E', 'S']
  | .hdrwr m => ['H', 'D', 'R', 'W', 'R'] ++ (if m then ['.', 'M'] else [])
  | .hdrrd m => ['H', 'D', 'R', 'R', 'D'] ++ (if m then ['.', 'M'] else [])
  | .encsym _ => ['E', 'N', 'C', 'S', 'Y', 'M']
  | .encstream t => ['E', 'N', 'C', 'S', 'T', 'R', 'E', 'A', 'M'] ++ (if t then ['.', 'T'] else [])
  | .decsym => ['D', 'E', 'C', 'S', 'Y', 'M']
  | .decstream => ['D', 'E', 'C', 'S', 'T', 'R', 'E', 'A', 'M']
  | .flush k y =>
    ['F', 'L', 'U', 'S', 'H'] ++ (if k || y then ['.'] else []) ++ (if k then ['K'] else []) ++
      (if y then ['Y'] else [])

/-- A digit as a character, the ones above 9 in capitals. -/
def digitChar (d : Nat) : Char := Char.ofNat (if d < 10 then 48 + d else 55 + d)

/-- The numeral of a number of at most three digits in a base up to 16, without leading zeros. -/
def numeralText (base n : Nat) : List Char :=
  if n < base then [digitChar n]
  else if n < base * base then [digitChar (n / base), digitChar (n % base)]
  else [digitChar (n / (base * base)), digitChar (n / base % base), digitChar (n % base)]

/-- What follows the mnemonic in a command's line: for `ENCSYM` a space and the symbol, in decimal (R115). -/
def Instr.operandText : Instr → List Char
  | .nop => []
  | .clear => []
  | .build => []
  | .gencodes => []
  | .hdrwr _ => []
  | .hdrrd _ => []
  | .encsym sym => ' ' :: numeralText 10 sym.toNat
  | .encstream _ => []
  | .decsym => []
  | .decstream => []
  | .flush _ _ => []

/-- One line of assembler text: a mnemonic, and after a space its operand (R115, R116). -/
def assemble (line : List Char) : Option (List Instr) :=
  let word := line.takeWhile (fun c => c ≠ ' ')
  match line.dropWhile (fun c => c ≠ ' ') with
  | [] => assembleWord (word.map upper) none
  | _ :: arg => assembleWord (word.map upper) (some arg)

end Sys2Proof.Machine
end

