-- ==== Sys2Proof/Safety.lean ====
section
/-! DEFINITION. The terms that claims use: what a tree is, and when the node store holds one (spec/10_state.md R57);
its codes (spec/41_code_table.md R150) and its header (spec/30_encoding.md R110); which sequencer positions there are
(R56); the invariants; what a safe run is. Nothing here is used by the machine. -/

namespace Sys2Proof.Machine

/-! ## Trees -/

/-- A strict binary tree with a symbol at each leaf. -/
inductive Tree where
  | leaf (sym : Symbol)
  | node (l r : Tree)
  deriving DecidableEq, Repr

/-- The leaf symbols, left to right. -/
def Tree.syms : Tree → List Symbol
  | .leaf x => [x]
  | .node l r => l.syms ++ r.syms

/-- The number of nodes. -/
def Tree.size : Tree → Nat
  | .leaf _ => 1
  | .node l r => 1 + l.size + r.size

/-- The leaf symbols are distinct and in 0..256 (R57). -/
def Tree.Legal (T : Tree) : Prop := T.syms.Nodup ∧ ∀ x ∈ T.syms, x.toNat ≤ 256

/-- The code of a symbol: the path from the root to its leaf, 0 for left, 1 for right; a symbol that is not a leaf
has none (R150). -/
def Tree.code : Tree → Symbol → Option (List Bool)
  | .leaf x, y => if x = y then some [] else none
  | .node l r, y =>
    match l.code y with
    | some p => some (false :: p)
    | none => (r.code y).map (fun p => true :: p)

/-- `ser(n)` (R110). -/
def Tree.ser : Tree → List Bool
  | .leaf x => true :: bin 9 x.toNat
  | .node l r => false :: (l.ser ++ r.ser)

/-- The widths and values of the bit-sink writes of `HDRWR`, the magic apart, in order (R172). -/
def Tree.writes : Tree → List (Nat × Nat)
  | .leaf x => [(1, 1), (9, x.toNat)]
  | .node l r => (1, 0) :: (l.writes ++ r.writes)

/-- The bits before a header: the magic marker if `M = 1` (R109, R172). -/
def magicBits (m : Bool) : List Bool := if m then bin 32 Config.magic.toNat else []

/-- The write of the magic marker, if `M = 1` (R172). -/
def magicWrite (m : Bool) : List (Nat × Nat) := if m then [(32, Config.magic.toNat)] else []

/-- The widths of the bit-source reads of `HDRRD`, the magic apart, in order (R189). -/
def Tree.reads : Tree → List Nat
  | .leaf _ => [1, 9]
  | .node l r => 1 :: (l.reads ++ r.reads)

/-- The bits of the first `k` fields of a header (R110, R189). -/
def Tree.bitsTo (T : Tree) (k : Nat) : List Bool := (T.writes.take k).flatMap (fun w => bin w.1 w.2)

/-- The symbols in the first `k` fields of a header. -/
def Tree.symsTo (T : Tree) (k : Nat) : List Symbol := T.syms.take ((T.writes.take k).countP (fun w => w.1 = 9))

/-- The internal nodes in the first `k` fields of a header. -/
def Tree.intsTo (T : Tree) (k : Nat) : Nat := (T.writes.take k).count (1, 0)

/-- In the first `k` fields of a header there is nothing that `HDRRD` refuses (R185). -/
def Tree.CleanTo (T : Tree) (k : Nat) : Prop :=
  (T.symsTo k).Nodup ∧ (∀ x ∈ T.symsTo k, x.toNat ≤ 256) ∧ T.intsTo k ≤ 256

/-- The nodes of a tree numbered in preorder from `i` on, with weight 0 (R186, R187). -/
def Tree.layout : Nat → Tree → List Node
  | i, .leaf x => [leafNode (BitVec.ofNat 10 i) x 0]
  | i, .node l r =>
    internalNode (BitVec.ofNat 10 i) 0 (BitVec.ofNat 10 (i + 1)) (BitVec.ofNat 10 (i + 1 + l.size)) ::
      (l.layout (i + 1) ++ r.layout (i + 1 + l.size))

/-- The node store with `ns` written from entry 0 on. -/
def overwritten (nodes : Vector Node 513) (ns : List Node) : Vector Node 513 :=
  Vector.ofFn (fun k => ns.getD k nodes[k])

/-- Node `i` of the store is the root of the tree. -/
def State.Holds (s : State) (i : NodeIx) : Tree → Prop
  | .leaf x => (s.node i).leaf = true ∧ (s.node i).sym = x
  | .node l r => (s.node i).leaf = false ∧ s.Holds (s.node i).l l ∧ s.Holds (s.node i).r r

/-- The indices of the nodes of a tree that the store holds at `i`. -/
def State.indices (s : State) (i : NodeIx) : Tree → List Nat
  | .leaf _ => [i.toNat]
  | .node l r => i.toNat :: (s.indices (s.node i).l l ++ s.indices (s.node i).r r)

/-- The block holds the valid tree `T`: `NODE[0..NODE_COUNT-1]`, each once, form it, rooted at `ROOT`, with `LEAF_COUNT`
leaves (R57). -/
structure State.HoldsTree (s : State) (T : Tree) : Prop where
  valid     : s.flags.treeValid = true
  holds     : s.Holds s.root T
  legal     : T.Legal
  nodeCount : s.nodeCount.toNat = T.size
  leafCount : s.leafCount.toNat = T.syms.length
  indices   : (s.indices s.root T).Perm (List.range T.size)

/-- The code table of a tree, written over `codes` as `GENCODES` writes it (R150, R151). -/
def Tree.codeTable (T : Tree) (codes : Vector Code 257) : Vector Code 257 :=
  Vector.ofFn (fun k =>
    match T.code (BitVec.ofNat 9 k) with
    | some p => { valid := true, bits := p }
    | none => { codes[k] with valid := false })

/-- The code table is that of `T` (R58, R150). -/
def State.HoldsCodes (s : State) (T : Tree) : Prop :=
  ∀ x : Symbol, x.toNat ≤ 256 →
    match T.code x with
    | some p => (s.code x).valid = true ∧ (s.code x).bits = p
    | none => (s.code x).valid = false

/-- Tree and code-table validity between commands (R57, R58). -/
structure State.TreeInv (s : State) : Prop where
  tree    : s.flags.treeValid = true → ∃ T, s.HoldsTree T
  noTree  : s.flags.treeValid = false →
    s.root = 0#10 ∧ s.nodeCount = 0#10 ∧ s.leafCount = 0#9 ∧ s.flags.codesValid = false
  codes   : s.flags.codesValid = true → ∃ T, s.HoldsTree T ∧ s.HoldsCodes T
  noCodes : s.flags.codesValid = false → ∀ x : Symbol, (s.code x).valid = false

/-! ## Ports -/

/-- The sink answers every request, with `Ok`. -/
def Sink.Accepts {α : Type} (k : Sink α) : Prop :=
  k.answering = true ∧ (∀ a ∈ k.answers, a = .ok) ∧ k.thereafter = .ok

/-- A sink's answer to its request number `j` from now on, the next one being number 0 (R89; log entry 4). -/
def Sink.replyAt {α : Type} (k : Sink α) (j : Nat) : Reply := k.answers.getD j k.thereafter

/-- The sink answers every request; the first `Err` is its answer to request number `j`. -/
def Sink.FailsAt {α : Type} (k : Sink α) (j : Nat) : Prop :=
  k.answering = true ∧ (∀ i, i < j → k.replyAt i = .ok) ∧ k.replyAt j = .err

/-- Every port answers its requests. -/
def State.PortsAnswer (s : State) : Prop := ∀ p, s.answering p = true

/-- The effect on the block and the bit sink of accepted writes, each a width and a value (R47, R86, R89). -/
def State.wrote (s : State) (ws : List (Nat × Nat)) : State :=
  { s with
    ports.bitSink.out     := s.ports.bitSink.out ++ ws.flatMap (fun w => bin w.1 w.2)
    ports.bitSink.answers := s.ports.bitSink.answers.drop ws.length
    ports.trace           := s.ports.trace ++ ws.map (fun w => .bitWrite w.1 w.2)
    counters.bitsOut      := s.counters.bitsOut + BitVec.ofNat 32 (ws.map Prod.fst).sum }

/-- The effect on the block and the bit source of reads of the given widths that leave `rest` (R47, R86, R87). -/
def State.haveRead (s : State) (widths : List Nat) (rest : List Bool) : State :=
  { s with
    ports.bitSource.rest := rest
    ports.trace          := s.ports.trace ++ widths.map .bitRead
    counters.bitsIn      := s.counters.bitsIn + BitVec.ofNat 32 widths.sum }

/-- The 1-bit writes of a code (R199). -/
def codeWrites (p : List Bool) : List (Nat × Nat) := p.map (fun b => (1, b.toNat))

/-- The codes of bytes, one after another, if each has one (R113). -/
def Tree.payload (T : Tree) : List Byte → Option (List Bool)
  | [] => some []
  | b :: bs =>
    match T.code (b.setWidth 9), T.payload bs with
    | some p, some q => some (p ++ q)
    | _, _ => none

/-- The code of a byte, or nothing. -/
def Tree.byteCode (T : Tree) (b : Byte) : List Bool := (T.code (b.setWidth 9)).getD []

/-- The requests of `ENCSTREAM` for the bytes it reads and encodes (R204). -/
def Tree.encodeTrace (T : Tree) (bytes : List Byte) : List Request :=
  bytes.flatMap (fun b => .byteRead :: (T.byteCode b).map (fun c => .bitWrite 1 c.toNat))

/-- The requests of `DECSTREAM` for the bytes it decodes and writes (R231). -/
def Tree.decodeTrace (T : Tree) (bytes : List Byte) : List Request :=
  bytes.flatMap (fun b => (T.byteCode b).map (fun _ => .bitRead 1) ++ [.byteWrite b])

/-- A byte-sink agent after it has accepted `bytes`. -/
def Sink.took {α : Type} (k : Sink α) (bytes : List α) : Sink α :=
  { k with out := k.out ++ bytes, answers := k.answers.drop bytes.length }

/-! ## The tree builder -/

/-- The key of node `a` comes before that of node `b`: `(w, index)`, lexicographic (R132). -/
def State.keyBefore (s : State) (a b : Nat) : Prop :=
  (s.node (BitVec.ofNat 10 a)).w.toNat < (s.node (BitVec.ofNat 10 b)).w.toNat ∨
    ((s.node (BitVec.ofNat 10 a)).w = (s.node (BitVec.ofNat 10 b)).w ∧ a < b)

/-- Node `m` is a child of one of the internal nodes `k..n-1`. -/
def State.usedBefore (s : State) (k n m : Nat) : Prop :=
  ∃ j, k ≤ j ∧ j < n ∧
    ((s.node (BitVec.ofNat 10 j)).l.toNat = m ∨ (s.node (BitVec.ofNat 10 j)).r.toNat = m)

/-- The symbols with a count of at least 1, in increasing order (R130). -/
def State.qualifying (s : State) : List Nat := (List.range 257).filter (fun x => s.freqAt x ≠ 0#32)

/-! ## The sequencer's positions -/

/-- A job that stands alone before the `return` of its command. -/
def Job.solo : Job → Bool
  | .illegal _ | .clear | .merge | .gencodes | .hdrwr _ | .hdrrd _ | .treeStart | .encstream _ | .encByte _ => true
  | .decode _ | .decode1 _ | .descend _ _ _ | .flushBits | .flushBytes => true
  | .scan sym => sym ≤ 256
  | .encsym sym => sym.toNat ≤ 256
  | _ => false

/-- A job of the walk of `GENCODES`. -/
def Job.walks : Job → Bool
  | .walk _ _ => true
  | _ => false

/-- A job of the header or of a code: a write, or a subtree to be emitted. -/
def Job.emits : Job → Bool
  | .put _ _ | .emit _ => true
  | _ => false

/-- A bit-sink write. -/
def Job.puts : Job → Bool
  | .put _ _ => true
  | _ => false

/-- A job of `parse()`. -/
def Job.parses : Job → Bool
  | .parse _ | .leafSym _ => true
  | _ => false

/-- The positions the sequencer can be in (R56): idle, or one of those of the commands' pseudocode. -/
inductive LegalJobs : List Job → Prop where
  | idle : LegalJobs []
  | ret : LegalJobs [.ret]
  | solo (j : Job) (h : j.solo = true) : LegalJobs [j, .ret]
  | walk (js : List Job) (h : ∀ j ∈ js, j.walks = true) : LegalJobs (js ++ [.codesDone, .ret])
  | emit (js : List Job) (h : ∀ j ∈ js, j.emits = true) : LegalJobs (js ++ [.ret])
  | magic : LegalJobs [.readMagic, .treeStart, .ret]
  | parse (js : List Job) (h : ∀ j ∈ js, j.parses = true) : LegalJobs (js ++ [.treeDone, .ret])
  | encode (js : List Job) (t : Bool) (h : ∀ j ∈ js, j.puts = true) : LegalJobs (js ++ [.encByte t, .ret])
  | literal (b : Byte) : LegalJobs [.putByte b, .decode1 true, .ret]
  | flushes : LegalJobs [.flushBits, .flushBytes, .ret]

/-- What holds of the block at every moment, also while a command runs. -/
structure State.Inv (s : State) : Prop where
  /-- the sequencer's position is one of those there are (R56) -/
  legal   : LegalJobs s.seq.jobs
  /-- `STATUS.BUSY` is 1 exactly while a command runs (R36) -/
  busy    : s.flags.busy = !s.seq.jobs.isEmpty
  /-- the hidden state is empty at every completion (R55, R56) -/
  hidden  : s.flags.busy = false → s.seq = Seq.idle
  /-- what the command has still to do uses only the ports that it holds in use (R302) -/
  usesIn  : ∀ j ∈ s.seq.jobs, ∀ p ∈ j.uses, s.uses p = true
  /-- a request is outstanding only at a port in use (R86, R302) -/
  waitsIn : ∀ p, s.seq.outstanding = some p → s.uses p = true
  /-- without a tree, `ROOT = NODE_COUNT = LEAF_COUNT = 0` and there is no code table (R57) -/
  noTree  : s.flags.treeValid = false →
    s.root = 0#10 ∧ s.nodeCount = 0#10 ∧ s.leafCount = 0#9 ∧ s.flags.codesValid = false
  /-- a code table is generated only from a tree (R152) -/
  walking : .codesDone ∈ s.seq.jobs → s.flags.treeValid = true
  /-- `STATUS.CODES_VALID = 0` means that no symbol has a code, but while `GENCODES` writes the table (R58) -/
  noCodes : s.flags.codesValid = false → .codesDone ∉ s.seq.jobs → ∀ x : Symbol, (s.code x).valid = false
  /-- `ERR_CODE` holds a completion code of R250 -/
  errCode : s.errCode.toNat ≤ 8
  /-- `ERR_INFO` is 0 on success (R42) -/
  errInfo : s.errCode = 0#4 → s.errInfo = 0#32
  /-- the symbol of every leaf in the node store is 0..256 (R52) -/
  leafSym : ∀ i : NodeIx, (s.node i).leaf = true → (s.node i).sym.toNat ≤ 256
  /-- `SYM` holds a symbol (R45) -/
  sym     : s.sym.toNat ≤ 256

/-! ## Host duties and safe runs -/

/-- Every byte of the input has a count of at least 1 (R296 (a)). -/
def State.FreqCovers (s : State) (input : List Byte) : Prop := ∀ b ∈ input, s.freqAt b.toNat ≠ 0#32

/-- A command that completed with `OK` (R261). -/
def State.Succeeded (s : State) : Prop := s.flags.busy = false ∧ s.errCode = 0#4

/-- A run of `k` steps is safe if no step of it stops. -/
def SafeRun (k : Nat) (s : State) : Prop := ∃ t, Sys2Proof.core.run k s = .next t

end Sys2Proof.Machine
end

