-- ==== Sys2Proof/Certificates/Slice0/Obligations.lean ====
section
/-! DEFINITION. The statements for the provers. Each docstring names the rules of spec/ it formalises. -/

open Sys2Proof Sys2Proof.Machine

/-! ## Encoding (spec/30_encoding.md) -/

/-- Decoding the word of a command gives the command back, with every operand (R100-R103, R105). -/
def Obligations.DecodeInvertsEncode : Prop :=
  ∀ i : Instr, i.wf = true → decode (encode i) = .command i

/-- A word that decodes to a command is the word of that command, and the command is well-formed: no word is a second
spelling (R101, R105, R107). -/
def Obligations.EncodeInvertsDecode : Prop :=
  ∀ (w : Word) (i : Instr), decode w = .command i → i.wf = true ∧ encode i = w

/-- The opcode map's match and mask (R103): a word decodes to a command of a row exactly if its masked bits are the row's
`match`, and for `ENCSYM` its symbol is 0..256. -/
def Obligations.DecodeAgreesWithTheOpcodeMap : Prop :=
  ∀ w : Word,
    (decode w = .command .nop ↔ w &&& 0xFFFFFFFF#32 = 0x00000000#32) ∧
    (decode w = .command .clear ↔ w &&& 0xFFFFFFFF#32 = 0x00000001#32) ∧
    (decode w = .command .build ↔ w &&& 0xFFFFFFFF#32 = 0x00000002#32) ∧
    (decode w = .command .gencodes ↔ w &&& 0xFFFFFFFF#32 = 0x00000003#32) ∧
    ((∃ m, decode w = .command (.hdrwr m)) ↔ w &&& 0xFFFFFEFF#32 = 0x00000004#32) ∧
    ((∃ m, decode w = .command (.hdrrd m)) ↔ w &&& 0xFFFFFEFF#32 = 0x00000005#32) ∧
    ((∃ x, decode w = .command (.encsym x)) ↔
      w &&& 0xFE00FFFF#32 = 0x00000006#32 ∧ (w >>> 16).toNat ≤ 256) ∧
    ((∃ t, decode w = .command (.encstream t)) ↔ w &&& 0xFFFFFEFF#32 = 0x00000007#32) ∧
    (decode w = .command .decsym ↔ w &&& 0xFFFFFFFF#32 = 0x00000008#32) ∧
    (decode w = .command .decstream ↔ w &&& 0xFFFFFFFF#32 = 0x00000009#32) ∧
    ((∃ k y, decode w = .command (.flush k y)) ↔ w &&& 0xFFFFFCFF#32 = 0x0000000A#32)

/-- An illegal word is accepted and completes at once with `ILLEGAL_CMD` and the word itself as information; nothing else
changes. A word is illegal exactly in the three cases of R106. -/
def Obligations.IllegalWordsCompleteWithIllegalCmd : Prop :=
  (∀ w : Word, (∀ i, decode w ≠ .command i) ↔
    (0x0B ≤ w.toNat % 256 ∨
      (w.toNat % 256 ∈ [0, 1, 2, 3, 8, 9] ∧ w &&& 0xFFFFFF00#32 ≠ 0#32) ∨
      (w.toNat % 256 ∈ [4, 5, 7] ∧ w &&& 0xFFFFFE00#32 ≠ 0#32) ∨
      (w.toNat % 256 = 10 ∧ w &&& 0xFFFFFC00#32 ≠ 0#32) ∨
      (w.toNat % 256 = 6 ∧ (w &&& 0xFE00FF00#32 ≠ 0#32 ∨ 257 ≤ (w >>> 16).toNat % 512)))) ∧
  (∀ (s : State) (e : Event) (es : List Event) (w : Word),
    s.flags.busy = false → s.events = e :: es → e.what = .write 0x004 4 w →
    (∀ i, decode w ≠ .command i) → (∀ e' es', es = e' :: es' → e'.after = none) →
    step s = .next { s with
      events := es, errCode := 8, errInfo := w, seq := Seq.idle
      flags := { s.flags with busy := false, done := true, err := true } })

/-- Words written out from the encodings of R103, one for each command, decode to the command they stand for. -/
def Obligations.SampleWordsDecode : Prop :=
  decode 0x00000000 = .command .nop ∧ decode 0x00000001 = .command .clear ∧
  decode 0x00000002 = .command .build ∧ decode 0x00000003 = .command .gencodes ∧
  decode 0x00000104 = .command (.hdrwr true) ∧ decode 0x00000005 = .command (.hdrrd false) ∧
  decode 0x00410006 = .command (.encsym 65) ∧ decode 0x01000006 = .command (.encsym 256) ∧
  decode 0x00000107 = .command (.encstream true) ∧ decode 0x00000008 = .command .decsym ∧
  decode 0x00000009 = .command .decstream ∧ decode 0x0000020A = .command (.flush false true)

/-- A command's line is its mnemonic of R115, in capitals and small letters as one likes, with its flags as dot-suffixes, and for
`ENCSYM` the symbol in decimal; the symbol may also stand as a hexadecimal number, a character literal or `EOS`, and a number
above 256 is none. The pseudo-instructions have the expansions of R116. -/
def Obligations.AssemblerReachesEveryCommand : Prop :=
  (∀ (i : Instr) (word : List Char), i.wf = true → word.map upper = Instr.mnemonic i →
    assemble (word ++ Instr.operandText i) = some [i]) ∧
  (∀ x : Symbol, x.toNat ≤ 256 →
    assemble (Instr.mnemonic (.encsym x) ++ [' ', '0', 'x'] ++ numeralText 16 x.toNat) = some [.encsym x]) ∧
  (∀ b : Byte, assemble (Instr.mnemonic (.encsym 0) ++ [' ', '\'', Char.ofNat b.toNat, '\'']) =
    some [.encsym (b.setWidth 9)]) ∧
  assemble ['E', 'N', 'C', 'S', 'Y', 'M', ' ', 'E', 'O', 'S'] = some [.encsym 256] ∧
  (∀ n, 256 < n → n < 1000 → assemble (Instr.mnemonic (.encsym 0) ++ ' ' :: numeralText 10 n) = none) ∧
  assemble ['e', 'n', 'c', 'e', 'o', 's'] = some [.encsym 256] ∧
  assemble ['C', 'O', 'M', 'P', 'R', 'E', 'S', 'S'] =
    some [.build, .gencodes, .hdrwr true, .encstream true, .flush true false] ∧
  assemble ['D', 'E', 'C', 'O', 'M', 'P', 'R', 'E', 'S', 'S'] = some [.hdrrd true, .decstream, .flush false true]

/-! ## A step (spec/10_state.md, spec/20_memory.md, spec/45_control.md, spec/70_reset_and_hazards.md) -/

/-- A host write of a command's word to `CMD` while the block is idle runs the command, when the host's next access waits
for it (R240). -/
def Obligations.StepRunsTheCommand : Prop :=
  ∀ (s : State) (e : Event) (es : List Event) (w : Word) (i : Instr),
    s.flags.busy = false → s.events = e :: es → e.what = .write 0x004 4 w → decode w = .command i →
    (∀ e' es', es = e' :: es' → e'.after = none) →
    step s = exec i { s with events := es }

/-- When the host's next access does not wait, it finds the word just written, a command or an illegal word, accepted and not yet
run: that command, and no other, is what the block has still to do; `STATUS.BUSY = 1`, `STATUS.DONE = 0`, and nothing else has
changed (R84, R106, R240). -/
def Obligations.AcceptedCommandIsSeenBusy : Prop :=
  ∀ (s : State) (e e' : Event) (es : List Event) (n : Nat) (w : Word),
    s.flags.busy = false → s.events = e :: e' :: es → e.what = .write 0x004 4 w → e'.after = some n →
    (∀ i, decode w = .command i → step s = .next (start i { s with events := e' :: es })) ∧
    (∀ why, decode w = .illegal why → step s = .next (beginIllegal w { s with events := e' :: es })) ∧
    ∃ q, step s = .next { s with
      events := e' :: es, flags := { s.flags with busy := true, done := false }, seq := q } ∧ q.jobs ≠ []

/-- A command whose run is cut at any position and taken up again ends in the state in which it ends uncut: no rule depends on
timing (R303, R304); the positions are the model's own (log entry 1). The steps of the machine take it up again: with nothing
else to come, with a host that waits, whose access is still to come when the command has ended, and after a register write
dropped at the cut, which only sets `STATUS.OVR` (R253), unless a `CLEAR` has still to run and clears it (R245). -/
def Obligations.DroppedWriteDoesNotDisturbTheCommand : Prop :=
  ∀ (i : Instr) (s t : State) (n : Nat),
    exec i s = .next t → t.flags.busy = false →
    let c := run n (start i s)
    (∃ m, run m c = t) ∧
    (∃ m, Sys2Proof.core.run m ({ c with events := [] } : State) = .next ({ t with events := [] } : State)) ∧
    (∀ (e : Event) (es : List Event), e.after = none →
      ∃ m, Sys2Proof.core.run m ({ c with events := e :: es } : State) = .next ({ t with events := e :: es } : State)) ∧
    (c.flags.busy = true →
      (∃ m, run m c.dropWrite = { t with flags.ovr := true } ∨ (i = .clear ∧ run m c.dropWrite = t)) ∧
      ∀ (off : Nat) (v : Word), off < 0x1000 → off % 4 = 0 →
        let d : State := { c with events := [{ after := some 0, what := .write off 4 v }] }
        ∃ m, Sys2Proof.core.run m d = .next ({ t with events := [], flags.ovr := true } : State) ∨
          (i = .clear ∧ Sys2Proof.core.run m d = .next ({ t with events := [] } : State)))

/-- A write while the block is busy is dropped, whatever its offset: it only sets `STATUS.OVR` (R83). -/
def Obligations.BusyWriteIsDropped : Prop :=
  ∀ (s : State) (es : List Event) (off : Nat) (v : Word),
    s.flags.busy = true → off < 0x1000 → off % 4 = 0 →
    s.events = { after := some 0, what := .write off 4 v } :: es →
    step s = .next { s with events := es, flags := { s.flags with ovr := true } }

/-- A read while the block is busy: `ID`, `CTRL` and `MAGIC` return their values, `STATUS` returns `BUSY = 1`; the block does
not change (R81, R82). What other reads return is free. -/
def Obligations.BusyReadsReturnOnlyWhatIsDefined : Prop :=
  ∀ (s : State) (es : List Event) (off : Nat),
    s.flags.busy = true → off < 0x1000 → off % 4 = 0 →
    s.events = { after := some 0, what := .read off 4 } :: es →
    ∃ v, step s = .next { s with events := es, readData := v, draws := s.draws + 1 } ∧
      (off = 0x000 → v = 0x48554631#32) ∧
      (off = 0x008 → v = if s.irqEn then 1#32 else 0#32) ∧
      (off = 0x00C → v.getLsbD 0 = true) ∧
      (off = 0x018 → v = Config.magic)

/-- A read while the block is idle changes nothing of the block, and returns the register of the map (R32-R51, R81). -/
def Obligations.IdleReadsFollowTheRegisterMap : Prop :=
  ∀ (s : State) (e : Event) (es : List Event) (off : Nat),
    s.flags.busy = false → off < 0x1000 → off % 4 = 0 →
    s.events = e :: es → e.what = .read off 4 →
    ∃ v, step s = .next { s with events := es, readData := v } ∧
      (off = 0x000 → v = 0x48554631#32) ∧
      (off = 0x004 → v = 0#32) ∧
      (off = 0x008 → v.getLsbD 0 = s.irqEn ∧ v.toNat ≤ 1) ∧
      (off = 0x00C →
        v.getLsbD 0 = false ∧ v.getLsbD 1 = s.flags.done ∧ v.getLsbD 2 = s.flags.err ∧
        v.getLsbD 3 = s.flags.ovr ∧ v.getLsbD 4 = s.flags.treeValid ∧
        v.getLsbD 5 = s.flags.codesValid ∧ v.getLsbD 6 = s.flags.eos ∧
        v.getLsbD 7 = (s.flags.treeValid && (s.node s.root).leaf) ∧ v.toNat < 256) ∧
      (off = 0x010 → v.toNat = s.errCode.toNat) ∧
      (off = 0x014 → v = s.errInfo) ∧
      (off = 0x018 → v = Config.magic) ∧
      (off = 0x01C → v.toNat = s.root.toNat) ∧
      (off = 0x020 → v.toNat = s.nodeCount.toNat) ∧
      (off = 0x024 → v.toNat = s.leafCount.toNat) ∧
      (off = 0x028 → v.toNat = s.sym.toNat) ∧
      (off = 0x02C → v.toNat = s.nodeSel.toNat) ∧
      (off = 0x030 → v = s.nodeInfo) ∧
      (off = 0x034 → v = s.nodeWlo) ∧
      (off = 0x038 → v = s.nodeWhi) ∧
      (off = 0x03C → v.toNat = s.codeSel.toNat) ∧
      (off = 0x040 → v = s.codeLen) ∧
      (∀ j, j < 8 → off = 0x044 + 4 * j → v = s.codeBits j) ∧
      (off = 0x064 → v = s.counters.bitsIn) ∧
      (off = 0x068 → v = s.counters.bitsOut) ∧
      (off = 0x06C → v = s.counters.bytesIn) ∧
      (off = 0x070 → v = s.counters.bytesOut) ∧
      (0x074 ≤ off → off ≤ 0x3FC → v = 0#32) ∧
      (∀ k : Fin 256, off = 0x400 + 4 * k → v = s.freq[k]) ∧
      (off = 0x800 → v = 1#32) ∧
      (0x804 ≤ off → v = 0#32)

/-- The node window shows the selected node of a valid tree, and 0 past the tree's nodes (R46); the code window shows the selected
code, bit `31 - k` of `CODE_BITSj` being path bit `32*j + k`, and 0 past its end and for a symbol without a code (R48). -/
def Obligations.WindowsShowTheSelectedEntries : Prop :=
  ∀ s : State,
    (s.flags.treeValid = true → s.nodeSel.toNat < s.nodeCount.toNat →
      s.nodeInfo.getLsbD 31 = true ∧
      s.nodeInfo.getLsbD 30 = (s.node s.nodeSel).leaf ∧
      s.nodeInfo.getLsbD 29 = false ∧
      s.nodeInfo.extractLsb' 20 9 = (if (s.node s.nodeSel).leaf then (s.node s.nodeSel).sym else 0) ∧
      s.nodeInfo.extractLsb' 10 10 = (if (s.node s.nodeSel).leaf then 0 else (s.node s.nodeSel).r) ∧
      s.nodeInfo.extractLsb' 0 10 = (if (s.node s.nodeSel).leaf then 0 else (s.node s.nodeSel).l) ∧
      s.nodeWlo.toNat = (s.node s.nodeSel).w.toNat % 2 ^ 32 ∧
      s.nodeWhi.toNat = (s.node s.nodeSel).w.toNat / 2 ^ 32) ∧
    (¬ (s.flags.treeValid = true ∧ s.nodeSel.toNat < s.nodeCount.toNat) →
      s.nodeInfo = 0#32 ∧ s.nodeWlo = 0#32 ∧ s.nodeWhi = 0#32) ∧
    (s.flags.codesValid = true → s.codeSel.toNat ≤ 256 → (s.code s.codeSel).valid = true →
      (s.code s.codeSel).bits.length ≤ 256 →
      s.codeLen.getLsbD 31 = true ∧
      s.codeLen.toNat % 2 ^ 31 = (s.code s.codeSel).bits.length ∧
      ∀ j k, j < 8 → k < 32 →
        (s.codeBits j).getLsbD (31 - k) = (s.code s.codeSel).bits.getD (32 * j + k) false) ∧
    (¬ (s.flags.codesValid = true ∧ s.codeSel.toNat ≤ 256 ∧ (s.code s.codeSel).valid = true) →
      s.codeLen = 0#32 ∧ ∀ j, s.codeBits j = 0#32)

/-- A write while the block is idle has the effect of its register's access type, and no other: RW bits take the value,
W1C bits clear, the rest ignores it (R32, R35, R37-R39, R46, R48-R51, R84). -/
def Obligations.IdleWritesFollowTheAccessTypes : Prop :=
  ∀ (s : State) (e : Event) (es : List Event) (off : Nat) (v : Word),
    s.flags.busy = false → off < 0x1000 → off % 4 = 0 → off ≠ 0x004 →
    s.events = e :: es → e.what = .write off 4 v →
    (off = 0x008 → step s = .next { s with events := es, irqEn := v.getLsbD 0 }) ∧
    (off = 0x00C → step s = .next { s with
      events := es
      flags := { s.flags with
        done := s.flags.done && !v.getLsbD 1
        err := s.flags.err && !v.getLsbD 2
        ovr := s.flags.ovr && !v.getLsbD 3 } }) ∧
    (off = 0x02C → step s = .next { s with events := es, nodeSel := BitVec.ofNat 10 v.toNat }) ∧
    (off = 0x03C → step s = .next { s with events := es, codeSel := BitVec.ofNat 9 v.toNat }) ∧
    (∀ k : Fin 256, off = 0x400 + 4 * k → step s = .next { s with events := es, freq := s.freq.set k v }) ∧
    (off ∉ [0x008, 0x00C, 0x02C, 0x03C] → ¬ (0x400 ≤ off ∧ off < 0x800) →
      step s = .next { s with events := es })

/-- An access that is not an aligned 32-bit access below 0x1000 is refused, busy or not (R85). -/
def Obligations.OnlyAlignedWordAccessesExist : Prop :=
  ∀ (s : State) (e : Event) (es : List Event) (off width : Nat) (v : Word),
    s.events = e :: es → (s.flags.busy = true → e.after = some 0) →
    e.what = .read off width ∨ e.what = .write off width v →
    width ≠ 4 ∨ off % 4 ≠ 0 ∨ 0x1000 ≤ off →
    step s = .refused .badAccess

/-- Another agent at a port that the running command uses is a host the spec does not cover: the model refuses it, whichever of
the four ports it is; at a port not in use the new stream is there (R302; log entries 17, 25). From its acceptance until it
completes a command uses the ports it reads and the ports it writes, whether or not it has still to make a request there, and an
idle block uses none. -/
def Obligations.InterleavedStreamsAreRefused : Prop :=
  (∀ (s : State) (e : Event) (es : List Event) (bits : List Bool) (bytes : List Byte) (k : EndKind) (as : List Reply)
      (a : Reply),
    s.events = e :: es → (s.flags.busy = true → e.after = some 0) →
    (e.what = .attachBitSource bits k →
      (s.uses .bitSource = true → step s = .refused .streamInterleaved) ∧
      (s.uses .bitSource = false → step s = .next { s with
        events := es
        ports := { s.ports with bitSource := { s.ports.bitSource with rest := bits, term := k } } })) ∧
    (e.what = .attachByteSource bytes k →
      (s.uses .byteSource = true → step s = .refused .streamInterleaved) ∧
      (s.uses .byteSource = false → step s = .next { s with
        events := es
        ports := { s.ports with byteSource := { s.ports.byteSource with rest := bytes, term := k } } })) ∧
    (e.what = .attachBitSink as a →
      (s.uses .bitSink = true → step s = .refused .streamInterleaved) ∧
      (s.uses .bitSink = false → step s = .next { s with
        events := es
        ports := { s.ports with
          bitSink := { s.ports.bitSink with out := [], answers := as, thereafter := a, flushes := 0 } } })) ∧
    (e.what = .attachByteSink as a →
      (s.uses .byteSink = true → step s = .refused .streamInterleaved) ∧
      (s.uses .byteSink = false → step s = .next { s with
        events := es
        ports := { s.ports with
          byteSink := { s.ports.byteSink with out := [], answers := as, thereafter := a, flushes := 0 } } }))) ∧
  (∀ (i : Instr) (s : State) (n : Nat), (run n (start i s)).flags.busy = true →
    ((run n (start i s)).uses .bitSource = true ↔ (∃ m, i = .hdrrd m) ∨ i = .decsym ∨ i = .decstream) ∧
    ((run n (start i s)).uses .bitSink = true ↔
      (∃ m, i = .hdrwr m) ∨ (∃ x, i = .encsym x) ∨ (∃ b, i = .encstream b) ∨ ∃ y, i = .flush true y) ∧
    ((run n (start i s)).uses .byteSource = true ↔ ∃ b, i = .encstream b) ∧
    ((run n (start i s)).uses .byteSink = true ↔ i = .decstream ∨ ∃ k, i = .flush k true)) ∧
  (∀ (s : State) (p : Port), s.seq = Seq.idle → s.uses p = false)

/-- Without an action of the outside world an idle block keeps all its state (R241, R280). A busy block whose port never answers stays
busy as it is, forever (R86, R304), also if the host waits for it; any other busy block goes on: as far as a step goes, or, if
an access comes after a number of positions, as far as that access, which is then due (log entries 1, 2). What is still to come
stays. -/
def Obligations.NothingMovesWithoutAnActionOrAnAnswer : Prop :=
  ∀ s : State,
    (s.flags.busy = false → s.events = [] → step s = .next s) ∧
    (s.flags.busy = true → (∀ e es, s.events = e :: es → e.after = none) →
      (∀ p : Port, s.seq.outstanding = some p → s.answering p = false → step s = .next s) ∧
      ((∀ p : Port, s.seq.outstanding = some p → s.answering p = true) →
        ∃ k, step s = .next (run k (advance s)) ∧ (run k (advance s)).events = s.events)) ∧
    (s.flags.busy = true → ∀ (e : Event) (es : List Event) (n : Nat), s.events = e :: es → e.after = some (n + 1) →
      let due : State := { s with events := { after := some 0, what := e.what } :: es }
      (∀ p : Port, s.seq.outstanding = some p → s.answering p = false → step s = .next due) ∧
      ((∀ p : Port, s.seq.outstanding = some p → s.answering p = true) →
        step s = .next (run n (advance due)) ∧ (run n (advance due)).events = due.events))

/-- The reset input gives every register and store its reset value and abandons a running command; it does not reach the
ports, but where the stream of an abandoned request stands is free (R290, R293). That every other port stands where it stood,
also when the reset comes in the middle of a command, is the model's choice (log entry 31). -/
def Obligations.ResetInputAbandonsTheCommand : Prop :=
  ∀ (s : State) (e : Event) (es : List Event),
    s.events = e :: es → (s.flags.busy = true → e.after = some 0) → e.what = .reset →
    ∃ ports draws,
      step s = .next { State.reset with ports := ports, draws := draws, events := es, readData := s.readData } ∧
      (s.seq.outstanding = none → ports = s.ports ∧ draws = s.draws) ∧
      (s.seq.outstanding ≠ some .bitSource → ports.bitSource = s.ports.bitSource) ∧
      (s.seq.outstanding ≠ some .bitSink → ports.bitSink = s.ports.bitSink) ∧
      (s.seq.outstanding ≠ some .byteSource → ports.byteSource = s.ports.byteSource) ∧
      (s.seq.outstanding ≠ some .byteSink → ports.byteSink = s.ports.byteSink) ∧
      ports.trace = s.ports.trace

/-- The state after reset (R291). -/
def Obligations.ResetStateIsAsSpecified : Prop :=
  State.reset.status = 0#32 ∧ State.reset.flags.busy = false ∧
  State.reset.irqEn = false ∧ State.reset.irq = false ∧
  State.reset.errCode = 0#4 ∧ State.reset.errInfo = 0#32 ∧
  State.reset.root = 0#10 ∧ State.reset.nodeCount = 0#10 ∧ State.reset.leafCount = 0#9 ∧
  State.reset.sym = 0#9 ∧ State.reset.nodeSel = 0#10 ∧ State.reset.codeSel = 0#9 ∧
  State.reset.counters = { bitsIn := 0, bitsOut := 0, bytesIn := 0, bytesOut := 0 } ∧
  (∀ x, x < 256 → State.reset.freqAt x = 0#32) ∧ State.reset.freqAt 256 = 1#32 ∧
  State.reset.readReg 0x000 = 0x48554631#32 ∧ State.reset.readReg 0x018 = Config.magic ∧
  (∀ n, { State.reset with nodeSel := n }.nodeInfo = 0#32) ∧
  (∀ x : Symbol, (State.reset.code x).valid = false)

/-! ## Invariants -/

/-- Every step keeps the block's invariant, at every moment of a command (R36, R42, R55-R58). -/
def Obligations.StepKeepsTheInvariant : Prop :=
  ∀ s t : State, s.Inv → step s = .next t → t.Inv

/-- The state after reset has the invariant (R62, R291). Its clause on leaves is met by the model's own choice of the node store
at reset, where no entry is a leaf (log entry 10); the spec leaves the store open there. -/
def Obligations.ResetHasTheInvariant : Prop := State.reset.Inv

/-- Every command keeps tree and code-table validity: the node store holds a valid tree when `STATUS.TREE_VALID = 1`, and the
code table is that tree's when `STATUS.CODES_VALID = 1` (R57, R58). -/
def Obligations.CommandsKeepTreeAndCodeValidity : Prop :=
  ∀ (i : Instr) (s t : State), s.TreeInv → exec i s = .next t → t.flags.busy = false → t.TreeInv

/-- Every command completes, if the ports answer (R237, R304). -/
def Obligations.CommandsCompleteIfPortsAnswer : Prop :=
  ∀ (i : Instr) (s : State), s.TreeInv → s.PortsAnswer → ∃ t, exec i s = .next t ∧ t.flags.busy = false

/-! ## Completion, and what commands leave alone (spec/60_exceptions.md) -/

/-- Every completion writes `STATUS.DONE` and the code and information of R250: 0 and 0 on success, `STATUS.ERR` left; a code
and `STATUS.ERR` on an error (R37, R38, R41, R42, R261, R262). -/
def Obligations.EveryCompletionReportsItsOutcome : Prop :=
  ∀ (i : Instr) (s t : State), exec i s = .next t → t.flags.busy = false →
    t.flags.done = true ∧ t.seq = Seq.idle ∧
    ((t.errCode = 0#4 ∧ t.errInfo = 0#32 ∧ (i ≠ .clear → t.flags.err = s.flags.err)) ∨
      (1 ≤ t.errCode.toNat ∧ t.errCode.toNat ≤ 7 ∧ t.flags.err = true))

/-- The interrupt output rises at the completion of any command, successful or not, while it is enabled, and falls when the
next command is accepted (R270). -/
def Obligations.InterruptFollowsCompletion : Prop :=
  ∀ (i : Instr) (s t : State), exec i s = .next t →
    (start i s).irq = false ∧ (t.flags.busy = false → t.irq = s.irqEn)

/-- What a command does not change of the registers: `CTRL`; but for `CLEAR`, the frequency table, the selectors and
`STATUS.OVR`; and `SYM` and `STATUS.EOS`, which only the decoder and `CLEAR` write (R35, R40, R45, R50, R246). -/
def Obligations.CommandsLeaveOtherRegistersAlone : Prop :=
  ∀ (i : Instr) (s t : State), exec i s = .next t →
    t.irqEn = s.irqEn ∧ t.events = s.events ∧ t.readData = s.readData ∧
    (i ≠ .clear → t.freq = s.freq ∧ t.nodeSel = s.nodeSel ∧ t.codeSel = s.codeSel ∧ t.flags.ovr = s.flags.ovr) ∧
    (i ≠ .clear → s.flags.err = true → t.flags.err = true) ∧
    (i ≠ .clear → i ≠ .decsym → i ≠ .decstream → t.sym = s.sym ∧ t.flags.eos = s.flags.eos)

/-- What a command does not change of the stores: only `BUILD`, `HDRRD` and `CLEAR` change the tree, and only they and
`GENCODES` the code table (R57, R58, R60). It names whole stores, so also entries past the tree and codes without `valid`, which
no host can see (log entries 11, 28). -/
def Obligations.CommandsLeaveOtherStoresAlone : Prop :=
  ∀ (i : Instr) (s t : State), exec i s = .next t → i ≠ .build → (∀ m, i ≠ .hdrrd m) → i ≠ .clear →
    t.nodes = s.nodes ∧ t.root = s.root ∧ t.nodeCount = s.nodeCount ∧ t.leafCount = s.leafCount ∧
    t.flags.treeValid = s.flags.treeValid ∧
    (i ≠ .gencodes → t.codes = s.codes ∧ t.flags.codesValid = s.flags.codesValid)

/-- What a command does not change of the ports: a command reaches only the ports its rule names (R86, R138, R246, R305). -/
def Obligations.CommandsLeaveOtherPortsAlone : Prop :=
  ∀ (i : Instr) (s t : State), exec i s = .next t →
    ((∀ m, i ≠ .hdrrd m) → i ≠ .decsym → i ≠ .decstream → t.ports.bitSource = s.ports.bitSource) ∧
    ((∀ m, i ≠ .hdrwr m) → (∀ x, i ≠ .encsym x) → (∀ b, i ≠ .encstream b) → (∀ y, i ≠ .flush true y) →
      t.ports.bitSink = s.ports.bitSink) ∧
    ((∀ b, i ≠ .encstream b) → t.ports.byteSource = s.ports.byteSource) ∧
    (i ≠ .decstream → (∀ k, i ≠ .flush k true) → t.ports.byteSink = s.ports.byteSink) ∧
    (i = .nop ∨ i = .clear ∨ i = .build ∨ i = .gencodes → t.ports = s.ports ∧ t.draws = s.draws)

/-- What the sinks have accepted stands, whatever happens (R262 (b)), and the output counters count exactly what they accept
(R47). -/
def Obligations.SinkOutputStandsAndIsCounted : Prop :=
  ∀ (i : Instr) (s t : State), i ≠ .clear → exec i s = .next t →
    ∃ bits bytes,
      t.ports.bitSink.out = s.ports.bitSink.out ++ bits ∧
      t.counters.bitsOut = s.counters.bitsOut + BitVec.ofNat 32 bits.length ∧
      t.ports.byteSink.out = s.ports.byteSink.out ++ bytes ∧
      t.counters.bytesOut = s.counters.bytesOut + BitVec.ofNat 32 bytes.length

/-- No read-ahead: while a source delivers what is asked, it has lost exactly what the input counters count (R47, R91). -/
def Obligations.SourcesLoseExactlyWhatIsCounted : Prop :=
  ∀ (i : Instr) (s t : State), i ≠ .clear → exec i s = .next t → t.draws = s.draws →
    ∃ bits bytes,
      s.ports.bitSource.rest = bits ++ t.ports.bitSource.rest ∧
      t.counters.bitsIn = s.counters.bitsIn + BitVec.ofNat 32 bits.length ∧
      s.ports.byteSource.rest = bytes ++ t.ports.byteSource.rest ∧
      t.counters.bytesIn = s.counters.bytesIn + BitVec.ofNat 32 bytes.length

/-- The preconditions: without a valid tree, or a valid code table, the command completes with `NOT_READY` and changes nothing
else; the commands not listed have none (R251). -/
def Obligations.PreconditionsAreCheckedFirst : Prop :=
  ∀ s : State,
    (s.flags.treeValid = false →
      exec .gencodes s = .next (s.raise .notReady 0) ∧
      (∀ m, exec (.hdrwr m) s = .next (s.raise .notReady 0)) ∧
      exec .decsym s = .next ({ s with flags.eos := false }.raise .notReady 0) ∧
      exec .decstream s = .next ({ s with flags.eos := false }.raise .notReady 0)) ∧
    (s.flags.codesValid = false →
      (∀ x, exec (.encsym x) s = .next (s.raise .notReady 1)) ∧
      (∀ b, exec (.encstream b) s = .next (s.raise .notReady 1))) ∧
    (∀ i t, exec i s = .next t → t.flags.busy = false → t.errCode = 5#4 →
      (i = .gencodes ∨ (∃ m, i = .hdrwr m) ∨ i = .decsym ∨ i = .decstream) ∧ s.flags.treeValid = false ∨
      ((∃ x, i = .encsym x) ∨ ∃ b, i = .encstream b) ∧ s.flags.codesValid = false)

/-! ## NOP and CLEAR (spec/45_control.md) -/

/-- `NOP` only completes (R242, R243). -/
def Obligations.NopOnlyCompletes : Prop :=
  ∀ s : State, exec .nop s = .next { s with
    errCode := 0, errInfo := 0, seq := Seq.idle, flags := { s.flags with done := true, busy := false } }

/-- `CLEAR` resets every register and store but `CTRL`, completes, and reaches no port (R245, R246). That the node store
keeps its entries, which no host can see, is the model's choice (log entry 28), and so are the bits of codes without `valid`
(log entry 11). -/
def Obligations.ClearResetsAllButCtrl : Prop :=
  ∀ s : State, exec .clear s = .next { s with
    flags := { busy := false, done := true, err := false, ovr := false, treeValid := false, codesValid := false,
               eos := false }
    errCode := 0, errInfo := 0, root := 0, nodeCount := 0, leafCount := 0, sym := 0, nodeSel := 0, codeSel := 0
    counters := { bitsIn := 0, bitsOut := 0, bytesIn := 0, bytesOut := 0 }
    freq := Vector.replicate 256 0
    codes := s.codes.map (fun c => { c with valid := false })
    seq := Seq.idle }

/-! ## BUILD (spec/40_tree_builder.md) -/

/-- `BUILD` always completes with `OK`. With `k` symbols of count at least 1 the leaves are nodes 0..k-1 in increasing symbol order
with their counts as weights, the internal nodes k..2k-2, and the root is node 2k-2; the code table is discarded, and nothing
else changes (R131, R134, R138). That the entries past the tree keep what they held, its last clause, is the model's choice (log
entry 28). -/
def Obligations.BuildNumbersLeavesThenInternalNodes : Prop :=
  ∀ s : State, ∃ nodes : Vector Node 513,
    exec .build s = .next { s with
      nodes := nodes
      root := BitVec.ofNat 10 (2 * s.qualifying.length - 2)
      nodeCount := BitVec.ofNat 10 (2 * s.qualifying.length - 1)
      leafCount := BitVec.ofNat 9 s.qualifying.length
      codes := s.codes.map (fun c => { c with valid := false })
      flags := { s.flags with treeValid := true, codesValid := false, done := true, busy := false }
      errCode := 0, errInfo := 0, seq := Seq.idle } ∧
    1 ≤ s.qualifying.length ∧ s.qualifying.length ≤ 257 ∧
    (∀ (i : Fin 513) (x : Nat), s.qualifying[i.val]? = some x →
      nodes[i].leaf = true ∧ nodes[i].sym.toNat = x ∧ nodes[i].w.toNat = (s.freqAt x).toNat) ∧
    (∀ i : Fin 513, s.qualifying.length ≤ i.val → i.val < 2 * s.qualifying.length - 1 → nodes[i].leaf = false) ∧
    (∀ i : Fin 513, 2 * s.qualifying.length - 1 ≤ i.val → nodes[i] = s.nodes[i])

/-- Every merge takes the two nodes of least key among those not merged yet, the least as the left child, the next as the right
(R132, R135). -/
def Obligations.BuildMergesTheTwoLeastKeys : Prop :=
  ∀ s t : State, exec .build s = .next t →
    ∀ n, t.leafCount.toNat ≤ n → n < 2 * t.leafCount.toNat - 1 →
      let a := (t.node (BitVec.ofNat 10 n)).l.toNat
      let b := (t.node (BitVec.ofNat 10 n)).r.toNat
      a < n ∧ b < n ∧ ¬ t.usedBefore t.leafCount.toNat n a ∧ ¬ t.usedBefore t.leafCount.toNat n b ∧
      t.keyBefore a b ∧
      ∀ m, m < n → ¬ t.usedBefore t.leafCount.toNat n m → m = a ∨ m = b ∨ t.keyBefore b m

/-- After `BUILD` the node store holds a valid tree with one leaf for each symbol of count at least 1; each leaf's weight is its
count, and each internal node's weight is the sum of its children's (R133). -/
def Obligations.BuildMakesAValidTree : Prop :=
  ∀ s t : State, exec .build s = .next t →
    ∃ T, t.HoldsTree T ∧
      (∀ x : Symbol, x ∈ T.syms ↔ x.toNat ≤ 256 ∧ s.freqAt x.toNat ≠ 0#32) ∧
      ∀ i : NodeIx, i.toNat < t.nodeCount.toNat →
        ((t.node i).leaf = true → (t.node i).w.toNat = (s.freqAt (t.node i).sym.toNat).toNat) ∧
        ((t.node i).leaf = false →
          (t.node i).w.toNat = (t.node (t.node i).l).w.toNat + (t.node (t.node i).r).w.toNat)

/-- The root's weight is the exact sum of all counts, so no sum wraps, and no node is heavier than the root (R136). -/
def Obligations.BuildRootWeighsAllCounts : Prop :=
  ∀ s t : State, exec .build s = .next t →
    (t.node t.root).w.toNat = ((List.range 257).map (fun x => (s.freqAt x).toNat)).sum ∧
    (t.node t.root).w.toNat ≤ 2 ^ 40 - 255 ∧
    ∀ i : NodeIx, i.toNat < t.nodeCount.toNat → (t.node i).w.toNat ≤ (t.node t.root).w.toNat

/-! ## GENCODES (spec/41_code_table.md) -/

/-- `GENCODES` writes exactly the code table of the tree: for each leaf symbol its root-to-leaf path, no code for any other; nothing
else changes (R150, R151, R153, R156). -/
def Obligations.GencodesWritesTheCodeTable : Prop :=
  ∀ (s : State) (T : Tree), s.flags.treeValid = true → s.Holds s.root T → T.Legal →
    exec .gencodes s = .next { s with
      codes := T.codeTable s.codes
      flags := { s.flags with codesValid := true, done := true, busy := false }
      errCode := 0, errInfo := 0, seq := Seq.idle }

/-- After `GENCODES` on a valid tree exactly the leaf symbols have a code, and no code is a prefix of another symbol's (R154). -/
def Obligations.CodesArePrefixFree : Prop :=
  ∀ (s t : State) (T : Tree), s.HoldsTree T → exec .gencodes s = .next t →
    (∀ x : Symbol, (t.code x).valid = true ↔ x ∈ T.syms) ∧
    ∀ x y : Symbol, x ≠ y → (t.code x).valid = true → (t.code y).valid = true →
      ¬ (t.code x).bits <+: (t.code y).bits

/-- Codes are at most 256 bits long, and fill the code space exactly: Kraft's sum is 1 (R155, R159). -/
def Obligations.CodeLengthsMeetKraftEquality : Prop :=
  ∀ (s t : State) (T : Tree), s.HoldsTree T → exec .gencodes s = .next t →
    (∀ k : Fin 257, t.codes[k].valid = true → t.codes[k].bits.length ≤ 256) ∧
    (((List.finRange 257).map (fun k =>
      if t.codes[k].valid then 2 ^ (256 - t.codes[k].bits.length) else 0)).sum = 2 ^ 256)

/-! ## HDRWR and HDRRD (spec/42_header_codec.md) -/

/-- `HDRWR` sends the magic if `M = 1`, then the preorder header, in the requests of R172; nothing else changes (R110, R111, R171,
R172). -/
def Obligations.HdrwrWritesTheHeader : Prop :=
  ∀ (s : State) (T : Tree) (m : Bool), s.flags.treeValid = true → s.Holds s.root T → T.Legal →
    s.ports.bitSink.Accepts →
    exec (.hdrwr m) s =
      .next (s.wrote (magicWrite m ++ T.writes)).complete ∧
    (magicWrite m ++ T.writes).flatMap (fun w : Nat × Nat => bin w.1 w.2) = magicBits m ++ T.ser ∧
    T.ser.length = 11 * T.syms.length - 1

/-- A bit-sink `Err` stops `HDRWR` at that write with `IO`, info 1, whether it stands in the sink's script or comes after it: the
writes before it stand, it lands nothing, and none follows (R174). -/
def Obligations.HdrwrStopsAtASinkError : Prop :=
  ∀ (s : State) (T : Tree) (m : Bool) (j : Nat) (w : Nat × Nat),
    s.flags.treeValid = true → s.Holds s.root T → T.Legal → s.ports.bitSink.FailsAt j →
    (magicWrite m ++ T.writes)[j]? = some w →
    let u := s.wrote ((magicWrite m ++ T.writes).take j)
    exec (.hdrwr m) s = .next ({ u with
      ports := { u.ports with
        bitSink := { u.ports.bitSink with answers := u.ports.bitSink.answers.tail }
        trace := u.ports.trace ++ [Request.bitWrite w.1 w.2] } }.raise .io 1)

/-- `HDRRD` reads exactly the header, numbers its nodes in preorder with weight 0, discards the code table, and leaves the source
at the first bit after the header; nothing else changes (R181, R183, R186, R187, R189). That the entries past the tree keep
what they held is the model's choice (log entry 28). -/
def Obligations.HdrrdReadsTheHeader : Prop :=
  ∀ (s : State) (T : Tree) (m : Bool) (more : List Bool), T.Legal → s.ports.bitSource.answering = true →
    s.ports.bitSource.rest = magicBits m ++ T.ser ++ more →
    let u := s.haveRead ((if m then [32] else []) ++ T.reads) more
    exec (.hdrrd m) s = .next { u with
      nodes := overwritten s.nodes (T.layout 0)
      root := 0
      nodeCount := BitVec.ofNat 10 T.size
      leafCount := BitVec.ofNat 9 T.syms.length
      codes := s.codes.map (fun c => { c with valid := false })
      flags := { s.flags with treeValid := true, codesValid := false, done := true, busy := false }
      errCode := 0, errInfo := 0, seq := Seq.idle }

/-- The magic phase: 32 bits that are not `MAGIC` give `FORMAT` with those bits, fewer than 32 bits before `EOD` give `TRUNC_HDR` with
info 0, a source `Err` gives `IO` with info 0; no header bit is read and the old tree and code table stay (R182). -/
def Obligations.HdrrdChecksTheMagicFirst : Prop :=
  ∀ (s : State), s.ports.bitSource.answering = true →
    (∀ (v : Word) (more : List Bool), v ≠ Config.magic → s.ports.bitSource.rest = bin 32 v.toNat ++ more →
      exec (.hdrrd true) s = .next ((s.haveRead [32] more).raise .format v)) ∧
    (s.ports.bitSource.rest.length < 32 → s.ports.bitSource.term = .eod →
      exec (.hdrrd true) s = .next
        ({ s with ports := { s.ports with trace := s.ports.trace ++ [Request.bitRead 32] } }.endBits.raise .truncHdr 0)) ∧
    (s.ports.bitSource.rest.length < 32 → s.ports.bitSource.term = .err →
      exec (.hdrrd true) s = .next
        ({ s with ports := { s.ports with trace := s.ports.trace ++ [Request.bitRead 32] } }.endBits.raise .io 0))

/-- A header cut short gives `TRUNC_HDR`, with the number of bits received before the failing read as information, also in
the middle of a symbol; a source that ends with `Err` gives `IO`, info 0 (R184). The tree is invalid and the code table
discarded (R188). The header is cut in its field `k`, and nothing before that field is refused. -/
def Obligations.HdrrdRefusesATruncatedHeader : Prop :=
  ∀ (s : State) (T : Tree) (m : Bool) (k : Nat) (w : Nat × Nat) (part : List Bool),
    s.ports.bitSource.answering = true → T.CleanTo k → T.writes[k]? = some w → part.length < w.1 →
    s.ports.bitSource.rest = magicBits m ++ T.bitsTo k ++ part →
    ∃ t, exec (.hdrrd m) s = .next t ∧ t.flags.busy = false ∧ t.flags.err = true ∧ t.flags.treeValid = false ∧
      t.flags.codesValid = false ∧ t.root = 0#10 ∧ t.nodeCount = 0#10 ∧ t.leafCount = 0#9 ∧
      (∀ x : Symbol, (t.code x).valid = false) ∧
      t.counters.bitsIn = s.counters.bitsIn + BitVec.ofNat 32 ((magicBits m ++ T.bitsTo k).length) ∧
      (s.ports.bitSource.term = .eod →
        t.errCode = 2#4 ∧ t.errInfo.toNat = (if m then 32 else 0) + (T.bitsTo k).length) ∧
      (s.ports.bitSource.term = .err → t.errCode = 7#4 ∧ t.errInfo = 0#32)

/-- A header no tree can hold gives `HDR_INVALID` at the first violation in stream order, which is its field `k`: a symbol above
256, a symbol seen before, a 257th internal node; the source stands after that field, and the tree is invalid (R185, R188). -/
def Obligations.HdrrdRefusesAnInvalidHeader : Prop :=
  ∀ (s : State) (T : Tree) (m : Bool) (k : Nat) (more : List Bool),
    s.ports.bitSource.answering = true → T.CleanTo k →
    s.ports.bitSource.rest = magicBits m ++ T.bitsTo (k + 1) ++ more →
    (∀ bad : Symbol, T.writes[k]? = some (9, bad.toNat) → (256 < bad.toNat ∨ bad ∈ T.symsTo k) →
      ∃ t, exec (.hdrrd m) s = .next t ∧ t.flags.busy = false ∧ t.errCode = 4#4 ∧
        t.errInfo.toNat = (if 256 < bad.toNat then 1 else 2) + bad.toNat * 2 ^ 16 ∧
        t.flags.treeValid = false ∧ t.flags.codesValid = false ∧ t.ports.bitSource.rest = more) ∧
    (T.writes[k]? = some (1, 0) → T.intsTo k = 256 →
      ∃ t, exec (.hdrrd m) s = .next t ∧ t.flags.busy = false ∧ t.errCode = 4#4 ∧ t.errInfo = 3#32 ∧
        t.flags.treeValid = false ∧ t.flags.codesValid = false ∧ t.ports.bitSource.rest = more)

/-- Header round trip: what `HDRWR` writes of a valid tree, `HDRRD` reads back as a tree of the same shape with the same symbols; and
what `HDRRD` accepts, `HDRWR` writes again (R190). -/
def Obligations.HeaderRoundTrip : Prop :=
  (∀ (s t s' : State) (T : Tree) (m : Bool) (more : List Bool),
    s.HoldsTree T → s.ports.bitSink.Accepts → exec (.hdrwr m) s = .next t →
    s'.ports.bitSource.answering = true →
    s'.ports.bitSource.rest = t.ports.bitSink.out.drop s.ports.bitSink.out.length ++ more →
    ∃ u, exec (.hdrrd m) s' = .next u ∧ u.Succeeded ∧ u.HoldsTree T ∧ u.ports.bitSource.rest = more) ∧
  (∀ (s t : State) (m : Bool), exec (.hdrrd m) s = .next t → t.Succeeded → t.ports.bitSink.Accepts →
    ∃ u read, s.ports.bitSource.rest = read ++ t.ports.bitSource.rest ∧
      exec (.hdrwr m) t = .next u ∧ u.Succeeded ∧ u.ports.bitSink.out = t.ports.bitSink.out ++ read)

/-! ## ENCSYM, ENCSTREAM, FLUSH (spec/43_encoder.md) -/

/-- `ENCSYM` writes the code of its symbol, one bit a request, the step at the root first; nothing else changes (R199, R200). -/
def Obligations.EncsymWritesTheCode : Prop :=
  ∀ (s : State) (x : Symbol), s.flags.codesValid = true → (s.code x).valid = true →
    (s.code x).bits.length ≤ 256 → s.ports.bitSink.Accepts →
    exec (.encsym x) s = .next (s.wrote (codeWrites (s.code x).bits)).complete

/-- A symbol without a code: `ENCSYM` raises `NO_CODE` with the symbol before any bit is written; `ENCSTREAM` does so where it meets the
byte, after the codes of the bytes before it, with the byte read and counted and the rest unread; a missing terminator stops it
after the whole payload (R202, R206). -/
def Obligations.MissingCodeStopsTheEncoder : Prop :=
  (∀ (s : State) (x : Symbol), s.flags.codesValid = true → (s.code x).valid = false →
    exec (.encsym x) s = .next (s.raise .noCode (x.setWidth 32))) ∧
  (∀ (s : State) (T : Tree) (b : Bool) (pre : List Byte) (x : Byte) (post : List Byte) (p : List Bool),
    s.flags.codesValid = true → s.HoldsCodes T → T.Legal → T.payload pre = some p → T.code (x.setWidth 9) = none →
    s.ports.byteSource.answering = true → s.ports.byteSource.rest = pre ++ x :: post → s.ports.bitSink.Accepts →
    let u := s.wrote (codeWrites p)
    exec (.encstream b) s = .next ({ u with
      ports := { u.ports with
        byteSource := { u.ports.byteSource with rest := post }
        trace := s.ports.trace ++ T.encodeTrace pre ++ [Request.byteRead] }
      counters := { u.counters with
        bytesIn := u.counters.bytesIn + BitVec.ofNat 32 (pre.length + 1) } }.raise .noCode (x.setWidth 32))) ∧
  (∀ (s : State) (T : Tree) (input : List Byte) (p : List Bool),
    s.flags.codesValid = true → s.HoldsCodes T → T.Legal → T.payload input = some p → T.code 256#9 = none →
    s.ports.byteSource.answering = true → s.ports.byteSource.rest = input → s.ports.byteSource.term = .eod →
    s.ports.bitSink.Accepts →
    let u := (s.wrote (codeWrites p)).endBytes
    exec (.encstream true) s = .next ({ u with
      ports := { u.ports with trace := s.ports.trace ++ T.encodeTrace input ++ [Request.byteRead] }
      counters := { u.counters with
        bytesIn := u.counters.bytesIn + BitVec.ofNat 32 input.length } }.raise .noCode 256))

/-- `ENCSTREAM` writes the codes of the input bytes in order, then the sentinel's code if `T = 1`; it reads exactly the bytes and the
`EOD` (R204, R205). -/
def Obligations.EncstreamWritesThePayload : Prop :=
  ∀ (s : State) (T : Tree) (b : Bool) (input : List Byte) (p e : List Bool),
    s.flags.codesValid = true → s.HoldsCodes T → T.Legal → T.payload input = some p →
    (if b then T.code 256#9 = some e else e = []) →
    s.ports.byteSource.answering = true → s.ports.byteSource.rest = input → s.ports.byteSource.term = .eod →
    s.ports.bitSink.Accepts →
    let u := (s.wrote (codeWrites (p ++ e))).endBytes
    exec (.encstream b) s = .next { u with
      ports := { u.ports with
        trace := s.ports.trace ++ T.encodeTrace input ++ [Request.byteRead] ++ e.map (fun c : Bool => Request.bitWrite 1 c.toNat) }
      counters := { u.counters with bytesIn := u.counters.bytesIn + BitVec.ofNat 32 input.length } }.complete

/-- Transport errors: a byte-source `Err` stops `ENCSTREAM` with `IO`, info 2, after the bytes before it; a bit-sink `Err` on any code
bit, in the sink's script or after it, stops `ENCSYM` and `ENCSTREAM` with `IO`, info 1, and the failing bit lands nothing: in the
code of a byte, with the rest of the input unread, or in the code of the sentinel, with all of it read (R207). -/
def Obligations.TransportErrorsStopTheEncoder : Prop :=
  (∀ (s : State) (T : Tree) (b : Bool) (input : List Byte) (p : List Bool),
    s.flags.codesValid = true → s.HoldsCodes T → T.Legal → T.payload input = some p →
    s.ports.byteSource.answering = true → s.ports.byteSource.rest = input → s.ports.byteSource.term = .err →
    s.ports.bitSink.Accepts →
    ∃ t, exec (.encstream b) s = .next t ∧ t.flags.busy = false ∧ t.errCode = 7#4 ∧ t.errInfo = 2#32 ∧
      t.ports.bitSink.out = s.ports.bitSink.out ++ p ∧
      t.counters.bitsOut = s.counters.bitsOut + BitVec.ofNat 32 p.length ∧
      t.counters.bytesIn = s.counters.bytesIn + BitVec.ofNat 32 input.length) ∧
  (∀ (s : State) (x : Symbol) (j : Nat),
    s.flags.codesValid = true → (s.code x).valid = true → j < (s.code x).bits.length →
    (s.code x).bits.length ≤ 256 → s.ports.bitSink.FailsAt j →
    ∃ t, exec (.encsym x) s = .next t ∧ t.flags.busy = false ∧ t.errCode = 7#4 ∧ t.errInfo = 1#32 ∧
      t.ports.bitSink.out = s.ports.bitSink.out ++ (s.code x).bits.take j ∧
      t.counters.bitsOut = s.counters.bitsOut + BitVec.ofNat 32 j) ∧
  (∀ (s : State) (T : Tree) (b : Bool) (pre : List Byte) (x : Byte) (post : List Byte) (p q : List Bool) (j : Nat),
    s.flags.codesValid = true → s.HoldsCodes T → T.Legal → T.payload pre = some p → T.code (x.setWidth 9) = some q →
    j < q.length → s.ports.byteSource.answering = true → s.ports.byteSource.rest = pre ++ x :: post →
    s.ports.bitSink.FailsAt (p.length + j) →
    ∃ t, exec (.encstream b) s = .next t ∧ t.flags.busy = false ∧ t.errCode = 7#4 ∧ t.errInfo = 1#32 ∧
      t.ports.bitSink.out = s.ports.bitSink.out ++ p ++ q.take j ∧
      t.counters.bitsOut = s.counters.bitsOut + BitVec.ofNat 32 (p.length + j) ∧
      t.ports.byteSource.rest = post ∧
      t.counters.bytesIn = s.counters.bytesIn + BitVec.ofNat 32 (pre.length + 1)) ∧
  (∀ (s : State) (T : Tree) (input : List Byte) (p e : List Bool) (j : Nat),
    s.flags.codesValid = true → s.HoldsCodes T → T.Legal → T.payload input = some p → T.code 256#9 = some e →
    j < e.length → s.ports.byteSource.answering = true → s.ports.byteSource.rest = input →
    s.ports.byteSource.term = .eod → s.ports.bitSink.FailsAt (p.length + j) →
    ∃ t, exec (.encstream true) s = .next t ∧ t.flags.busy = false ∧ t.errCode = 7#4 ∧ t.errInfo = 1#32 ∧
      t.ports.bitSink.out = s.ports.bitSink.out ++ p ++ e.take j ∧
      t.counters.bitsOut = s.counters.bitsOut + BitVec.ofNat 32 (p.length + j) ∧
      t.counters.bytesIn = s.counters.bytesIn + BitVec.ofNat 32 input.length)

/-- `FLUSH` asks the bit sink if `K = 1`, then the byte sink if `Y = 1`; an `Err` stops it with `IO` and the port's number, so the byte sink
is not flushed after the bit sink's `Err`; it has no precondition and changes no counter (R210, R211). -/
def Obligations.FlushAsksTheSinksInOrder : Prop :=
  ∀ s : State, s.ports.bitSink.answering = true → s.ports.byteSink.answering = true →
    let bitsDone (q : Ports) : Ports :=
      { q with
        bitSink := { q.bitSink with answers := q.bitSink.answers.tail, flushes := q.bitSink.flushes + 1 }
        trace := q.trace ++ [.flush .bitSink] }
    let bitsFail (q : Ports) : Ports :=
      { q with
        bitSink := { q.bitSink with answers := q.bitSink.answers.tail }
        trace := q.trace ++ [.flush .bitSink] }
    let bytesDone (q : Ports) : Ports :=
      { q with
        byteSink := { q.byteSink with answers := q.byteSink.answers.tail, flushes := q.byteSink.flushes + 1 }
        trace := q.trace ++ [.flush .byteSink] }
    let bytesFail (q : Ports) : Ports :=
      { q with
        byteSink := { q.byteSink with answers := q.byteSink.answers.tail }
        trace := q.trace ++ [.flush .byteSink] }
    exec (.flush false false) s = .next s.complete ∧
    (s.ports.bitSink.reply = .ok →
      exec (.flush true false) s = .next { s with ports := bitsDone s.ports }.complete) ∧
    (s.ports.byteSink.reply = .ok →
      exec (.flush false true) s = .next { s with ports := bytesDone s.ports }.complete) ∧
    (s.ports.bitSink.reply = .ok → s.ports.byteSink.reply = .ok →
      exec (.flush true true) s = .next { s with ports := bytesDone (bitsDone s.ports) }.complete) ∧
    (∀ y, s.ports.bitSink.reply = .err →
      exec (.flush true y) s = .next ({ s with ports := bitsFail s.ports }.raise .io 1)) ∧
    (s.ports.byteSink.reply = .err →
      exec (.flush false true) s = .next ({ s with ports := bytesFail s.ports }.raise .io 3)) ∧
    (s.ports.bitSink.reply = .ok → s.ports.byteSink.reply = .err →
      exec (.flush true true) s = .next ({ s with ports := bytesFail (bitsDone s.ports) }.raise .io 3))

/-! ## DECSYM and DECSTREAM (spec/44_decoder.md) -/

/-- `DECSYM` reads exactly the bits of one code, whose length is the depth of the leaf, and reports its symbol; a root that is the
sentinel reads none; nothing else changes (R221, R222, R223). -/
def Obligations.DecsymDecodesOneCode : Prop :=
  ∀ (s : State) (T : Tree) (x : Symbol) (p more : List Bool),
    s.flags.treeValid = true → s.Holds s.root T → T.Legal → T.code x = some p → (p = [] → x = 256#9) →
    s.ports.bitSource.answering = true → s.ports.bitSource.rest = p ++ more →
    let u := s.haveRead (List.replicate p.length 1) more
    exec .decsym s = .next { u with sym := x, flags := { u.flags with eos := x = 256#9 } }.complete

/-- When the source ends within a code, `DECSYM` raises `MISSING_TERM` at `EOD`: info 0 before any bit of the code, 1 after at least
one (R224); and `IO`, info 0, at `Err`. `STATUS.EOS` is 0, and `SYM` stays (R221, R262). -/
def Obligations.DecsymReportsAMissingTerminator : Prop :=
  ∀ (s : State) (T : Tree) (x : Symbol) (p lost : List Bool),
    s.flags.treeValid = true → s.Holds s.root T → T.Legal → T.code x = some (p ++ lost) → lost ≠ [] →
    s.ports.bitSource.answering = true → s.ports.bitSource.rest = p →
    let u := (s.haveRead (List.replicate p.length 1) []).endBits
    let v : State := { u with
      ports := { u.ports with trace := u.ports.trace ++ [Request.bitRead 1] }
      flags := { u.flags with eos := false } }
    (s.ports.bitSource.term = .eod → exec .decsym s = .next (v.raise .missingTerm (if p = [] then 0 else 1))) ∧
    (s.ports.bitSource.term = .err → exec .decsym s = .next (v.raise .io 0))

/-- A root that is a literal leaf: `DECSYM` and `DECSTREAM` raise `MISSING_TERM`, info 2, at once, reading and writing nothing; `BUILD`
never makes such a tree (R234). -/
def Obligations.LiteralRootHasNoTerminator : Prop :=
  (∀ s : State, s.flags.treeValid = true → (s.node s.root).leaf = true → (s.node s.root).sym ≠ 256#9 →
    exec .decsym s = .next ({ s with flags := { s.flags with eos := false } }.raise .missingTerm 2) ∧
    exec .decstream s = .next ({ s with flags := { s.flags with eos := false } }.raise .missingTerm 2)) ∧
  (∀ s t : State, exec .build s = .next t → (t.node t.root).leaf = true → (t.node t.root).sym = 256#9)

/-- `DECSTREAM` writes the bytes whose codes the source holds, stops at the sentinel's code, and leaves the bits after it unread
(R231, R233). -/
def Obligations.DecstreamDecodesToTheSentinel : Prop :=
  ∀ (s : State) (T : Tree) (bytes : List Byte) (p e more : List Bool),
    s.flags.treeValid = true → s.Holds s.root T → T.Legal → T.payload bytes = some p → T.code 256#9 = some e →
    s.ports.bitSource.answering = true → s.ports.bitSource.rest = p ++ e ++ more → s.ports.byteSink.Accepts →
    let u := s.haveRead (List.replicate (p ++ e).length 1) more
    exec .decstream s = .next { u with
      ports := { u.ports with
        byteSink := u.ports.byteSink.took bytes
        trace := s.ports.trace ++ T.decodeTrace bytes ++ e.map (fun _ => Request.bitRead 1) }
      counters := { u.counters with bytesOut := u.counters.bytesOut + BitVec.ofNat 32 bytes.length }
      sym := 256#9
      flags := { u.flags with eos := true } }.complete

/-- When the source ends before the sentinel, `DECSTREAM` raises `MISSING_TERM` at `EOD`, info 0 at a code boundary and 1 in a code;
and `IO`, info 0, at `Err`. A byte-sink `Err` stops it with `IO`, info 3: that byte lands nothing, and no further bit is read.
`STATUS.EOS` is 0, and the bytes decoded before stay written (R231, R232, R238, R262). -/
def Obligations.DecstreamReportsAMissingTerminator : Prop :=
  (∀ (s : State) (T : Tree) (bytes : List Byte) (x : Symbol) (p q lost : List Bool),
    s.flags.treeValid = true → s.Holds s.root T → T.Legal → T.payload bytes = some p →
    T.code x = some (q ++ lost) → lost ≠ [] →
    s.ports.bitSource.answering = true → s.ports.bitSource.rest = p ++ q → s.ports.byteSink.Accepts →
    ∃ t, exec .decstream s = .next t ∧ t.flags.busy = false ∧
      (s.ports.bitSource.term = .eod → t.errCode = 3#4 ∧ t.errInfo = (if q = [] then 0#32 else 1#32)) ∧
      (s.ports.bitSource.term = .err → t.errCode = 7#4 ∧ t.errInfo = 0#32) ∧
      t.flags.err = true ∧ t.flags.eos = false ∧
      t.ports.byteSink.out = s.ports.byteSink.out ++ bytes ∧
      t.counters.bitsIn = s.counters.bitsIn + BitVec.ofNat 32 (p ++ q).length ∧
      t.counters.bytesOut = s.counters.bytesOut + BitVec.ofNat 32 bytes.length ∧
      t.sym = (match bytes.getLast? with | some b => b.setWidth 9 | none => s.sym)) ∧
  (∀ (s : State) (T : Tree) (bytes : List Byte) (b : Byte) (p q more : List Bool),
    s.flags.treeValid = true → s.Holds s.root T → T.Legal → T.payload bytes = some p →
    T.code (b.setWidth 9) = some q → q ≠ [] →
    s.ports.bitSource.answering = true → s.ports.bitSource.rest = p ++ q ++ more →
    s.ports.byteSink.FailsAt bytes.length →
    ∃ t, exec .decstream s = .next t ∧ t.flags.busy = false ∧ t.errCode = 7#4 ∧ t.errInfo = 3#32 ∧
      t.flags.err = true ∧ t.flags.eos = false ∧
      t.ports.byteSink.out = s.ports.byteSink.out ++ bytes ∧ t.ports.bitSource.rest = more ∧
      t.counters.bitsIn = s.counters.bitsIn + BitVec.ofNat 32 (p ++ q).length ∧
      t.counters.bytesOut = s.counters.bytesOut + BitVec.ofNat 32 bytes.length ∧
      t.sym = b.setWidth 9)

/-- `DECSTREAM` and `HDRRD` on a source that holds `N` bits issue at most `N + 1` bit reads and complete (R237). -/
def Obligations.ReadingCommandsTerminate : Prop :=
  ∀ (s : State), s.TreeInv → s.PortsAnswer →
    (∃ t reqs, exec .decstream s = .next t ∧ t.flags.busy = false ∧ t.ports.trace = s.ports.trace ++ reqs ∧
      (reqs.filter (fun r => r = .bitRead 1)).length ≤ s.ports.bitSource.rest.length + 1) ∧
    (∀ m, ∃ t reqs, exec (.hdrrd m) s = .next t ∧ t.flags.busy = false ∧ t.ports.trace = s.ports.trace ++ reqs ∧
      reqs.length ≤ s.ports.bitSource.rest.length + 1)

/-! ## Whole streams -/

/-- Round trip: compress any bytes whose counts are at least 1, decompress what was written, and the same bytes come back, with
nothing after the terminator read (R235). -/
def Obligations.CompressDecompressRoundTrip : Prop :=
  ∀ (s : State) (input : List Byte), s.FreqCovers input →
    s.ports.byteSource.answering = true → s.ports.byteSource.rest = input → s.ports.byteSource.term = .eod →
    s.ports.bitSink.Accepts →
    ∃ (t : State) (W : List Bool), runAll [.build, .gencodes, .hdrwr true, .encstream true] s = .next t ∧ t.Succeeded ∧
      t.ports.bitSink.out = s.ports.bitSink.out ++ W ∧
      ∀ (s' : State) (more : List Bool), s'.ports.bitSource.answering = true →
        s'.ports.bitSource.rest = W ++ more → s'.ports.byteSink.Accepts →
        ∃ u, runAll [.hdrrd true, .decstream] s' = .next u ∧ u.Succeeded ∧
          u.ports.byteSink.out = s'.ports.byteSink.out ++ input ∧ u.ports.bitSource.rest = more

/-- Truncation: a stream cut anywhere before its last bit never decompresses; it fails with `TRUNC_HDR` in the magic or the header, whose
length is that of R111, and with `MISSING_TERM` after it (R236). -/
def Obligations.TruncatedStreamNeverDecompresses : Prop :=
  ∀ (s t s' : State) (input : List Byte) (W P lost : List Bool), s.FreqCovers input →
    s.ports.byteSource.answering = true → s.ports.byteSource.rest = input → s.ports.byteSource.term = .eod →
    s.ports.bitSink.Accepts → runAll [.build, .gencodes, .hdrwr true, .encstream true] s = .next t →
    t.ports.bitSink.out = s.ports.bitSink.out ++ W → W = P ++ lost → lost ≠ [] →
    s'.ports.bitSource.answering = true → s'.ports.bitSource.rest = P → s'.ports.bitSource.term = .eod →
    s'.ports.byteSink.Accepts →
    ∃ u, runAll [.hdrrd true, .decstream] s' = .next u ∧ u.flags.busy = false ∧ u.flags.err = true ∧
      (P.length < 32 + (11 * s.qualifying.length - 1) → u.errCode = 2#4) ∧
      (32 + (11 * s.qualifying.length - 1) ≤ P.length → u.errCode = 3#4)
end

