-- ==== Sys2Proof/Laws/State.lean ====
section
/-! SUPPORT. The fields of an updated state, one lemma for each field and each update, so that no proof unfolds a record
update. -/

namespace Sys2Proof.Machine

variable (s : State)

/-! ## `State.accept` -/

@[simp] theorem State.accept_irqEn (js : List Job) : (s.accept js).irqEn = s.irqEn := rfl
@[simp] theorem State.accept_flags (js : List Job) :
    (s.accept js).flags = { s.flags with busy := true, done := false } := rfl
@[simp] theorem State.accept_errCode (js : List Job) : (s.accept js).errCode = s.errCode := rfl
@[simp] theorem State.accept_errInfo (js : List Job) : (s.accept js).errInfo = s.errInfo := rfl
@[simp] theorem State.accept_root (js : List Job) : (s.accept js).root = s.root := rfl
@[simp] theorem State.accept_nodeCount (js : List Job) : (s.accept js).nodeCount = s.nodeCount := rfl
@[simp] theorem State.accept_leafCount (js : List Job) : (s.accept js).leafCount = s.leafCount := rfl
@[simp] theorem State.accept_sym (js : List Job) : (s.accept js).sym = s.sym := rfl
@[simp] theorem State.accept_nodeSel (js : List Job) : (s.accept js).nodeSel = s.nodeSel := rfl
@[simp] theorem State.accept_codeSel (js : List Job) : (s.accept js).codeSel = s.codeSel := rfl
@[simp] theorem State.accept_counters (js : List Job) : (s.accept js).counters = s.counters := rfl
@[simp] theorem State.accept_freq (js : List Job) : (s.accept js).freq = s.freq := rfl
@[simp] theorem State.accept_nodes (js : List Job) : (s.accept js).nodes = s.nodes := rfl
@[simp] theorem State.accept_codes (js : List Job) : (s.accept js).codes = s.codes := rfl
@[simp] theorem State.accept_seq (js : List Job) : 
    (s.accept js).seq = { Seq.idle with jobs := js, inUse := js.flatMap Job.uses } := rfl
@[simp] theorem State.accept_ports (js : List Job) : (s.accept js).ports = s.ports := rfl
@[simp] theorem State.accept_events (js : List Job) : (s.accept js).events = s.events := rfl
@[simp] theorem State.accept_readData (js : List Job) : (s.accept js).readData = s.readData := rfl
@[simp] theorem State.accept_draws (js : List Job) : (s.accept js).draws = s.draws := rfl

/-! ## `State.complete` -/

@[simp] theorem State.complete_irqEn : (s.complete).irqEn = s.irqEn := rfl
@[simp] theorem State.complete_flags : (s.complete).flags = { s.flags with done := true, busy := false } := rfl
@[simp] theorem State.complete_errCode : (s.complete).errCode = 0#4 := rfl
@[simp] theorem State.complete_errInfo : (s.complete).errInfo = 0#32 := rfl
@[simp] theorem State.complete_root : (s.complete).root = s.root := rfl
@[simp] theorem State.complete_nodeCount : (s.complete).nodeCount = s.nodeCount := rfl
@[simp] theorem State.complete_leafCount : (s.complete).leafCount = s.leafCount := rfl
@[simp] theorem State.complete_sym : (s.complete).sym = s.sym := rfl
@[simp] theorem State.complete_nodeSel : (s.complete).nodeSel = s.nodeSel := rfl
@[simp] theorem State.complete_codeSel : (s.complete).codeSel = s.codeSel := rfl
@[simp] theorem State.complete_counters : (s.complete).counters = s.counters := rfl
@[simp] theorem State.complete_freq : (s.complete).freq = s.freq := rfl
@[simp] theorem State.complete_nodes : (s.complete).nodes = s.nodes := rfl
@[simp] theorem State.complete_codes : (s.complete).codes = s.codes := rfl
@[simp] theorem State.complete_seq : (s.complete).seq = Seq.idle := rfl
@[simp] theorem State.complete_ports : (s.complete).ports = s.ports := rfl
@[simp] theorem State.complete_events : (s.complete).events = s.events := rfl
@[simp] theorem State.complete_readData : (s.complete).readData = s.readData := rfl
@[simp] theorem State.complete_draws : (s.complete).draws = s.draws := rfl

/-! ## `State.raise` -/

@[simp] theorem State.raise_irqEn (e : Err) (v : Word) : (s.raise e v).irqEn = s.irqEn := rfl
@[simp] theorem State.raise_flags (e : Err) (v : Word) :
    (s.raise e v).flags = { s.flags with err := true, done := true, busy := false } := rfl
@[simp] theorem State.raise_errCode (e : Err) (v : Word) : (s.raise e v).errCode = e.code := rfl
@[simp] theorem State.raise_errInfo (e : Err) (v : Word) : (s.raise e v).errInfo = v := rfl
@[simp] theorem State.raise_root (e : Err) (v : Word) : (s.raise e v).root = s.root := rfl
@[simp] theorem State.raise_nodeCount (e : Err) (v : Word) : (s.raise e v).nodeCount = s.nodeCount := rfl
@[simp] theorem State.raise_leafCount (e : Err) (v : Word) : (s.raise e v).leafCount = s.leafCount := rfl
@[simp] theorem State.raise_sym (e : Err) (v : Word) : (s.raise e v).sym = s.sym := rfl
@[simp] theorem State.raise_nodeSel (e : Err) (v : Word) : (s.raise e v).nodeSel = s.nodeSel := rfl
@[simp] theorem State.raise_codeSel (e : Err) (v : Word) : (s.raise e v).codeSel = s.codeSel := rfl
@[simp] theorem State.raise_counters (e : Err) (v : Word) : (s.raise e v).counters = s.counters := rfl
@[simp] theorem State.raise_freq (e : Err) (v : Word) : (s.raise e v).freq = s.freq := rfl
@[simp] theorem State.raise_nodes (e : Err) (v : Word) : (s.raise e v).nodes = s.nodes := rfl
@[simp] theorem State.raise_codes (e : Err) (v : Word) : (s.raise e v).codes = s.codes := rfl
@[simp] theorem State.raise_seq (e : Err) (v : Word) : (s.raise e v).seq = Seq.idle := rfl
@[simp] theorem State.raise_ports (e : Err) (v : Word) : (s.raise e v).ports = s.ports := rfl
@[simp] theorem State.raise_events (e : Err) (v : Word) : (s.raise e v).events = s.events := rfl
@[simp] theorem State.raise_readData (e : Err) (v : Word) : (s.raise e v).readData = s.readData := rfl
@[simp] theorem State.raise_draws (e : Err) (v : Word) : (s.raise e v).draws = s.draws := rfl

/-! ## `State.raiseDec` -/

@[simp] theorem State.raiseDec_irqEn (e : Err) (v : Word) : (s.raiseDec e v).irqEn = s.irqEn := rfl
@[simp] theorem State.raiseDec_flags (e : Err) (v : Word) :
    (s.raiseDec e v).flags = { s.flags with eos := false, err := true, done := true, busy := false } := rfl
@[simp] theorem State.raiseDec_errCode (e : Err) (v : Word) : (s.raiseDec e v).errCode = e.code := rfl
@[simp] theorem State.raiseDec_errInfo (e : Err) (v : Word) : (s.raiseDec e v).errInfo = v := rfl
@[simp] theorem State.raiseDec_root (e : Err) (v : Word) : (s.raiseDec e v).root = s.root := rfl
@[simp] theorem State.raiseDec_nodeCount (e : Err) (v : Word) : (s.raiseDec e v).nodeCount = s.nodeCount := rfl
@[simp] theorem State.raiseDec_leafCount (e : Err) (v : Word) : (s.raiseDec e v).leafCount = s.leafCount := rfl
@[simp] theorem State.raiseDec_sym (e : Err) (v : Word) : (s.raiseDec e v).sym = s.sym := rfl
@[simp] theorem State.raiseDec_nodeSel (e : Err) (v : Word) : (s.raiseDec e v).nodeSel = s.nodeSel := rfl
@[simp] theorem State.raiseDec_codeSel (e : Err) (v : Word) : (s.raiseDec e v).codeSel = s.codeSel := rfl
@[simp] theorem State.raiseDec_counters (e : Err) (v : Word) : (s.raiseDec e v).counters = s.counters := rfl
@[simp] theorem State.raiseDec_freq (e : Err) (v : Word) : (s.raiseDec e v).freq = s.freq := rfl
@[simp] theorem State.raiseDec_nodes (e : Err) (v : Word) : (s.raiseDec e v).nodes = s.nodes := rfl
@[simp] theorem State.raiseDec_codes (e : Err) (v : Word) : (s.raiseDec e v).codes = s.codes := rfl
@[simp] theorem State.raiseDec_seq (e : Err) (v : Word) : (s.raiseDec e v).seq = Seq.idle := rfl
@[simp] theorem State.raiseDec_ports (e : Err) (v : Word) : (s.raiseDec e v).ports = s.ports := rfl
@[simp] theorem State.raiseDec_events (e : Err) (v : Word) : (s.raiseDec e v).events = s.events := rfl
@[simp] theorem State.raiseDec_readData (e : Err) (v : Word) : (s.raiseDec e v).readData = s.readData := rfl
@[simp] theorem State.raiseDec_draws (e : Err) (v : Word) : (s.raiseDec e v).draws = s.draws := rfl

/-! ## `State.push` -/

@[simp] theorem State.push_irqEn (js : List Job) : (s.push js).irqEn = s.irqEn := rfl
@[simp] theorem State.push_flags (js : List Job) : (s.push js).flags = s.flags := rfl
@[simp] theorem State.push_errCode (js : List Job) : (s.push js).errCode = s.errCode := rfl
@[simp] theorem State.push_errInfo (js : List Job) : (s.push js).errInfo = s.errInfo := rfl
@[simp] theorem State.push_root (js : List Job) : (s.push js).root = s.root := rfl
@[simp] theorem State.push_nodeCount (js : List Job) : (s.push js).nodeCount = s.nodeCount := rfl
@[simp] theorem State.push_leafCount (js : List Job) : (s.push js).leafCount = s.leafCount := rfl
@[simp] theorem State.push_sym (js : List Job) : (s.push js).sym = s.sym := rfl
@[simp] theorem State.push_nodeSel (js : List Job) : (s.push js).nodeSel = s.nodeSel := rfl
@[simp] theorem State.push_codeSel (js : List Job) : (s.push js).codeSel = s.codeSel := rfl
@[simp] theorem State.push_counters (js : List Job) : (s.push js).counters = s.counters := rfl
@[simp] theorem State.push_freq (js : List Job) : (s.push js).freq = s.freq := rfl
@[simp] theorem State.push_nodes (js : List Job) : (s.push js).nodes = s.nodes := rfl
@[simp] theorem State.push_codes (js : List Job) : (s.push js).codes = s.codes := rfl
@[simp] theorem State.push_seq (js : List Job) : (s.push js).seq = { s.seq with jobs := js ++ s.seq.jobs } := rfl
@[simp] theorem State.push_ports (js : List Job) : (s.push js).ports = s.ports := rfl
@[simp] theorem State.push_events (js : List Job) : (s.push js).events = s.events := rfl
@[simp] theorem State.push_readData (js : List Job) : (s.push js).readData = s.readData := rfl
@[simp] theorem State.push_draws (js : List Job) : (s.push js).draws = s.draws := rfl

/-! ## `State.await` -/

@[simp] theorem State.await_irqEn (p : Port) (j : Job) : (s.await p j).irqEn = s.irqEn := rfl
@[simp] theorem State.await_flags (p : Port) (j : Job) : (s.await p j).flags = s.flags := rfl
@[simp] theorem State.await_errCode (p : Port) (j : Job) : (s.await p j).errCode = s.errCode := rfl
@[simp] theorem State.await_errInfo (p : Port) (j : Job) : (s.await p j).errInfo = s.errInfo := rfl
@[simp] theorem State.await_root (p : Port) (j : Job) : (s.await p j).root = s.root := rfl
@[simp] theorem State.await_nodeCount (p : Port) (j : Job) : (s.await p j).nodeCount = s.nodeCount := rfl
@[simp] theorem State.await_leafCount (p : Port) (j : Job) : (s.await p j).leafCount = s.leafCount := rfl
@[simp] theorem State.await_sym (p : Port) (j : Job) : (s.await p j).sym = s.sym := rfl
@[simp] theorem State.await_nodeSel (p : Port) (j : Job) : (s.await p j).nodeSel = s.nodeSel := rfl
@[simp] theorem State.await_codeSel (p : Port) (j : Job) : (s.await p j).codeSel = s.codeSel := rfl
@[simp] theorem State.await_counters (p : Port) (j : Job) : (s.await p j).counters = s.counters := rfl
@[simp] theorem State.await_freq (p : Port) (j : Job) : (s.await p j).freq = s.freq := rfl
@[simp] theorem State.await_nodes (p : Port) (j : Job) : (s.await p j).nodes = s.nodes := rfl
@[simp] theorem State.await_codes (p : Port) (j : Job) : (s.await p j).codes = s.codes := rfl
@[simp] theorem State.await_seq (p : Port) (j : Job) :
    (s.await p j).seq = { s.seq with jobs := j :: s.seq.jobs, outstanding := some p } := rfl
@[simp] theorem State.await_ports (p : Port) (j : Job) : (s.await p j).ports = s.ports := rfl
@[simp] theorem State.await_events (p : Port) (j : Job) : (s.await p j).events = s.events := rfl
@[simp] theorem State.await_readData (p : Port) (j : Job) : (s.await p j).readData = s.readData := rfl
@[simp] theorem State.await_draws (p : Port) (j : Job) : (s.await p j).draws = s.draws := rfl

/-! ## `State.answered` -/

@[simp] theorem State.answered_irqEn (r : Request) : (s.answered r).irqEn = s.irqEn := rfl
@[simp] theorem State.answered_flags (r : Request) : (s.answered r).flags = s.flags := rfl
@[simp] theorem State.answered_errCode (r : Request) : (s.answered r).errCode = s.errCode := rfl
@[simp] theorem State.answered_errInfo (r : Request) : (s.answered r).errInfo = s.errInfo := rfl
@[simp] theorem State.answered_root (r : Request) : (s.answered r).root = s.root := rfl
@[simp] theorem State.answered_nodeCount (r : Request) : (s.answered r).nodeCount = s.nodeCount := rfl
@[simp] theorem State.answered_leafCount (r : Request) : (s.answered r).leafCount = s.leafCount := rfl
@[simp] theorem State.answered_sym (r : Request) : (s.answered r).sym = s.sym := rfl
@[simp] theorem State.answered_nodeSel (r : Request) : (s.answered r).nodeSel = s.nodeSel := rfl
@[simp] theorem State.answered_codeSel (r : Request) : (s.answered r).codeSel = s.codeSel := rfl
@[simp] theorem State.answered_counters (r : Request) : (s.answered r).counters = s.counters := rfl
@[simp] theorem State.answered_freq (r : Request) : (s.answered r).freq = s.freq := rfl
@[simp] theorem State.answered_nodes (r : Request) : (s.answered r).nodes = s.nodes := rfl
@[simp] theorem State.answered_codes (r : Request) : (s.answered r).codes = s.codes := rfl
@[simp] theorem State.answered_seq (r : Request) : (s.answered r).seq = { s.seq with outstanding := none } := rfl
@[simp] theorem State.answered_ports (r : Request) :
    (s.answered r).ports = { s.ports with trace := s.ports.trace ++ [r] } := rfl
@[simp] theorem State.answered_events (r : Request) : (s.answered r).events = s.events := rfl
@[simp] theorem State.answered_readData (r : Request) : (s.answered r).readData = s.readData := rfl
@[simp] theorem State.answered_draws (r : Request) : (s.answered r).draws = s.draws := rfl

/-! ## `State.endBits` -/

@[simp] theorem State.endBits_irqEn : (s.endBits).irqEn = s.irqEn := rfl
@[simp] theorem State.endBits_flags : (s.endBits).flags = s.flags := rfl
@[simp] theorem State.endBits_errCode : (s.endBits).errCode = s.errCode := rfl
@[simp] theorem State.endBits_errInfo : (s.endBits).errInfo = s.errInfo := rfl
@[simp] theorem State.endBits_root : (s.endBits).root = s.root := rfl
@[simp] theorem State.endBits_nodeCount : (s.endBits).nodeCount = s.nodeCount := rfl
@[simp] theorem State.endBits_leafCount : (s.endBits).leafCount = s.leafCount := rfl
@[simp] theorem State.endBits_sym : (s.endBits).sym = s.sym := rfl
@[simp] theorem State.endBits_nodeSel : (s.endBits).nodeSel = s.nodeSel := rfl
@[simp] theorem State.endBits_codeSel : (s.endBits).codeSel = s.codeSel := rfl
@[simp] theorem State.endBits_counters : (s.endBits).counters = s.counters := rfl
@[simp] theorem State.endBits_freq : (s.endBits).freq = s.freq := rfl
@[simp] theorem State.endBits_nodes : (s.endBits).nodes = s.nodes := rfl
@[simp] theorem State.endBits_codes : (s.endBits).codes = s.codes := rfl
@[simp] theorem State.endBits_seq : (s.endBits).seq = s.seq := rfl
@[simp] theorem State.endBits_ports :
    (s.endBits).ports = { s.ports with
      bitSource := { s.ports.bitSource with rest := Config.freeBits s.draws, term := Config.freeEnd s.draws } } := rfl
@[simp] theorem State.endBits_events : (s.endBits).events = s.events := rfl
@[simp] theorem State.endBits_readData : (s.endBits).readData = s.readData := rfl
@[simp] theorem State.endBits_draws : (s.endBits).draws = s.draws + 1 := rfl

/-! ## `State.endBytes` -/

@[simp] theorem State.endBytes_irqEn : (s.endBytes).irqEn = s.irqEn := rfl
@[simp] theorem State.endBytes_flags : (s.endBytes).flags = s.flags := rfl
@[simp] theorem State.endBytes_errCode : (s.endBytes).errCode = s.errCode := rfl
@[simp] theorem State.endBytes_errInfo : (s.endBytes).errInfo = s.errInfo := rfl
@[simp] theorem State.endBytes_root : (s.endBytes).root = s.root := rfl
@[simp] theorem State.endBytes_nodeCount : (s.endBytes).nodeCount = s.nodeCount := rfl
@[simp] theorem State.endBytes_leafCount : (s.endBytes).leafCount = s.leafCount := rfl
@[simp] theorem State.endBytes_sym : (s.endBytes).sym = s.sym := rfl
@[simp] theorem State.endBytes_nodeSel : (s.endBytes).nodeSel = s.nodeSel := rfl
@[simp] theorem State.endBytes_codeSel : (s.endBytes).codeSel = s.codeSel := rfl
@[simp] theorem State.endBytes_counters : (s.endBytes).counters = s.counters := rfl
@[simp] theorem State.endBytes_freq : (s.endBytes).freq = s.freq := rfl
@[simp] theorem State.endBytes_nodes : (s.endBytes).nodes = s.nodes := rfl
@[simp] theorem State.endBytes_codes : (s.endBytes).codes = s.codes := rfl
@[simp] theorem State.endBytes_seq : (s.endBytes).seq = s.seq := rfl
@[simp] theorem State.endBytes_ports :
    (s.endBytes).ports = { s.ports with
      byteSource := { s.ports.byteSource with rest := Config.freeBytes s.draws, term := Config.freeEnd s.draws } } := rfl
@[simp] theorem State.endBytes_events : (s.endBytes).events = s.events := rfl
@[simp] theorem State.endBytes_readData : (s.endBytes).readData = s.readData := rfl
@[simp] theorem State.endBytes_draws : (s.endBytes).draws = s.draws + 1 := rfl

/-! ## `State.setFreq` -/

@[simp] theorem State.setFreq_irqEn (x : Nat) (v : Word) : (s.setFreq x v).irqEn = s.irqEn := rfl
@[simp] theorem State.setFreq_flags (x : Nat) (v : Word) : (s.setFreq x v).flags = s.flags := rfl
@[simp] theorem State.setFreq_errCode (x : Nat) (v : Word) : (s.setFreq x v).errCode = s.errCode := rfl
@[simp] theorem State.setFreq_errInfo (x : Nat) (v : Word) : (s.setFreq x v).errInfo = s.errInfo := rfl
@[simp] theorem State.setFreq_root (x : Nat) (v : Word) : (s.setFreq x v).root = s.root := rfl
@[simp] theorem State.setFreq_nodeCount (x : Nat) (v : Word) : (s.setFreq x v).nodeCount = s.nodeCount := rfl
@[simp] theorem State.setFreq_leafCount (x : Nat) (v : Word) : (s.setFreq x v).leafCount = s.leafCount := rfl
@[simp] theorem State.setFreq_sym (x : Nat) (v : Word) : (s.setFreq x v).sym = s.sym := rfl
@[simp] theorem State.setFreq_nodeSel (x : Nat) (v : Word) : (s.setFreq x v).nodeSel = s.nodeSel := rfl
@[simp] theorem State.setFreq_codeSel (x : Nat) (v : Word) : (s.setFreq x v).codeSel = s.codeSel := rfl
@[simp] theorem State.setFreq_counters (x : Nat) (v : Word) : (s.setFreq x v).counters = s.counters := rfl
@[simp] theorem State.setFreq_freq (x : Nat) (v : Word) : (s.setFreq x v).freq = s.freq.setIfInBounds x v := rfl
@[simp] theorem State.setFreq_nodes (x : Nat) (v : Word) : (s.setFreq x v).nodes = s.nodes := rfl
@[simp] theorem State.setFreq_codes (x : Nat) (v : Word) : (s.setFreq x v).codes = s.codes := rfl
@[simp] theorem State.setFreq_seq (x : Nat) (v : Word) : (s.setFreq x v).seq = s.seq := rfl
@[simp] theorem State.setFreq_ports (x : Nat) (v : Word) : (s.setFreq x v).ports = s.ports := rfl
@[simp] theorem State.setFreq_events (x : Nat) (v : Word) : (s.setFreq x v).events = s.events := rfl
@[simp] theorem State.setFreq_readData (x : Nat) (v : Word) : (s.setFreq x v).readData = s.readData := rfl
@[simp] theorem State.setFreq_draws (x : Nat) (v : Word) : (s.setFreq x v).draws = s.draws := rfl

/-! ## `State.setNode` -/

@[simp] theorem State.setNode_irqEn (i : NodeIx) (n : Node) : (s.setNode i n).irqEn = s.irqEn := rfl
@[simp] theorem State.setNode_flags (i : NodeIx) (n : Node) : (s.setNode i n).flags = s.flags := rfl
@[simp] theorem State.setNode_errCode (i : NodeIx) (n : Node) : (s.setNode i n).errCode = s.errCode := rfl
@[simp] theorem State.setNode_errInfo (i : NodeIx) (n : Node) : (s.setNode i n).errInfo = s.errInfo := rfl
@[simp] theorem State.setNode_root (i : NodeIx) (n : Node) : (s.setNode i n).root = s.root := rfl
@[simp] theorem State.setNode_nodeCount (i : NodeIx) (n : Node) : (s.setNode i n).nodeCount = s.nodeCount := rfl
@[simp] theorem State.setNode_leafCount (i : NodeIx) (n : Node) : (s.setNode i n).leafCount = s.leafCount := rfl
@[simp] theorem State.setNode_sym (i : NodeIx) (n : Node) : (s.setNode i n).sym = s.sym := rfl
@[simp] theorem State.setNode_nodeSel (i : NodeIx) (n : Node) : (s.setNode i n).nodeSel = s.nodeSel := rfl
@[simp] theorem State.setNode_codeSel (i : NodeIx) (n : Node) : (s.setNode i n).codeSel = s.codeSel := rfl
@[simp] theorem State.setNode_counters (i : NodeIx) (n : Node) : (s.setNode i n).counters = s.counters := rfl
@[simp] theorem State.setNode_freq (i : NodeIx) (n : Node) : (s.setNode i n).freq = s.freq := rfl
@[simp] theorem State.setNode_nodes (i : NodeIx) (n : Node) :
    (s.setNode i n).nodes = s.nodes.setIfInBounds i.toNat n := rfl
@[simp] theorem State.setNode_codes (i : NodeIx) (n : Node) : (s.setNode i n).codes = s.codes := rfl
@[simp] theorem State.setNode_seq (i : NodeIx) (n : Node) : (s.setNode i n).seq = s.seq := rfl
@[simp] theorem State.setNode_ports (i : NodeIx) (n : Node) : (s.setNode i n).ports = s.ports := rfl
@[simp] theorem State.setNode_events (i : NodeIx) (n : Node) : (s.setNode i n).events = s.events := rfl
@[simp] theorem State.setNode_readData (i : NodeIx) (n : Node) : (s.setNode i n).readData = s.readData := rfl
@[simp] theorem State.setNode_draws (i : NodeIx) (n : Node) : (s.setNode i n).draws = s.draws := rfl

/-! ## `State.setCode` -/

@[simp] theorem State.setCode_irqEn (x : Symbol) (c : Code) : (s.setCode x c).irqEn = s.irqEn := rfl
@[simp] theorem State.setCode_flags (x : Symbol) (c : Code) : (s.setCode x c).flags = s.flags := rfl
@[simp] theorem State.setCode_errCode (x : Symbol) (c : Code) : (s.setCode x c).errCode = s.errCode := rfl
@[simp] theorem State.setCode_errInfo (x : Symbol) (c : Code) : (s.setCode x c).errInfo = s.errInfo := rfl
@[simp] theorem State.setCode_root (x : Symbol) (c : Code) : (s.setCode x c).root = s.root := rfl
@[simp] theorem State.setCode_nodeCount (x : Symbol) (c : Code) : (s.setCode x c).nodeCount = s.nodeCount := rfl
@[simp] theorem State.setCode_leafCount (x : Symbol) (c : Code) : (s.setCode x c).leafCount = s.leafCount := rfl
@[simp] theorem State.setCode_sym (x : Symbol) (c : Code) : (s.setCode x c).sym = s.sym := rfl
@[simp] theorem State.setCode_nodeSel (x : Symbol) (c : Code) : (s.setCode x c).nodeSel = s.nodeSel := rfl
@[simp] theorem State.setCode_codeSel (x : Symbol) (c : Code) : (s.setCode x c).codeSel = s.codeSel := rfl
@[simp] theorem State.setCode_counters (x : Symbol) (c : Code) : (s.setCode x c).counters = s.counters := rfl
@[simp] theorem State.setCode_freq (x : Symbol) (c : Code) : (s.setCode x c).freq = s.freq := rfl
@[simp] theorem State.setCode_nodes (x : Symbol) (c : Code) : (s.setCode x c).nodes = s.nodes := rfl
@[simp] theorem State.setCode_codes (x : Symbol) (c : Code) :
    (s.setCode x c).codes = s.codes.setIfInBounds x.toNat c := rfl
@[simp] theorem State.setCode_seq (x : Symbol) (c : Code) : (s.setCode x c).seq = s.seq := rfl
@[simp] theorem State.setCode_ports (x : Symbol) (c : Code) : (s.setCode x c).ports = s.ports := rfl
@[simp] theorem State.setCode_events (x : Symbol) (c : Code) : (s.setCode x c).events = s.events := rfl
@[simp] theorem State.setCode_readData (x : Symbol) (c : Code) : (s.setCode x c).readData = s.readData := rfl
@[simp] theorem State.setCode_draws (x : Symbol) (c : Code) : (s.setCode x c).draws = s.draws := rfl

/-! ## `State.dropCodes` -/

@[simp] theorem State.dropCodes_irqEn : (s.dropCodes).irqEn = s.irqEn := rfl
@[simp] theorem State.dropCodes_flags : (s.dropCodes).flags = { s.flags with codesValid := false } := rfl
@[simp] theorem State.dropCodes_errCode : (s.dropCodes).errCode = s.errCode := rfl
@[simp] theorem State.dropCodes_errInfo : (s.dropCodes).errInfo = s.errInfo := rfl
@[simp] theorem State.dropCodes_root : (s.dropCodes).root = s.root := rfl
@[simp] theorem State.dropCodes_nodeCount : (s.dropCodes).nodeCount = s.nodeCount := rfl
@[simp] theorem State.dropCodes_leafCount : (s.dropCodes).leafCount = s.leafCount := rfl
@[simp] theorem State.dropCodes_sym : (s.dropCodes).sym = s.sym := rfl
@[simp] theorem State.dropCodes_nodeSel : (s.dropCodes).nodeSel = s.nodeSel := rfl
@[simp] theorem State.dropCodes_codeSel : (s.dropCodes).codeSel = s.codeSel := rfl
@[simp] theorem State.dropCodes_counters : (s.dropCodes).counters = s.counters := rfl
@[simp] theorem State.dropCodes_freq : (s.dropCodes).freq = s.freq := rfl
@[simp] theorem State.dropCodes_nodes : (s.dropCodes).nodes = s.nodes := rfl
@[simp] theorem State.dropCodes_codes : (s.dropCodes).codes = invalidated s.codes := rfl
@[simp] theorem State.dropCodes_seq : (s.dropCodes).seq = s.seq := rfl
@[simp] theorem State.dropCodes_ports : (s.dropCodes).ports = s.ports := rfl
@[simp] theorem State.dropCodes_events : (s.dropCodes).events = s.events := rfl
@[simp] theorem State.dropCodes_readData : (s.dropCodes).readData = s.readData := rfl
@[simp] theorem State.dropCodes_draws : (s.dropCodes).draws = s.draws := rfl

/-! ## `State.dropTree` -/

@[simp] theorem State.dropTree_irqEn : (s.dropTree).irqEn = s.irqEn := rfl
@[simp] theorem State.dropTree_flags : (s.dropTree).flags = { s.flags with treeValid := false } := rfl
@[simp] theorem State.dropTree_errCode : (s.dropTree).errCode = s.errCode := rfl
@[simp] theorem State.dropTree_errInfo : (s.dropTree).errInfo = s.errInfo := rfl
@[simp] theorem State.dropTree_root : (s.dropTree).root = 0#10 := rfl
@[simp] theorem State.dropTree_nodeCount : (s.dropTree).nodeCount = 0#10 := rfl
@[simp] theorem State.dropTree_leafCount : (s.dropTree).leafCount = 0#9 := rfl
@[simp] theorem State.dropTree_sym : (s.dropTree).sym = s.sym := rfl
@[simp] theorem State.dropTree_nodeSel : (s.dropTree).nodeSel = s.nodeSel := rfl
@[simp] theorem State.dropTree_codeSel : (s.dropTree).codeSel = s.codeSel := rfl
@[simp] theorem State.dropTree_counters : (s.dropTree).counters = s.counters := rfl
@[simp] theorem State.dropTree_freq : (s.dropTree).freq = s.freq := rfl
@[simp] theorem State.dropTree_nodes : (s.dropTree).nodes = s.nodes := rfl
@[simp] theorem State.dropTree_codes : (s.dropTree).codes = s.codes := rfl
@[simp] theorem State.dropTree_seq : (s.dropTree).seq = s.seq := rfl
@[simp] theorem State.dropTree_ports : (s.dropTree).ports = s.ports := rfl
@[simp] theorem State.dropTree_events : (s.dropTree).events = s.events := rfl
@[simp] theorem State.dropTree_readData : (s.dropTree).readData = s.readData := rfl
@[simp] theorem State.dropTree_draws : (s.dropTree).draws = s.draws := rfl

/-! ## `State.setTree` -/

@[simp] theorem State.setTree_irqEn (r : NodeIx) (n k : Nat) : (s.setTree r n k).irqEn = s.irqEn := rfl
@[simp] theorem State.setTree_flags (r : NodeIx) (n k : Nat) :
    (s.setTree r n k).flags = { s.flags with treeValid := true } := rfl
@[simp] theorem State.setTree_errCode (r : NodeIx) (n k : Nat) : (s.setTree r n k).errCode = s.errCode := rfl
@[simp] theorem State.setTree_errInfo (r : NodeIx) (n k : Nat) : (s.setTree r n k).errInfo = s.errInfo := rfl
@[simp] theorem State.setTree_root (r : NodeIx) (n k : Nat) : (s.setTree r n k).root = r := rfl
@[simp] theorem State.setTree_nodeCount (r : NodeIx) (n k : Nat) :
    (s.setTree r n k).nodeCount = BitVec.ofNat 10 n := rfl
@[simp] theorem State.setTree_leafCount (r : NodeIx) (n k : Nat) :
    (s.setTree r n k).leafCount = BitVec.ofNat 9 k := rfl
@[simp] theorem State.setTree_sym (r : NodeIx) (n k : Nat) : (s.setTree r n k).sym = s.sym := rfl
@[simp] theorem State.setTree_nodeSel (r : NodeIx) (n k : Nat) : (s.setTree r n k).nodeSel = s.nodeSel := rfl
@[simp] theorem State.setTree_codeSel (r : NodeIx) (n k : Nat) : (s.setTree r n k).codeSel = s.codeSel := rfl
@[simp] theorem State.setTree_counters (r : NodeIx) (n k : Nat) : (s.setTree r n k).counters = s.counters := rfl
@[simp] theorem State.setTree_freq (r : NodeIx) (n k : Nat) : (s.setTree r n k).freq = s.freq := rfl
@[simp] theorem State.setTree_nodes (r : NodeIx) (n k : Nat) : (s.setTree r n k).nodes = s.nodes := rfl
@[simp] theorem State.setTree_codes (r : NodeIx) (n k : Nat) : (s.setTree r n k).codes = s.codes := rfl
@[simp] theorem State.setTree_seq (r : NodeIx) (n k : Nat) : (s.setTree r n k).seq = s.seq := rfl
@[simp] theorem State.setTree_ports (r : NodeIx) (n k : Nat) : (s.setTree r n k).ports = s.ports := rfl
@[simp] theorem State.setTree_events (r : NodeIx) (n k : Nat) : (s.setTree r n k).events = s.events := rfl
@[simp] theorem State.setTree_readData (r : NodeIx) (n k : Nat) : (s.setTree r n k).readData = s.readData := rfl
@[simp] theorem State.setTree_draws (r : NodeIx) (n k : Nat) : (s.setTree r n k).draws = s.draws := rfl

/-! ## `State.setEos` -/

@[simp] theorem State.setEos_irqEn (b : Bool) : (s.setEos b).irqEn = s.irqEn := rfl
@[simp] theorem State.setEos_flags (b : Bool) : (s.setEos b).flags = { s.flags with eos := b } := rfl
@[simp] theorem State.setEos_errCode (b : Bool) : (s.setEos b).errCode = s.errCode := rfl
@[simp] theorem State.setEos_errInfo (b : Bool) : (s.setEos b).errInfo = s.errInfo := rfl
@[simp] theorem State.setEos_root (b : Bool) : (s.setEos b).root = s.root := rfl
@[simp] theorem State.setEos_nodeCount (b : Bool) : (s.setEos b).nodeCount = s.nodeCount := rfl
@[simp] theorem State.setEos_leafCount (b : Bool) : (s.setEos b).leafCount = s.leafCount := rfl
@[simp] theorem State.setEos_sym (b : Bool) : (s.setEos b).sym = s.sym := rfl
@[simp] theorem State.setEos_nodeSel (b : Bool) : (s.setEos b).nodeSel = s.nodeSel := rfl
@[simp] theorem State.setEos_codeSel (b : Bool) : (s.setEos b).codeSel = s.codeSel := rfl
@[simp] theorem State.setEos_counters (b : Bool) : (s.setEos b).counters = s.counters := rfl
@[simp] theorem State.setEos_freq (b : Bool) : (s.setEos b).freq = s.freq := rfl
@[simp] theorem State.setEos_nodes (b : Bool) : (s.setEos b).nodes = s.nodes := rfl
@[simp] theorem State.setEos_codes (b : Bool) : (s.setEos b).codes = s.codes := rfl
@[simp] theorem State.setEos_seq (b : Bool) : (s.setEos b).seq = s.seq := rfl
@[simp] theorem State.setEos_ports (b : Bool) : (s.setEos b).ports = s.ports := rfl
@[simp] theorem State.setEos_events (b : Bool) : (s.setEos b).events = s.events := rfl
@[simp] theorem State.setEos_readData (b : Bool) : (s.setEos b).readData = s.readData := rfl
@[simp] theorem State.setEos_draws (b : Bool) : (s.setEos b).draws = s.draws := rfl

/-! ## `State.clearStatus` -/

@[simp] theorem State.clearStatus_irqEn (v : Word) : (s.clearStatus v).irqEn = s.irqEn := rfl
@[simp] theorem State.clearStatus_flags (v : Word) :
    (s.clearStatus v).flags = { s.flags with
      done := s.flags.done && !v.getLsbD 1
      err := s.flags.err && !v.getLsbD 2
      ovr := s.flags.ovr && !v.getLsbD 3 } := rfl
@[simp] theorem State.clearStatus_errCode (v : Word) : (s.clearStatus v).errCode = s.errCode := rfl
@[simp] theorem State.clearStatus_errInfo (v : Word) : (s.clearStatus v).errInfo = s.errInfo := rfl
@[simp] theorem State.clearStatus_root (v : Word) : (s.clearStatus v).root = s.root := rfl
@[simp] theorem State.clearStatus_nodeCount (v : Word) : (s.clearStatus v).nodeCount = s.nodeCount := rfl
@[simp] theorem State.clearStatus_leafCount (v : Word) : (s.clearStatus v).leafCount = s.leafCount := rfl
@[simp] theorem State.clearStatus_sym (v : Word) : (s.clearStatus v).sym = s.sym := rfl
@[simp] theorem State.clearStatus_nodeSel (v : Word) : (s.clearStatus v).nodeSel = s.nodeSel := rfl
@[simp] theorem State.clearStatus_codeSel (v : Word) : (s.clearStatus v).codeSel = s.codeSel := rfl
@[simp] theorem State.clearStatus_counters (v : Word) : (s.clearStatus v).counters = s.counters := rfl
@[simp] theorem State.clearStatus_freq (v : Word) : (s.clearStatus v).freq = s.freq := rfl
@[simp] theorem State.clearStatus_nodes (v : Word) : (s.clearStatus v).nodes = s.nodes := rfl
@[simp] theorem State.clearStatus_codes (v : Word) : (s.clearStatus v).codes = s.codes := rfl
@[simp] theorem State.clearStatus_seq (v : Word) : (s.clearStatus v).seq = s.seq := rfl
@[simp] theorem State.clearStatus_ports (v : Word) : (s.clearStatus v).ports = s.ports := rfl
@[simp] theorem State.clearStatus_events (v : Word) : (s.clearStatus v).events = s.events := rfl
@[simp] theorem State.clearStatus_readData (v : Word) : (s.clearStatus v).readData = s.readData := rfl
@[simp] theorem State.clearStatus_draws (v : Word) : (s.clearStatus v).draws = s.draws := rfl

/-! ## `State.dropWrite` -/

@[simp] theorem State.dropWrite_irqEn : (s.dropWrite).irqEn = s.irqEn := rfl
@[simp] theorem State.dropWrite_flags : (s.dropWrite).flags = { s.flags with ovr := true } := rfl
@[simp] theorem State.dropWrite_errCode : (s.dropWrite).errCode = s.errCode := rfl
@[simp] theorem State.dropWrite_errInfo : (s.dropWrite).errInfo = s.errInfo := rfl
@[simp] theorem State.dropWrite_root : (s.dropWrite).root = s.root := rfl
@[simp] theorem State.dropWrite_nodeCount : (s.dropWrite).nodeCount = s.nodeCount := rfl
@[simp] theorem State.dropWrite_leafCount : (s.dropWrite).leafCount = s.leafCount := rfl
@[simp] theorem State.dropWrite_sym : (s.dropWrite).sym = s.sym := rfl
@[simp] theorem State.dropWrite_nodeSel : (s.dropWrite).nodeSel = s.nodeSel := rfl
@[simp] theorem State.dropWrite_codeSel : (s.dropWrite).codeSel = s.codeSel := rfl
@[simp] theorem State.dropWrite_counters : (s.dropWrite).counters = s.counters := rfl
@[simp] theorem State.dropWrite_freq : (s.dropWrite).freq = s.freq := rfl
@[simp] theorem State.dropWrite_nodes : (s.dropWrite).nodes = s.nodes := rfl
@[simp] theorem State.dropWrite_codes : (s.dropWrite).codes = s.codes := rfl
@[simp] theorem State.dropWrite_seq : (s.dropWrite).seq = s.seq := rfl
@[simp] theorem State.dropWrite_ports : (s.dropWrite).ports = s.ports := rfl
@[simp] theorem State.dropWrite_events : (s.dropWrite).events = s.events := rfl
@[simp] theorem State.dropWrite_readData : (s.dropWrite).readData = s.readData := rfl
@[simp] theorem State.dropWrite_draws : (s.dropWrite).draws = s.draws := rfl

/-! ## `State.at`: the state with other jobs to do -/

/-- The state with other jobs to do. -/
def State.at (js : List Job) : State := { s with seq.jobs := js }

@[simp] theorem State.at_irqEn (js : List Job) : (s.at js).irqEn = s.irqEn := rfl
@[simp] theorem State.at_flags (js : List Job) : (s.at js).flags = s.flags := rfl
@[simp] theorem State.at_errCode (js : List Job) : (s.at js).errCode = s.errCode := rfl
@[simp] theorem State.at_errInfo (js : List Job) : (s.at js).errInfo = s.errInfo := rfl
@[simp] theorem State.at_root (js : List Job) : (s.at js).root = s.root := rfl
@[simp] theorem State.at_nodeCount (js : List Job) : (s.at js).nodeCount = s.nodeCount := rfl
@[simp] theorem State.at_leafCount (js : List Job) : (s.at js).leafCount = s.leafCount := rfl
@[simp] theorem State.at_sym (js : List Job) : (s.at js).sym = s.sym := rfl
@[simp] theorem State.at_nodeSel (js : List Job) : (s.at js).nodeSel = s.nodeSel := rfl
@[simp] theorem State.at_codeSel (js : List Job) : (s.at js).codeSel = s.codeSel := rfl
@[simp] theorem State.at_counters (js : List Job) : (s.at js).counters = s.counters := rfl
@[simp] theorem State.at_freq (js : List Job) : (s.at js).freq = s.freq := rfl
@[simp] theorem State.at_nodes (js : List Job) : (s.at js).nodes = s.nodes := rfl
@[simp] theorem State.at_codes (js : List Job) : (s.at js).codes = s.codes := rfl
@[simp] theorem State.at_seq (js : List Job) : (s.at js).seq = { s.seq with jobs := js } := rfl
@[simp] theorem State.at_ports (js : List Job) : (s.at js).ports = s.ports := rfl
@[simp] theorem State.at_events (js : List Job) : (s.at js).events = s.events := rfl
@[simp] theorem State.at_readData (js : List Job) : (s.at js).readData = s.readData := rfl
@[simp] theorem State.at_draws (js : List Job) : (s.at js).draws = s.draws := rfl
@[simp] theorem State.at_node (js : List Job) (i : NodeIx) : (s.at js).node i = s.node i := rfl
@[simp] theorem State.at_code (js : List Job) (x : Symbol) : (s.at js).code x = s.code x := rfl
@[simp] theorem State.at_at (js ks : List Job) : (s.at js).at ks = s.at ks := rfl
@[simp] theorem State.push_at (js ks : List Job) : (s.at js).push ks = s.at (ks ++ js) := rfl
@[simp] theorem State.await_at (js : List Job) (p : Port) (j : Job) :
    (s.at js).await p j = { s.at (j :: js) with seq.outstanding := some p } := rfl

end Sys2Proof.Machine
end

