-- ==== Sys2Proof/Laws/Run.lean ====
section
/-! SUPPORT. The sequencer: what `advance` and `run` do, once and for all jobs; how runs compose. -/

namespace Sys2Proof.Machine

/-- A command is running, and no request is outstanding. -/
structure State.Runs (s : State) : Prop where
  busy : s.flags.busy = true
  free : s.seq.outstanding = none

/-- In `n` positions the sequencer gets from `s` to `t`, and then goes on from there. -/
def Goes (n : Nat) (s t : State) : Prop := ∀ m, run (n + m) s = run m t

theorem Goes.refl (s : State) : Goes 0 s s := fun m => by rw [Nat.zero_add]

theorem Goes.trans {n k : Nat} {s t u : State} (h : Goes n s t) (h' : Goes k t u) : Goes (n + k) s u :=
  fun m => by rw [Nat.add_assoc, h, h']

theorem Goes.cast {n k : Nat} {s t : State} (h : Goes n s t) (e : n = k) : Goes k s t := e ▸ h

theorem run_of_idle (s : State) (h : s.flags.busy = false) (n : Nat) : run n s = s := by
  cases n <;> simp [run, h]

theorem run_of_blocked (s : State) (h : s.blocked = true) (n : Nat) : run n s = s := by
  cases n <;> simp [run, h]

/-- A burst may be cut anywhere. -/
theorem run_add (m n : Nat) (s : State) : run (m + n) s = run n (run m s) := by
  induction m generalizing s with
  | zero => simp [run]
  | succ m ih =>
    rw [Nat.succ_add]
    by_cases h : (s.flags.busy && !s.blocked) = true
    · simp only [run, h, if_true, ih]
    · have hs : ∀ k, run k s = s := fun k => by cases k <;> simp [run, h]
      simp [hs]

/-- A running command whose first job is `j` goes on by doing `j`. -/
theorem goes_job (s : State) (j : Job) (js : List Job) (h : s.Runs) :
    Goes 1 (s.at (j :: js)) (runJob j (s.at js)) := fun m => by
  have hr : ((s.at (j :: js)).flags.busy && !(s.at (j :: js)).blocked) = true := by
    simp [State.blocked, h.busy, h.free]
  rw [Nat.add_comm, run, if_pos hr]
  rfl

/-- If the sequencer gets to an idle state within a burst, the burst ends there. -/
theorem Goes.run_eq {n k : Nat} {s t : State} (h : Goes n s t) (ht : t.flags.busy = false) (hk : n ≤ k) :
    run k s = t := by
  obtain ⟨m, rfl⟩ := Nat.exists_eq_add_of_le hk
  rw [h m, run_of_idle t ht]

theorem Goes.runOn_eq {n : Nat} {s t : State} (h : Goes n s t) (ht : t.flags.busy = false) (hk : n ≤ s.burst) :
    s.runOn = t := h.run_eq ht hk

/-- Every command's meaning is the sequencer running on from its acceptance. -/
theorem exec_eq_runOn (i : Instr) (s : State) : exec i s = .next (start i s).runOn := by
  cases i <;> rfl

/-- The pseudocode that a command is accepted with. -/
def Instr.jobs : Instr → List Job
  | .nop => [.ret]
  | .clear => [.clear, .ret]
  | .build => [.scan 0, .ret]
  | .gencodes => [.gencodes, .ret]
  | .hdrwr m => [.hdrwr m, .ret]
  | .hdrrd m => [.hdrrd m, .ret]
  | .encsym x => [.encsym x, .ret]
  | .encstream t => [.encstream t, .ret]
  | .decsym => [.decode false, .ret]
  | .decstream => [.decode true, .ret]
  | .flush k y => (if k then [.flushBits] else []) ++ (if y then [.flushBytes] else []) ++ [.ret]

theorem start_eq_accept (i : Instr) (s : State) : start i s = s.accept (Instr.jobs i) := by
  cases i <;> rfl

/-- An accepted command stands before its jobs. -/
theorem accept_eq_at (s : State) (js : List Job) : s.accept js = (s.accept js).at js := rfl

theorem accept_runs (s : State) (js : List Job) : (s.accept js).Runs := ⟨rfl, rfl⟩

theorem accept_burst (s : State) (js : List Job) : (s.accept js).burst = s.burst := rfl

/-- A command that gets to its completion in a burst: the meaning is that state. -/
theorem exec_of_goes {i : Instr} {s t : State} {n : Nat}
    (h : Goes n ((s.accept (Instr.jobs i)).at (Instr.jobs i)) t)
    (ht : t.flags.busy = false) (hn : n ≤ s.burst) : exec i s = .next t := by
  rw [exec_eq_runOn, start_eq_accept, accept_eq_at, h.runOn_eq ht hn]

/-- `return` ends the command. -/
theorem goes_ret (s : State) (h : s.Runs) : Goes 1 (s.at [.ret]) s.complete :=
  goes_job s .ret [] h

end Sys2Proof.Machine
end

