-- ==== Sys2Proof/Laws/Ports.lean ====
section
/-! SUPPORT. Bit strings, and what one request to a port does. -/

namespace Sys2Proof.Machine

/-! ## Bit strings -/

@[simp] theorem bin_length (n v : Nat) : (bin n v).length = n := by
  induction n with
  | zero => rfl
  | succ n ih => simp [bin, ih]

theorem bin_mod (n v : Nat) : bin n (v % 2 ^ n) = bin n v := by
  suffices h : ∀ k, k ≤ n → bin k (v % 2 ^ n) = bin k v from h n le_rfl
  intro k hk
  induction k with
  | zero => rfl
  | succ k ih => simp [bin, ih (by omega), Nat.testBit_mod_two_pow, show k < n by omega]

theorem foldl_ofBits (bits : List Bool) (v : Nat) :
    bits.foldl (fun v b => 2 * v + b.toNat) v = 2 ^ bits.length * v + ofBits bits := by
  induction bits generalizing v with
  | nil => simp [ofBits]
  | cons b bits ih =>
    rw [ofBits, List.foldl_cons, List.foldl_cons, ih, ih (2 * 0 + b.toNat), List.length_cons]
    ring

theorem ofBits_cons (b : Bool) (bits : List Bool) :
    ofBits (b :: bits) = 2 ^ bits.length * b.toNat + ofBits bits := by
  rw [ofBits, List.foldl_cons, foldl_ofBits]
  simp

theorem ofBits_lt (bits : List Bool) : ofBits bits < 2 ^ bits.length := by
  induction bits with
  | nil => simp [ofBits]
  | cons b bits ih =>
    rw [ofBits_cons, List.length_cons, pow_succ]
    have : b.toNat ≤ 1 := Bool.toNat_le b
    nlinarith [Nat.two_pow_pos bits.length]

/-- A number is the number of its bit string, so far as the width goes (R12, R88). -/
theorem ofBits_bin (n v : Nat) : ofBits (bin n v) = v % 2 ^ n := by
  induction n with
  | zero => simp [bin, ofBits, Nat.mod_one]
  | succ n ih =>
    rw [bin, ofBits_cons, ih, bin_length, Nat.pow_succ, Nat.mod_mul, Nat.testBit_eq_decide_div_mod_eq]
    rcases Nat.mod_two_eq_zero_or_one (v / 2 ^ n) with h | h <;> (simp [h]; try ring)

/-- A bit string is the bit string of its number. -/
theorem bin_ofBits (bits : List Bool) : bin bits.length (ofBits bits) = bits := by
  induction bits with
  | nil => rfl
  | cons b bits ih =>
    have hlt := ofBits_lt bits
    rw [List.length_cons, bin, ofBits_cons]
    congr 1
    · rw [Nat.testBit_eq_decide_div_mod_eq, Nat.add_comm, Nat.add_mul_div_left _ _ (by positivity),
        Nat.div_eq_of_lt hlt]
      cases b <;> simp
    · rw [← bin_mod, Nat.mul_add_mod, Nat.mod_eq_of_lt hlt, ih]

@[simp] theorem takeExact_append {α : Type} (xs ys : List α) :
    takeExact xs.length (xs ++ ys) = some (xs, ys) := by
  induction xs with
  | nil => simp [takeExact]
  | cons x xs ih => simp [takeExact, ih]

theorem takeExact_of_length {α : Type} {n : Nat} (xs ys : List α) (h : xs.length = n) :
    takeExact n (xs ++ ys) = some (xs, ys) := h ▸ takeExact_append xs ys

theorem takeExact_eq_some {α : Type} {n : Nat} {xs a b : List α} (h : takeExact n xs = some (a, b)) :
    xs = a ++ b ∧ a.length = n := by
  induction n generalizing xs a b with
  | zero => simp_all [takeExact]
  | succ n ih =>
    cases xs with
    | nil => simp [takeExact] at h
    | cons x xs =>
      simp only [takeExact, Option.map_eq_some_iff, Prod.mk.injEq] at h
      obtain ⟨⟨a', b'⟩, h', rfl, rfl⟩ := h
      obtain ⟨rfl, rfl⟩ := ih h'
      simp

theorem takeExact_eq_none {α : Type} {n : Nat} {xs : List α} : takeExact n xs = none ↔ xs.length < n := by
  induction n generalizing xs with
  | zero => simp [takeExact]
  | succ n ih => cases xs <;> simp [takeExact, ih]

theorem bin_one (b : Bool) : bin 1 b.toNat = [b] := by cases b <;> rfl

theorem flatMap_codeWrites (p : List Bool) : (codeWrites p).flatMap (fun w => bin w.1 w.2) = p := by
  induction p with
  | nil => rfl
  | cons b p ih => simpa [codeWrites, bin_one] using ih

@[simp] theorem codeWrites_length (p : List Bool) : (codeWrites p).length = p.length := by simp [codeWrites]

theorem codeWrites_append (p q : List Bool) : codeWrites (p ++ q) = codeWrites p ++ codeWrites q := by
  simp [codeWrites]

/-! ## The bit sink -/

theorem State.wrote_nil (s : State) : s.wrote [] = s := by
  simp [State.wrote]

theorem State.wrote_append (s : State) (a b : List (Nat × Nat)) : (s.wrote a).wrote b = s.wrote (a ++ b) := by
  simp [State.wrote, BitVec.add_assoc, BitVec.ofNat_add]

@[simp] theorem State.wrote_at (s : State) (ws : List (Nat × Nat)) (js : List Job) :
    (s.at js).wrote ws = (s.wrote ws).at js := rfl

/-- Accepted writes reach the medium through the transport's packing of the whole stream (R94). -/
theorem State.wrote_packed (s : State) (ws : List (Nat × Nat)) :
    (s.wrote ws).packed = Config.xportPack (s.ports.bitSink.out ++ ws.flatMap (fun w => bin w.1 w.2)) := rfl

/-- What is on the medium is a matter of the bit stream alone (R94). -/
theorem State.packed_congr {s t : State} (h : s.ports.bitSink.out = t.ports.bitSink.out) : s.packed = t.packed :=
  congrArg Config.xportPack h

theorem State.Runs.wrote {s : State} (h : s.Runs) (ws : List (Nat × Nat)) : (s.wrote ws).Runs := ⟨h.busy, h.free⟩

theorem State.wrote_accepts {s : State} (h : s.ports.bitSink.Accepts) (ws : List (Nat × Nat)) :
    (s.wrote ws).ports.bitSink.Accepts :=
  ⟨h.1, fun a ha => h.2.1 a (List.mem_of_mem_drop ha), h.2.2⟩

theorem Sink.Accepts.reply {α : Type} {k : Sink α} (h : k.Accepts) : k.reply = .ok := by
  obtain ⟨-, h, ht⟩ := h
  unfold Sink.reply
  cases ha : k.answers with
  | nil => simpa using ht
  | cons a as => simp [h a (by simp [ha])]

/-- A write that the sink accepts (R89). -/
theorem State.bitWrite_accepted {s : State} (hr : s.seq.outstanding = none) (h : s.ports.bitSink.Accepts)
    (n v : Nat) : s.bitWrite n v = some (.ok, s.wrote [(n, v)]) := by
  have : { s.seq with outstanding := none } = s.seq := by rw [← hr]
  simp [State.bitWrite, h.1, h.reply, State.wrote, State.answered, Sink.replied, this]

theorem goes_put {s : State} (hr : s.Runs) (h : s.ports.bitSink.Accepts) (n v : Nat) (js : List Job) :
    Goes 1 (s.at (.put n v :: js)) ((s.wrote [(n, v)]).at js) := by
  have := goes_job s (.put n v) js hr
  rwa [runJob, runPut, State.bitWrite_accepted (by simpa using hr.free) (by simpa using h)] at this

/-- Writes that the sink accepts, one after another. -/
theorem goes_puts {s : State} (hr : s.Runs) (h : s.ports.bitSink.Accepts) (ws : List (Nat × Nat))
    (js : List Job) :
    Goes ws.length (s.at (ws.map (fun w => .put w.1 w.2) ++ js)) ((s.wrote ws).at js) := by
  induction ws generalizing s with
  | nil => simpa [State.wrote_nil] using Goes.refl _
  | cons w ws ih =>
    have := (goes_put hr h w.1 w.2 (ws.map (fun w => .put w.1 w.2) ++ js)).trans
      (ih (hr.wrote _) (State.wrote_accepts h _))
    rw [State.wrote_append] at this
    exact this.cast (by simp [Nat.add_comm])

/-! ## The bit source -/

theorem State.haveRead_nil (s : State) : s.haveRead [] s.ports.bitSource.rest = s := by
  simp [State.haveRead]

theorem State.haveRead_haveRead (s : State) (a b : List Nat) (x y : List Bool) :
    (s.haveRead a x).haveRead b y = s.haveRead (a ++ b) y := by
  simp [State.haveRead, BitVec.add_assoc, BitVec.ofNat_add]

@[simp] theorem State.haveRead_at (s : State) (a : List Nat) (x : List Bool) (js : List Job) :
    (s.at js).haveRead a x = (s.haveRead a x).at js := rfl

theorem State.Runs.haveRead {s : State} (h : s.Runs) (a : List Nat) (x : List Bool) : (s.haveRead a x).Runs :=
  ⟨h.busy, h.free⟩

/-- A read of bits that the source has (R87). -/
theorem State.bitRead_data {s : State} (hr : s.seq.outstanding = none) (ha : s.ports.bitSource.answering = true)
    {n : Nat} {xs ys : List Bool} (hx : s.ports.bitSource.rest = xs ++ ys) (hn : xs.length = n) :
    s.bitRead n = some (.data (ofBits xs), s.haveRead [n] ys) := by
  have : { s.seq with outstanding := none } = s.seq := by rw [← hr]
  simp [State.bitRead, ha, hx, takeExact_of_length xs ys hn, State.haveRead, State.answered, this]

/-- A read of more bits than the source has left (R87). -/
theorem State.bitRead_end {s : State} (ha : s.ports.bitSource.answering = true) {n : Nat}
    (hn : s.ports.bitSource.rest.length < n) :
    s.bitRead n = some (endResponse s.ports.bitSource.term, (s.answered (.bitRead n)).endBits) := by
  simp [State.bitRead, ha, takeExact_eq_none.2 hn]

/-- A read from a source that does not answer (R86). -/
theorem State.bitRead_silent {s : State} (ha : s.ports.bitSource.answering = false) (n : Nat) :
    s.bitRead n = none := by
  simp [State.bitRead, ha]

end Sys2Proof.Machine
end

