-- ==== Sys2Proof/Laws/Trees.lean ====
section
/-! SUPPORT. Trees in the node store, and the walks over them: the serializer, the code-table generator, the decoder's
descent. -/

namespace Sys2Proof.Machine

/-! ## Trees -/

theorem State.node_congr {s t : State} (h : s.nodes = t.nodes) (i : NodeIx) : s.node i = t.node i := by
  simp [State.node, h]

/-- Whether the store holds a tree is a matter of the store. -/
theorem State.Holds.congr {s t : State} {T : Tree} {i : NodeIx} (hT : s.Holds i T) (h : s.nodes = t.nodes) :
    t.Holds i T := by
  induction T generalizing i with
  | leaf x => simpa [State.Holds, State.node_congr h] using hT
  | node l r ihl ihr =>
    simp only [State.Holds, State.node_congr h] at hT ⊢
    exact ⟨hT.1, ihl hT.2.1, ihr hT.2.2⟩

theorem State.Holds.wrote {s : State} {T : Tree} {i : NodeIx} (h : s.Holds i T) (ws : List (Nat × Nat)) :
    (s.wrote ws).Holds i T := h.congr rfl

theorem State.Holds.haveRead {s : State} {T : Tree} {i : NodeIx} (h : s.Holds i T) (a : List Nat)
    (x : List Bool) : (s.haveRead a x).Holds i T := h.congr rfl

theorem Tree.syms_ne_nil (T : Tree) : T.syms ≠ [] := by
  induction T with
  | leaf x => simp [Tree.syms]
  | node l r ihl ihr => simp [Tree.syms, ihl]

theorem Tree.size_eq (T : Tree) : T.size + 1 = 2 * T.syms.length := by
  induction T with
  | leaf x => rfl
  | node l r ihl ihr => simp [Tree.size, Tree.syms]; omega

/-- A tree of distinct symbols in 0..256 has at most 257 leaves (R10). -/
theorem Tree.Legal.length_le {T : Tree} (h : T.Legal) : T.syms.length ≤ 257 := by
  have hn : (T.syms.map BitVec.toNat).Nodup := h.1.map (fun a b hab => BitVec.eq_of_toNat_eq hab)
  have hs : T.syms.map BitVec.toNat ⊆ List.range 257 := by
    intro x hx
    obtain ⟨y, hy, rfl⟩ := List.mem_map.1 hx
    exact List.mem_range.2 (by have := h.2 y hy; omega)
  simpa using (hn.subperm hs).length_le

theorem Tree.Legal.size_le {T : Tree} (h : T.Legal) : T.size ≤ 513 := by
  have := h.length_le
  have := T.size_eq
  omega

theorem Tree.Legal.left {l r : Tree} (h : (Tree.node l r).Legal) : l.Legal :=
  ⟨(List.nodup_append.1 h.1).1, fun x hx => h.2 x (by simp [Tree.syms, hx])⟩

theorem Tree.Legal.right {l r : Tree} (h : (Tree.node l r).Legal) : r.Legal :=
  ⟨(List.nodup_append.1 h.1).2.1, fun x hx => h.2 x (by simp [Tree.syms, hx])⟩

/-- A symbol has a code exactly if it is a leaf (R150). -/
theorem Tree.code_isSome (T : Tree) (x : Symbol) : (T.code x).isSome ↔ x ∈ T.syms := by
  induction T with
  | leaf y =>
    rw [Tree.code, Tree.syms, List.mem_singleton, eq_comm (a := x)]
    split <;> simp [*]
  | node l r ihl ihr =>
    cases hl : l.code x <;> simp_all [Tree.code, Tree.syms]

/-- A code is shorter than the number of leaves. -/
theorem Tree.code_length_lt {T : Tree} {x : Symbol} {p : List Bool} (h : T.code x = some p) :
    p.length < T.syms.length := by
  induction T generalizing p with
  | leaf y =>
    by_cases hy : y = x <;> simp_all [Tree.code, Tree.syms]
  | node l r ihl ihr =>
    have hl0 : 0 < l.syms.length := List.length_pos_of_ne_nil l.syms_ne_nil
    have hr0 : 0 < r.syms.length := List.length_pos_of_ne_nil r.syms_ne_nil
    simp only [Tree.code] at h
    cases hl : l.code x with
    | some q =>
      simp only [hl, Option.some.injEq] at h
      subst h
      have := ihl hl
      simp [Tree.syms]; omega
    | none =>
      simp only [hl, Option.map_eq_some_iff] at h
      obtain ⟨q, hq, rfl⟩ := h
      have := ihr hq
      simp [Tree.syms]; omega

/-! ## Headers -/

/-- The writes of `HDRWR` send `ser` (R110, R172). -/
theorem Tree.flatMap_writes (T : Tree) : T.writes.flatMap (fun w => bin w.1 w.2) = T.ser := by
  induction T with
  | leaf x => simp [Tree.writes, Tree.ser, bin]
  | node l r ihl ihr => simp [Tree.writes, Tree.ser, bin, ihl, ihr]

/-- The length of a header (R111). -/
theorem Tree.ser_length (T : Tree) : T.ser.length + 1 = 11 * T.syms.length := by
  induction T with
  | leaf x => simp [Tree.ser, Tree.syms]
  | node l r ihl ihr => simp [Tree.ser, Tree.syms]; omega

theorem Tree.writes_length (T : Tree) : T.writes.length + 1 = 3 * T.syms.length := by
  induction T with
  | leaf x => rfl
  | node l r ihl ihr => simp [Tree.writes, Tree.syms]; omega

theorem Tree.sum_reads (T : Tree) : T.reads.sum = T.ser.length := by
  induction T with
  | leaf x => simp [Tree.reads, Tree.ser]
  | node l r ihl ihr => simp [Tree.reads, Tree.ser, ihl, ihr]; omega

/-- `emit(i)` of a tree sends its header (R110, R171). -/
theorem goes_emit {T : Tree} {s : State} (hr : s.Runs) (ha : s.ports.bitSink.Accepts) {i : NodeIx}
    (hT : s.Holds i T) (js : List Job) :
    Goes (T.size + T.writes.length) (s.at (.emit i :: js)) ((s.wrote T.writes).at js) := by
  induction T generalizing s i js with
  | leaf x =>
    have h1 := goes_job s (.emit i) js hr
    have h2 := goes_puts hr ha (Tree.writes (.leaf x)) js
    have : runJob (.emit i) (s.at js) = s.at ((Tree.writes (.leaf x)).map (fun w => .put w.1 w.2) ++ js) := by
      simp [runJob, runEmit, hT.1, hT.2, Tree.writes]
    rw [this] at h1
    exact h1.trans h2
  | node l r ihl ihr =>
    obtain ⟨hn, hl, hr'⟩ := hT
    have h1 := goes_job s (.emit i) js hr
    have : runJob (.emit i) (s.at js) = s.at (.put 1 0 :: .emit (s.node i).l :: .emit (s.node i).r :: js) := by
      simp [runJob, runEmit, hn]
    rw [this] at h1
    have h2 := goes_put hr ha 1 0 (.emit (s.node i).l :: .emit (s.node i).r :: js)
    have hr1 := hr.wrote [(1, 0)]
    have ha1 := State.wrote_accepts ha [(1, 0)]
    have h3 := ihl hr1 ha1 (hl.wrote _) (.emit (s.node i).r :: js)
    have h4 := ihr (hr1.wrote l.writes) (State.wrote_accepts ha1 l.writes) ((hr'.wrote _).wrote _) js
    rw [State.wrote_append] at h3
    rw [State.wrote_append, State.wrote_append] at h4
    exact (((h1.trans h2).trans h3).trans h4).cast (by simp [Tree.size, Tree.writes]; omega)

/-! ## The code table -/

/-- The effect of `walk(i, path)` on the code table: the symbols of the tree get their codes after `path` (R151). -/
def walked (T : Tree) (path : List Bool) (codes : Vector Code 257) : Vector Code 257 :=
  match T with
  | .leaf x => codes.setIfInBounds x.toNat { valid := true, bits := path }
  | .node l r => walked r (path ++ [true]) (walked l (path ++ [false]) codes)

/-- `walk(i, path)` of a tree (R151). -/
theorem goes_walk {T : Tree} {s : State} (hr : s.Runs) {i : NodeIx} (hT : s.Holds i T) (path : List Bool)
    (js : List Job) :
    Goes T.size (s.at (.walk i path :: js)) ({ s with codes := walked T path s.codes }.at js) := by
  induction T generalizing s i path js with
  | leaf x =>
    have h1 := goes_job s (.walk i path) js hr
    have : runJob (.walk i path) (s.at js) = { s with codes := walked (.leaf x) path s.codes }.at js := by
      rw [runJob, runWalk, State.at_node, if_pos hT.1, hT.2]
      rfl
    rwa [this] at h1
  | node l r ihl ihr =>
    obtain ⟨hn, hl, hr'⟩ := hT
    have h1 := goes_job s (.walk i path) js hr
    have : runJob (.walk i path) (s.at js) =
        s.at (.walk (s.node i).l (path ++ [false]) :: .walk (s.node i).r (path ++ [true]) :: js) := by
      simp [runJob, runWalk, hn]
    rw [this] at h1
    have h2 := ihl hr hl (path ++ [false]) (.walk (s.node i).r (path ++ [true]) :: js)
    have h3 := ihr (s := { s with codes := walked l (path ++ [false]) s.codes }) ⟨hr.busy, hr.free⟩
      (hr'.congr rfl) (path ++ [true]) js
    exact ((h1.trans h2).trans h3).cast (by simp [Tree.size])

/-- What a walk leaves at a symbol. -/
theorem getElem_walked {T : Tree} (hT : T.Legal) (path : List Bool) (codes : Vector Code 257) (k : Nat)
    (hk : k < 257) :
    (walked T path codes)[k] =
      match T.code (BitVec.ofNat 9 k) with
      | some p => { valid := true, bits := path ++ p }
      | none => codes[k] := by
  induction T generalizing path codes with
  | leaf x =>
    have hx : x.toNat ≤ 256 := hT.2 x (by simp [Tree.syms])
    have hkx : x = BitVec.ofNat 9 k ↔ x.toNat = k := by
      rw [← BitVec.toNat_inj, BitVec.toNat_ofNat, Nat.mod_eq_of_lt (by omega)]
    by_cases h : x.toNat = k
    · simp [walked, Tree.code, hkx.2 h, Nat.mod_eq_of_lt (show k < 512 by omega)]
    · simp [walked, Tree.code, hkx, h]
  | node l r ihl ihr =>
    rw [walked, ihr hT.right, ihl hT.left]
    have hd : ∀ x, x ∈ l.syms → x ∉ r.syms := fun x hl hr => by
      have := (List.nodup_append.1 hT.1).2.2 x hl x hr
      exact this rfl
    cases hl : l.code (BitVec.ofNat 9 k) with
    | none => cases hr : r.code (BitVec.ofNat 9 k) <;> simp [Tree.code, hl, hr]
    | some p =>
      have : r.code (BitVec.ofNat 9 k) = none := by
        rw [← Option.not_isSome_iff_eq_none, Tree.code_isSome]
        exact hd _ ((Tree.code_isSome _ _).1 (by simp [hl]))
      simp [Tree.code, hl, this]

/-- The walk over an invalidated table writes exactly the code table of the tree (R150, R151). -/
theorem walked_invalidated {T : Tree} (hT : T.Legal) (codes : Vector Code 257) :
    walked T [] (invalidated codes) = T.codeTable codes := by
  ext k hk : 1
  rw [getElem_walked hT, Tree.codeTable, Vector.getElem_ofFn]
  cases T.code (BitVec.ofNat 9 k) <;> simp [invalidated]

/-! ## The decoder's descent -/

/-- The descent from node `i` along the code of `x` reaches the leaf of `x`, having read exactly the code (R222). -/
theorem goes_descend {T : Tree} {s : State} (hr : s.Runs) (ha : s.ports.bitSource.answering = true) {i : NodeIx}
    (hT : s.Holds i T) {x : Symbol} {p : List Bool} (hx : T.code x = some p) {more : List Bool}
    (hs : s.ports.bitSource.rest = p ++ more) (stream mid : Bool) (js : List Job) :
    ∃ j mid', (s.node j).leaf = true ∧ (s.node j).sym = x ∧
      Goes p.length (s.at (.descend stream i mid :: js))
        ((s.haveRead (List.replicate p.length 1) more).at (.descend stream j mid' :: js)) := by
  induction T generalizing s i mid p with
  | leaf y =>
    obtain ⟨h1, h2⟩ := hT
    by_cases hy : y = x
    · simp only [Tree.code, hy, if_true, Option.some.injEq] at hx
      subst hx
      refine ⟨i, mid, h1, h2.trans hy, ?_⟩
      rw [List.nil_append] at hs
      simpa [← hs, State.haveRead_nil] using Goes.refl _
    · simp [Tree.code, hy] at hx
  | node l r ihl ihr =>
    obtain ⟨hn, hl, hr'⟩ := hT
    have step (b : Bool) (q : List Bool) (hs : s.ports.bitSource.rest = b :: (q ++ more)) :
        Goes 1 (s.at (.descend stream i mid :: js))
          ((s.haveRead [1] (q ++ more)).at
            (.descend stream (if b then (s.node i).r else (s.node i).l) true :: js)) := by
      have h1 := goes_job s (.descend stream i mid) js hr
      have hb := State.bitRead_data (s := s.at js) (n := 1) hr.free ha (xs := [b]) (ys := q ++ more) hs rfl
      rw [State.haveRead_at] at hb
      rw [runJob, runDescend, State.at_node] at h1
      simp only [hn, Bool.false_eq_true, if_false, hb, State.push_at, List.singleton_append] at h1
      cases b <;> simpa [ofBits] using h1
    simp only [Tree.code] at hx
    cases hlc : l.code x with
    | some q =>
      simp only [hlc, Option.some.injEq] at hx
      subst hx
      have h1 := step false q hs
      obtain ⟨j, mid', hj, hjx, h2⟩ := ihl (s := s.haveRead [1] (q ++ more)) (hr.haveRead _ _) ha (hl.haveRead _ _) hlc
        rfl true
      refine ⟨j, mid', hj, hjx, ?_⟩
      rw [State.haveRead_haveRead] at h2
      exact (h1.trans h2).cast (by simp [Nat.add_comm])
    | none =>
      simp only [hlc, Option.map_eq_some_iff] at hx
      obtain ⟨q, hq, rfl⟩ := hx
      have h1 := step true q hs
      obtain ⟨j, mid', hj, hjx, h2⟩ := ihr (s := s.haveRead [1] (q ++ more)) (hr.haveRead _ _) ha (hr'.haveRead _ _) hq
        rfl true
      refine ⟨j, mid', hj, hjx, ?_⟩
      rw [State.haveRead_haveRead] at h2
      exact (h1.trans h2).cast (by simp [Nat.add_comm])

end Sys2Proof.Machine
end

