-- ==== Sys2Proof/Laws/Parse.lean ====
section
/-! SUPPORT. `parse()` of `HDRRD` on the header of a tree. -/

namespace Sys2Proof.Machine

/-- The node store with `ns` written from entry `n` on. -/
def layAt (nodes : Vector Node 513) (n : Nat) (ns : List Node) : Vector Node 513 :=
  Vector.ofFn (fun k => if n ≤ k.val then ns.getD (k.val - n) nodes[k] else nodes[k])

theorem getElem_layAt (nodes : Vector Node 513) (n : Nat) (ns : List Node) (k : Nat) (hk : k < 513) :
    (layAt nodes n ns)[k] = if n ≤ k then ns.getD (k - n) nodes[k] else nodes[k] := by
  simp [layAt]

theorem layAt_zero (nodes : Vector Node 513) (ns : List Node) : layAt nodes 0 ns = overwritten nodes ns := by
  ext k hk : 1
  simp [layAt, overwritten]

theorem Tree.layout_length (T : Tree) (n : Nat) : (T.layout n).length = T.size := by
  induction T generalizing n with
  | leaf x => rfl
  | node l r ihl ihr => simp [Tree.layout, Tree.size, ihl, ihr]; omega

/-- An entry of the node store within its range (R52). -/
theorem State.node_getElem {s : State} {i : NodeIx} {n : Nat} (hi : i.toNat = n) (hn : n < 513) :
    s.node i = s.nodes[n] := by
  subst hi
  simp [State.node, Vector.getD, hn]

/-- The number of internal nodes. -/
def Tree.ints : Tree → Nat
  | .leaf _ => 0
  | .node l r => 1 + l.ints + r.ints

theorem Tree.ints_eq (T : Tree) : T.ints + 1 = T.syms.length := by
  induction T with
  | leaf x => rfl
  | node l r ihl ihr => simp [Tree.ints, Tree.syms]; omega

/-- The effect of `parse()` of a tree, but for the field that its node goes into (R181). -/
def State.parsed (s : State) (T : Tree) (nodes : Vector Node 513) (rest : List Bool) : State :=
  let u := s.haveRead T.reads rest
  { u with
    nodes      := nodes
    seq.next   := s.seq.next + T.size
    seq.ints   := s.seq.ints + T.ints
    seq.leaves := s.seq.leaves + T.syms.length
    seq.got    := s.seq.got + T.ser.length
    seq.seen   := T.syms.reverse ++ s.seq.seen }

/-- A read of the tree phase that the source can answer (R181). -/
theorem State.get_data {s : State} (hr : s.Runs) (ha : s.ports.bitSource.answering = true) {k : Nat}
    {xs ys : List Bool} (hx : s.ports.bitSource.rest = xs ++ ys) (hk : xs.length = k) (js : List Job) (job : Job)
    (use : Nat → State → State) :
    (s.at js).get k job use =
      use (ofBits xs) ({ s.haveRead [k] ys with seq.got := s.seq.got + k }.at js) := by
  have := State.bitRead_data (s := s.at js) hr.free ha (xs := xs) (ys := ys) hx hk
  rw [State.get, this]
  rfl

/-- `parse()` on the header of a tree whose symbols are new, legal and distinct: exactly the header is read, and the
tree is laid out in preorder (R181, R186, R187, R189). -/
theorem goes_parse {T : Tree} {s : State} (hr : s.Runs) (ha : s.ports.bitSource.answering = true)
    (hT : T.Legal) (hnew : ∀ x ∈ T.syms, x ∉ s.seq.seen) (hi : s.seq.ints + T.ints ≤ 256)
    (hn : s.seq.next + T.size ≤ 513) {more : List Bool} (hs : s.ports.bitSource.rest = T.ser ++ more)
    (link : Link) (js : List Job) :
    Goes (T.size + T.syms.length) (s.at (.parse link :: js))
      ((s.parsed T (layAt (s.link link (BitVec.ofNat 10 s.seq.next)).nodes s.seq.next (T.layout s.seq.next))
        more).at js) := by
  induction T generalizing s link js more with
  | leaf x =>
    have hx : x.toNat ≤ 256 := hT.2 x (by simp [Tree.syms])
    have hser : s.ports.bitSource.rest = [true] ++ (bin 9 x.toNat ++ more) := by simpa [Tree.ser] using hs
    have hlk : ∀ l n, (State.link { s with seq.next := n } l (BitVec.ofNat 10 s.seq.next)).nodes =
      (s.link l (BitVec.ofNat 10 s.seq.next)).nodes := by intro l n; cases l <;> rfl
    -- the discriminator
    have h1 := goes_job s (.parse link) js hr
    rw [runJob, runParse, State.get_data (k := 1) hr ha hser rfl, parseNode] at h1
    let i := BitVec.ofNat 10 s.seq.next
    let v : State := { s.haveRead [1] (bin 9 x.toNat ++ more) with
      nodes    := (s.link link i).nodes
      seq.got  := s.seq.got + 1
      seq.next := s.seq.next + 1 }
    have hv : v.Runs := ⟨hr.busy, hr.free⟩
    have h2 : Goes 1 (s.at (.parse link :: js)) (v.at (.leafSym i :: js)) := by
      refine h1.trans (k := 0) (fun m => ?_)
      rw [Nat.zero_add]
      congr 1
      cases link <;> rfl
    -- the symbol
    have h3 := goes_job v (.leafSym i) js hv
    have hv9 : ofBits (bin 9 x.toNat) = x.toNat := by
      rw [ofBits_bin]; exact Nat.mod_eq_of_lt x.isLt
    rw [runJob, runLeafSym, State.get_data (s := v) hv ha (xs := bin 9 x.toNat) (ys := more) rfl (by simp),
      hv9, parseSym] at h3
    have hxx : BitVec.ofNat 9 x.toNat = x := by simp
    have hseen : ¬ s.seq.seen.contains x = true := by
      simpa using hnew x (by simp [Tree.syms])
    have hgot : ∀ (a : State) (l : List Job) (g : Nat), ({ a with seq.got := g }.at l).seq.seen = a.seq.seen :=
      fun _ _ _ => rfl
    have hvs : (v.haveRead [9] more).seq.seen = s.seq.seen := rfl
    rw [if_neg (by omega), hgot, hvs, hxx, if_neg hseen] at h3
    refine ((h2.trans h3).cast (by rfl)).trans (k := 0) (fun m => ?_)
    rw [Nat.zero_add]
    congr 1
    have hnodes : (s.link link i).nodes.setIfInBounds i.toNat (leafNode i x 0) =
        layAt (s.link link i).nodes s.seq.next (Tree.layout s.seq.next (.leaf x)) := by
      have hi' : i.toNat = s.seq.next := by
        simp only [Tree.size] at hn
        simp only [i, BitVec.toNat_ofNat]; omega
      ext k hk : 1
      rw [getElem_layAt, Vector.getElem_setIfInBounds, hi']
      by_cases h : s.seq.next = k
      · subst h; simp [Tree.layout, i]
      · by_cases h' : s.seq.next ≤ k
        · have : k - s.seq.next ≠ 0 := by omega
          obtain ⟨d, hd⟩ := Nat.exists_eq_succ_of_ne_zero this
          simp [Tree.layout, h, h', hd]
        · simp [h, h']
    simp [State.parsed, State.at, State.setNode, State.haveRead, v, Tree.reads, Tree.ser, Tree.size, Tree.ints,
      Tree.syms, ← hnodes, i, Nat.add_assoc, BitVec.add_assoc]
  | node l r ihl ihr =>
    have hser : s.ports.bitSource.rest = [false] ++ (l.ser ++ (r.ser ++ more)) := by
      simpa [Tree.ser] using hs
    simp only [Tree.ints] at hi
    simp only [Tree.size] at hn
    have h1 := goes_job s (.parse link) js hr
    rw [runJob, runParse, State.get_data (k := 1) hr ha hser rfl, parseNode] at h1
    let i := BitVec.ofNat 10 s.seq.next
    have hi' : i.toNat = s.seq.next := by simp only [i, BitVec.toNat_ofNat]; omega
    let v : State := { s.haveRead [1] (l.ser ++ (r.ser ++ more)) with
      nodes    := (s.link link i).nodes.setIfInBounds i.toNat
        (internalNode i 0 (Config.deadLeft i) (Config.deadRight i))
      seq.got  := s.seq.got + 1
      seq.next := s.seq.next + 1
      seq.ints := s.seq.ints + 1 }
    have hv : v.Runs := ⟨hr.busy, hr.free⟩
    have hlink : ∀ (a : State) (k : Link) (j : NodeIx), (a.link k j).seq = a.seq := by
      intro a k j; cases k <;> rfl
    have h2 : Goes 1 (s.at (.parse link :: js)) (v.at (.parse (.left i) :: .parse (.right i) :: js)) := by
      refine h1.trans (k := 0) (fun m => ?_)
      have hne : s.seq.ints ≠ Config.intMax := by simp only [Config.intMax]; omega
      rw [Nat.zero_add]
      congr 1
      simp only [ofBits, List.foldl_cons, List.foldl_nil, Bool.toNat_false, Nat.mul_zero, Nat.add_zero,
        show ¬ ((0 : Nat) = 1) by omega, if_false, hlink]
      rw [if_neg (by exact hne)]
      cases link <;> rfl
    -- the left subtree
    have h3 := ihl (s := v) hv ha hT.left (fun x hx => hnew x (by simp [Tree.syms, hx]))
      (by show s.seq.ints + 1 + l.ints ≤ 256; omega) (by show s.seq.next + 1 + l.size ≤ 513; omega)
      (more := r.ser ++ more) rfl (.left i) (.parse (.right i) :: js)
    let w := v.parsed l (layAt (v.link (.left i) (BitVec.ofNat 10 v.seq.next)).nodes v.seq.next
      (l.layout v.seq.next)) (r.ser ++ more)
    -- the right subtree
    have hdis : ∀ x ∈ r.syms, x ∉ l.syms := fun x hxr hxl => (List.nodup_append.1 hT.1).2.2 x hxl x hxr rfl
    have h4 := ihr (s := w) ⟨hv.busy, hv.free⟩ ha hT.right
      (fun x hx => by
        show x ∉ l.syms.reverse ++ s.seq.seen
        simp [hdis x hx, hnew x (by simp [Tree.syms, hx])])
      (by show s.seq.ints + 1 + l.ints + r.ints ≤ 256; omega)
      (by show s.seq.next + 1 + l.size + r.size ≤ 513; omega) (more := more) rfl (.right i) js
    refine (((h2.trans h3).trans h4).cast (by simp [Tree.size, Tree.syms]; omega)).trans (k := 0) (fun m => ?_)
    rw [Nat.zero_add]
    congr 1
    have hnodes : layAt (w.link (.right i) (BitVec.ofNat 10 w.seq.next)).nodes w.seq.next (r.layout w.seq.next) =
        layAt (s.link link i).nodes s.seq.next (Tree.layout s.seq.next (.node l r)) := by
      have hvn : v.seq.next = s.seq.next + 1 := rfl
      have hwn : w.seq.next = s.seq.next + 1 + l.size := rfl
      have h5 : s.seq.next < 513 := by omega
      have hvi : v.node i = internalNode i 0 (Config.deadLeft i) (Config.deadRight i) := by
        rw [State.node_getElem hi' h5]
        simp [v, hi']
      have hwi : w.node i = { v.node i with l := BitVec.ofNat 10 (s.seq.next + 1) } := by
        rw [State.node_getElem hi' h5]
        show (layAt _ (s.seq.next + 1) _)[s.seq.next] = _
        rw [getElem_layAt, if_neg (by omega)]
        simp [State.link, hi', hvn]
      ext k hk : 1
      rw [getElem_layAt, getElem_layAt, hwn]
      have hlay : Tree.layout s.seq.next (.node l r) =
          internalNode i 0 (BitVec.ofNat 10 (s.seq.next + 1)) (BitVec.ofNat 10 (s.seq.next + 1 + l.size)) ::
            (l.layout (s.seq.next + 1) ++ r.layout (s.seq.next + 1 + l.size)) := rfl
      have hbase : (w.link (.right i) (BitVec.ofNat 10 (s.seq.next + 1 + l.size))).nodes[k] =
          if k = s.seq.next then internalNode i 0 (BitVec.ofNat 10 (s.seq.next + 1))
              (BitVec.ofNat 10 (s.seq.next + 1 + l.size))
          else if s.seq.next + 1 ≤ k then (l.layout (s.seq.next + 1)).getD (k - (s.seq.next + 1))
              (s.link link i).nodes[k]
          else (s.link link i).nodes[k] := by
        simp only [State.link, State.setNode_nodes, Vector.getElem_setIfInBounds, hi', hwi, hvi]
        by_cases hks : k = s.seq.next
        · simp [hks, internalNode]
        · rw [if_neg (fun h => hks h.symm), if_neg hks]
          show (layAt _ (s.seq.next + 1) (l.layout (s.seq.next + 1)))[k] = _
          rw [getElem_layAt]
          simp only [State.link, State.setNode_nodes, Vector.getElem_setIfInBounds, hi', v,
            if_neg (fun h : s.seq.next = k => hks h.symm)]
      rw [hbase, hlay]
      by_cases hks : k = s.seq.next
      · have e0 : k - s.seq.next = 0 := by omega
        rw [if_neg (by omega), if_pos hks, if_pos (by omega), e0, List.getD_cons_zero]
      · by_cases hk1 : s.seq.next + 1 ≤ k
        · have hk0 : s.seq.next ≤ k := by omega
          obtain ⟨d, rfl⟩ := Nat.exists_eq_add_of_le hk1
          have e1 : s.seq.next + 1 + d - s.seq.next = d + 1 := by omega
          have e2 : s.seq.next + 1 + d - (s.seq.next + 1) = d := by omega
          rw [if_neg hks, if_pos hk1, if_pos hk0, e1, e2, List.getD_cons_succ]
          by_cases hd : l.size ≤ d
          · have hl : (l.layout (s.seq.next + 1)).length ≤ d := by rw [Tree.layout_length]; exact hd
            rw [if_pos (by omega), List.getD_append_right _ _ _ _ hl, List.getD_eq_default _ _ hl,
              Tree.layout_length]
            have e3 : s.seq.next + 1 + d - (s.seq.next + 1 + l.size) = d - l.size := by omega
            rw [e3]
          · have hl : d < (l.layout (s.seq.next + 1)).length := by rw [Tree.layout_length]; omega
            rw [if_neg (by omega), List.getD_append _ _ _ _ hl]
        · rw [if_neg hks, if_neg hk1, if_neg (by omega), if_neg (by omega)]
    rw [hnodes]
    simp [State.parsed, State.at, State.haveRead, w, v, Tree.reads, Tree.ser, Tree.size, Tree.ints,
      Tree.syms, i, Nat.add_assoc, BitVec.add_assoc, BitVec.ofNat_add]
    omega

end Sys2Proof.Machine
end

