-- ==== Sys2Proof/Laws/PerInstr.lean ====
section
/-! SUPPORT. Statements for all instructions, one lemma per constructor. -/

namespace Sys2Proof.Laws

/-- The word of a command has its opcode in bits [7:0], one of those of R103, and only zeros in the reserved bits
[15:10] and [31:25] (R100). -/
def EncodingFits.Statement (i : Instr) : Prop :=
  (encode i).extractLsb' 0 8 < 0x0B#8 ∧ (encode i).extractLsb' 10 6 = 0#6 ∧ (encode i).extractLsb' 25 7 = 0#7

theorem EncodingFits.nop : EncodingFits.Statement .nop := ⟨by decide, by decide, by decide⟩

theorem EncodingFits.clear : EncodingFits.Statement .clear := ⟨by decide, by decide, by decide⟩

theorem EncodingFits.build : EncodingFits.Statement .build := ⟨by decide, by decide, by decide⟩

theorem EncodingFits.gencodes : EncodingFits.Statement .gencodes := ⟨by decide, by decide, by decide⟩

theorem EncodingFits.hdrwr (m : Bool) : EncodingFits.Statement (.hdrwr m) := by cases m <;> exact ⟨by decide, by decide, by decide⟩

theorem EncodingFits.hdrrd (m : Bool) : EncodingFits.Statement (.hdrrd m) := by cases m <;> exact ⟨by decide, by decide, by decide⟩

theorem EncodingFits.encsym (sym : Symbol) : EncodingFits.Statement (.encsym sym) := by
  refine ⟨?_, ?_, ?_⟩
  · have : (encode (.encsym sym)).extractLsb' 0 8 = 6#8 := by
      ext k hk
      simp only [encode, BitVec.getElem_extractLsb', BitVec.getLsbD_or, BitVec.getLsbD_shiftLeft]
      have : k < 16 := by omega
      interval_cases k <;> simp
    rw [this]; decide
  · ext k hk
    simp only [encode, BitVec.getElem_extractLsb', BitVec.getLsbD_or, BitVec.getLsbD_shiftLeft]
    interval_cases k <;> simp
  · ext k hk
    simp only [encode, BitVec.getElem_extractLsb', BitVec.getLsbD_or, BitVec.getLsbD_shiftLeft]
    interval_cases k <;> simp

theorem EncodingFits.encstream (t : Bool) : EncodingFits.Statement (.encstream t) := by cases t <;> exact ⟨by decide, by decide, by decide⟩

theorem EncodingFits.decsym : EncodingFits.Statement .decsym := ⟨by decide, by decide, by decide⟩

theorem EncodingFits.decstream : EncodingFits.Statement .decstream := ⟨by decide, by decide, by decide⟩

theorem EncodingFits.flush (k y : Bool) : EncodingFits.Statement (.flush k y) := by cases k <;> cases y <;> exact ⟨by decide, by decide, by decide⟩

end Sys2Proof.Laws
end

