-- ==== Sys2Proof/Laws/Step.lean ====
section
/-! SUPPORT. What a step can do, said once: the inversion of `step` and of an action, and what the sequencer keeps. -/

namespace Sys2Proof.Machine

/-- What every position of a busy sequencer keeps, a run keeps. -/
theorem run_keeps {P : State → Prop} (h : ∀ s, P s → s.flags.busy = true → s.blocked = false → P (advance s))
    (n : Nat) {s : State} (hs : P s) : P (run n s) := by
  induction n generalizing s with
  | zero => exact hs
  | succ n ih =>
    rw [run]
    split
    · rename_i hb
      simp only [Bool.and_eq_true, Bool.not_eq_true'] at hb
      exact ih (h s hs hb.1 hb.2)
    · exact hs

/-- What acceptance gives and every position keeps, the meaning of a command gives. -/
theorem exec_keeps {P : State → Prop} (h : ∀ s, P s → s.flags.busy = true → s.blocked = false → P (advance s))
    {i : Instr} {s t : State} (ha : P (s.accept (Instr.jobs i))) (ht : exec i s = .next t) : P t := by
  rw [exec_eq_runOn, start_eq_accept] at ht
  cases ht
  exact run_keeps h _ ha

/-- Every meaning answers a next state: no command faults or is refused. -/
theorem exec_is_next (i : Instr) (s : State) : ∃ t, exec i s = .next t := ⟨_, exec_eq_runOn i s⟩

/-- A step: nothing happens to an idle block, or the sequencer runs on, or the outside world acts. -/
theorem step_cases {s t : State} (h : step s = .next t) :
    (s.events = [] ∧ s.flags.busy = false ∧ t = s) ∨
    (s.flags.busy = true ∧ t = s.runOn) ∨
    (∃ e es n, s.events = e :: es ∧ s.flags.busy = true ∧ e.after = some (n + 1) ∧
      t = run (n + 1) { s with events := { after := some 0, what := e.what } :: es }) ∨
    (∃ e es, s.events = e :: es ∧ (s.flags.busy = true → e.after = some 0) ∧
      act e.what { s with events := es } = .next t) := by
  rw [step, turn] at h
  split at h
  · rename_i he
    cases hb : s.flags.busy with
    | false => rw [hb, if_neg (by simp)] at h; cases h; exact .inl ⟨he, rfl, rfl⟩
    | true => rw [hb, if_pos rfl] at h; cases h; exact .inr (.inl ⟨rfl, rfl⟩)
  · rename_i e es he
    cases hb : s.flags.busy with
    | false =>
      rw [hb, if_neg (by simp)] at h
      exact .inr (.inr (.inr ⟨e, es, he, by simp, h⟩))
    | true =>
      rw [hb, if_pos rfl] at h
      split at h
      · cases h; exact .inr (.inl ⟨rfl, rfl⟩)
      · rename_i ha; exact .inr (.inr (.inr ⟨e, es, he, fun _ => ha, h⟩))
      · rename_i n ha; cases h; exact .inr (.inr (.inl ⟨e, es, n, he, rfl, ha, rfl⟩))

/-- The write of a word to `CMD`: a command is accepted or has run, or an illegal word is accepted or has completed. -/
theorem launch_cases {v : Word} {s t : State} (h : launch v s = .next t) :
    (∃ i, decode v = .command i ∧ (t = start i s ∨ exec i s = .next t)) ∨
    ((∃ why, decode v = .illegal why) ∧ (t = beginIllegal v s ∨ t = (beginIllegal v s).runOn)) := by
  rw [launch] at h
  split at h
  · rename_i i hd
    split at h
    · cases h; exact .inl ⟨i, hd, .inl rfl⟩
    · exact .inl ⟨i, hd, .inr h⟩
  · rename_i why hd
    cases h
    refine .inr ⟨⟨why, hd⟩, ?_⟩
    split
    · exact .inl rfl
    · exact .inr rfl

/-- A host write that is not refused. -/
theorem hostWrite_cases {off width : Nat} {v : Word} {s t : State} (h : hostWrite off width v s = .next t) :
    legalAccess off width = true ∧
    ((s.flags.busy = true ∧ t = s.dropWrite) ∨
      (s.flags.busy = false ∧ off = 0x004 ∧ launch v s = .next t) ∨
      (s.flags.busy = false ∧ off ≠ 0x004 ∧ t = s.writeReg off v)) := by
  rw [hostWrite] at h
  split at h
  · rename_i hl
    refine ⟨hl, ?_⟩
    split at h
    · rename_i hb; cases h; exact .inl ⟨hb, rfl⟩
    · rename_i hb
      split at h
      · rename_i ho; exact .inr (.inl ⟨by simpa using hb, ho, h⟩)
      · rename_i ho; cases h; exact .inr (.inr ⟨by simpa using hb, ho, rfl⟩)
  · cases h

/-- A stream that is attached: the port is not in use. -/
theorem attach_cases {p : Port} {s t u : State} (h : attach p s t = .next u) : s.uses p = false ∧ u = t := by
  rw [attach] at h
  split at h
  · cases h
  · rename_i hu; cases h; exact ⟨by simpa using hu, rfl⟩

end Sys2Proof.Machine
end

