-- ==== Sys2Proof/Laws/Streams.lean ====
section
/-! SUPPORT. The loops of `ENCSTREAM` and `DECSTREAM`: one byte, and a whole payload. -/

namespace Sys2Proof.Machine

/-! ## Payloads -/

theorem Tree.payload_cons {T : Tree} {b : Byte} {bs : List Byte} {p : List Bool}
    (h : T.payload (b :: bs) = some p) :
    ∃ q r, T.code (b.setWidth 9) = some q ∧ T.payload bs = some r ∧ p = q ++ r := by
  simp only [Tree.payload] at h
  cases hq : T.code (b.setWidth 9) <;> cases hr : T.payload bs <;> simp_all

theorem Tree.byteCode_eq {T : Tree} {b : Byte} {q : List Bool} (h : T.code (b.setWidth 9) = some q) :
    T.byteCode b = q := by simp [Tree.byteCode, h]

/-- A byte is no sentinel. -/
theorem setWidth_byte_ne (b : Byte) : b.setWidth 9 ≠ 256#9 := by
  intro h
  have h1 := congrArg BitVec.toNat h
  have h2 := b.isLt
  simp only [BitVec.toNat_setWidth, BitVec.toNat_ofNat] at h1
  omega

theorem setWidth_byte_byte (b : Byte) : (b.setWidth 9).setWidth 8 = b := by
  apply BitVec.eq_of_toNat_eq
  have := b.isLt
  simp only [BitVec.toNat_setWidth]
  omega

/-- The code of a byte is not empty where another symbol has a code too. -/
theorem Tree.code_ne_nil {T : Tree} {x y : Symbol} (hxy : x ≠ y) {p q : List Bool} (hx : T.code x = some p)
    (hy : T.code y = some q) : p ≠ [] := by
  cases T with
  | leaf z =>
    simp only [Tree.code] at hx hy
    split at hx <;> split at hy <;> simp_all
  | node l r =>
    simp only [Tree.code] at hx
    cases hl : l.code x <;> simp_all
    · obtain ⟨a, -, rfl⟩ := hx
      simp
    · rintro rfl
      simp at hx

/-! ## Encoding -/

/-- The effect of `ENCSTREAM` on bytes that it reads and encodes (R204). -/
def State.encoded (s : State) (T : Tree) (bytes : List Byte) (p : List Bool) (post : List Byte) : State :=
  let u := s.wrote (codeWrites p)
  { u with
    ports.byteSource.rest := post
    ports.trace           := s.ports.trace ++ T.encodeTrace bytes
    counters.bytesIn      := s.counters.bytesIn + BitVec.ofNat 32 bytes.length }

theorem State.encoded_accepts {s : State} (h : s.ports.bitSink.Accepts) (T : Tree) (bytes : List Byte)
    (p : List Bool) (post : List Byte) : (s.encoded T bytes p post).ports.bitSink.Accepts :=
  State.wrote_accepts h _

theorem State.HoldsCodes.congr {s t : State} {T : Tree} (h : s.HoldsCodes T) (e : s.codes = t.codes) :
    t.HoldsCodes T := by
  intro x hx
  have := h x hx
  simpa [State.code, e] using this

theorem State.HoldsCodes.some {s : State} {T : Tree} (h : s.HoldsCodes T) {x : Symbol} (hx : x.toNat ≤ 256)
    {p : List Bool} (hp : T.code x = some p) : (s.code x).valid = true ∧ (s.code x).bits = p := by
  have := h x hx
  rwa [hp] at this

theorem State.HoldsCodes.none {s : State} {T : Tree} (h : s.HoldsCodes T) {x : Symbol} (hx : x.toNat ≤ 256)
    (hp : T.code x = none) : (s.code x).valid = false := by
  have := h x hx
  rwa [hp] at this

theorem byte_le (b : Byte) : (b.setWidth 9).toNat ≤ 256 := by
  have := b.isLt
  simp only [BitVec.toNat_setWidth]
  omega

theorem putcode_eq (c : Code) : putcode c = (codeWrites c.bits).map (fun w => .put w.1 w.2) := by
  simp [putcode, codeWrites, Function.comp_def]

/-- A byte that the source has (R90). -/
theorem State.byteRead_data {s : State} (hr : s.seq.outstanding = none)
    (ha : s.ports.byteSource.answering = true) {b : Byte} {post : List Byte}
    (hb : s.ports.byteSource.rest = b :: post) :
    s.byteRead = some (.data b, { s with
      ports.byteSource.rest := post
      ports.trace           := s.ports.trace ++ [.byteRead]
      counters.bytesIn      := s.counters.bytesIn + 1 }) := by
  have : { s.seq with outstanding := none } = s.seq := by rw [← hr]
  simp [State.byteRead, ha, hb, State.answered, this]

/-- The end of a byte source (R90, R93). -/
theorem State.byteRead_end {s : State} (ha : s.ports.byteSource.answering = true)
    (hb : s.ports.byteSource.rest = []) :
    s.byteRead = some (endResponse s.ports.byteSource.term, (s.answered .byteRead).endBytes) := by
  simp [State.byteRead, ha, hb]

/-- One byte of `ENCSTREAM` (R204). -/
theorem goes_encByte {s : State} (hr : s.Runs) (hs : s.ports.bitSink.Accepts)
    (ha : s.ports.byteSource.answering = true) {T : Tree} (hT : s.HoldsCodes T) {b : Byte} {q : List Bool}
    (hq : T.code (b.setWidth 9) = some q) {post : List Byte} (hb : s.ports.byteSource.rest = b :: post)
    (t : Bool) (js : List Job) :
    Goes (1 + q.length) (s.at (.encByte t :: js)) ((s.encoded T [b] q post).at (.encByte t :: js)) := by
  have h1 := goes_job s (.encByte t) js hr
  rw [runJob, runEncByte, State.byteRead_data (s := s.at js) hr.free ha hb] at h1
  obtain ⟨hv, hbits⟩ := hT.some (byte_le b) hq
  let v : State := { s with
      ports.byteSource.rest := post
      ports.trace           := s.ports.trace ++ [.byteRead]
      counters.bytesIn      := s.counters.bytesIn + 1 }
  have hvr : v.Runs := ⟨hr.busy, hr.free⟩
  have e : ((v.at js).push [.encByte t]).encode (b.setWidth 9) =
      v.at ((codeWrites q).map (fun w => .put w.1 w.2) ++ (.encByte t :: js)) := by
    have hc : v.code (b.setWidth 9) = s.code (b.setWidth 9) := rfl
    rw [State.push_at, State.encode, State.at_code, hc, if_pos hv, State.push_at, putcode_eq, hbits]
    rfl
  have h2 := goes_puts hvr hs (codeWrites q) (.encByte t :: js)
  rw [← e] at h2
  refine ((Goes.trans h1 h2).cast (by simp)).trans (k := 0) (fun m => ?_)
  rw [Nat.zero_add]
  congr 1
  simp [v, State.encoded, State.wrote, State.at, Tree.encodeTrace, Tree.byteCode_eq hq, codeWrites,
    Function.comp_def]

/-- A whole payload of `ENCSTREAM` (R204, R205). -/
theorem goes_encBytes {bytes : List Byte} {s : State} (hr : s.Runs) (hs : s.ports.bitSink.Accepts)
    (ha : s.ports.byteSource.answering = true) {T : Tree} (hT : s.HoldsCodes T) {p : List Bool}
    (hp : T.payload bytes = some p) {post : List Byte} (hb : s.ports.byteSource.rest = bytes ++ post)
    (t : Bool) (js : List Job) :
    Goes (bytes.length + p.length) (s.at (.encByte t :: js))
      ((s.encoded T bytes p post).at (.encByte t :: js)) := by
  induction bytes generalizing s p with
  | nil =>
    simp only [Tree.payload, Option.some.injEq] at hp
    subst hp
    have : s.encoded T [] [] post = s := by
      have hb' : post = s.ports.byteSource.rest := by simpa using hb.symm
      simp [State.encoded, State.wrote, codeWrites, Tree.encodeTrace, hb']
    rw [this]
    exact Goes.refl _
  | cons b bytes ih =>
    obtain ⟨q, r, hq, hr', rfl⟩ := Tree.payload_cons hp
    have h1 := goes_encByte hr hs ha hT hq (post := bytes ++ post) hb t js
    have h2 := ih (s := s.encoded T [b] q (bytes ++ post)) ⟨hr.busy, hr.free⟩
      (State.encoded_accepts hs T [b] q (bytes ++ post)) ha (hT.congr rfl) hr' rfl
    refine ((h1.trans h2).cast (by simp; omega)).trans (k := 0) (fun m => ?_)
    rw [Nat.zero_add]
    congr 2
    simp [State.encoded, State.wrote, Tree.encodeTrace, codeWrites, BitVec.add_assoc, BitVec.ofNat_add,
      Nat.add_comm]

/-! ## Decoding -/

/-- The effect of `DECSTREAM` on bytes that it decodes and writes (R231). -/
def State.decoded (s : State) (T : Tree) (bytes : List Byte) (n : Nat) (more : List Bool) : State :=
  let u := s.haveRead (List.replicate n 1) more
  { u with
    ports.byteSink    := s.ports.byteSink.took bytes
    ports.trace       := s.ports.trace ++ T.decodeTrace bytes
    counters.bytesOut := s.counters.bytesOut + BitVec.ofNat 32 bytes.length
    sym               := match bytes.getLast? with | some b => b.setWidth 9 | none => s.sym }

theorem Sink.Accepts.took {α : Type} {k : Sink α} (h : k.Accepts) (bytes : List α) : (k.took bytes).Accepts :=
  ⟨h.1, fun a ha => h.2.1 a (List.mem_of_mem_drop ha), h.2.2⟩

/-- A byte that the sink accepts (R90). -/
theorem State.byteWrite_accepted {s : State} (hr : s.seq.outstanding = none) (h : s.ports.byteSink.Accepts)
    (b : Byte) :
    s.byteWrite b = some (.ok, { s with
      ports.byteSink    := s.ports.byteSink.took [b]
      ports.trace       := s.ports.trace ++ [.byteWrite b]
      counters.bytesOut := s.counters.bytesOut + 1 }) := by
  have : { s.seq with outstanding := none } = s.seq := by rw [← hr]
  simp [State.byteWrite, h.1, h.reply, State.answered, Sink.replied, Sink.took, this]

/-- The root of a tree in which two symbols have codes is no leaf. -/
theorem State.Holds.not_leaf {s : State} {T : Tree} {i : NodeIx} (h : s.Holds i T) {x : Symbol} {p : List Bool}
    (hx : T.code x = some p) (hp : p ≠ []) : (s.node i).leaf = false := by
  cases T with
  | leaf z => simp only [Tree.code] at hx; split at hx <;> simp_all
  | node l r => exact h.1

/-- One byte of `DECSTREAM` (R231). -/
theorem goes_decByte {s : State} (hr : s.Runs) (hs : s.ports.byteSink.Accepts)
    (ha : s.ports.bitSource.answering = true) {T : Tree} (hT : s.Holds s.root T) {b : Byte} {q : List Bool}
    (hq : T.code (b.setWidth 9) = some q) (hne : q ≠ []) {more : List Bool}
    (hb : s.ports.bitSource.rest = q ++ more) (js : List Job) :
    Goes (q.length + 3) (s.at (.decode1 true :: js)) ((s.decoded T [b] q.length more).at (.decode1 true :: js)) := by
  have h1 := goes_job s (.decode1 true) js hr
  have hroot := hT.not_leaf hq hne
  rw [runJob, runDecode1] at h1
  simp only [State.at_node, State.at_root, hroot, Bool.false_eq_true, false_and, if_false, State.push_at,
    List.singleton_append] at h1
  obtain ⟨j, mid, hj, hjx, h2⟩ := goes_descend hr ha hT hq hb true false js
  let v := s.haveRead (List.replicate q.length 1) more
  have h3 := goes_job v (.descend true j mid) js (hr.haveRead _ _)
  have e : runJob (.descend true j mid) (v.at js) =
      { v with sym := b.setWidth 9 }.at (.putByte b :: .decode1 true :: js) := by
    have hn : v.node j = s.node j := rfl
    rw [runJob, runDescend, State.at_node, hn, if_pos hj, if_pos rfl, hjx, State.gotStreamSymbol,
      if_neg (setWidth_byte_ne b), setWidth_byte_byte]
    rfl
  rw [e] at h3
  have h4 := goes_job { v with sym := b.setWidth 9 } (.putByte b) (.decode1 true :: js) ⟨hr.busy, hr.free⟩
  rw [runJob, runPutByte, State.byteWrite_accepted (by exact hr.free) (by exact hs)] at h4
  refine ((((h1.trans h2).trans h3).trans h4).cast (by omega)).trans (k := 0) (fun m => ?_)
  rw [Nat.zero_add]
  congr 1
  simp [v, State.decoded, State.haveRead, State.at, Tree.decodeTrace, Tree.byteCode_eq hq, List.map_const']

/-- A whole payload of `DECSTREAM`, in a tree whose root is no leaf (R231). -/
theorem goes_decBytes {bytes : List Byte} {s : State} (hr : s.Runs) (hs : s.ports.byteSink.Accepts)
    (ha : s.ports.bitSource.answering = true) {T : Tree} (hT : s.Holds s.root T)
    (hroot : (s.node s.root).leaf = false) {p : List Bool} (hp : T.payload bytes = some p) {more : List Bool}
    (hb : s.ports.bitSource.rest = p ++ more) (js : List Job) :
    Goes (p.length + 3 * bytes.length) (s.at (.decode1 true :: js))
      ((s.decoded T bytes p.length more).at (.decode1 true :: js)) := by
  induction bytes generalizing s p with
  | nil =>
    simp only [Tree.payload, Option.some.injEq] at hp
    subst hp
    have : s.decoded T [] 0 more = s := by
      have hb' : more = s.ports.bitSource.rest := by simpa using hb.symm
      simp [State.decoded, State.haveRead, Tree.decodeTrace, Sink.took, hb']
    simpa [this] using Goes.refl _
  | cons b bytes ih =>
    obtain ⟨q, r, hq, hr', rfl⟩ := Tree.payload_cons hp
    have hne : q ≠ [] := by
      cases T with
      | leaf z => simp [hT.1] at hroot
      | node l r =>
        simp only [Tree.code] at hq
        cases hl : l.code (b.setWidth 9) <;> simp_all
        · obtain ⟨a, -, rfl⟩ := hq
          simp
        · rintro rfl
          simp at hq
    have h1 := goes_decByte hr hs ha hT hq hne (more := r ++ more) (by simpa using hb) js
    have h2 := ih (s := s.decoded T [b] q.length (r ++ more)) ⟨hr.busy, hr.free⟩ (hs.took [b]) ha (hT.congr rfl)
      hroot hr' rfl
    refine ((h1.trans h2).cast (by simp; omega)).trans (k := 0) (fun m => ?_)
    rw [Nat.zero_add]
    congr 2
    cases hl : bytes.getLast? with
    | none =>
      simp [State.decoded, State.haveRead, Tree.decodeTrace, Sink.took, BitVec.add_assoc, BitVec.ofNat_add,
        Nat.add_comm, List.getLast?_cons, hl]
    | some c =>
      simp [State.decoded, State.haveRead, Tree.decodeTrace, Sink.took, BitVec.add_assoc, BitVec.ofNat_add,
        Nat.add_comm, List.getLast?_cons, hl]

end Sys2Proof.Machine
end

