-- ==== Sys2Proof/Tests/Slice0.lean ====
section
/-! SUPPORT. Tests: words from the encodings of spec/30_encoding.md, the vectors of spec/95_test_vectors.md, and for every
statement with hypotheses a state and operands that meet them. -/

namespace Sys2Proof.Tests

open Sys2Proof.Machine

set_option Elab.async false

/-! ## Well-formed terms (R102, R106) -/

theorem test_wf_encsym_last : (Instr.encsym 256).wf = true := by decide

theorem test_wf_encsym_above : (Instr.encsym 257).wf = false := by decide

theorem test_wf_encsym_top : (Instr.encsym 511).wf = false := by decide

/-! ## Decoding: words written out from R100, R101 and R103 -/

theorem test_decode_nop : decode 0b00000000000000000000000000000000#32 = .command .nop := by decide

theorem test_decode_clear : decode 0b00000000000000000000000000000001#32 = .command .clear := by decide

theorem test_decode_build : decode 0b00000000000000000000000000000010#32 = .command .build := by decide

theorem test_decode_gencodes : decode 0b00000000000000000000000000000011#32 = .command .gencodes := by decide

theorem test_decode_hdrwr :
    decode 0b00000000000000000000000000000100#32 = .command (.hdrwr false) ∧
    decode 0b00000000000000000000000100000100#32 = .command (.hdrwr true) := by decide

theorem test_decode_hdrrd :
    decode 0b00000000000000000000000000000101#32 = .command (.hdrrd false) ∧
    decode 0b00000000000000000000000100000101#32 = .command (.hdrrd true) := by decide

theorem test_decode_encsym :
    decode 0b00000000010000010000000000000110#32 = .command (.encsym 65) ∧
    decode 0b00000001000000000000000000000110#32 = .command (.encsym 256) := by decide

theorem test_decode_encstream :
    decode 0b00000000000000000000000000000111#32 = .command (.encstream false) ∧
    decode 0b00000000000000000000000100000111#32 = .command (.encstream true) := by decide

theorem test_decode_decsym : decode 0b00000000000000000000000000001000#32 = .command .decsym := by decide

theorem test_decode_decstream : decode 0b00000000000000000000000000001001#32 = .command .decstream := by decide

theorem test_decode_flush :
    decode 0b00000000000000000000000000001010#32 = .command (.flush false false) ∧
    decode 0b00000000000000000000000100001010#32 = .command (.flush true false) ∧
    decode 0b00000000000000000000001000001010#32 = .command (.flush false true) ∧
    decode 0b00000000000000000000001100001010#32 = .command (.flush true true) := by decide

/-- Vectors C2-C4, E6, E7, F4: an opcode above 0x0A, a must-be-zero bit, a symbol above 256. -/
theorem test_decode_illegal :
    decode 0x0000000B = .illegal .opcode ∧ decode 0x000000FF = .illegal .opcode ∧
    decode 0x00000100 = .illegal .mustBeZero ∧ decode 0x00000304 = .illegal .mustBeZero ∧
    decode 0x0000040A = .illegal .mustBeZero ∧ decode 0x00410106 = .illegal .mustBeZero ∧
    decode 0x02000006 = .illegal .mustBeZero ∧ decode 0x01010006 = .illegal .symbolRange := by decide

theorem test_decode_table_word :
    decodeTableWord 32 0x00410006 = some (.encsym 65) ∧ decodeTableWord 32 0x0000000B = none := by decide

/-! ## Small states -/

/-- The step answers a next state of which `p` holds. -/
def after (o : Host.Outcome State Fault Refusal) (p : State → Bool) : Bool :=
  match o with
  | .next t => p t
  | .fault _ => false
  | .refused _ => false

theorem exists_of_after {o : Host.Outcome State Fault Refusal} {p : State → Bool} (h : after o p = true) :
    ∃ t, o = .next t ∧ p t = true := by
  cases o with
  | next t => exact ⟨t, rfl, h⟩
  | fault f => cases f
  | refused r => simp [after] at h

/-- The tree of vector R1, and of B1. -/
def abTree : Tree := .node (.leaf 65) (.node (.leaf 66) (.leaf 256))

/-- The counts of vector B1. -/
def counted : State := (State.reset.setFreq 65 2).setFreq 66 1

/-- The node store after vector R1, and the code table of G1. -/
def held : State where
  irqEn     := false
  flags     := { Flags.zero with treeValid := true, codesValid := true }
  errCode   := 0
  errInfo   := 0
  root      := 0
  nodeCount := 5
  leafCount := 3
  sym       := 0
  nodeSel   := 0
  codeSel   := 0
  counters  := Counters.zero
  freq      := State.reset.freq
  nodes     := ((((State.reset.nodes.setIfInBounds 0 (internalNode 0 0 1 2)).setIfInBounds 1
    (leafNode 1 65 0)).setIfInBounds 2 (internalNode 2 0 3 4)).setIfInBounds 3 (leafNode 3 66 0)).setIfInBounds 4
    (leafNode 4 256 0)
  codes     := ((State.reset.codes.setIfInBounds 65 { valid := true, bits := [false] }).setIfInBounds 66
    { valid := true, bits := [true, false] }).setIfInBounds 256 { valid := true, bits := [true, true] }
  seq       := Seq.idle
  ports     := Ports.empty
  events    := []
  readData  := 0
  draws     := 0

/-- The tree of vector R3: the root is a literal. -/
def literal : State :=
  { held with
    flags     := { Flags.zero with treeValid := true }
    nodes     := State.reset.nodes.setIfInBounds 0 (leafNode 0 65 0)
    nodeCount := 1
    leafCount := 1
    codes     := State.reset.codes }

/-- The bit source holds `bits` and then answers `k`. -/
def State.source (s : State) (bits : List Bool) (k : EndKind) : State :=
  { s with ports.bitSource.rest := bits, ports.bitSource.term := k }

/-- The byte source holds `bytes` and then answers `k`. -/
def State.bytes (s : State) (bytes : List Byte) (k : EndKind) : State :=
  { s with ports.byteSource.rest := bytes, ports.byteSource.term := k }

/-- The sinks' first answers. -/
def State.sinks (s : State) (bits bytes : List Reply) : State :=
  { s with ports.bitSink.answers := bits, ports.byteSink.answers := bytes }

/-- Both sinks answer `Err` once their scripts are used up. -/
def State.thenFail (s : State) : State :=
  { s with ports.bitSink.thereafter := .err, ports.byteSink.thereafter := .err }

/-- What the outside world does next. -/
def State.doing (s : State) (es : List Event) : State := { s with events := es }

/-- `DECSTREAM` waits at the root for a bit source that does not answer (vector C12). -/
def waiting : State :=
  { held with
    flags.busy := true
    seq := { Seq.idle with
      jobs := [.descend true 0 false, .ret], outstanding := some .bitSource, inUse := [.bitSource, .byteSink] }
    ports.bitSource.answering := false }

/-! ## The vectors of spec/95_test_vectors.md -/

/-- C1: `NOP` clears `ERR_CODE` and leaves `STATUS.ERR`. -/
theorem test_nop : after (step ({ held with flags.err := true, errCode := 7, errInfo := 2 }.withFetchWord 32 0))
    (fun t => t.errCode = 0 ∧ t.errInfo = 0 ∧ t.status = 0x36) = true := by decide +kernel

/-- C5: `CLEAR` leaves `STATUS = 0x02`, and keeps `CTRL`. -/
theorem test_clear : after (step ({ counted with irqEn := true, flags.ovr := true, sym := 9 }.withFetchWord 32 1))
    (fun t => t.status = 0x02 ∧ t.freqAt 65 = 0 ∧ t.freqAt 256 = 1 ∧ t.irqEn ∧ t.sym = 0) = true := by
  decide +kernel

/-- B1: the tree of the counts A 2, B 1, with the window of `NODE_SEL = 0` and `NODE_SEL = 3`. -/
theorem test_build_two : after (step (counted.withFetchWord 32 2)) (fun t =>
    t.status = 0x12 ∧ t.root = 4 ∧ t.nodeCount = 5 ∧ t.leafCount = 3 ∧ (t.node 4).w = 4 ∧
    { t with nodeSel := 0 }.nodeInfo = 0xC4100000 ∧ { t with nodeSel := 3 }.nodeInfo = 0x80000801 ∧
    { t with nodeSel := 4 }.nodeInfo = 0x80000C00 ∧ { t with nodeSel := 3 }.nodeWlo = 2 ∧
    { t with nodeSel := 5 }.nodeInfo = 0) = true := by decide +kernel

/-- B4: the sentinel is lighter, so it is the left child. -/
theorem test_build_order : after (step ((State.reset.setFreq 7 5).withFetchWord 32 2)) (fun t =>
    t.root = 2 ∧ (t.node 2).l = 1 ∧ (t.node 2).r = 0 ∧ (t.node 1).sym = 256) = true := by decide +kernel

/-- G1, with the windows of `CODE_SEL = 66`, 256 and 67. -/
theorem test_gencodes : after (step ({ held with codes := State.reset.codes }.withFetchWord 32 3)) (fun t =>
    t.code 65 = { valid := true, bits := [false] } ∧
    { t with codeSel := 66 }.codeLen = 0x80000002 ∧ { t with codeSel := 66 }.codeBits 0 = 0x80000000 ∧
    { t with codeSel := 256 }.codeBits 0 = 0xC0000000 ∧ { t with codeSel := 67 }.codeLen = 0) = true := by
  decide +kernel

/-- G9: no tree. -/
theorem test_gencodes_not_ready : after (step (State.reset.withFetchWord 32 3))
    (fun t => t.errCode = 5 ∧ t.errInfo = 0 ∧ t.status = 0x06) = true := by decide +kernel

/-- H2: the header is 0x48290B00. -/
theorem test_hdrwr : after (step (held.withFetchWord 32 4))
    (fun t => t.ports.bitSink.out = bin 32 0x48290B00 ∧ t.counters.bitsOut = 32) = true := by decide +kernel

/-- H8: the third write fails. -/
theorem test_hdrwr_sink_error : after (step ((State.sinks held [.ok, .ok, .err] []).withFetchWord 32 0x104))
    (fun t => t.errCode = 7 ∧ t.errInfo = 1 ∧ t.counters.bitsOut = 33 ∧ t.ports.trace.length = 3) = true := by
  decide +kernel

/-- R1 without the magic: nodes in preorder; the window of `NODE_SEL = 2`. -/
theorem test_hdrrd : after (step ((State.source State.reset (bin 32 0x48290B00 ++ [true]) .eod).withFetchWord 32 5))
    (fun t => t.errCode = 0 ∧ t.nodeCount = 5 ∧ t.leafCount = 3 ∧ { t with nodeSel := 2 }.nodeInfo = 0x80001003 ∧
      t.counters.bitsIn = 32 ∧ t.ports.bitSource.rest = [true]) = true := by decide +kernel

/-- R9: the symbol 65 twice. -/
theorem test_hdrrd_duplicate :
    after (step ((State.source held (false :: (bin 10 0x241 ++ bin 10 0x241)) .eod).withFetchWord 32 5))
    (fun t => t.errCode = 4 ∧ t.errInfo = 0x00410002 ∧ t.status = 0x06) = true := by decide +kernel

/-- E1: `ENCSYM 66` in two requests. -/
theorem test_encsym : after (step (held.withFetchWord 32 0x00420006)) (fun t =>
    t.ports.bitSink.out = [true, false] ∧ t.ports.trace = [.bitWrite 1 1, .bitWrite 1 0] ∧
    t.counters.bitsOut = 2) = true := by decide +kernel

/-- E3: the symbol 67 has no code. -/
theorem test_encsym_no_code : after (step (held.withFetchWord 32 0x00430006))
    (fun t => t.errCode = 6 ∧ t.errInfo = 0x43 ∧ t.ports.bitSink.out = []) = true := by decide +kernel

/-- N1: the payload and the terminator. -/
theorem test_encstream : after (step ((State.bytes held [65, 65, 66] .eod).withFetchWord 32 0x107)) (fun t =>
    t.ports.bitSink.out = bin 6 0b001011 ∧ t.counters.bytesIn = 3 ∧ t.counters.bitsOut = 6) = true := by
  decide +kernel

/-- N4: the byte 67 has no code. -/
theorem test_encstream_no_code :
    after (step ((State.bytes held [65, 67, 66] .eod).withFetchWord 32 0x107)) (fun t =>
    t.ports.bitSink.out = [false] ∧ t.errCode = 6 ∧ t.errInfo = 0x43 ∧ t.counters.bytesIn = 2 ∧
    t.ports.byteSource.rest = [66]) = true := by decide +kernel

/-- D1. -/
theorem test_decsym : after (step ((State.source held [true, false, true] .eod).withFetchWord 32 8)) (fun t =>
    t.sym = 66 ∧ ¬ t.flags.eos ∧ t.counters.bitsIn = 2 ∧ t.ports.bitSource.rest = [true]) = true := by
  decide +kernel

/-- D2. -/
theorem test_decsym_sentinel : after (step ((State.source held [true, true] .eod).withFetchWord 32 8))
    (fun t => t.sym = 256 ∧ t.flags.eos ∧ t.errCode = 0) = true := by decide +kernel

/-- D3. -/
theorem test_decstream : after (step ((State.source held (bin 6 0b001011) .eod).withFetchWord 32 9)) (fun t =>
    t.ports.byteSink.out = [65, 65, 66] ∧ t.sym = 256 ∧ t.flags.eos ∧ t.counters.bitsIn = 6 ∧
    t.counters.bytesOut = 3) = true := by decide +kernel

/-- D5: the source ends in the middle of a code. -/
theorem test_decstream_cut : after (step ((State.source held (bin 5 0b00101) .eod).withFetchWord 32 9)) (fun t =>
    t.ports.byteSink.out = [65, 65, 66] ∧ t.errCode = 3 ∧ t.errInfo = 1 ∧ ¬ t.flags.eos ∧ t.sym = 66) = true := by
  decide +kernel

/-- D11: the source fails after one byte. -/
theorem test_decstream_source_error : after (step ((State.source held [false] .err).withFetchWord 32 9)) (fun t =>
    t.ports.byteSink.out = [65] ∧ t.errCode = 7 ∧ t.errInfo = 0 ∧ ¬ t.flags.eos) = true := by decide +kernel

/-- R231: the byte sink fails at the second byte, once its script is used up; no further bit is read. -/
theorem test_decstream_sink_error :
    after (step ((State.thenFail (State.sinks (State.source held (bin 6 0b001011) .eod) [] [.ok])).withFetchWord 32 9))
    (fun t => t.ports.byteSink.out = [65] ∧ t.errCode = 7 ∧ t.errInfo = 3 ∧ ¬ t.flags.eos ∧ t.sym = 65 ∧
      t.counters.bytesOut = 1 ∧ t.ports.bitSource.rest = bin 4 0b1011) = true := by decide +kernel

/-- F1. -/
theorem test_flush : after (step (State.reset.withFetchWord 32 0x10A))
    (fun t => t.ports.trace = [.flush .bitSink] ∧ t.errCode = 0) = true := by decide +kernel

/-- F2: the bit sink fails, and the byte sink is not asked. -/
theorem test_flush_sink_error : after (step ((State.sinks State.reset [.err] []).withFetchWord 32 0x30A))
    (fun t => t.ports.trace = [.flush .bitSink] ∧ t.errCode = 7 ∧ t.errInfo = 1) = true := by decide +kernel

/-- F4. -/
theorem test_illegal_word : after (step (State.reset.withFetchWord 32 0x40A))
    (fun t => t.errCode = 8 ∧ t.errInfo = 0x40A ∧ t.status = 0x06) = true := by decide +kernel

/-- C10: only bit 0 of `CTRL` is there. -/
theorem test_ctrl : after (step (State.doing State.reset [wr 0x008 0xFFFFFFFF]))
    (fun t => t.readReg 0x008 = 1) = true := by decide +kernel

/-- C11: `STATUS = 0x16` and a write of ones leave 0x10. -/
theorem test_status_w1c :
    after (step (State.doing { literal with nodes := State.reset.nodes, flags := { literal.flags with done := true, err := true } }
      [wr 0x00C 0xFFFFFFFF])) (fun t => t.status = 0x10) = true := by decide +kernel

/-- C7: `FREQ[256]` is hardwired. -/
theorem test_sentinel_count : after (step (State.doing State.reset [wr 0x800 5]))
    (fun t => t.readReg 0x800 = 1) = true := by decide +kernel

/-- C12: a write while `DECSTREAM` waits is dropped. -/
theorem test_dropped_write :
    after (step (State.doing waiting [{ after := some 0, what := .write 0x504 4 9 }])) (fun t =>
    t.flags.ovr ∧ t.flags.busy ∧ t.freqAt 65 = 0 ∧ t.seq = waiting.seq) = true := by decide +kernel

/-- C12: the command completes once the source answers. -/
theorem test_answered_at_last :
    after (step (State.source { waiting with ports.bitSource.answering := true } [true, true] .eod))
    (fun t => ¬ t.flags.busy ∧ t.errCode = 0 ∧ t.flags.eos) = true := by decide +kernel

/-- R302: the byte source of `ENCSTREAM.T` stays in use while the terminator is written. -/
theorem test_port_in_use :
    (let s := run 3 (start (.encstream true) held);
      s.flags.busy ∧ s.seq.jobs = [.put 1 1, .ret] ∧ s.uses .byteSource ∧ s.uses .bitSink ∧ ¬ s.uses .bitSource ∧
      ¬ s.uses .byteSink) := by decide +kernel

/-- R116, R115: an operand in each of its forms. -/
theorem test_assemble :
    assemble ['e', 'n', 'c', 's', 'y', 'm', ' ', '0', 'x', '4', '1'] = some [.encsym 65] ∧
    assemble ['E', 'N', 'C', 'S', 'Y', 'M', ' ', '\'', 'A', '\''] = some [.encsym 65] ∧
    assemble ['E', 'N', 'C', 'S', 'Y', 'M', ' ', 'E', 'O', 'S'] = some [.encsym 256] ∧
    assemble ['E', 'N', 'C', 'S', 'Y', 'M', ' ', '2', '5', '7'] = none := by decide

/-- R115: mnemonics with their flags, written out. -/
theorem test_assemble_flags :
    assemble ['H', 'D', 'R', 'W', 'R', '.', 'M'] = some [.hdrwr true] ∧
    assemble ['H', 'D', 'R', 'R', 'D'] = some [.hdrrd false] ∧
    assemble ['E', 'N', 'C', 'S', 'T', 'R', 'E', 'A', 'M', '.', 'T'] = some [.encstream true] ∧
    assemble ['F', 'L', 'U', 'S', 'H', '.', 'K'] = some [.flush true false] ∧
    assemble ['F', 'L', 'U', 'S', 'H', '.', 'Y'] = some [.flush false true] ∧
    assemble ['F', 'L', 'U', 'S', 'H', '.', 'Y', 'K'] = none := by decide

/-! ## The states meet the invariants -/

theorem held_holds : held.Holds held.root abTree := by
  refine ⟨?_, ⟨?_, ?_⟩, ?_, ⟨?_, ?_⟩, ?_, ?_⟩ <;> decide +kernel

theorem abTree_legal : abTree.Legal := by
  refine ⟨by decide, ?_⟩
  decide

theorem held_holdsTree : held.HoldsTree abTree where
  valid     := rfl
  holds     := held_holds
  legal     := abTree_legal
  nodeCount := by decide
  leafCount := by decide
  indices   := by
    have h : held.indices held.root abTree = [0, 1, 2, 3, 4] := by decide +kernel
    rw [h]
    exact .refl _

theorem held_holdsCodes : held.HoldsCodes abTree := by
  intro x hx
  have hx' : x.toNat < 257 := by omega
  have hc : held.code x = held.codes[x.toNat] := by simp [State.code, Vector.getD, hx']
  rw [hc]
  simp only [held, Vector.getElem_setIfInBounds, State.reset, Vector.getElem_replicate, Code.blank]
  by_cases h65 : x = 65#9
  · subst h65; exact ⟨rfl, rfl⟩
  by_cases h66 : x = 66#9
  · subst h66; exact ⟨rfl, rfl⟩
  by_cases h256 : x = 256#9
  · subst h256; exact ⟨rfl, rfl⟩
  have n (k : Nat) (h : x ≠ BitVec.ofNat 9 k) : ¬ (k = x.toNat) := fun e => h (by simp [e])
  rw [if_neg (n 256 h256), if_neg (n 66 h66), if_neg (n 65 h65)]
  have : abTree.code x = none := by
    simp [abTree, Tree.code, Ne.symm h65, Ne.symm h66, Ne.symm h256]
  simp [this]

theorem held_treeInv : held.TreeInv where
  tree _    := ⟨abTree, held_holdsTree⟩
  noTree h  := by simp [held] at h
  codes _   := ⟨abTree, held_holdsTree, held_holdsCodes⟩
  noCodes h := by simp [held] at h

theorem held_leafSym (i : NodeIx) (h : (held.node i).leaf = true) : (held.node i).sym.toNat ≤ 256 := by
  by_cases hi : i.toNat < 513
  · rw [State.node_getElem rfl hi] at h ⊢
    simp only [held, Vector.getElem_setIfInBounds, State.reset, Vector.getElem_replicate] at h ⊢
    split_ifs at h ⊢ <;> simp_all [leafNode, internalNode, Node.blank]
  · simp [State.node, Vector.getD, hi, Node.blank] at h

theorem held_inv (es : List Event) : (State.doing held es).Inv where
  legal := .idle
  busy := rfl
  hidden _ := rfl
  usesIn j h := by simp [held, State.doing, Seq.idle] at h
  waitsIn p h := by simp [held, State.doing, Seq.idle] at h
  noTree h := by simp [held, State.doing] at h
  walking h := by simp [held, State.doing, Seq.idle] at h
  noCodes h := by simp [held, State.doing] at h
  errCode := Nat.zero_le _
  errInfo _ := rfl
  leafSym i h := held_leafSym i h
  sym := Nat.zero_le _

theorem code_reset (x : Symbol) : State.reset.code x = Code.blank := by
  by_cases hx : x.toNat < 257 <;> simp [State.code, Vector.getD, hx, State.reset]

theorem reset_treeInv : State.reset.TreeInv where
  tree h := by simp [State.reset, Flags.zero] at h
  noTree _ := ⟨rfl, rfl, rfl, rfl⟩
  codes h := by simp [State.reset, Flags.zero] at h
  noCodes _ x := by rw [code_reset]; rfl

theorem accepts_empty {α : Type} : (Sink.empty : Sink α).Accepts := ⟨rfl, by simp [Sink.empty], rfl⟩

/-! ## For every statement with hypotheses: a state and operands that meet them -/

theorem witness_DecodeInvertsEncode : (Instr.encsym 256).wf = true ∧ (Instr.flush true true).wf = true := by decide

theorem witness_EncodeInvertsDecode :
    decode 0x01000006 = .command (.encsym 256) ∧ decode 0x0000030A = .command (.flush true true) := by decide

/-- One illegal word for each case of R106, at the ends of the ranges, written by a host that then waits. -/
theorem witness_IllegalWordsCompleteWithIllegalCmd :
    ∀ w ∈ [0x0000000B#32, 0x000000FF#32, 0x00000100#32, 0x80000009#32, 0x00000204#32, 0x80000007#32, 0x0000040A#32,
      0x00000106#32, 0x02000006#32, 0x01010006#32, 0x01FF0006#32],
    (∀ i, decode w ≠ .command i) ∧ (State.doing held [wr 0x004 w, rd 0x00C]).flags.busy = false ∧
    (State.doing held [wr 0x004 w, rd 0x00C]).events = wr 0x004 w :: [rd 0x00C] ∧
    (wr 0x004 w).what = .write 0x004 4 w ∧ (∀ e' es', [rd 0x00C] = e' :: es' → e'.after = none) := by
  intro w hw
  refine ⟨?_, rfl, rfl, rfl, ?_⟩
  · have hd : [0x0000000B#32, 0x000000FF#32, 0x00000100#32, 0x80000009#32, 0x00000204#32, 0x80000007#32, 0x0000040A#32,
        0x00000106#32, 0x02000006#32, 0x01010006#32, 0x01FF0006#32].all (fun v => (decode v).toOption.isNone) = true := by
      decide +kernel
    intro i h
    have := List.all_eq_true.1 hd w hw
    rw [h] at this
    cases this
  · rintro e' es' ⟨⟩; rfl

/-- A mnemonic with a flag in small letters, and the ends of the operand's range. -/
theorem witness_AssemblerReachesEveryCommand :
    (Instr.flush true true).wf = true ∧
    ['f', 'l', 'U', 's', 'h', '.', 'k', 'Y'].map upper = Instr.mnemonic (.flush true true) ∧
    (Instr.encsym 256).wf = true ∧ ['e', 'n', 'c', 's', 'y', 'm'].map upper = Instr.mnemonic (.encsym 256) ∧
    (256 : Symbol).toNat ≤ 256 ∧ 256 < 257 ∧ 999 < 1000 := by decide

theorem witness_StepRunsTheCommand :
    let s := State.doing held [wr 0x004 0x0000030A, rd 0x010]
    s.flags.busy = false ∧ s.events = wr 0x004 0x0000030A :: [rd 0x010] ∧
    (wr 0x004 0x0000030A).what = .write 0x004 4 0x0000030A ∧ decode 0x0000030A = .command (.flush true true) ∧
    ∀ e' es', [rd 0x010] = e' :: es' → e'.after = none :=
  ⟨rfl, rfl, rfl, by decide, by rintro e' es' ⟨⟩; rfl⟩

/-- A command and an illegal word, with an access that does not wait. -/
theorem witness_AcceptedCommandIsSeenBusy :
    ∀ w ∈ [0x00000003#32, 0x0000000B#32],
    let e' : Event := { after := some 0, what := .read 0x00C 4 }
    let s := State.doing held [wr 0x004 w, e']
    s.flags.busy = false ∧ s.events = wr 0x004 w :: e' :: [] ∧ (wr 0x004 w).what = .write 0x004 4 w ∧
    e'.after = some 0 ∧ decode 0x00000003#32 = .command .gencodes ∧ decode 0x0000000B#32 = .illegal .opcode :=
  fun _ _ => ⟨rfl, rfl, rfl, rfl, by decide, by decide⟩

/-- Cut before the first position and in the middle of the walk; and a `CLEAR`; a host that waits; a write to the first and to the
last offset. -/
theorem witness_DroppedWriteDoesNotDisturbTheCommand :
    (∃ t, exec .gencodes held = .next t ∧ t.flags.busy = false) ∧
    (run 0 (start .gencodes held)).flags.busy = true ∧ (run 3 (start .gencodes held)).flags.busy = true ∧
    (∃ t, exec .clear held = .next t ∧ t.flags.busy = false) ∧ (run 0 (start .clear held)).flags.busy = true ∧
    (rd 0x00C).after = none ∧ 0x000 < 0x1000 ∧ 0x000 % 4 = 0 ∧ 0xFFC < 0x1000 ∧ 0xFFC % 4 = 0 := by
  have h : after (exec .gencodes held) (fun t => !t.flags.busy) = true := by decide +kernel
  have h' : after (exec .clear held) (fun t => !t.flags.busy) = true := by decide +kernel
  obtain ⟨t, ht, hb⟩ := exists_of_after h
  obtain ⟨t', ht', hb'⟩ := exists_of_after h'
  exact ⟨⟨t, ht, by simpa using hb⟩, by decide, by decide +kernel, ⟨t', ht', by simpa using hb'⟩, by decide, rfl,
    by decide⟩

theorem witness_BusyWriteIsDropped :
    ∀ off ∈ [0x000, 0x004, 0x00C, 0x074, 0x400, 0xFFC],
    let s := State.doing waiting [{ after := some 0, what := .write off 4 9 }]
    s.flags.busy = true ∧ off < 0x1000 ∧ off % 4 = 0 ∧ s.events = { after := some 0, what := .write off 4 9 } :: [] := by
  intro off h
  have : ∀ k ∈ [0x000, 0x004, 0x00C, 0x074, 0x400, 0xFFC], k < 0x1000 ∧ k % 4 = 0 := by decide
  exact ⟨rfl, (this off h).1, (this off h).2, rfl⟩

theorem witness_BusyReadsReturnOnlyWhatIsDefined :
    ∀ off ∈ [0x000, 0x008, 0x00C, 0x018, 0x028, 0xFFC],
    let s := State.doing waiting [{ after := some 0, what := .read off 4 }]
    s.flags.busy = true ∧ off < 0x1000 ∧ off % 4 = 0 ∧ s.events = { after := some 0, what := .read off 4 } :: [] := by
  intro off h
  have : ∀ k ∈ [0x000, 0x008, 0x00C, 0x018, 0x028, 0xFFC], k < 0x1000 ∧ k % 4 = 0 := by decide
  exact ⟨rfl, (this off h).1, (this off h).2, rfl⟩

/-- Every register of the map, and the ends of the ranges. -/
theorem witness_IdleReadsFollowTheRegisterMap :
    ∀ off ∈ [0x000, 0x004, 0x008, 0x00C, 0x010, 0x014, 0x018, 0x01C, 0x020, 0x024, 0x028, 0x02C, 0x030, 0x034, 0x038,
      0x03C, 0x040, 0x044 + 4 * 0, 0x044 + 4 * 7, 0x064, 0x068, 0x06C, 0x070, 0x074, 0x3FC, 0x400 + 4 * 0, 0x400 + 4 * 255,
      0x800, 0x804, 0xFFC],
    (State.doing held [rd off]).flags.busy = false ∧ off < 0x1000 ∧ off % 4 = 0 ∧
    (State.doing held [rd off]).events = rd off :: [] ∧ (rd off).what = .read off 4 := by
  intro off h
  have : ∀ k ∈ [0x000, 0x004, 0x008, 0x00C, 0x010, 0x014, 0x018, 0x01C, 0x020, 0x024, 0x028, 0x02C, 0x030, 0x034, 0x038,
      0x03C, 0x040, 0x044 + 4 * 0, 0x044 + 4 * 7, 0x064, 0x068, 0x06C, 0x070, 0x074, 0x3FC, 0x400 + 4 * 0, 0x400 + 4 * 255,
      0x800, 0x804, 0xFFC], k < 0x1000 ∧ k % 4 = 0 := by decide
  exact ⟨rfl, (this off h).1, (this off h).2, rfl, rfl⟩

/-- The first and the last node of the tree, the first index past it; a code, a symbol without one, the selectors past the
alphabet. -/
theorem witness_WindowsShowTheSelectedEntries :
    (∀ n ∈ [0#10, 4#10], held.flags.treeValid = true ∧ ({ held with nodeSel := n } : State).nodeSel.toNat < held.nodeCount.toNat) ∧
    (∀ n ∈ [5#10, 1023#10],
      ¬ (held.flags.treeValid = true ∧ ({ held with nodeSel := n } : State).nodeSel.toNat < held.nodeCount.toNat)) ∧
    (∀ x ∈ [66#9, 256#9], held.flags.codesValid = true ∧ ({ held with codeSel := x } : State).codeSel.toNat ≤ 256 ∧
      (held.code x).valid = true ∧ (held.code x).bits.length ≤ 256) ∧
    (∀ x ∈ [67#9, 257#9, 511#9], ¬ (held.flags.codesValid = true ∧ ({ held with codeSel := x } : State).codeSel.toNat ≤ 256 ∧
      (held.code x).valid = true)) := by
  refine ⟨?_, ?_, ?_, ?_⟩ <;> decide +kernel

/-- Each writable register, the ends of the frequency table, and offsets that ignore a write. -/
theorem witness_IdleWritesFollowTheAccessTypes :
    ∀ off ∈ [0x000, 0x008, 0x00C, 0x02C, 0x03C, 0x074, 0x3FC, 0x400 + 4 * 0, 0x400 + 4 * 255, 0x800, 0x804, 0xFFC],
    (State.doing held [wr off 0xFFFFFFFF]).flags.busy = false ∧ off < 0x1000 ∧ off % 4 = 0 ∧ off ≠ 0x004 ∧
    (State.doing held [wr off 0xFFFFFFFF]).events = wr off 0xFFFFFFFF :: [] ∧
    (wr off 0xFFFFFFFF).what = .write off 4 0xFFFFFFFF := by
  intro off h
  have : ∀ k ∈ [0x000, 0x008, 0x00C, 0x02C, 0x03C, 0x074, 0x3FC, 0x400 + 4 * 0, 0x400 + 4 * 255, 0x800, 0x804, 0xFFC],
    k < 0x1000 ∧ k % 4 = 0 ∧ k ≠ 0x004 := by decide
  exact ⟨rfl, (this off h).1, (this off h).2.1, (this off h).2.2, rfl, rfl⟩

/-- A byte access, a misaligned one, one past the last offset; idle and busy; a read and a write. -/
theorem witness_OnlyAlignedWordAccessesExist :
    ∀ a ∈ [(0x00C, 1), (0x00E, 4), (0x1000, 4)], ∀ s ∈ [held, waiting],
    let e : Event := { after := some 0, what := .read a.1 a.2 }
    let e' : Event := { after := some 0, what := .write a.1 a.2 9 }
    (State.doing s [e]).events = e :: [] ∧ ((State.doing s [e]).flags.busy = true → e.after = some 0) ∧
    (e.what = .read a.1 a.2 ∨ e.what = .write a.1 a.2 9) ∧ (e'.what = .read a.1 a.2 ∨ e'.what = .write a.1 a.2 9) ∧
    (a.2 ≠ 4 ∨ a.1 % 4 ≠ 0 ∨ 0x1000 ≤ a.1) := by
  intro a ha s _
  have : ∀ b ∈ [(0x00C, 1), (0x00E, 4), (0x1000, 4)], (b.2 ≠ 4 ∨ b.1 % 4 ≠ 0 ∨ 0x1000 ≤ b.1) := by decide
  exact ⟨rfl, fun _ => rfl, .inl rfl, .inr rfl, this a ha⟩

/-- `ENCSTREAM` waits for a byte source that does not answer. -/
def waitingBytes : State :=
  { held with
    flags.busy := true
    seq := { Seq.idle with
      jobs := [.encByte true, .ret], outstanding := some .byteSource, inUse := [.byteSource, .bitSink] }
    ports.byteSource.answering := false }

/-- Each of the four ports, in use and not; and each command that uses a port, busy. -/
theorem witness_InterleavedStreamsAreRefused :
    (∀ s ∈ [held, waiting, waitingBytes], ∀ a ∈ [Action.attachBitSource [true] .eod, .attachByteSource [65] .err,
        .attachBitSink [.ok] .err, .attachByteSink [.err] .ok],
      let e : Event := { after := some 0, what := a }
      (State.doing s [e]).events = e :: [] ∧ ((State.doing s [e]).flags.busy = true → e.after = some 0) ∧ e.what = a) ∧
    (waiting.uses .bitSource = true ∧ waiting.uses .byteSink = true ∧ waitingBytes.uses .byteSource = true ∧
      waitingBytes.uses .bitSink = true) ∧
    (waitingBytes.uses .bitSource = false ∧ waitingBytes.uses .byteSink = false ∧ waiting.uses .byteSource = false ∧
      waiting.uses .bitSink = false) ∧
    [Instr.hdrrd true, .decsym, .decstream, .hdrwr false, .encsym 66, .encstream true, .flush true false,
      .flush false true].all (fun i => (run 1 (start i held)).flags.busy) = true ∧
    held.seq = Seq.idle :=
  ⟨fun _ _ _ _ => ⟨rfl, fun _ => rfl, rfl⟩, by decide, by decide, by decide +kernel, rfl⟩

/-- An idle block; a blocked one and one that can move, with nothing to come, a host that waits, and an access that does not. -/
theorem witness_NothingMovesWithoutAnActionOrAnAnswer :
    (held.events = [] ∧ held.flags.busy = false) ∧
    (∀ es ∈ [[], [rd 0x00C]], (State.doing waiting es).flags.busy = true ∧ ∀ e es', es = e :: es' → e.after = none) ∧
    (waiting.seq.outstanding = some .bitSource ∧ waiting.answering .bitSource = false) ∧
    ((start .gencodes held).flags.busy = true ∧ (start .gencodes held).events = [] ∧
      ∀ p : Port, (start .gencodes held).seq.outstanding = some p → (start .gencodes held).answering p = true) ∧
    (let e : Event := { after := some (2 + 1), what := .read 0x00C 4 };
      (State.doing waiting [e]).flags.busy = true ∧ (State.doing waiting [e]).events = e :: [] ∧
      e.after = some (2 + 1)) := by
  refine ⟨⟨rfl, rfl⟩, fun es hs => ⟨rfl, ?_⟩, ⟨rfl, rfl⟩, ⟨rfl, rfl, by simp [start, beginGencodes, Seq.idle]⟩, rfl, rfl, rfl⟩
  rintro e es' rfl
  simp only [List.mem_cons, List.cons.injEq, List.not_mem_nil, or_false, reduceCtorEq, false_or] at hs
  rw [hs.1]
  rfl

theorem witness_ResetInputAbandonsTheCommand :
    let e : Event := { after := some 0, what := .reset }
    (State.doing waiting [e]).events = e :: [] ∧ ((State.doing waiting [e]).flags.busy = true → e.after = some 0) ∧
    e.what = .reset ∧ held.seq.outstanding = none ∧ waiting.seq.outstanding ≠ some .bitSink ∧
    waiting.seq.outstanding ≠ some .byteSource ∧ waiting.seq.outstanding ≠ some .byteSink ∧
    held.seq.outstanding ≠ some .bitSource :=
  ⟨rfl, fun _ => rfl, rfl, rfl, by decide, by decide, by decide, by decide⟩

theorem witness_StepKeepsTheInvariant :
    ∃ t, (State.doing held [cmd .gencodes]).Inv ∧ step (State.doing held [cmd .gencodes]) = .next t := by
  have h : after (step (State.doing held [cmd .gencodes])) (fun _ => true) = true := by decide +kernel
  obtain ⟨t, ht, -⟩ := exists_of_after h
  exact ⟨t, held_inv _, ht⟩

theorem witness_CommandsKeepTreeAndCodeValidity :
    held.TreeInv ∧ ∃ t, exec .gencodes held = .next t ∧ t.flags.busy = false :=
  ⟨held_treeInv, witness_DroppedWriteDoesNotDisturbTheCommand.1⟩

theorem witness_CommandsCompleteIfPortsAnswer : held.TreeInv ∧ held.PortsAnswer :=
  ⟨held_treeInv, fun p => by cases p <;> rfl⟩

/-- A command that succeeds and one that fails. -/
theorem witness_EveryCompletionReportsItsOutcome :
    (∃ t, exec .gencodes held = .next t ∧ t.flags.busy = false ∧ t.errCode = 0#4) ∧
    (∃ t, exec .gencodes State.reset = .next t ∧ t.flags.busy = false ∧ t.errCode = 5#4) := by
  have h : after (exec .gencodes held) (fun t => t.flags.busy = false ∧ t.errCode = 0#4) = true := by decide +kernel
  have h' : after (exec .gencodes State.reset) (fun t => t.flags.busy = false ∧ t.errCode = 5#4) = true := by
    decide +kernel
  obtain ⟨t, ht, hb⟩ := exists_of_after h
  obtain ⟨t', ht', hb'⟩ := exists_of_after h'
  exact ⟨⟨t, ht, of_decide_eq_true hb⟩, t', ht', of_decide_eq_true hb'⟩

theorem witness_InterruptFollowsCompletion : ∃ t, exec .gencodes held = .next t ∧ t.flags.busy = false :=
  witness_CommandsKeepTreeAndCodeValidity.2

theorem witness_CommandsLeaveOtherRegistersAlone :
    (∃ t, exec .gencodes { held with flags.err := true } = .next t) ∧ Instr.gencodes ≠ .clear ∧
    Instr.gencodes ≠ .decsym ∧ Instr.gencodes ≠ .decstream ∧ ({ held with flags.err := true } : State).flags.err = true :=
  ⟨⟨_, rfl⟩, by decide, by decide, by decide, rfl⟩

theorem witness_CommandsLeaveOtherStoresAlone :
    (∃ t, exec .decsym held = .next t) ∧ Instr.decsym ≠ .build ∧ (∀ m, Instr.decsym ≠ .hdrrd m) ∧
    Instr.decsym ≠ .clear ∧ Instr.decsym ≠ .gencodes :=
  ⟨⟨_, rfl⟩, by decide, by decide, by decide, by decide⟩

theorem witness_CommandsLeaveOtherPortsAlone :
    (∃ t, exec .gencodes held = .next t) ∧ (∀ m, Instr.gencodes ≠ .hdrrd m) ∧ Instr.gencodes ≠ .decsym ∧
    Instr.gencodes ≠ .decstream ∧ (∀ m, Instr.gencodes ≠ .hdrwr m) ∧ (∀ x, Instr.gencodes ≠ .encsym x) ∧
    (∀ b, Instr.gencodes ≠ .encstream b) ∧ (∀ y, Instr.gencodes ≠ .flush true y) ∧ (∀ k, Instr.gencodes ≠ .flush k true) ∧
    (Instr.gencodes = .nop ∨ Instr.gencodes = .clear ∨ Instr.gencodes = .build ∨ Instr.gencodes = .gencodes) :=
  ⟨⟨_, rfl⟩, by simp, by simp, by simp, by simp, by simp, by simp, by simp, by simp, by simp⟩

theorem witness_SinkOutputStandsAndIsCounted :
    Instr.encsym 66 ≠ .clear ∧ ∃ t, exec (.encsym 66) held = .next t ∧ t.ports.bitSink.out = [true, false] := by
  have h : after (exec (.encsym 66) held) (fun t => t.ports.bitSink.out = [true, false]) = true := by decide +kernel
  obtain ⟨t, ht, hb⟩ := exists_of_after h
  exact ⟨by decide, t, ht, of_decide_eq_true hb⟩

theorem witness_SourcesLoseExactlyWhatIsCounted :
    Instr.decsym ≠ .clear ∧ ∃ t, exec .decsym (State.source held [true, false, true] .eod) = .next t ∧
    t.draws = (State.source held [true, false, true] .eod).draws ∧ t.ports.bitSource.rest = [true] := by
  have h : after (exec .decsym (State.source held [true, false, true] .eod))
      (fun t => t.draws = 0 ∧ t.ports.bitSource.rest = [true]) = true := by decide +kernel
  obtain ⟨t, ht, hb⟩ := exists_of_after h
  exact ⟨by decide, t, ht, of_decide_eq_true hb⟩

theorem witness_PreconditionsAreCheckedFirst :
    State.reset.flags.treeValid = false ∧ State.reset.flags.codesValid = false ∧
    ∃ t, exec .gencodes State.reset = .next t ∧ t.flags.busy = false ∧ t.errCode = 5#4 :=
  ⟨rfl, rfl, witness_EveryCompletionReportsItsOutcome.2⟩

/-- Nodes 3 and 4 of vector B1 are merges; index 2 is a leaf. -/
theorem witness_Build :
    ∃ t, exec .build counted = .next t ∧ t.leafCount.toNat = 3 ∧ t.nodeCount.toNat = 5 ∧
    (t.node 2).leaf = true ∧ (t.node 3).leaf = false ∧ (t.node 4).leaf = false ∧ counted.qualifying = [65, 66, 256] := by
  have h : after (exec .build counted) (fun t => t.leafCount.toNat = 3 ∧ t.nodeCount.toNat = 5 ∧
    (t.node 2).leaf = true ∧ (t.node 3).leaf = false ∧ (t.node 4).leaf = false ∧ counted.qualifying = [65, 66, 256])
    = true := by decide +kernel
  obtain ⟨t, ht, hb⟩ := exists_of_after h
  exact ⟨t, ht, of_decide_eq_true hb⟩

theorem witness_BuildNumbersLeavesThenInternalNodes :
    counted.qualifying[2]? = some 256 ∧ counted.qualifying.length ≤ 3 ∧ 4 < 2 * counted.qualifying.length - 1 ∧
    2 * counted.qualifying.length - 1 ≤ 5 := by
  obtain ⟨t, -, -, -, -, -, -, h⟩ := witness_Build
  simp [h]

theorem witness_BuildMergesTheTwoLeastKeys :
    ∃ t, exec .build counted = .next t ∧ t.leafCount.toNat ≤ 3 ∧ 4 < 2 * t.leafCount.toNat - 1 := by
  obtain ⟨t, ht, h, -⟩ := witness_Build
  exact ⟨t, ht, by omega, by omega⟩

theorem witness_BuildMakesAValidTree :
    ∃ t, exec .build counted = .next t ∧ (2#10).toNat < t.nodeCount.toNat ∧ (t.node 2).leaf = true ∧
    (4#10).toNat < t.nodeCount.toNat ∧ (t.node 4).leaf = false := by
  obtain ⟨t, ht, -, h, h2, -, h4, -⟩ := witness_Build
  exact ⟨t, ht, by simp [h], h2, by simp [h], h4⟩

theorem witness_BuildRootWeighsAllCounts :
    ∃ t, exec .build counted = .next t ∧ (4#10).toNat < t.nodeCount.toNat := by
  obtain ⟨t, ht, -, h, -⟩ := witness_BuildMakesAValidTree
  obtain ⟨t', ht', h', -⟩ := witness_Build
  obtain ⟨u, hu, -, hn, -⟩ := witness_Build
  exact ⟨u, hu, by simp [hn]⟩

theorem witness_GencodesWritesTheCodeTable :
    held.flags.treeValid = true ∧ held.Holds held.root abTree ∧ abTree.Legal :=
  ⟨rfl, held_holds, abTree_legal⟩

theorem witness_CodesArePrefixFree :
    ∃ t, held.HoldsTree abTree ∧ exec .gencodes held = .next t ∧ (66 : Symbol) ≠ 256 ∧
    (t.code 66).valid = true ∧ (t.code 256).valid = true := by
  have h : after (exec .gencodes held) (fun t => (t.code 66).valid = true ∧ (t.code 256).valid = true) = true := by
    decide +kernel
  obtain ⟨t, ht, hb⟩ := exists_of_after h
  exact ⟨t, held_holdsTree, ht, by decide, of_decide_eq_true hb⟩

theorem witness_CodeLengthsMeetKraftEquality :
    ∃ t, held.HoldsTree abTree ∧ exec .gencodes held = .next t ∧ t.codes[66].valid = true := by
  have h : after (exec .gencodes held) (fun t => t.codes[66].valid) = true := by decide +kernel
  obtain ⟨t, ht, hb⟩ := exists_of_after h
  exact ⟨t, held_holdsTree, ht, hb⟩

theorem witness_HdrwrWritesTheHeader :
    held.flags.treeValid = true ∧ held.Holds held.root abTree ∧ abTree.Legal ∧ held.ports.bitSink.Accepts :=
  ⟨rfl, held_holds, abTree_legal, accepts_empty⟩

/-- Vector H8, and the same error from a sink whose script is used up. -/
theorem witness_HdrwrStopsAtASinkError :
    ∀ s ∈ [State.sinks held [.ok, .ok, .err] [], State.thenFail (State.sinks held [.ok, .ok] [])],
    s.flags.treeValid = true ∧ s.Holds s.root abTree ∧ abTree.Legal ∧ s.ports.bitSink.FailsAt 2 ∧
    (magicWrite true ++ abTree.writes)[2]? = some (1, 1) := by
  rw [List.forall_mem_cons, List.forall_mem_singleton]
  exact ⟨⟨rfl, held_holds.congr rfl, abTree_legal, ⟨rfl, by decide, rfl⟩, rfl⟩,
    rfl, held_holds.congr rfl, abTree_legal, ⟨rfl, by decide, rfl⟩, rfl⟩

theorem witness_HdrrdReadsTheHeader :
    let s := State.source State.reset (magicBits true ++ abTree.ser ++ [true]) .eod
    abTree.Legal ∧ s.ports.bitSource.answering = true ∧ s.ports.bitSource.rest = magicBits true ++ abTree.ser ++ [true] :=
  ⟨abTree_legal, rfl, rfl⟩

theorem witness_HdrrdChecksTheMagicFirst :
    (Config.magic + 1#32 ≠ Config.magic ∧
      (State.source held (bin 32 (Config.magic + 1#32).toNat ++ [true]) .eod).ports.bitSource.answering = true ∧
      (State.source held (bin 32 (Config.magic + 1#32).toNat ++ [true]) .eod).ports.bitSource.rest =
        bin 32 (Config.magic + 1#32).toNat ++ [true]) ∧
    (∀ k ∈ [EndKind.eod, EndKind.err], (State.source held (List.replicate 31 true) k).ports.bitSource.rest.length < 32 ∧
      (State.source held (List.replicate 31 true) k).ports.bitSource.term = k) := by
  refine ⟨⟨?_, rfl, rfl⟩, by decide⟩
  bv_omega

/-- Vector R5 (the cut falls between two fields), the empty source, a cut in the middle of the field of leaf 66; a source that
ends with `EOD` and one that ends with `Err`. -/
theorem witness_HdrrdRefusesATruncatedHeader :
    ∀ p ∈ [(0, (1, 0), []), (3, (1, 0), []), (4, (1, 1), []), (5, (9, 66), [false, false, true])],
    ∀ k : EndKind,
    let s := State.source held (magicBits true ++ abTree.bitsTo p.1 ++ p.2.2) k
    s.ports.bitSource.answering = true ∧ abTree.CleanTo p.1 ∧ abTree.writes[p.1]? = some p.2.1 ∧
    p.2.2.length < p.2.1.1 ∧ s.ports.bitSource.rest = magicBits true ++ abTree.bitsTo p.1 ++ p.2.2 ∧
    s.ports.bitSource.term = k := by
  intro p hp k
  have : ∀ q ∈ [(0, (1, 0), []), (3, (1, 0), []), (4, (1, 1), []), (5, (9, 66), [false, false, true])],
    ((abTree.symsTo q.1).Nodup ∧ (∀ x ∈ abTree.symsTo q.1, x.toNat ≤ 256) ∧ abTree.intsTo q.1 ≤ 256) ∧
    abTree.writes[q.1]? = some q.2.1 ∧ q.2.2.length < q.2.1.1 := by decide
  exact ⟨rfl, (this p hp).1, (this p hp).2.1, (this p hp).2.2, rfl, rfl⟩

/-- A chain to the left, of `n` internal nodes. -/
def chain : Nat → Tree
  | 0 => .leaf 0
  | n + 1 => .node (chain n) (.leaf 1)

/-- Vectors R8, R9 and R10, with the magic before them; the symbol 257 is the least above the alphabet. -/
theorem witness_HdrrdRefusesAnInvalidHeader :
    (∀ c ∈ [(Tree.leaf 257, 1, (257 : Symbol)), (.leaf 300, 1, 300), (.node (.leaf 65) (.leaf 65), 4, 65)],
      let s := State.source held (magicBits true ++ c.1.bitsTo (c.2.1 + 1) ++ [true]) .eod
      s.ports.bitSource.answering = true ∧ c.1.CleanTo c.2.1 ∧
      s.ports.bitSource.rest = magicBits true ++ c.1.bitsTo (c.2.1 + 1) ++ [true] ∧
      c.1.writes[c.2.1]? = some (9, c.2.2.toNat) ∧ (256 < c.2.2.toNat ∨ c.2.2 ∈ c.1.symsTo c.2.1)) ∧
    (let s := State.source held (magicBits true ++ (chain 257).bitsTo (256 + 1) ++ [true]) .eod;
      s.ports.bitSource.answering = true ∧ (chain 257).CleanTo 256 ∧
      s.ports.bitSource.rest = magicBits true ++ (chain 257).bitsTo (256 + 1) ++ [true] ∧
      (chain 257).writes[256]? = some (1, 0) ∧ (chain 257).intsTo 256 = 256) := by
  have h0 : (chain 257).symsTo 256 = [] := by decide +kernel
  have h1 : (chain 257).intsTo 256 = 256 := by decide +kernel
  refine ⟨?_, rfl, ⟨by simp [h0], by simp [h0], by omega⟩, rfl, by decide +kernel, h1⟩
  intro c hc
  have : ∀ d ∈ [(Tree.leaf 257, 1, (257 : Symbol)), (.leaf 300, 1, 300), (.node (.leaf 65) (.leaf 65), 4, 65)],
    ((d.1.symsTo d.2.1).Nodup ∧ (∀ x ∈ d.1.symsTo d.2.1, x.toNat ≤ 256) ∧ d.1.intsTo d.2.1 ≤ 256) ∧
    d.1.writes[d.2.1]? = some (9, d.2.2.toNat) ∧ (256 < d.2.2.toNat ∨ d.2.2 ∈ d.1.symsTo d.2.1) := by decide
  obtain ⟨h2, h3, h4⟩ := this c hc
  exact ⟨rfl, h2, rfl, h3, h4⟩

theorem witness_HeaderRoundTrip :
    (∃ t, held.HoldsTree abTree ∧ held.ports.bitSink.Accepts ∧ exec (.hdrwr true) held = .next t ∧
      (State.source State.reset (t.ports.bitSink.out.drop held.ports.bitSink.out.length ++ [true])
        .eod).ports.bitSource.answering = true) ∧
    (∃ t, exec (.hdrrd false) (State.source held (bin 10 0x300) .eod) = .next t ∧ t.Succeeded ∧
      t.ports.bitSink.Accepts) := by
  refine ⟨⟨_, held_holdsTree, accepts_empty, rfl, rfl⟩, ?_⟩
  have h : after (exec (.hdrrd false) (State.source held (bin 10 0x300) .eod)) (fun t =>
      t.flags.busy = false ∧ t.errCode = 0#4 ∧ t.ports.bitSink.answering = true ∧ t.ports.bitSink.answers = [] ∧
      t.ports.bitSink.thereafter = .ok) = true := by decide +kernel
  obtain ⟨t, ht, hb⟩ := exists_of_after h
  obtain ⟨h1, h2, h3, h4, h5⟩ := of_decide_eq_true hb
  exact ⟨t, ht, ⟨h1, h2⟩, h3, by simp [h4], h5⟩

theorem witness_EncsymWritesTheCode :
    held.flags.codesValid = true ∧ (held.code 66).valid = true ∧ (held.code 66).bits.length ≤ 256 ∧
    held.ports.bitSink.Accepts :=
  ⟨rfl, by decide +kernel, by decide +kernel, accepts_empty⟩

/-- The tree of vector D10: no sentinel. -/
def plainTree : Tree := .node (.leaf 65) (.leaf 66)

/-- The code table of vector D10's tree. -/
def plain : State :=
  { held with
    codes := (State.reset.codes.setIfInBounds 65 { valid := true, bits := [false] }).setIfInBounds 66
      { valid := true, bits := [true] } }

theorem plain_holdsCodes : plain.HoldsCodes plainTree := by
  intro x hx
  have hx' : x.toNat < 257 := by omega
  have hc : plain.code x = plain.codes[x.toNat] := by simp [State.code, Vector.getD, hx']
  rw [hc]
  simp only [plain, Vector.getElem_setIfInBounds, State.reset, Vector.getElem_replicate, Code.blank]
  by_cases h65 : x = 65#9
  · subst h65; exact ⟨rfl, rfl⟩
  by_cases h66 : x = 66#9
  · subst h66; exact ⟨rfl, rfl⟩
  have n (k : Nat) (h : x ≠ BitVec.ofNat 9 k) : ¬ (k = x.toNat) := fun e => h (by simp [e])
  rw [if_neg (n 66 h66), if_neg (n 65 h65)]
  have : plainTree.code x = none := by
    simp [plainTree, Tree.code, Ne.symm h65, Ne.symm h66]
  simp [this]

/-- Vectors E3 and N4, and a tree without a sentinel. -/
theorem witness_MissingCodeStopsTheEncoder :
    (held.flags.codesValid = true ∧ (held.code 67).valid = false) ∧
    (let s := State.bytes held [65, 67, 66] .eod;
      s.flags.codesValid = true ∧ s.HoldsCodes abTree ∧ abTree.Legal ∧ abTree.payload [65] = some [false] ∧
      abTree.code ((67 : Byte).setWidth 9) = none ∧ s.ports.byteSource.answering = true ∧
      s.ports.byteSource.rest = [65] ++ 67 :: [66] ∧ s.ports.bitSink.Accepts) ∧
    (let s := State.bytes plain [66] .eod;
      s.flags.codesValid = true ∧ s.HoldsCodes plainTree ∧ plainTree.Legal ∧ plainTree.payload [66] = some [true] ∧
      plainTree.code 256#9 = none ∧ s.ports.byteSource.answering = true ∧ s.ports.byteSource.rest = [66] ∧
      s.ports.byteSource.term = .eod ∧ s.ports.bitSink.Accepts) :=
  ⟨⟨rfl, by decide +kernel⟩, ⟨rfl, held_holdsCodes, abTree_legal, by decide, by decide, rfl, rfl, accepts_empty⟩,
    rfl, plain_holdsCodes, ⟨by decide, by decide⟩, by decide, by decide, rfl, rfl, rfl, accepts_empty⟩

/-- Vectors N1 and N2. -/
theorem witness_EncstreamWritesThePayload :
    let s := State.bytes held [65, 65, 66] .eod
    s.flags.codesValid = true ∧ s.HoldsCodes abTree ∧ abTree.Legal ∧
    abTree.payload [65, 65, 66] = some (bin 4 0b0010) ∧
    (if true then abTree.code 256#9 = some [true, true] else [true, true] = []) ∧
    (if false then abTree.code 256#9 = some [] else ([] : List Bool) = []) ∧
    s.ports.byteSource.answering = true ∧ s.ports.byteSource.rest = [65, 65, 66] ∧ s.ports.byteSource.term = .eod ∧
    s.ports.bitSink.Accepts :=
  ⟨rfl, held_holdsCodes, abTree_legal, by decide, by decide, by decide, rfl, rfl, rfl, accepts_empty⟩

/-- Vector N7 after two bytes; a bit sink that fails at the second bit of the code of 66, in its script and after it; at the first
bit of the payload and the last; at the first bit of the terminator and the last. -/
theorem witness_TransportErrorsStopTheEncoder :
    (let s := State.bytes held [65, 66] .err;
      s.flags.codesValid = true ∧ s.HoldsCodes abTree ∧ abTree.Legal ∧ abTree.payload [65, 66] = some (bin 3 0b010) ∧
      s.ports.byteSource.answering = true ∧ s.ports.byteSource.rest = [65, 66] ∧ s.ports.byteSource.term = .err ∧
      s.ports.bitSink.Accepts) ∧
    (∀ s ∈ [State.sinks held [.ok, .err] [], State.thenFail (State.sinks held [.ok] [])],
      s.flags.codesValid = true ∧ (s.code 66).valid = true ∧ 1 < (s.code 66).bits.length ∧
      (s.code 66).bits.length ≤ 256 ∧ s.ports.bitSink.FailsAt 1) ∧
    (let s := State.thenFail (State.bytes held [65, 66] .err);
      s.flags.codesValid = true ∧ s.HoldsCodes abTree ∧ abTree.Legal ∧ abTree.payload [] = some [] ∧
      abTree.code ((65 : Byte).setWidth 9) = some [false] ∧ 0 < [false].length ∧
      s.ports.byteSource.answering = true ∧ s.ports.byteSource.rest = [] ++ 65 :: [66] ∧
      s.ports.bitSink.FailsAt (0 + 0)) ∧
    (let s := State.sinks (State.bytes held [65, 66] .eod) [.ok, .ok, .err] [];
      s.flags.codesValid = true ∧ s.HoldsCodes abTree ∧ abTree.Legal ∧ abTree.payload [65] = some [false] ∧
      abTree.code ((66 : Byte).setWidth 9) = some [true, false] ∧ 1 < [true, false].length ∧
      s.ports.byteSource.answering = true ∧ s.ports.byteSource.rest = [65] ++ 66 :: [] ∧
      s.ports.bitSink.FailsAt ([false].length + 1)) ∧
    (∀ j ∈ [0, 1],
      let s := State.thenFail (State.sinks (State.bytes held [65, 66] .eod) (List.replicate (3 + j) .ok) [])
      s.flags.codesValid = true ∧ s.HoldsCodes abTree ∧ abTree.Legal ∧ abTree.payload [65, 66] = some (bin 3 0b010) ∧
      abTree.code 256#9 = some [true, true] ∧ j < [true, true].length ∧ s.ports.byteSource.answering = true ∧
      s.ports.byteSource.rest = [65, 66] ∧ s.ports.byteSource.term = .eod ∧
      s.ports.bitSink.FailsAt ((bin 3 0b010).length + j)) := by
  refine ⟨⟨rfl, held_holdsCodes, abTree_legal, by decide, rfl, rfl, rfl, accepts_empty⟩, ?_,
    ⟨rfl, held_holdsCodes, abTree_legal, rfl, by decide, by decide, rfl, rfl, rfl, by decide, rfl⟩,
    ⟨rfl, held_holdsCodes, abTree_legal, by decide, by decide, by decide, rfl, rfl, rfl, by decide, rfl⟩, ?_⟩
  · rw [List.forall_mem_cons, List.forall_mem_singleton]
    exact ⟨⟨rfl, by decide +kernel, by decide +kernel, by decide +kernel, rfl, by decide, rfl⟩,
      rfl, by decide +kernel, by decide +kernel, by decide +kernel, rfl, by decide, rfl⟩
  · rw [List.forall_mem_cons, List.forall_mem_singleton]
    exact ⟨⟨rfl, held_holdsCodes, abTree_legal, by decide, by decide, by decide, rfl, rfl, rfl, rfl, by decide, rfl⟩,
      rfl, held_holdsCodes, abTree_legal, by decide, by decide, by decide, rfl, rfl, rfl, rfl, by decide, rfl⟩

theorem witness_FlushAsksTheSinksInOrder :
    (held.ports.bitSink.answering = true ∧ held.ports.byteSink.answering = true) ∧
    (held.ports.bitSink.reply = .ok ∧ held.ports.byteSink.reply = .ok) ∧
    (State.sinks held [.err] []).ports.bitSink.reply = .err ∧
    ((State.sinks held [] [.err]).ports.bitSink.reply = .ok ∧ (State.sinks held [] [.err]).ports.byteSink.reply = .err) :=
  ⟨⟨rfl, rfl⟩, ⟨rfl, rfl⟩, rfl, rfl, rfl⟩

/-- Vector D1, and a root that is the sentinel, whose code is empty. -/
theorem witness_DecsymDecodesOneCode :
    (let s := State.source held ([true, false] ++ [true]) .eod;
      s.flags.treeValid = true ∧ s.Holds s.root abTree ∧ abTree.Legal ∧ abTree.code 66 = some [true, false] ∧
      ([true, false] = [] → (66 : Symbol) = 256#9) ∧ s.ports.bitSource.answering = true ∧
      s.ports.bitSource.rest = [true, false] ++ [true]) ∧
    (let s : State := { literal with nodes := literal.nodes.setIfInBounds 0 (leafNode 0 256 0) };
      s.flags.treeValid = true ∧ s.Holds s.root (.leaf 256) ∧ (Tree.leaf 256).Legal ∧
      (Tree.leaf 256).code 256 = some [] ∧ s.ports.bitSource.answering = true ∧ s.ports.bitSource.rest = [] ++ []) := by
  refine ⟨⟨rfl, held_holds.congr rfl, abTree_legal, by decide, by decide, rfl, rfl⟩,
    rfl, ⟨by decide +kernel, by decide +kernel⟩, ⟨by decide, by decide⟩, by decide, rfl, rfl⟩

/-- The source ends at the root, and after the first bit of the code of 66, with `EOD` and with `Err`. -/
theorem witness_DecsymReportsAMissingTerminator :
    ∀ p ∈ [([], [true, false]), ([true], [false])], ∀ k : EndKind,
    let s := State.source held p.1 k
    s.flags.treeValid = true ∧ s.Holds s.root abTree ∧ abTree.Legal ∧ abTree.code 66 = some (p.1 ++ p.2) ∧ p.2 ≠ [] ∧
    s.ports.bitSource.answering = true ∧ s.ports.bitSource.rest = p.1 ∧ s.ports.bitSource.term = k := by
  intro p hp k
  have : ∀ q ∈ [([], [true, false]), ([true], [false])], abTree.code 66 = some (q.1 ++ q.2) ∧ q.2 ≠ [] := by decide
  exact ⟨rfl, held_holds.congr rfl, abTree_legal, (this p hp).1, (this p hp).2, rfl, rfl, rfl⟩

theorem witness_LiteralRootHasNoTerminator :
    (literal.flags.treeValid = true ∧ (literal.node literal.root).leaf = true ∧
      (literal.node literal.root).sym ≠ 256#9) ∧
    ∃ t, exec .build State.reset = .next t ∧ (t.node t.root).leaf = true := by
  have h : after (exec .build State.reset) (fun t => (t.node t.root).leaf) = true := by decide +kernel
  obtain ⟨t, ht, hb⟩ := exists_of_after h
  exact ⟨⟨rfl, by decide +kernel, by decide +kernel⟩, t, ht, hb⟩

/-- Vector D3, with a bit after the terminator. -/
theorem witness_DecstreamDecodesToTheSentinel :
    let s := State.source held (bin 4 0b0010 ++ [true, true] ++ [false]) .eod
    s.flags.treeValid = true ∧ s.Holds s.root abTree ∧ abTree.Legal ∧ abTree.payload [65, 65, 66] = some (bin 4 0b0010) ∧
    abTree.code 256#9 = some [true, true] ∧ s.ports.bitSource.answering = true ∧
    s.ports.bitSource.rest = bin 4 0b0010 ++ [true, true] ++ [false] ∧ s.ports.byteSink.Accepts :=
  ⟨rfl, held_holds.congr rfl, abTree_legal, by decide, by decide, rfl, rfl, accepts_empty⟩

/-- Vectors D4, D5 and D11; and a byte sink that fails at the first byte and, once its script is used up, at the third. -/
theorem witness_DecstreamReportsAMissingTerminator :
    (∀ c ∈ [([], [true, true]), ([true], [true])], ∀ k : EndKind,
      let s := State.source held (bin 4 0b0010 ++ c.1) k
      s.flags.treeValid = true ∧ s.Holds s.root abTree ∧ abTree.Legal ∧
      abTree.payload [65, 65, 66] = some (bin 4 0b0010) ∧ abTree.code 256 = some (c.1 ++ c.2) ∧ c.2 ≠ [] ∧
      s.ports.bitSource.answering = true ∧ s.ports.bitSource.rest = bin 4 0b0010 ++ c.1 ∧
      s.ports.bitSource.term = k ∧ s.ports.byteSink.Accepts) ∧
    (let s := State.source held ([false] ++ []) .err;
      s.flags.treeValid = true ∧ s.Holds s.root abTree ∧ abTree.Legal ∧ abTree.payload [65] = some [false] ∧
      abTree.code 256 = some ([] ++ [true, true]) ∧ s.ports.bitSource.answering = true ∧
      s.ports.bitSource.rest = [false] ++ [] ∧ s.ports.bitSource.term = .err ∧ s.ports.byteSink.Accepts) ∧
    (let s := State.sinks (State.source held ([] ++ [false] ++ bin 5 0b01011) .eod) [] [.err];
      s.flags.treeValid = true ∧ s.Holds s.root abTree ∧ abTree.Legal ∧ abTree.payload [] = some [] ∧
      abTree.code ((65 : Byte).setWidth 9) = some [false] ∧ s.ports.bitSource.answering = true ∧
      s.ports.bitSource.rest = [] ++ [false] ++ bin 5 0b01011 ∧ s.ports.byteSink.FailsAt 0) ∧
    (let s := State.thenFail (State.sinks (State.source held ([false, false] ++ [true, false] ++ []) .eod) [] [.ok, .ok]);
      s.flags.treeValid = true ∧ s.Holds s.root abTree ∧ abTree.Legal ∧ abTree.payload [65, 65] = some [false, false] ∧
      abTree.code ((66 : Byte).setWidth 9) = some [true, false] ∧ s.ports.bitSource.answering = true ∧
      s.ports.bitSource.rest = [false, false] ++ [true, false] ++ [] ∧ s.ports.byteSink.FailsAt 2) := by
  refine ⟨fun c hc k => ?_,
    ⟨rfl, held_holds.congr rfl, abTree_legal, by decide, by decide, rfl, rfl, rfl, accepts_empty⟩,
    ⟨rfl, held_holds.congr rfl, abTree_legal, rfl, by decide, rfl, rfl, rfl, by decide, rfl⟩,
    rfl, held_holds.congr rfl, abTree_legal, by decide, by decide, rfl, rfl, rfl, by decide, rfl⟩
  have : ∀ d ∈ [([], [true, true]), ([true], [true])], abTree.code 256 = some (d.1 ++ d.2) ∧ d.2 ≠ [] := by decide
  exact ⟨rfl, held_holds.congr rfl, abTree_legal, by decide, (this c hc).1, (this c hc).2, rfl, rfl, rfl, accepts_empty⟩

theorem witness_ReadingCommandsTerminate : held.TreeInv ∧ held.PortsAnswer := witness_CommandsCompleteIfPortsAnswer

/-- Program P1. -/
theorem witness_CompressDecompressRoundTrip :
    (let s := State.bytes counted [65, 65, 66] .eod;
      s.FreqCovers [65, 65, 66] ∧ s.ports.byteSource.answering = true ∧ s.ports.byteSource.rest = [65, 65, 66] ∧
      s.ports.byteSource.term = .eod ∧ s.ports.bitSink.Accepts) ∧
    ∀ W : List Bool, (State.source State.reset (W ++ [true]) .eod).ports.bitSource.answering = true ∧
      (State.source State.reset (W ++ [true]) .eod).ports.bitSource.rest = W ++ [true] ∧
      (State.source State.reset (W ++ [true]) .eod).ports.byteSink.Accepts := by
  refine ⟨⟨?_, rfl, rfl, rfl, accepts_empty⟩, fun W => ⟨rfl, rfl, accepts_empty⟩⟩
  intro b hb
  have : ∀ c ∈ [(65 : Byte), 65, 66], (State.bytes counted [65, 65, 66] .eod).freqAt c.toNat ≠ 0#32 := by decide +kernel
  exact this b hb

/-- Program P1's stream of 70 bits, whose header ends at bit 64, cut on either side of that bit, before the first bit, before the
last, and as in program P5. -/
theorem witness_TruncatedStreamNeverDecompresses :
    ∃ (t : State) (W : List Bool),
    runAll [.build, .gencodes, .hdrwr true, .encstream true] (State.bytes counted [65, 65, 66] .eod) = .next t ∧
    t.ports.bitSink.out = (State.bytes counted [65, 65, 66] .eod).ports.bitSink.out ++ W ∧
    32 + (11 * counted.qualifying.length - 1) = 64 ∧
    ∀ n ∈ [0, 63, 64, 68, 69],
      W = W.take n ++ W.drop n ∧ W.drop n ≠ [] ∧ (W.take n).length = n ∧
      (State.source State.reset (W.take n) .eod).ports.bitSource.answering = true ∧
      (State.source State.reset (W.take n) .eod).ports.bitSource.rest = W.take n ∧
      (State.source State.reset (W.take n) .eod).ports.bitSource.term = .eod ∧
      (State.source State.reset (W.take n) .eod).ports.byteSink.Accepts := by
  have h : after (runAll [.build, .gencodes, .hdrwr true, .encstream true] (State.bytes counted [65, 65, 66] .eod))
      (fun t => t.ports.bitSink.out.length = 70) = true := by decide +kernel
  obtain ⟨t, ht, hb⟩ := exists_of_after h
  have hl : t.ports.bitSink.out.length = 70 := of_decide_eq_true hb
  obtain ⟨u, -, -, -, -, -, -, hq⟩ := witness_Build
  refine ⟨t, t.ports.bitSink.out, ht, rfl, by simp [hq], fun n hn => ?_⟩
  have hn' : n < 70 := by
    have : ∀ k ∈ [0, 63, 64, 68, 69], k < 70 := by decide
    exact this n hn
  refine ⟨(List.take_append_drop _ _).symm, ?_, by simp [hl]; omega, rfl, rfl, rfl, accepts_empty⟩
  intro he
  have := congrArg List.length he
  simp [hl] at this
  omega

end Sys2Proof.Tests
end

section
/-! SUPPORT. What one request to a port moves, whatever the port answers: the sinks' output and the sources' rest
against the four counters. -/

namespace Sys2Proof.Machine

/-- A sink has accepted more, and its counter has counted it (R47, R89). -/
def Grown {α : Type} (xs ys : List α) (c d : Word) : Prop :=
  ∃ zs, ys = xs ++ zs ∧ d = c + BitVec.ofNat 32 zs.length

/-- A source has lost what it delivered, and its counter has counted it (R47, R91). -/
def Spent {α : Type} (xs ys : List α) (c d : Word) : Prop :=
  ∃ zs, xs = zs ++ ys ∧ d = c + BitVec.ofNat 32 zs.length

theorem Grown.refl {α : Type} (xs : List α) (c : Word) : Grown xs xs c c := ⟨[], by simp, by simp⟩

theorem Spent.refl {α : Type} (xs : List α) (c : Word) : Spent xs xs c c := ⟨[], by simp, by simp⟩

theorem Grown.trans {α : Type} {xs ys zs : List α} {c d e : Word} (h : Grown xs ys c d) (h' : Grown ys zs d e) :
    Grown xs zs c e := by
  obtain ⟨as, rfl, rfl⟩ := h
  obtain ⟨bs, rfl, rfl⟩ := h'
  exact ⟨as ++ bs, by simp, by simp [BitVec.ofNat_add, BitVec.add_assoc]⟩

theorem Spent.trans {α : Type} {xs ys zs : List α} {c d e : Word} (h : Spent xs ys c d) (h' : Spent ys zs d e) :
    Spent xs zs c e := by
  obtain ⟨as, rfl, rfl⟩ := h
  obtain ⟨bs, rfl, rfl⟩ := h'
  exact ⟨as ++ bs, by simp, by simp [BitVec.ofNat_add, BitVec.add_assoc]⟩

/-- What any number of requests does to the ports, their counters and the draws. A source that has ended has drawn a
free value, and only then what it has left is not what it had (R93). -/
structure Exchange (p q : Ports) (c d : Counters) (m n : Nat) : Prop where
  draws    : m ≤ n
  bitsOut  : Grown p.bitSink.out q.bitSink.out c.bitsOut d.bitsOut
  bytesOut : Grown p.byteSink.out q.byteSink.out c.bytesOut d.bytesOut
  bitsIn   : n = m → Spent p.bitSource.rest q.bitSource.rest c.bitsIn d.bitsIn
  bytesIn  : n = m → Spent p.byteSource.rest q.byteSource.rest c.bytesIn d.bytesIn

theorem Exchange.refl (p : Ports) (c : Counters) (m : Nat) : Exchange p p c c m m :=
  ⟨le_rfl, .refl _ _, .refl _ _, fun _ => .refl _ _, fun _ => .refl _ _⟩

theorem Exchange.trans {p q r : Ports} {c d e : Counters} {l m n : Nat} (h : Exchange p q c d l m)
    (h' : Exchange q r d e m n) : Exchange p r c e l n where
  draws := h.draws.trans h'.draws
  bitsOut := h.bitsOut.trans h'.bitsOut
  bytesOut := h.bytesOut.trans h'.bytesOut
  bitsIn hn := by
    have hm : m = l := le_antisymm (hn ▸ h'.draws) h.draws
    exact (h.bitsIn hm).trans (h'.bitsIn (hn.trans hm.symm))
  bytesIn hn := by
    have hm : m = l := le_antisymm (hn ▸ h'.draws) h.draws
    exact (h.bytesIn hm).trans (h'.bytesIn (hn.trans hm.symm))

/-- A source that has ended has drawn a free value: nothing is said of what it has left (R93). -/
theorem Exchange.ended {p q : Ports} {c d : Counters} {m : Nat}
    (hb : Grown p.bitSink.out q.bitSink.out c.bitsOut d.bitsOut)
    (hy : Grown p.byteSink.out q.byteSink.out c.bytesOut d.bytesOut) : Exchange p q c d m (m + 1) where
  draws := Nat.le_succ m
  bitsOut := hb
  bytesOut := hy
  bitsIn h := absurd h (Nat.succ_ne_self m)
  bytesIn h := absurd h (Nat.succ_ne_self m)

/-- The state after a request has been answered, with the ports, counters and draws that it leaves (R86). -/
def State.served (s : State) (p : Ports) (c : Counters) (n : Nat) : State :=
  { s with ports := p, counters := c, draws := n, seq.outstanding := none }

/-- A request of `s` that has been answered leaves `t`. -/
inductive State.Serves (s : State) : State → Prop where
  | intro (p : Ports) (c : Counters) (n : Nat) (h : Exchange s.ports p s.counters c s.draws n) :
      State.Serves s (s.served p c n)

/-! ## The requests -/

theorem State.bitRead_cases (s : State) (n : Nat) :
    s.bitRead n = none ∨ ∃ r t, s.bitRead n = some (r, t) ∧ s.Serves t := by
  rw [State.bitRead]
  split
  · split
    · rename_i bits rest h
      obtain ⟨hr, hn⟩ := takeExact_eq_some h
      exact .inr ⟨_, _, rfl, .intro _ _ _
        { Exchange.refl s.ports s.counters s.draws with bitsIn := fun _ => ⟨bits, hr, by rw [hn]⟩ }⟩
    · exact .inr ⟨_, _, rfl, .intro _ _ _ (.ended (.refl _ _) (.refl _ _))⟩
  · exact .inl rfl

theorem State.byteRead_cases (s : State) :
    s.byteRead = none ∨ ∃ r t, s.byteRead = some (r, t) ∧ s.Serves t := by
  rw [State.byteRead]
  split
  · split
    · rename_i b rest h
      exact .inr ⟨_, _, rfl, .intro _ _ _
        { Exchange.refl s.ports s.counters s.draws with bytesIn := fun _ => ⟨[b], h, rfl⟩ }⟩
    · exact .inr ⟨_, _, rfl, .intro _ _ _ (.ended (.refl _ _) (.refl _ _))⟩
  · exact .inl rfl

theorem State.bitWrite_cases (s : State) (n v : Nat) :
    s.bitWrite n v = none ∨ ∃ r t, s.bitWrite n v = some (r, t) ∧ s.Serves t := by
  rw [State.bitWrite]
  split
  · split
    · exact .inr ⟨_, _, rfl, .intro _ _ _
        { Exchange.refl s.ports s.counters s.draws with bitsOut := ⟨bin n v, rfl, by rw [bin_length]⟩ }⟩
    · exact .inr ⟨_, _, rfl, .intro _ _ _ { Exchange.refl s.ports s.counters s.draws with }⟩
  · exact .inl rfl

theorem State.byteWrite_cases (s : State) (b : Byte) :
    s.byteWrite b = none ∨ ∃ r t, s.byteWrite b = some (r, t) ∧ s.Serves t := by
  rw [State.byteWrite]
  split
  · split
    · exact .inr ⟨_, _, rfl, .intro _ _ _
        { Exchange.refl s.ports s.counters s.draws with bytesOut := ⟨[b], rfl, rfl⟩ }⟩
    · exact .inr ⟨_, _, rfl, .intro _ _ _ { Exchange.refl s.ports s.counters s.draws with }⟩
  · exact .inl rfl

@[simp] theorem Sink.flushed_out {α : Type} (k : Sink α) : k.flushed.out = k.out := by
  rw [Sink.flushed]
  split <;> rfl

theorem State.flushBitSink_cases (s : State) :
    s.flushBitSink = none ∨ ∃ r t, s.flushBitSink = some (r, t) ∧ s.Serves t := by
  rw [State.flushBitSink]
  split
  · exact .inr ⟨_, _, rfl, .intro _ _ _
      { Exchange.refl s.ports s.counters s.draws with bitsOut := ⟨[], by simp, by simp⟩ }⟩
  · exact .inl rfl

theorem State.flushByteSink_cases (s : State) :
    s.flushByteSink = none ∨ ∃ r t, s.flushByteSink = some (r, t) ∧ s.Serves t := by
  rw [State.flushByteSink]
  split
  · exact .inr ⟨_, _, rfl, .intro _ _ _
      { Exchange.refl s.ports s.counters s.draws with bytesOut := ⟨[], by simp, by simp⟩ }⟩
  · exact .inl rfl

end Sys2Proof.Machine
end

section
/-! SUPPORT. The frame of a job: what it leaves as it was, by the stores that it and what it leads to may write. -/

namespace Sys2Proof.Machine

/-- What a command may write besides the sequencer, the ports and the report of its completion. -/
inductive Store where
  /-- what only `CLEAR` and the host write: `FREQ`, the selectors, `OVR`, and the counters other than by counting -/
  | host
  /-- the node store with `ROOT`, `NODE_COUNT`, `LEAF_COUNT` and `TREE_VALID` (R57) -/
  | tree
  /-- the code table with `CODES_VALID` (R58) -/
  | codes
  /-- `SYM` and `EOS` (R40, R45) -/
  | symbol

/-- What a job, and what it leads to, writes. -/
def Job.writes : Job → List Store
  | .clear => [.host, .tree, .codes, .symbol]
  | .scan _ | .merge | .hdrrd _ | .readMagic | .treeStart | .parse _ | .leafSym _ | .treeDone => [.tree, .codes]
  | .gencodes | .walk _ _ | .codesDone => [.codes]
  | .decode _ | .decode1 _ | .descend _ _ _ | .putByte _ => [.symbol]
  | .ret | .put _ _ | .illegal _ | .hdrwr _ | .emit _ | .encsym _ | .encstream _ | .encByte _ | .flushBits
  | .flushBytes => []

/-- Between `s` and `t` nothing was written outside of `W`, and the requests made were counted. -/
structure State.Frame (W : List Store) (s t : State) : Prop where
  irqEn    : t.irqEn = s.irqEn
  events   : t.events = s.events
  readData : t.readData = s.readData
  host     : .host ∉ W →
    t.freq = s.freq ∧ t.nodeSel = s.nodeSel ∧ t.codeSel = s.codeSel ∧ t.flags.ovr = s.flags.ovr
  ports    : .host ∉ W → Exchange s.ports t.ports s.counters t.counters s.draws t.draws
  tree     : .tree ∉ W → t.nodes = s.nodes ∧ t.root = s.root ∧ t.nodeCount = s.nodeCount ∧ t.leafCount = s.leafCount ∧
    t.flags.treeValid = s.flags.treeValid
  codes    : .codes ∉ W → t.codes = s.codes ∧ t.flags.codesValid = s.flags.codesValid
  symbol   : .symbol ∉ W → t.sym = s.sym ∧ t.flags.eos = s.flags.eos

namespace State.Frame

variable {W : List Store} {s t u : State}

theorem refl (W : List Store) (s : State) : State.Frame W s s where
  irqEn := rfl
  events := rfl
  readData := rfl
  host _ := ⟨rfl, rfl, rfl, rfl⟩
  ports _ := .refl _ _ _
  tree _ := ⟨rfl, rfl, rfl, rfl, rfl⟩
  codes _ := ⟨rfl, rfl⟩
  symbol _ := ⟨rfl, rfl⟩

theorem trans (h : State.Frame W s t) (h' : State.Frame W t u) : State.Frame W s u where
  irqEn := h'.irqEn.trans h.irqEn
  events := h'.events.trans h.events
  readData := h'.readData.trans h.readData
  host hw := by
    obtain ⟨a, b, c, d⟩ := h.host hw
    obtain ⟨a', b', c', d'⟩ := h'.host hw
    exact ⟨a'.trans a, b'.trans b, c'.trans c, d'.trans d⟩
  ports hw := (h.ports hw).trans (h'.ports hw)
  tree hw := by
    obtain ⟨a, b, c, d, e⟩ := h.tree hw
    obtain ⟨a', b', c', d', e'⟩ := h'.tree hw
    exact ⟨a'.trans a, b'.trans b, c'.trans c, d'.trans d, e'.trans e⟩
  codes hw := by
    obtain ⟨a, b⟩ := h.codes hw
    obtain ⟨a', b'⟩ := h'.codes hw
    exact ⟨a'.trans a, b'.trans b⟩
  symbol hw := by
    obtain ⟨a, b⟩ := h.symbol hw
    obtain ⟨a', b'⟩ := h'.symbol hw
    exact ⟨a'.trans a, b'.trans b⟩

theorem mono {W' : List Store} (h : State.Frame W s t) (hW : W ⊆ W') : State.Frame W' s t where
  irqEn := h.irqEn
  events := h.events
  readData := h.readData
  host hw := h.host fun hm => hw (hW hm)
  ports hw := h.ports fun hm => hw (hW hm)
  tree hw := h.tree fun hm => hw (hW hm)
  codes hw := h.codes fun hm => hw (hW hm)
  symbol hw := h.symbol fun hm => hw (hW hm)

/-! What each shared operation keeps. -/

theorem seq (h : State.Frame W s t) (q : Seq) : State.Frame W s { t with seq := q } := { h with }

theorem push (h : State.Frame W s t) (js : List Job) : State.Frame W s (t.push js) := { h with }

theorem await (h : State.Frame W s t) (p : Port) (j : Job) : State.Frame W s (t.await p j) := { h with }

theorem complete (h : State.Frame W s t) : State.Frame W s t.complete := { h with }

theorem raise (h : State.Frame W s t) (e : Err) (v : Word) : State.Frame W s (t.raise e v) := { h with }

theorem accept (h : State.Frame W s t) (js : List Job) : State.Frame W s (t.accept js) := { h with }

theorem serves (h : s.Serves t) : State.Frame W s t := by
  obtain ⟨p, c, n, h⟩ := h
  exact { State.Frame.refl W s with ports := fun _ => h }

theorem setEos (h : State.Frame W s t) (hw : .symbol ∈ W) (b : Bool) : State.Frame W s (t.setEos b) :=
  { h with symbol := fun hn => absurd hw hn }

theorem setSym (h : State.Frame W s t) (hw : .symbol ∈ W) (x : Symbol) : State.Frame W s { t with sym := x } :=
  { h with symbol := fun hn => absurd hw hn }

theorem raiseDec (h : State.Frame W s t) (hw : .symbol ∈ W) (e : Err) (v : Word) : State.Frame W s (t.raiseDec e v) :=
  (h.setEos hw false).raise e v

theorem setNode (h : State.Frame W s t) (hw : .tree ∈ W) (i : NodeIx) (n : Node) : State.Frame W s (t.setNode i n) :=
  { h with tree := fun hn => absurd hw hn }

theorem setTree (h : State.Frame W s t) (hw : .tree ∈ W) (r : NodeIx) (n k : Nat) :
    State.Frame W s (t.setTree r n k) :=
  { h with tree := fun hn => absurd hw hn }

theorem dropTree (h : State.Frame W s t) (hw : .tree ∈ W) : State.Frame W s t.dropTree :=
  { h with tree := fun hn => absurd hw hn }

theorem setCode (h : State.Frame W s t) (hw : .codes ∈ W) (x : Symbol) (c : Code) :
    State.Frame W s (t.setCode x c) :=
  { h with codes := fun hn => absurd hw hn }

theorem setCodes (h : State.Frame W s t) (hw : .codes ∈ W) (cs : Vector Code 257) :
    State.Frame W s { t with codes := cs } :=
  { h with codes := fun hn => absurd hw hn }

theorem setCodesValid (h : State.Frame W s t) (hw : .codes ∈ W) (b : Bool) :
    State.Frame W s { t with flags.codesValid := b } :=
  { h with codes := fun hn => absurd hw hn }

theorem dropCodes (h : State.Frame W s t) (hw : .codes ∈ W) : State.Frame W s t.dropCodes :=
  { h with codes := fun hn => absurd hw hn }

theorem enqueue (h : State.Frame W s t) (hw : .tree ∈ W) (node : NodeIx → Node) : State.Frame W s (t.enqueue node) :=
  (h.setNode hw _ _).seq _

theorem link (h : State.Frame W s t) (hw : .tree ∈ W) (k : Link) (i : NodeIx) : State.Frame W s (t.link k i) := by
  cases k with
  | root => exact h
  | left p => exact h.setNode hw _ _
  | right p => exact h.setNode hw _ _

theorem encode (h : State.Frame W s t) (x : Symbol) : State.Frame W s (t.encode x) := by
  rw [State.encode]
  split
  · exact h.push _
  · exact h.raise _ _

end State.Frame

/-! ## The jobs -/

variable (s : State)

theorem frame_runPut (n v : Nat) : State.Frame (Job.writes (.put n v)) s (runPut n v s) := by
  rw [runPut]
  obtain h | ⟨r, t, h, ht⟩ := s.bitWrite_cases n v <;> rw [h]
  · exact (State.Frame.refl _ s).await _ _
  · cases r
    · exact .serves ht
    · exact (State.Frame.serves ht).raise _ _

theorem frame_runClear : State.Frame (Job.writes .clear) s (runClear s) where
  irqEn := rfl
  events := rfl
  readData := rfl
  host hw := absurd (by simp [Job.writes]) hw
  ports hw := absurd (by simp [Job.writes]) hw
  tree hw := absurd (by simp [Job.writes]) hw
  codes hw := absurd (by simp [Job.writes]) hw
  symbol hw := absurd (by simp [Job.writes]) hw

theorem frame_runScan (x : Nat) : State.Frame (Job.writes (.scan x)) s (runScan x s) := by
  refine State.Frame.push ?_ _
  rw [State.scanSymbol]
  dsimp only
  split
  · exact .refl _ s
  · exact ((State.Frame.refl _ s).enqueue (by simp [Job.writes]) _).seq _

theorem frame_runMerge : State.Frame (Job.writes .merge) s (runMerge s) := by
  rw [runMerge]
  split
  · exact (((State.Frame.refl _ s).seq _).enqueue (by simp [Job.writes]) _).push _
  · exact (((State.Frame.refl _ s).seq _).setTree (by simp [Job.writes]) _ _ _).dropCodes (by simp [Job.writes])
  · exact .refl _ s

theorem frame_runGencodes : State.Frame (Job.writes .gencodes) s (runGencodes s) := by
  rw [runGencodes]
  split
  · exact ((State.Frame.refl _ s).setCodes (by simp [Job.writes]) _).push _
  · exact (State.Frame.refl _ s).raise _ _

theorem frame_runWalk (i : NodeIx) (p : List Bool) : State.Frame (Job.writes (.walk i p)) s (runWalk i p s) := by
  rw [runWalk]
  split
  · exact (State.Frame.refl _ s).setCode (by simp [Job.writes]) _ _
  · exact (State.Frame.refl _ s).push _

theorem frame_runHdrwr (m : Bool) : State.Frame (Job.writes (.hdrwr m)) s (runHdrwr m s) := by
  rw [runHdrwr]
  split
  · exact (State.Frame.refl _ s).push _
  · exact (State.Frame.refl _ s).raise _ _

theorem frame_runEmit (i : NodeIx) : State.Frame (Job.writes (.emit i)) s (runEmit i s) := by
  rw [runEmit]
  split
  · exact (State.Frame.refl _ s).push _
  · exact (State.Frame.refl _ s).push _

theorem frame_runReadMagic : State.Frame (Job.writes .readMagic) s (runReadMagic s) := by
  rw [runReadMagic]
  obtain h | ⟨r, t, h, ht⟩ := s.bitRead_cases 32 <;> rw [h]
  · exact (State.Frame.refl _ s).await _ _
  · cases r with
    | data v =>
      dsimp only
      split
      · exact (State.Frame.serves ht).seq _
      · exact (State.Frame.serves ht).raise _ _
    | eod => exact (State.Frame.serves ht).raise _ _
    | err => exact (State.Frame.serves ht).raise _ _

theorem frame_runTreeStart : State.Frame (Job.writes .treeStart) s (runTreeStart s) :=
  ((((State.Frame.refl _ s).dropTree (by simp [Job.writes])).dropCodes (by simp [Job.writes])).seq _).push _

/-- A read of the tree phase keeps what the use of its value keeps. -/
theorem State.Frame.get {W : List Store} {use : Nat → State → State} (k : Nat) (j : Job)
    (hu : ∀ v t, State.Frame W t (use v t)) : State.Frame W s (s.get k j use) := by
  rw [State.get]
  obtain h | ⟨r, t, h, ht⟩ := s.bitRead_cases k <;> rw [h]
  · exact (State.Frame.refl _ s).await _ _
  · cases r with
    | data v => exact ((State.Frame.serves ht).seq _).trans (hu _ _)
    | eod => exact (State.Frame.serves ht).raise _ _
    | err => exact (State.Frame.serves ht).raise _ _

theorem frame_runParse (l : Link) : State.Frame (Job.writes (.parse l)) s (runParse l s) := by
  refine .get s _ _ fun b t => ?_
  have hl : State.Frame (Job.writes (.parse l)) t
      (State.link { t with seq.next := t.seq.next + 1 } l (BitVec.ofNat 10 t.seq.next)) :=
    ((State.Frame.refl _ t).seq _).link (by simp [Job.writes]) _ _
  rw [parseNode]
  dsimp only
  split
  · exact hl.push _
  · split
    · exact hl.raise _ _
    · exact ((hl.seq _).setNode (by simp [Job.writes]) _ _).push _

theorem frame_runLeafSym (i : NodeIx) : State.Frame (Job.writes (.leafSym i)) s (runLeafSym i s) := by
  refine .get s _ _ fun v t => ?_
  rw [parseSym]
  dsimp only
  split
  · exact (State.Frame.refl _ t).raise _ _
  · split
    · exact (State.Frame.refl _ t).raise _ _
    · exact ((State.Frame.refl _ t).seq _).setNode (by simp [Job.writes]) _ _

theorem frame_runEncsym (x : Symbol) : State.Frame (Job.writes (.encsym x)) s (runEncsym x s) := by
  rw [runEncsym]
  split
  · exact (State.Frame.refl _ s).encode _
  · exact (State.Frame.refl _ s).raise _ _

theorem frame_runEncstream (b : Bool) : State.Frame (Job.writes (.encstream b)) s (runEncstream b s) := by
  rw [runEncstream]
  split
  · exact (State.Frame.refl _ s).push _
  · exact (State.Frame.refl _ s).raise _ _

theorem frame_runEncByte (b : Bool) : State.Frame (Job.writes (.encByte b)) s (runEncByte b s) := by
  rw [runEncByte]
  obtain h | ⟨r, t, h, ht⟩ := s.byteRead_cases <;> rw [h]
  · exact (State.Frame.refl _ s).await _ _
  · cases r with
    | data x => exact ((State.Frame.serves ht).push _).encode _
    | eod =>
      dsimp only
      split
      · exact (State.Frame.serves ht).encode _
      · exact .serves ht
    | err => exact (State.Frame.serves ht).raise _ _

theorem frame_runDecode (b : Bool) : State.Frame (Job.writes (.decode b)) s (runDecode b s) := by
  rw [runDecode]
  split
  · exact (State.Frame.refl _ s).push _
  · exact (State.Frame.refl _ s).raiseDec (by simp [Job.writes]) _ _

theorem frame_runDecode1 (b : Bool) : State.Frame (Job.writes (.decode1 b)) s (runDecode1 b s) := by
  rw [runDecode1]
  split
  · exact (State.Frame.refl _ s).raiseDec (by simp [Job.writes]) _ _
  · exact (State.Frame.refl _ s).push _

theorem frame_runDescend (b : Bool) (i : NodeIx) (m : Bool) :
    State.Frame (Job.writes (.descend b i m)) s (runDescend b i m s) := by
  have hw : .symbol ∈ Job.writes (.descend b i m) := by simp [Job.writes]
  rw [runDescend]
  split
  · split
    · rw [State.gotStreamSymbol]
      split
      · exact ((State.Frame.refl _ s).setSym hw _).setEos hw _
      · exact ((State.Frame.refl _ s).setSym hw _).push _
    · exact ((State.Frame.refl _ s).setSym hw _).setEos hw _
  · obtain h | ⟨r, t, h, ht⟩ := s.bitRead_cases 1 <;> rw [h]
    · exact (State.Frame.refl _ s).await _ _
    · cases r with
      | data v => exact (State.Frame.serves ht).push _
      | eod => exact (State.Frame.serves ht).raiseDec hw _ _
      | err => exact (State.Frame.serves ht).raiseDec hw _ _

theorem frame_runPutByte (b : Byte) : State.Frame (Job.writes (.putByte b)) s (runPutByte b s) := by
  rw [runPutByte]
  obtain h | ⟨r, t, h, ht⟩ := s.byteWrite_cases b <;> rw [h]
  · exact (State.Frame.refl _ s).await _ _
  · cases r
    · exact .serves ht
    · exact (State.Frame.serves ht).raiseDec (by simp [Job.writes]) _ _

theorem frame_runFlushBits : State.Frame (Job.writes .flushBits) s (runFlushBits s) := by
  rw [runFlushBits]
  obtain h | ⟨r, t, h, ht⟩ := s.flushBitSink_cases <;> rw [h]
  · exact (State.Frame.refl _ s).await _ _
  · cases r
    · exact .serves ht
    · exact (State.Frame.serves ht).raise _ _

theorem frame_runFlushBytes : State.Frame (Job.writes .flushBytes) s (runFlushBytes s) := by
  rw [runFlushBytes]
  obtain h | ⟨r, t, h, ht⟩ := s.flushByteSink_cases <;> rw [h]
  · exact (State.Frame.refl _ s).await _ _
  · cases r
    · exact .serves ht
    · exact (State.Frame.serves ht).raise _ _

/-- A job writes no store but those it names. -/
theorem frame_runJob (j : Job) : State.Frame j.writes s (runJob j s) := by
  cases j with
  | ret => exact (State.Frame.refl _ s).complete
  | put n v => exact frame_runPut s n v
  | illegal v => exact (State.Frame.refl _ s).raise _ _
  | clear => exact frame_runClear s
  | scan x => exact frame_runScan s x
  | merge => exact frame_runMerge s
  | gencodes => exact frame_runGencodes s
  | walk i p => exact frame_runWalk s i p
  | codesDone => exact (State.Frame.refl _ s).setCodesValid (by simp [Job.writes]) true
  | hdrwr m => exact frame_runHdrwr s m
  | emit i => exact frame_runEmit s i
  | hdrrd m => exact ((State.Frame.refl _ s).seq _).push _
  | readMagic => exact frame_runReadMagic s
  | treeStart => exact frame_runTreeStart s
  | parse l => exact frame_runParse s l
  | leafSym i => exact frame_runLeafSym s i
  | treeDone => exact (State.Frame.refl _ s).setTree (by simp [Job.writes]) _ _ _
  | encsym x => exact frame_runEncsym s x
  | encstream b => exact frame_runEncstream s b
  | encByte b => exact frame_runEncByte s b
  | decode b => exact frame_runDecode s b
  | decode1 b => exact frame_runDecode1 s b
  | descend b i m => exact frame_runDescend s b i m
  | putByte b => exact frame_runPutByte s b
  | flushBits => exact frame_runFlushBits s
  | flushBytes => exact frame_runFlushBytes s

end Sys2Proof.Machine
end

section
/-! SUPPORT. What a job makes of the sequencer: it completes the command, or leads on to other jobs. -/

namespace Sys2Proof.Machine

/-- The jobs that can stand in a job's place once it has been done. -/
inductive Job.Leads : Job → List Job → Prop where
  | done (j : Job) (h : j ≠ .ret) : Leads j []
  /-- the job waits for a port, or is taken up again -/
  | again (j : Job) : Leads j [j]
  | scan (x : Nat) (h : x < 256) : Leads (.scan x) [.scan (x + 1)]
  | scanned (x : Nat) : Leads (.scan x) [.merge]
  | gencodes (i : NodeIx) : Leads .gencodes [.walk i [], .codesDone]
  | walk (i l r : NodeIx) (p q q' : List Bool) : Leads (.walk i p) [.walk l q, .walk r q']
  | hdrwr (m : Bool) (js : List Job) (h : ∀ j ∈ js, j.emits = true) : Leads (.hdrwr m) js
  | emit (i : NodeIx) (js : List Job) (h : ∀ j ∈ js, j.emits = true) : Leads (.emit i) js
  | magic (m : Bool) : Leads (.hdrrd m) [.readMagic, .treeStart]
  | noMagic (m : Bool) : Leads (.hdrrd m) [.treeStart]
  | treeStart (k : Link) : Leads .treeStart [.parse k, .treeDone]
  | leaf (k : Link) (i : NodeIx) : Leads (.parse k) [.leafSym i]
  | node (k l r : Link) : Leads (.parse k) [.parse l, .parse r]
  | encsym (x : Symbol) (js : List Job) (h : ∀ j ∈ js, j.puts = true) : Leads (.encsym x) js
  | encstream (t : Bool) : Leads (.encstream t) [.encByte t]
  | byte (t : Bool) (js : List Job) (h : ∀ j ∈ js, j.puts = true) : Leads (.encByte t) (js ++ [.encByte t])
  | terminator (t : Bool) (js : List Job) (h : ∀ j ∈ js, j.puts = true) : Leads (.encByte t) js
  | decode (b : Bool) : Leads (.decode b) [.decode1 b]
  | root (b : Bool) (i : NodeIx) (m : Bool) : Leads (.decode1 b) [.descend b i m]
  | descend (b : Bool) (i k : NodeIx) (m n : Bool) : Leads (.descend b i m) [.descend b k n]
  | literal (i : NodeIx) (m : Bool) (b : Byte) : Leads (.descend true i m) [.putByte b, .decode1 true]

/-- The command that runs in `s` also runs in `t`, at the same jobs. -/
structure State.SameRun (s t : State) : Prop where
  busy  : t.flags.busy = s.flags.busy
  err   : t.flags.err = s.flags.err
  jobs  : t.seq.jobs = s.seq.jobs
  inUse : t.seq.inUse = s.seq.inUse
  waits : ∀ p, t.seq.outstanding = some p → s.seq.outstanding = some p
  code  : t.errCode = s.errCode ∧ t.errInfo = s.errInfo

theorem State.SameRun.refl (s : State) : s.SameRun s := ⟨rfl, rfl, rfl, rfl, fun _ h => h, rfl, rfl⟩

theorem State.SameRun.trans {s t u : State} (h : s.SameRun t) (h' : t.SameRun u) : s.SameRun u :=
  ⟨h'.busy.trans h.busy, h'.err.trans h.err, h'.jobs.trans h.jobs, h'.inUse.trans h.inUse,
    fun p hp => h.waits p (h'.waits p hp), h'.code.1.trans h.code.1, h'.code.2.trans h.code.2⟩

theorem State.Serves.sameRun {s t : State} (h : s.Serves t) : s.SameRun t := by
  obtain ⟨p, c, n, -⟩ := h
  exact ⟨rfl, rfl, rfl, rfl, by simp [State.served], rfl, rfl⟩

/-- Job `j`, taken from the jobs of `s`, has led to `t`, in which the command still runs. -/
structure Job.Continues (j : Job) (s t : State) : Prop where
  busy  : t.flags.busy = s.flags.busy
  err   : j ≠ .clear → t.flags.err = s.flags.err
  jobs  : ∃ ks, j.Leads ks ∧ t.seq.jobs = ks ++ s.seq.jobs
  inUse : t.seq.inUse = s.seq.inUse
  waits : ∀ p, t.seq.outstanding = some p → s.seq.outstanding = some p ∨ p ∈ j.uses
  code  : t.errCode = s.errCode ∧ t.errInfo = s.errInfo

/-- Job `j` of `s` has completed the command, with success or with an error (R261, R262). -/
structure Job.Ends (j : Job) (s t : State) : Prop where
  busy   : t.flags.busy = false
  done   : t.flags.done = true
  seq    : t.seq = Seq.idle
  report : (t.errCode = 0#4 ∧ t.errInfo = 0#32 ∧ t.flags.err = s.flags.err) ∨
    ∃ e : Err, t.errCode = e.code ∧ t.flags.err = true ∧ (e = .illegalCmd → ∃ v, j = .illegal v)

/-- What a job can make of a running command. -/
def Job.Moves (j : Job) (s t : State) : Prop := j.Continues s t ∨ j.Ends s t

namespace State.SameRun

variable {s t : State} {j : Job}

theorem done (h : s.SameRun t) (hj : j ≠ .ret) : j.Moves s t :=
  .inl ⟨h.busy, fun _ => h.err, ⟨[], .done j hj, h.jobs⟩, h.inUse, fun p hp => .inl (h.waits p hp),
    h.code⟩

theorem push (h : s.SameRun t) {js : List Job} (hj : j.Leads js) : j.Moves s (t.push js) :=
  .inl ⟨h.busy, fun _ => h.err, ⟨js, hj, congrArg (js ++ ·) h.jobs⟩, h.inUse, fun p hp => .inl (h.waits p hp),
    h.code⟩

theorem await (h : s.SameRun t) {p : Port} (hp : p ∈ j.uses) : j.Moves s (t.await p j) :=
  .inl ⟨h.busy, fun _ => h.err, ⟨[j], .again j, congrArg (j :: ·) h.jobs⟩, h.inUse,
    fun q hq => .inr (by rw [State.await_seq, Option.some.injEq] at hq; rwa [← hq]), h.code⟩

theorem complete (h : s.SameRun t) : j.Moves s t.complete :=
  .inr ⟨rfl, rfl, rfl, .inl ⟨rfl, rfl, h.err⟩⟩

end State.SameRun

theorem moves_raise (j : Job) (s t : State) {e : Err} (he : e ≠ .illegalCmd) (v : Word) : j.Moves s (t.raise e v) :=
  .inr ⟨rfl, rfl, rfl, .inr ⟨e, rfl, rfl, fun h => absurd h he⟩⟩

theorem moves_raiseDec (j : Job) (s t : State) {e : Err} (he : e ≠ .illegalCmd) (v : Word) :
    j.Moves s (t.raiseDec e v) := moves_raise j s _ he v

theorem putcode_puts (c : Code) : ∀ j ∈ putcode c, j.puts = true := by
  intro j hj
  obtain ⟨b, -, rfl⟩ := List.mem_map.1 hj
  rfl

/-! ## The jobs -/

variable (s : State)

theorem moves_runPut (n v : Nat) : (Job.put n v).Moves s (runPut n v s) := by
  rw [runPut]
  obtain h | ⟨r, t, h, ht⟩ := s.bitWrite_cases n v <;> rw [h]
  · exact (State.SameRun.refl s).await (by simp [Job.uses])
  · cases r
    · exact ht.sameRun.done (by simp)
    · exact moves_raise _ s t (by simp) _

theorem State.scanSymbol_sameRun (x : Nat) : s.SameRun (s.scanSymbol x) := by
  rw [State.scanSymbol]
  dsimp only
  split
  · exact .refl s
  · exact ⟨rfl, rfl, rfl, rfl, fun _ h => h, rfl, rfl⟩

theorem moves_runScan (x : Nat) : (Job.scan x).Moves s (runScan x s) := by
  refine (s.scanSymbol_sameRun x).push ?_
  split
  · exact .scan x ‹_›
  · exact .scanned x

theorem moves_runMerge : Job.merge.Moves s (runMerge s) := by
  rw [runMerge]
  split
  · refine State.SameRun.push ?_ (.again .merge)
    exact ⟨rfl, rfl, rfl, rfl, fun _ h => h, rfl, rfl⟩
  · exact State.SameRun.done ⟨rfl, rfl, rfl, rfl, fun _ h => h, rfl, rfl⟩ (by simp)
  · exact (State.SameRun.refl s).done (by simp)

theorem moves_runGencodes : Job.gencodes.Moves s (runGencodes s) := by
  rw [runGencodes]
  split
  · refine State.SameRun.push ?_ (.gencodes _)
    exact ⟨rfl, rfl, rfl, rfl, fun _ h => h, rfl, rfl⟩
  · exact moves_raise _ s s (by simp) _

theorem moves_runWalk (i : NodeIx) (p : List Bool) : (Job.walk i p).Moves s (runWalk i p s) := by
  rw [runWalk]
  split
  · exact State.SameRun.done ⟨rfl, rfl, rfl, rfl, fun _ h => h, rfl, rfl⟩ (by simp)
  · exact (State.SameRun.refl s).push (.walk i _ _ p _ _)

theorem moves_runHdrwr (m : Bool) : (Job.hdrwr m).Moves s (runHdrwr m s) := by
  rw [runHdrwr]
  split
  · exact (State.SameRun.refl s).push (.hdrwr m _ (by cases m <;> simp [Job.emits]))
  · exact moves_raise _ s s (by simp) _

theorem moves_runEmit (i : NodeIx) : (Job.emit i).Moves s (runEmit i s) := by
  rw [runEmit]
  split
  · exact (State.SameRun.refl s).push (.emit i _ (by simp [Job.emits]))
  · exact (State.SameRun.refl s).push (.emit i _ (by simp [Job.emits]))

theorem moves_runHdrrd (m : Bool) : (Job.hdrrd m).Moves s (runHdrrd m s) := by
  refine State.SameRun.push (s := s) (t := { s with seq.got := 0 }) ⟨rfl, rfl, rfl, rfl, fun _ h => h, rfl, rfl⟩ ?_
  cases m
  · exact .noMagic false
  · exact .magic true

theorem moves_runReadMagic : Job.readMagic.Moves s (runReadMagic s) := by
  rw [runReadMagic]
  obtain h | ⟨r, t, h, ht⟩ := s.bitRead_cases 32 <;> rw [h]
  · exact (State.SameRun.refl s).await (by simp [Job.uses])
  · cases r with
    | data v =>
      dsimp only
      split
      · exact State.SameRun.done (ht.sameRun.trans ⟨rfl, rfl, rfl, rfl, fun _ h => h, rfl, rfl⟩) (by simp)
      · exact moves_raise _ s t (by simp) _
    | eod => exact moves_raise _ s t (by simp) _
    | err => exact moves_raise _ s t (by simp) _

theorem moves_runTreeStart : Job.treeStart.Moves s (runTreeStart s) := by
  refine State.SameRun.push ?_ (.treeStart .root)
  exact ⟨rfl, rfl, rfl, rfl, fun _ h => h, rfl, rfl⟩

/-- A read of the tree phase makes of the command what the use of its value makes of it. -/
theorem moves_get {k : Nat} {j : Job} (hj : .bitSource ∈ j.uses) {use : Nat → State → State}
    (hu : ∀ v t, s.SameRun t → j.Moves s (use v t)) : j.Moves s (s.get k j use) := by
  rw [State.get]
  obtain h | ⟨r, t, h, ht⟩ := s.bitRead_cases k <;> rw [h]
  · exact (State.SameRun.refl s).await hj
  · cases r with
    | data v => exact hu _ _ (ht.sameRun.trans ⟨rfl, rfl, rfl, rfl, fun _ h => h, rfl, rfl⟩)
    | eod => exact moves_raise _ s t (by simp) _
    | err => exact moves_raise _ s t (by simp) _

theorem State.link_seq (k : Link) (i : NodeIx) : (s.link k i).seq = s.seq := by cases k <;> rfl

theorem State.link_flags (k : Link) (i : NodeIx) : (s.link k i).flags = s.flags := by cases k <;> rfl

theorem State.link_sameRun (k : Link) (i : NodeIx) : s.SameRun (s.link k i) := by
  cases k with
  | root => exact .refl s
  | left p => exact ⟨rfl, rfl, rfl, rfl, fun _ h => h, rfl, rfl⟩
  | right p => exact ⟨rfl, rfl, rfl, rfl, fun _ h => h, rfl, rfl⟩

theorem moves_runParse (l : Link) : (Job.parse l).Moves s (runParse l s) := by
  refine moves_get s (by simp [Job.uses]) fun b t ht => ?_
  have hl : s.SameRun (State.link { t with seq.next := t.seq.next + 1 } l (BitVec.ofNat 10 t.seq.next)) :=
    State.SameRun.trans (t := { t with seq.next := t.seq.next + 1 })
      (ht.trans ⟨rfl, rfl, rfl, rfl, fun _ h => h, rfl, rfl⟩)
      (State.link_sameRun _ _ _)
  rw [parseNode]
  dsimp only
  split
  · exact hl.push (.leaf l _)
  · split
    · exact moves_raise _ s _ (by simp) _
    · refine State.SameRun.push (hl.trans ?_) (.node l _ _)
      exact ⟨rfl, rfl, rfl, rfl, fun _ h => h, rfl, rfl⟩

theorem moves_runLeafSym (i : NodeIx) : (Job.leafSym i).Moves s (runLeafSym i s) := by
  refine moves_get s (by simp [Job.uses]) fun v t ht => ?_
  rw [parseSym]
  dsimp only
  split
  · exact moves_raise _ s t (by simp) _
  · split
    · exact moves_raise _ s t (by simp) _
    · exact State.SameRun.done (ht.trans ⟨rfl, rfl, rfl, rfl, fun _ h => h, rfl, rfl⟩) (by simp)

/-- A symbol's code is written by puts, before what the command had still to do. -/
theorem moves_encode {j : Job} {ks : List Job} {t : State} (h : s.SameRun t) (x : Symbol)
    (hj : ∀ js, (∀ k ∈ js, k.puts = true) → j.Leads (js ++ ks)) : j.Moves s ((t.push ks).encode x) := by
  rw [State.encode]
  split
  · have := h.push (hj (putcode ((t.push ks).code x)) (putcode_puts _))
    simpa [State.push, List.append_assoc] using this
  · exact moves_raise _ s _ (by simp) _

theorem moves_runEncsym (x : Symbol) : (Job.encsym x).Moves s (runEncsym x s) := by
  rw [runEncsym]
  split
  · exact moves_encode s (ks := []) (.refl s) x fun js h => by simpa using .encsym x js h
  · exact moves_raise _ s s (by simp) _

theorem moves_runEncstream (b : Bool) : (Job.encstream b).Moves s (runEncstream b s) := by
  rw [runEncstream]
  split
  · exact (State.SameRun.refl s).push (.encstream b)
  · exact moves_raise _ s s (by simp) _

theorem moves_runEncByte (b : Bool) : (Job.encByte b).Moves s (runEncByte b s) := by
  rw [runEncByte]
  obtain h | ⟨r, t, h, ht⟩ := s.byteRead_cases <;> rw [h]
  · exact (State.SameRun.refl s).await (by simp [Job.uses])
  · cases r with
    | data x => exact moves_encode s ht.sameRun _ fun js h => .byte b js h
    | eod =>
      dsimp only
      split
      · exact moves_encode s (ks := []) ht.sameRun _ fun js h => by simpa using .terminator b js h
      · exact ht.sameRun.done (by simp)
    | err => exact moves_raise _ s t (by simp) _

theorem moves_runDecode (b : Bool) : (Job.decode b).Moves s (runDecode b s) := by
  rw [runDecode]
  split
  · exact (State.SameRun.refl s).push (.decode b)
  · exact moves_raiseDec _ s s (by simp) _

theorem moves_runDecode1 (b : Bool) : (Job.decode1 b).Moves s (runDecode1 b s) := by
  rw [runDecode1]
  split
  · exact moves_raiseDec _ s s (by simp) _
  · exact (State.SameRun.refl s).push (.root b _ _)

theorem moves_runDescend (b : Bool) (i : NodeIx) (m : Bool) : (Job.descend b i m).Moves s (runDescend b i m s) := by
  rw [runDescend]
  split
  · cases b with
    | false => exact State.SameRun.done ⟨rfl, rfl, rfl, rfl, fun _ h => h, rfl, rfl⟩ (by simp)
    | true =>
      rw [if_pos rfl, State.gotStreamSymbol]
      split
      · exact State.SameRun.done ⟨rfl, rfl, rfl, rfl, fun _ h => h, rfl, rfl⟩ (by simp)
      · refine State.SameRun.push ?_ (.literal i m _)
        exact ⟨rfl, rfl, rfl, rfl, fun _ h => h, rfl, rfl⟩
  · obtain h | ⟨r, t, h, ht⟩ := s.bitRead_cases 1 <;> rw [h]
    · exact (State.SameRun.refl s).await (by cases b <;> simp [Job.uses])
    · cases r with
      | data v => exact ht.sameRun.push (.descend b i _ m _)
      | eod => exact moves_raiseDec _ s t (by simp) _
      | err => exact moves_raiseDec _ s t (by simp) _

theorem moves_runPutByte (b : Byte) : (Job.putByte b).Moves s (runPutByte b s) := by
  rw [runPutByte]
  obtain h | ⟨r, t, h, ht⟩ := s.byteWrite_cases b <;> rw [h]
  · exact (State.SameRun.refl s).await (by simp [Job.uses])
  · cases r
    · exact ht.sameRun.done (by simp)
    · exact moves_raiseDec _ s t (by simp) _

theorem moves_runFlushBits : Job.flushBits.Moves s (runFlushBits s) := by
  rw [runFlushBits]
  obtain h | ⟨r, t, h, ht⟩ := s.flushBitSink_cases <;> rw [h]
  · exact (State.SameRun.refl s).await (by simp [Job.uses])
  · cases r
    · exact ht.sameRun.done (by simp)
    · exact moves_raise _ s t (by simp) _

theorem moves_runFlushBytes : Job.flushBytes.Moves s (runFlushBytes s) := by
  rw [runFlushBytes]
  obtain h | ⟨r, t, h, ht⟩ := s.flushByteSink_cases <;> rw [h]
  · exact (State.SameRun.refl s).await (by simp [Job.uses])
  · cases r
    · exact ht.sameRun.done (by simp)
    · exact moves_raise _ s t (by simp) _

/-- Every job leads on, or completes its command. -/
theorem moves_runJob (j : Job) : j.Moves s (runJob j s) := by
  cases j with
  | ret => exact (State.SameRun.refl s).complete
  | put n v => exact moves_runPut s n v
  | illegal v => exact .inr ⟨rfl, rfl, rfl, .inr ⟨.illegalCmd, rfl, rfl, fun _ => ⟨v, rfl⟩⟩⟩
  | clear => exact .inl ⟨rfl, fun h => absurd rfl h, ⟨[], .done _ (by simp), rfl⟩, rfl, fun _ h => .inl h,
      rfl, rfl⟩
  | scan x => exact moves_runScan s x
  | merge => exact moves_runMerge s
  | gencodes => exact moves_runGencodes s
  | walk i p => exact moves_runWalk s i p
  | codesDone => exact State.SameRun.done ⟨rfl, rfl, rfl, rfl, fun _ h => h, rfl, rfl⟩ (by simp)
  | hdrwr m => exact moves_runHdrwr s m
  | emit i => exact moves_runEmit s i
  | hdrrd m => exact moves_runHdrrd s m
  | readMagic => exact moves_runReadMagic s
  | treeStart => exact moves_runTreeStart s
  | parse l => exact moves_runParse s l
  | leafSym i => exact moves_runLeafSym s i
  | treeDone => exact State.SameRun.done ⟨rfl, rfl, rfl, rfl, fun _ h => h, rfl, rfl⟩ (by simp)
  | encsym x => exact moves_runEncsym s x
  | encstream b => exact moves_runEncstream s b
  | encByte b => exact moves_runEncByte s b
  | decode b => exact moves_runDecode s b
  | decode1 b => exact moves_runDecode1 s b
  | descend b i m => exact moves_runDescend s b i m
  | putByte b => exact moves_runPutByte s b
  | flushBits => exact moves_runFlushBits s
  | flushBytes => exact moves_runFlushBytes s

end Sys2Proof.Machine
end

section
/-! SUPPORT. A command from its acceptance on: what it leaves alone, and how it reports its completion. -/

namespace Sys2Proof.Machine

/-- What a command may write, by the jobs that it is accepted with. -/
def Instr.writes (i : Instr) : List Store := (Instr.jobs i).flatMap Job.writes

theorem Job.eq_put_of_puts {j : Job} (h : j.puts = true) : ∃ n v, j = .put n v := by
  cases j with
  | put n v => exact ⟨n, v, rfl⟩
  | _ => cases h

theorem Job.emits_of_puts {j : Job} (h : j.puts = true) : j.emits = true := by
  obtain ⟨n, v, rfl⟩ := Job.eq_put_of_puts h
  rfl

theorem Job.writes_of_emits {j : Job} (h : j.emits = true) : j.writes = [] ∧ ∀ v, j ≠ .illegal v := by
  cases j with
  | put n v => exact ⟨rfl, nofun⟩
  | emit i => exact ⟨rfl, nofun⟩
  | _ => cases h

/-- Jobs lead to jobs that write no more, and to no illegal word. -/
theorem Job.Leads.writes {j : Job} {ks : List Job} (h : j.Leads ks) {k : Job} (hk : k ∈ ks) :
    k.writes ⊆ j.writes ∧ ∀ v, k = .illegal v → j = .illegal v := by
  have emits (h : k.emits = true) : k.writes ⊆ j.writes ∧ ∀ v, k = .illegal v → j = .illegal v := by
    simp [Job.writes_of_emits h]
  cases h with
  | hdrwr m _ h | emit i _ h => exact emits (h k hk)
  | encsym x _ h | terminator t _ h => exact emits (Job.emits_of_puts (h k hk))
  | byte t js h =>
    obtain hk | hk := List.mem_append.1 hk
    · exact emits (Job.emits_of_puts (h k hk))
    · obtain rfl := List.mem_singleton.1 hk
      simp
  | done | again => simp_all
  | gencodes | walk | magic | treeStart | node | literal =>
    simp only [List.mem_cons, List.not_mem_nil, or_false] at hk
    obtain rfl | rfl := hk <;> simp [Job.writes]
  | _ =>
    obtain rfl := List.mem_singleton.1 hk
    simp [Job.writes]

/-- The outcome of a command that has completed (R261, R262). -/
structure Instr.Reports (i : Instr) (s t : State) : Prop where
  busy   : t.flags.busy = false
  done   : t.flags.done = true
  seq    : t.seq = Seq.idle
  report : (t.errCode = 0#4 ∧ t.errInfo = 0#32 ∧ (i ≠ .clear → t.flags.err = s.flags.err)) ∨
    ∃ e : Err, e ≠ .illegalCmd ∧ t.errCode = e.code ∧ t.flags.err = true

/-- Command `i`, accepted in `s`, has got to `t`: it has still to do, or it has completed. -/
structure Instr.Reaches (i : Instr) (s t : State) : Prop where
  jobs   : ∀ j ∈ t.seq.jobs, j.writes ⊆ Instr.writes i ∧ ∀ v, j ≠ .illegal v
  frame  : State.Frame (Instr.writes i) s t
  report : t.flags.busy = true ∧ (i ≠ .clear → t.flags.err = s.flags.err) ∨ Instr.Reports i s t

@[simp] theorem Instr.host_mem_writes (i : Instr) : .host ∈ Instr.writes i ↔ i = .clear := by
  cases i with
  | flush k y => cases k <;> cases y <;> simp [Instr.writes, Instr.jobs, Job.writes]
  | _ => simp [Instr.writes, Instr.jobs, Job.writes]

@[simp] theorem Instr.tree_mem_writes (i : Instr) :
    .tree ∈ Instr.writes i ↔ i = .build ∨ (∃ m, i = .hdrrd m) ∨ i = .clear := by
  cases i with
  | flush k y => cases k <;> cases y <;> simp [Instr.writes, Instr.jobs, Job.writes]
  | _ => simp [Instr.writes, Instr.jobs, Job.writes]

@[simp] theorem Instr.codes_mem_writes (i : Instr) :
    .codes ∈ Instr.writes i ↔ i = .build ∨ (∃ m, i = .hdrrd m) ∨ i = .clear ∨ i = .gencodes := by
  cases i with
  | flush k y => cases k <;> cases y <;> simp [Instr.writes, Instr.jobs, Job.writes]
  | _ => simp [Instr.writes, Instr.jobs, Job.writes]

@[simp] theorem Instr.symbol_mem_writes (i : Instr) :
    .symbol ∈ Instr.writes i ↔ i = .clear ∨ i = .decsym ∨ i = .decstream := by
  cases i with
  | flush k y => cases k <;> cases y <;> simp [Instr.writes, Instr.jobs, Job.writes]
  | _ => simp [Instr.writes, Instr.jobs, Job.writes]

theorem Instr.jobs_not_illegal (i : Instr) (v : Word) : .illegal v ∉ Instr.jobs i := by
  cases i with
  | flush k y => cases k <;> cases y <;> simp [Instr.jobs]
  | _ => simp [Instr.jobs]

theorem Instr.reaches_accept (i : Instr) (s : State) : Instr.Reaches i s (s.accept (Instr.jobs i)) where
  jobs j hj := ⟨fun _ hw => List.mem_flatMap.2 ⟨j, hj, hw⟩, fun v hv => Instr.jobs_not_illegal i v (hv ▸ hj)⟩
  frame := (State.Frame.refl _ s).accept _
  report := .inl ⟨rfl, fun _ => rfl⟩

/-- The sequencer moves by its first job. -/
theorem advance_eq {s : State} {j : Job} {js : List Job} (h : s.seq.jobs = j :: js) :
    advance s = runJob j (s.at js) := by
  rw [advance, h]
  rfl

theorem Instr.reaches_advance {i : Instr} {s u : State} (h : Instr.Reaches i s u) (hb : u.flags.busy = true) :
    Instr.Reaches i s (advance u) := by
  obtain ⟨hjobs, hframe, hreport⟩ := h
  cases hu : u.seq.jobs with
  | nil => rw [advance, hu]; exact ⟨hjobs, hframe, hreport⟩
  | cons j js =>
    rw [advance_eq hu]
    obtain ⟨hw, hill⟩ := hjobs j (by simp [hu])
    have herr : i ≠ .clear → u.flags.err = s.flags.err := by
      obtain ⟨-, h⟩ | h := hreport
      · exact h
      · simp [h.busy] at hb
    have hframe' : State.Frame (Instr.writes i) s (runJob j (u.at js)) :=
      (hframe.seq _).trans ((frame_runJob (u.at js) j).mono hw)
    obtain h | h := moves_runJob (u.at js) j
    · obtain ⟨ks, hks, hj⟩ := h.jobs
      refine ⟨fun k hk => ?_, hframe', .inl ⟨h.busy.trans hb, fun hi => (h.err ?_).trans (herr hi)⟩⟩
      · rw [hj, List.mem_append] at hk
        obtain hk | hk := hk
        · obtain ⟨hkw, hki⟩ := hks.writes hk
          exact ⟨fun w hm => hw (hkw hm), fun v hv => hill v (hki v hv)⟩
        · exact hjobs k (by rw [hu]; exact List.mem_cons_of_mem _ hk)
      · rintro rfl
        exact hi ((Instr.host_mem_writes i).1 (hw (by simp [Job.writes])))
    · refine ⟨by simp [h.seq, Seq.idle], hframe', .inr ⟨h.busy, h.done, h.seq, ?_⟩⟩
      obtain ⟨hc, hi, he⟩ | ⟨e, hc, he, hv⟩ := h.report
      · exact .inl ⟨hc, hi, fun hn => he.trans (herr hn)⟩
      · exact .inr ⟨e, fun h => (hv h).elim fun v hj => hill v hj, hc, he⟩

/-- The meaning of a command is a state that the command reaches. -/
theorem exec_reaches {i : Instr} {s t : State} (h : exec i s = .next t) : Instr.Reaches i s t :=
  exec_keeps (fun _ hu hb _ => Instr.reaches_advance hu hb) (Instr.reaches_accept i s) h

/-- A command that has completed has reported its outcome. -/
theorem exec_reports {i : Instr} {s t : State} (h : exec i s = .next t) (hb : t.flags.busy = false) :
    Instr.Reports i s t := by
  obtain ⟨hb', -⟩ | hr := (exec_reaches h).report
  · simp [hb] at hb'
  · exact hr

theorem Err.code_pos (e : Err) : 1 ≤ e.code.toNat := by cases e <;> decide

theorem Err.code_le (e : Err) : e.code.toNat ≤ 8 := by cases e <;> decide

theorem Err.code_le_of_ne {e : Err} (h : e ≠ .illegalCmd) : e.code.toNat ≤ 7 := by
  cases e with
  | illegalCmd => exact absurd rfl h
  | _ => decide

/-! ## The statements on every command -/

/-- Settles O24: from the reports that `Instr.Reaches` keeps at every position. -/
theorem everyCompletionReportsItsOutcome : Obligations.EveryCompletionReportsItsOutcome := by
  intro i s t h hb
  obtain ⟨-, hd, hq, hr⟩ := exec_reports h hb
  refine ⟨hd, hq, hr.imp_right ?_⟩
  rintro ⟨e, hn, hc, he⟩
  exact hc ▸ ⟨e.code_pos, Err.code_le_of_ne hn, he⟩

/-- Settles O25: acceptance clears `DONE`, every completion sets it, and no command writes `CTRL`. -/
theorem interruptFollowsCompletion : Obligations.InterruptFollowsCompletion := by
  intro i s t h
  refine ⟨by simp [start_eq_accept, State.irq], fun hb => ?_⟩
  rw [State.irq, (exec_reports h hb).done, (exec_reaches h).frame.irqEn, Bool.and_true]

/-- Settles O26: from the frame of what each command may write. -/
theorem commandsLeaveOtherRegistersAlone : Obligations.CommandsLeaveOtherRegistersAlone := by
  intro i s t h
  obtain ⟨-, hf, hr⟩ := exec_reaches h
  refine ⟨hf.irqEn, hf.events, hf.readData, fun hi => hf.host (by simpa using hi), fun hi he => ?_,
    fun h1 h2 h3 => hf.symbol (by simp [h1, h2, h3])⟩
  obtain ⟨-, h⟩ | ⟨-, -, -, ⟨-, -, h⟩ | ⟨-, -, -, h⟩⟩ := hr
  · rw [h hi, he]
  · rw [h hi, he]
  · exact h

/-- Settles O27: from the frame of what each command may write. -/
theorem commandsLeaveOtherStoresAlone : Obligations.CommandsLeaveOtherStoresAlone := by
  intro i s t h hb hr hc
  have hf := (exec_reaches h).frame
  obtain ⟨hn, hro, hnc, hlc, hv⟩ := hf.tree (by simp [hb, hr, hc])
  exact ⟨hn, hro, hnc, hlc, hv, fun hg => hf.codes (by simp [hb, hr, hc, hg])⟩

/-- Settles O29: the sinks' half of the exchange that every command makes. -/
theorem sinkOutputStandsAndIsCounted : Obligations.SinkOutputStandsAndIsCounted := by
  intro i s t hi h
  have hx := (exec_reaches h).frame.ports (by simpa using hi)
  obtain ⟨bits, hb, hbc⟩ := hx.bitsOut
  obtain ⟨bytes, hy, hyc⟩ := hx.bytesOut
  exact ⟨bits, bytes, hb, hbc, hy, hyc⟩

/-- Settles O30: the sources' half of the exchange, where no source has ended. -/
theorem sourcesLoseExactlyWhatIsCounted : Obligations.SourcesLoseExactlyWhatIsCounted := by
  intro i s t hi h hd
  have hx := (exec_reaches h).frame.ports (by simpa using hi)
  obtain ⟨bits, hb, hbc⟩ := hx.bitsIn hd
  obtain ⟨bytes, hy, hyc⟩ := hx.bytesIn hd
  exact ⟨bits, bytes, hb, hbc, hy, hyc⟩

end Sys2Proof.Machine
end

section
/-! SUPPORT. The sequencer's positions: a job leads from one of them to another (R56). -/

namespace Sys2Proof.Machine

/-- What can stand behind a job in a position of the sequencer. -/
inductive Job.Before : Job → List Job → Prop where
  | ret : Before .ret []
  | solo (j : Job) (hj : j.solo = true) : Before j [.ret]
  | walk (j : Job) (ks : List Job) (hj : j.walks = true) (hk : ∀ k ∈ ks, k.walks = true) :
      Before j (ks ++ [Job.codesDone, .ret])
  | codesDone : Before .codesDone [.ret]
  | emit (j : Job) (ks : List Job) (hj : j.emits = true) (hk : ∀ k ∈ ks, k.emits = true) : Before j (ks ++ [Job.ret])
  | magic : Before .readMagic [.treeStart, .ret]
  | parse (j : Job) (ks : List Job) (hj : j.parses = true) (hk : ∀ k ∈ ks, k.parses = true) :
      Before j (ks ++ [Job.treeDone, .ret])
  | treeDone : Before .treeDone [.ret]
  | encode (j : Job) (ks : List Job) (t : Bool) (hj : j.puts = true) (hk : ∀ k ∈ ks, k.puts = true) :
      Before j (ks ++ [Job.encByte t, .ret])
  | literal (b : Byte) : Before (.putByte b) [.decode1 true, .ret]
  | flushes : Before .flushBits [.flushBytes, .ret]

theorem LegalJobs.before {j : Job} {js : List Job} (h : LegalJobs (j :: js)) : j.Before js := by
  generalize hx : j :: js = xs at h
  cases h with
  | idle => cases hx
  | ret => cases hx; exact .ret
  | solo k h => cases hx; exact .solo _ h
  | walk ks h =>
    cases ks with
    | nil => cases hx; exact .codesDone
    | cons k ks => cases hx; obtain ⟨hj, hk⟩ := List.forall_mem_cons.1 h; exact .walk _ ks hj hk
  | emit ks h =>
    cases ks with
    | nil => cases hx; exact .ret
    | cons k ks => cases hx; obtain ⟨hj, hk⟩ := List.forall_mem_cons.1 h; exact .emit _ ks hj hk
  | magic => cases hx; exact .magic
  | parse ks h =>
    cases ks with
    | nil => cases hx; exact .treeDone
    | cons k ks => cases hx; obtain ⟨hj, hk⟩ := List.forall_mem_cons.1 h; exact .parse _ ks hj hk
  | encode ks t h =>
    cases ks with
    | nil => cases hx; exact .solo _ rfl
    | cons k ks => cases hx; obtain ⟨hj, hk⟩ := List.forall_mem_cons.1 h; exact .encode _ ks t hj hk
  | literal b => cases hx; exact .literal b
  | flushes => cases hx; exact .flushes

/-- What stands behind a job is a position too. -/
theorem Job.Before.legal {j : Job} {js : List Job} (h : j.Before js) : LegalJobs js := by
  cases h with
  | ret => exact .idle
  | solo | codesDone | treeDone => exact .ret
  | walk _ ks _ hk => exact .walk ks hk
  | emit _ ks _ hk => exact .emit ks hk
  | magic => exact .solo _ rfl
  | parse _ ks _ hk => exact .parse ks hk
  | encode _ ks t _ hk => exact .encode ks t hk
  | literal b => exact .solo _ rfl
  | flushes => exact .solo _ rfl

/-- Only `return` stands last. -/
theorem Job.Before.ne_nil {j : Job} {js : List Job} (h : j.Before js) (hj : j ≠ .ret) : js ≠ [] := by
  cases h with
  | ret => exact absurd rfl hj
  | _ => simp

/-- A job that stands alone is in no list of traversal jobs. -/
theorem Job.not_listed_of_solo {j : Job} (h : j.solo = true) :
    j.walks = false ∧ j.emits = false ∧ j.parses = false ∧ j.puts = false := by
  cases j with
  | put | emit | walk | parse | leafSym => cases h
  | _ => exact ⟨rfl, rfl, rfl, rfl⟩

/-- A job that stands alone stands before `return`, but for the first of two flushes. -/
theorem Job.Before.eq_ret {j : Job} {js : List Job} (h : j.Before js) (hs : j.solo = true) (hf : j ≠ .flushBits) :
    js = [.ret] := by
  obtain ⟨hw, he, hp, hu⟩ := Job.not_listed_of_solo hs
  cases h with
  | ret => cases hs
  | solo | codesDone | treeDone => rfl
  | walk _ _ hj _ => simp [hw] at hj
  | emit _ _ hj _ => simp [he] at hj
  | magic => cases hs
  | parse _ _ hj _ => simp [hp] at hj
  | encode _ _ _ hj _ => simp [hu] at hj
  | literal b => cases hs
  | flushes => exact absurd rfl hf

/-- The symbols that `BUILD` examines are 0..256. -/
theorem Job.Before.scan_le {x : Nat} {js : List Job} (h : Job.Before (.scan x) js) : x ≤ 256 := by
  cases h with
  | solo _ h => exact of_decide_eq_true h
  | walk _ _ h _ | emit _ _ h _ | parse _ _ h _ | encode _ _ _ h _ => cases h

theorem Job.Before.encsym_solo {x : Symbol} {js : List Job} (h : Job.Before (.encsym x) js) :
    Job.solo (.encsym x) = true := by
  cases h with
  | solo _ h => exact h
  | walk _ _ h _ | emit _ _ h _ | parse _ _ h _ | encode _ _ _ h _ => cases h

theorem Job.Before.of_walk {i : NodeIx} {p : List Bool} {js : List Job} (h : Job.Before (.walk i p) js) :
    ∃ ks, (∀ k ∈ ks, k.walks = true) ∧ js = ks ++ [Job.codesDone, .ret] := by
  cases h with
  | walk _ ks _ hk => exact ⟨ks, hk, rfl⟩
  | solo _ h | emit _ _ h _ | parse _ _ h _ | encode _ _ _ h _ => cases h

theorem Job.Before.of_emit {i : NodeIx} {js : List Job} (h : Job.Before (.emit i) js) :
    ∃ ks, (∀ k ∈ ks, k.emits = true) ∧ js = ks ++ [Job.ret] := by
  cases h with
  | emit _ ks _ hk => exact ⟨ks, hk, rfl⟩
  | solo _ h | walk _ _ h _ | parse _ _ h _ | encode _ _ _ h _ => cases h

theorem Job.Before.of_parse {k : Link} {js : List Job} (h : Job.Before (.parse k) js) :
    ∃ ks, (∀ k ∈ ks, k.parses = true) ∧ js = ks ++ [Job.treeDone, .ret] := by
  cases h with
  | parse _ ks _ hk => exact ⟨ks, hk, rfl⟩
  | solo _ h | walk _ _ h _ | emit _ _ h _ | encode _ _ _ h _ => cases h

/-- Jobs lead from a position to a position (R56). -/
theorem Job.Leads.legal {j : Job} {ks js : List Job} (h : j.Leads ks) (hj : LegalJobs (j :: js)) :
    LegalJobs (ks ++ js) := by
  have hb := hj.before
  have puts {js : List Job} (h : ∀ k ∈ js, k.puts = true) : ∀ k ∈ js, k.emits = true :=
    fun k hk => Job.emits_of_puts (h k hk)
  cases h with
  | done => exact hb.legal
  | again => exact hj
  | scan x hx =>
    obtain rfl := hb.eq_ret (decide_eq_true hb.scan_le) (by simp)
    exact .solo _ (decide_eq_true hx)
  | scanned x =>
    obtain rfl := hb.eq_ret (decide_eq_true hb.scan_le) (by simp)
    exact .solo _ rfl
  | gencodes i =>
    obtain rfl := hb.eq_ret rfl (by simp)
    exact .walk [.walk i []] (by simp [Job.walks])
  | walk i l r p q q' =>
    obtain ⟨ks, hk, rfl⟩ := hb.of_walk
    exact .walk (.walk l q :: .walk r q' :: ks) (by simpa [Job.walks] using hk)
  | hdrwr m ks h =>
    obtain rfl := hb.eq_ret rfl (by simp)
    exact .emit ks h
  | emit i ks h =>
    obtain ⟨ls, hk, rfl⟩ := hb.of_emit
    rw [← List.append_assoc]
    exact .emit (ks ++ ls) fun k hm => (List.mem_append.1 hm).elim (h k) (hk k)
  | magic m =>
    obtain rfl := hb.eq_ret rfl (by simp)
    exact .magic
  | noMagic m =>
    obtain rfl := hb.eq_ret rfl (by simp)
    exact .solo _ rfl
  | treeStart k =>
    obtain rfl := hb.eq_ret rfl (by simp)
    exact .parse [.parse k] (by simp [Job.parses])
  | leaf k i =>
    obtain ⟨ks, hk, rfl⟩ := hb.of_parse
    exact .parse (.leafSym i :: ks) (by simpa [Job.parses] using hk)
  | node k l r =>
    obtain ⟨ks, hk, rfl⟩ := hb.of_parse
    exact .parse (.parse l :: .parse r :: ks) (by simpa [Job.parses] using hk)
  | encsym x ks h =>
    obtain rfl := hb.eq_ret hb.encsym_solo (by simp)
    exact .emit ks (puts h)
  | encstream t =>
    obtain rfl := hb.eq_ret rfl (by simp)
    exact .solo _ rfl
  | byte t ks h =>
    obtain rfl := hb.eq_ret rfl (by simp)
    rw [List.append_assoc]
    exact .encode ks t h
  | terminator t ks h =>
    obtain rfl := hb.eq_ret rfl (by simp)
    exact .emit ks (puts h)
  | decode b | root b i m | descend b i k m n =>
    obtain rfl := hb.eq_ret rfl (by simp)
    exact .solo _ rfl
  | literal i m b =>
    obtain rfl := hb.eq_ret rfl (by simp)
    exact .literal b

end Sys2Proof.Machine
end

section
/-! SUPPORT. The block's invariant: its part on the stores, which the shared operations keep, and its part on the
sequencer, which the positions keep. -/

namespace Sys2Proof.Machine

/-! ## The stores -/

theorem State.node_of_le (s : State) {i : NodeIx} (h : 513 ≤ i.toNat) : s.node i = Node.blank := by
  simp [State.node, Vector.getD, Array.getD, Nat.not_lt.2 h]

theorem State.node_setNode (s : State) (i k : NodeIx) (n : Node) :
    (s.setNode i n).node k = if i = k ∧ i.toNat < 513 then n else s.node k := by
  by_cases hk : k.toNat < 513
  · rw [State.node_getElem rfl hk, State.node_getElem rfl hk, State.setNode_nodes, Vector.getElem_setIfInBounds]
    by_cases hi : i = k
    · simp [hi, hk]
    · simp [hi, BitVec.toNat_inj]
  · rw [State.node_of_le _ (Nat.not_lt.1 hk), State.node_of_le _ (Nat.not_lt.1 hk), if_neg]
    rintro ⟨rfl, hi⟩
    exact hk hi

theorem State.code_dropCodes (s : State) (x : Symbol) : (s.dropCodes.code x).valid = false := by
  by_cases hx : x.toNat < 257
  · simp [State.code, invalidated, Vector.getD, hx]
  · simp [State.code, Vector.getD, Array.getD, hx, Code.blank]

/-- The part of the invariant that speaks of the stores; `g` says that `GENCODES` is writing the code table. -/
structure State.Stores (g : Prop) (s : State) : Prop where
  noTree  : s.flags.treeValid = false →
    s.root = 0#10 ∧ s.nodeCount = 0#10 ∧ s.leafCount = 0#9 ∧ s.flags.codesValid = false
  noCodes : s.flags.codesValid = false → ¬ g → ∀ x : Symbol, (s.code x).valid = false
  leafSym : ∀ i : NodeIx, (s.node i).leaf = true → (s.node i).sym.toNat ≤ 256
  sym     : s.sym.toNat ≤ 256

namespace State.Stores

variable {g : Prop} {s t : State}

theorem seq (h : s.Stores g) (q : Seq) : ({ s with seq := q } : State).Stores g := { h with }

theorem push (h : s.Stores g) (js : List Job) : (s.push js).Stores g := { h with }

theorem await (h : s.Stores g) (p : Port) (j : Job) : (s.await p j).Stores g := { h with }

theorem raise (h : s.Stores g) (e : Err) (v : Word) : (s.raise e v).Stores g := { h with }

theorem raiseDec (h : s.Stores g) (e : Err) (v : Word) : (s.raiseDec e v).Stores g := { h with }

theorem setEos (h : s.Stores g) (b : Bool) : (s.setEos b).Stores g := { h with }

theorem serves (h : s.Stores g) (ht : s.Serves t) : t.Stores g := by
  obtain ⟨p, c, n, -⟩ := ht
  exact { h with }

theorem setSym (h : s.Stores g) {x : Symbol} (hx : x.toNat ≤ 256) : ({ s with sym := x } : State).Stores g :=
  { h with sym := hx }

theorem setNode (h : s.Stores g) (i : NodeIx) {n : Node} (hn : n.leaf = true → n.sym.toNat ≤ 256) :
    (s.setNode i n).Stores g where
  noTree := h.noTree
  noCodes := h.noCodes
  leafSym k := by
    rw [State.node_setNode]
    split
    · exact hn
    · exact h.leafSym k
  sym := h.sym

theorem setTree (h : s.Stores g) (r : NodeIx) (n k : Nat) : (s.setTree r n k).Stores g :=
  { h with noTree := nofun }

theorem dropCodes (h : s.Stores g) : s.dropCodes.Stores g where
  noTree ht := by
    obtain ⟨hr, hn, hl, -⟩ := h.noTree ht
    exact ⟨hr, hn, hl, rfl⟩
  noCodes _ _ := s.code_dropCodes
  leafSym := h.leafSym
  sym := h.sym

theorem dropTree_dropCodes (h : s.Stores g) : s.dropTree.dropCodes.Stores g where
  noTree _ := ⟨rfl, rfl, rfl, rfl⟩
  noCodes _ _ := s.dropTree.code_dropCodes
  leafSym := h.leafSym
  sym := h.sym

theorem link (h : s.Stores g) (k : Link) (i : NodeIx) : (s.link k i).Stores g := by
  cases k with
  | root => exact h
  | left p => exact h.setNode p (h.leafSym p)
  | right p => exact h.setNode p (h.leafSym p)

theorem get (h : s.Stores g) {use : Nat → State → State} (k : Nat) (j : Job)
    (hu : ∀ v t, t.Stores g → (use v t).Stores g) : (s.get k j use).Stores g := by
  rw [State.get]
  obtain hr | ⟨r, t, hr, ht⟩ := s.bitRead_cases k <;> rw [hr]
  · exact h.await _ _
  · cases r with
    | data v => exact hu _ _ ((h.serves ht).seq _)
    | eod => exact (h.serves ht).raise _ _
    | err => exact (h.serves ht).raise _ _

theorem enqueue (h : s.Stores g) {node : NodeIx → Node} (hn : ∀ i, (node i).leaf = true → (node i).sym.toNat ≤ 256) :
    (s.enqueue node).Stores g := (h.setNode _ (hn _)).seq _

theorem runClear (h : s.Stores g) : (runClear s).Stores g where
  noTree _ := ⟨rfl, rfl, rfl, rfl⟩
  noCodes _ _ := s.dropTree.code_dropCodes
  leafSym := h.leafSym
  sym := Nat.zero_le _

theorem runScan (h : s.Stores g) {x : Nat} (hx : x ≤ 256) : (runScan x s).Stores g := by
  refine State.Stores.push ?_ _
  rw [State.scanSymbol]
  dsimp only
  split
  · exact h
  · exact (h.enqueue fun i _ => by simp [leafNode]; omega).seq _

theorem runMerge (h : s.Stores g) : (runMerge s).Stores g := by
  rw [Machine.runMerge]
  split
  · exact ((h.seq _).enqueue fun i hi => by cases hi).push _
  · exact ((h.seq _).setTree _ _ _).dropCodes
  · exact h

theorem runReadMagic (h : s.Stores g) : (runReadMagic s).Stores g := by
  rw [Machine.runReadMagic]
  obtain hr | ⟨r, t, hr, ht⟩ := s.bitRead_cases 32 <;> rw [hr]
  · exact h.await _ _
  · cases r with
    | data v =>
      dsimp only
      split
      · exact (h.serves ht).seq _
      · exact (h.serves ht).raise _ _
    | eod => exact (h.serves ht).raise _ _
    | err => exact (h.serves ht).raise _ _

theorem runTreeStart (h : s.Stores g) : (runTreeStart s).Stores g := (h.dropTree_dropCodes.seq _).push _

theorem runParse (h : s.Stores g) (l : Link) : (runParse l s).Stores g := by
  refine h.get _ _ fun b t ht => ?_
  have hl : (State.link { t with seq.next := t.seq.next + 1 } l (BitVec.ofNat 10 t.seq.next)).Stores g :=
    (ht.seq _).link _ _
  rw [parseNode]
  dsimp only
  split
  · exact hl.push _
  · split
    · exact hl.raise _ _
    · exact ((hl.seq _).setNode _ fun hi => by cases hi).push _

theorem runLeafSym (h : s.Stores g) (i : NodeIx) : (runLeafSym i s).Stores g := by
  refine h.get _ _ fun v t ht => ?_
  rw [parseSym]
  dsimp only
  split
  · exact ht.raise _ _
  · split
    · exact ht.raise _ _
    · exact (ht.seq _).setNode _ fun _ => by simp [leafNode]; omega

theorem runDecode (h : s.Stores g) (b : Bool) : (runDecode b s).Stores g := by
  rw [Machine.runDecode]
  split
  · exact h.push _
  · exact h.raiseDec _ _

theorem runDecode1 (h : s.Stores g) (b : Bool) : (runDecode1 b s).Stores g := by
  rw [Machine.runDecode1]
  split
  · exact h.raiseDec _ _
  · exact h.push _

theorem runDescend (h : s.Stores g) (b : Bool) (i : NodeIx) (m : Bool) : (runDescend b i m s).Stores g := by
  rw [Machine.runDescend]
  split
  · rename_i hleaf
    have hs := h.setSym (h.leafSym i hleaf)
    split
    · rw [State.gotStreamSymbol]
      split
      · exact hs.setEos _
      · exact hs.push _
    · exact hs.setEos _
  · obtain hr | ⟨r, t, hr, ht⟩ := s.bitRead_cases 1 <;> rw [hr]
    · exact h.await _ _
    · cases r with
      | data v => exact (h.serves ht).push _
      | eod => exact (h.serves ht).raiseDec _ _
      | err => exact (h.serves ht).raiseDec _ _

theorem runPutByte (h : s.Stores g) (b : Byte) : (runPutByte b s).Stores g := by
  rw [Machine.runPutByte]
  obtain hr | ⟨r, t, hr, ht⟩ := s.byteWrite_cases b <;> rw [hr]
  · exact h.await _ _
  · cases r
    · exact h.serves ht
    · exact (h.serves ht).raiseDec _ _

/-- Stores that are the same are as good. -/
theorem frame {W : List Store} (h : s.Stores g) (hf : State.Frame W s t) (ht : .tree ∉ W) (hc : .codes ∉ W)
    (hs : .symbol ∉ W) : t.Stores g := by
  obtain ⟨hn, hr, hnc, hlc, hv⟩ := hf.tree ht
  obtain ⟨hco, hcv⟩ := hf.codes hc
  obtain ⟨hsy, -⟩ := hf.symbol hs
  refine ⟨?_, ?_, ?_, ?_⟩
  · rw [hr, hnc, hlc, hv, hcv]; exact h.noTree
  · intro hf hg x
    rw [State.code, hco]
    exact h.noCodes (hcv ▸ hf) hg x
  · intro i
    rw [State.node, hn]
    exact h.leafSym i
  · rw [hsy]; exact h.sym

end State.Stores

/-- The jobs of `GENCODES`, which writes the code table while `CODES_VALID` may be 0. -/
def Job.generates : Job → Bool
  | .gencodes | .walk _ _ | .codesDone => true
  | _ => false

/-- Every job but those of `GENCODES` keeps the stores sound. -/
theorem State.Stores.runJob {g : Prop} {s : State} (h : s.Stores g) {j : Job} {js : List Job} (hb : j.Before js)
    (hj : j.generates = false) : (runJob j s).Stores g := by
  cases j with
  | gencodes | walk | codesDone => cases hj
  | clear => exact h.runClear
  | scan x => exact h.runScan hb.scan_le
  | merge => exact h.runMerge
  | hdrrd m => exact (h.seq _).push _
  | readMagic => exact h.runReadMagic
  | treeStart => exact h.runTreeStart
  | parse l => exact h.runParse l
  | leafSym i => exact h.runLeafSym i
  | treeDone => exact h.setTree _ _ _
  | decode b => exact h.runDecode b
  | decode1 b => exact h.runDecode1 b
  | descend b i m => exact h.runDescend b i m
  | putByte b => exact h.runPutByte b
  | _ => exact h.frame (frame_runJob s _) (by simp [Job.writes]) (by simp [Job.writes]) (by simp [Job.writes])

end Sys2Proof.Machine
end

section
/-! SUPPORT. Every step keeps the block's invariant. -/

namespace Sys2Proof.Machine

/-! ## What a job leads to -/

theorem Job.uses_of_emits {j : Job} (h : j.emits = true) : j.uses = [.bitSink] := by
  cases j with
  | put n v => rfl
  | emit i => rfl
  | _ => cases h

/-- Jobs lead to jobs that use no other ports. -/
theorem Job.Leads.uses {j : Job} {ks : List Job} (h : j.Leads ks) {k : Job} (hk : k ∈ ks) : k.uses ⊆ j.uses := by
  cases h with
  | hdrwr m _ h | emit i _ h =>
    rw [Job.uses_of_emits (h k hk)]
    simp [Job.uses]
  | encsym x _ h | terminator t _ h =>
    rw [Job.uses_of_emits (Job.emits_of_puts (h k hk))]
    simp [Job.uses]
  | byte t js h =>
    obtain hk | hk := List.mem_append.1 hk
    · rw [Job.uses_of_emits (Job.emits_of_puts (h k hk))]
      simp [Job.uses]
    · rw [List.mem_singleton.1 hk]
      exact List.Subset.refl _
  | done => cases hk
  | again =>
    rw [List.mem_singleton.1 hk]
    exact List.Subset.refl _
  | gencodes | walk | magic | treeStart | node | literal =>
    simp only [List.mem_cons, List.not_mem_nil, or_false] at hk
    obtain rfl | rfl := hk <;> simp [Job.uses]
  | decode b | root b | descend b =>
    obtain rfl := List.mem_singleton.1 hk
    cases b <;> simp [Job.uses]
  | _ =>
    obtain rfl := List.mem_singleton.1 hk
    simp [Job.uses]

theorem Job.Leads.ne_ret {j : Job} (h : j.Leads []) : j ≠ .ret := by
  rintro rfl
  cases h
  contradiction

/-- Only `GENCODES` leads to the end of its walk. -/
theorem Job.Leads.generates {j : Job} {ks : List Job} (h : j.Leads ks) (hk : .codesDone ∈ ks) : j.generates = true := by
  cases h with
  | hdrwr m _ h | emit i _ h => cases h _ hk
  | encsym x _ h | terminator t _ h => cases h _ hk
  | byte t js h =>
    obtain hk | hk := List.mem_append.1 hk
    · cases h _ hk
    · simp at hk
  | again =>
    obtain rfl := List.mem_singleton.1 hk
    rfl
  | gencodes => rfl
  | _ => simp at hk

/-- The end of the walk of `GENCODES` stands behind jobs of the walk only. -/
theorem Job.Before.walks {j : Job} {js : List Job} (h : j.Before js) (hm : .codesDone ∈ js) : j.walks = true := by
  cases h with
  | walk _ _ hj _ => exact hj
  | emit _ ks _ hk | parse _ ks _ hk | encode _ ks _ _ hk =>
    have hm : .codesDone ∈ ks := by simpa using hm
    cases hk _ hm
  | _ => simp at hm

theorem Job.generates_of_walks {j : Job} (h : j.walks = true) : j.generates = true := by
  cases j with
  | walk i p => rfl
  | _ => cases h

/-! ## A position -/

theorem State.Stores.mono {g g' : Prop} {s : State} (h : s.Stores g) (hg : g → g') : s.Stores g' :=
  { h with noCodes := fun hc hn => h.noCodes hc fun h => hn (hg h) }

theorem State.Inv.stores {s : State} (h : s.Inv) : s.Stores (.codesDone ∈ s.seq.jobs) :=
  ⟨h.noTree, h.noCodes, h.leafSym, h.sym⟩

/-- A job that moves its command on keeps the invariant, if it keeps the part of it on the stores. -/
theorem Job.Moves.inv {s t : State} {j : Job} {js : List Job} (hm : j.Moves (s.at js) t) (h : s.Inv)
    (hs : s.seq.jobs = j :: js) (hst : t.Stores (.codesDone ∈ t.seq.jobs))
    (hw : .codesDone ∈ t.seq.jobs → t.flags.treeValid = true) : t.Inv := by
  obtain ⟨hnt, hnc, hls, hsy⟩ := hst
  have hl : LegalJobs (j :: js) := hs ▸ h.legal
  have hbusy : s.flags.busy = true := by rw [h.busy, hs]; rfl
  obtain hc | he := hm
  · obtain ⟨ks, hks, hj⟩ := hc.jobs
    have hne : ks ++ js ≠ [] := by
      rintro hn
      obtain ⟨rfl, rfl⟩ := List.append_eq_nil_iff.1 hn
      exact hl.before.ne_nil hks.ne_ret rfl
    have hbt : t.flags.busy = true := hc.busy.trans hbusy
    have huse (p : Port) : t.uses p = s.uses p := by rw [State.uses, hc.inUse]; rfl
    refine ⟨?_, ?_, ?_, ?_, ?_, hnt, hw, hnc, ?_, ?_, hls, hsy⟩
    · rw [hj]; exact hks.legal hl
    · rw [hbt, hj]; simpa using hne
    · simp [hbt]
    · intro k hk p hp
      rw [huse]
      rw [hj, List.mem_append] at hk
      obtain hk | hk := hk
      · exact h.usesIn j (by simp [hs]) p (hks.uses hk hp)
      · exact h.usesIn k (by rw [hs]; exact List.mem_cons_of_mem _ hk) p hp
    · intro p hp
      rw [huse]
      exact (hc.waits p hp).elim (h.waitsIn p) (h.usesIn j (by simp [hs]) p)
    · rw [hc.code.1]; exact h.errCode
    · rw [hc.code.1, hc.code.2]; exact h.errInfo
  · refine ⟨?_, ?_, fun _ => he.seq, ?_, ?_, hnt, hw, hnc, ?_, ?_, hls, hsy⟩
    · rw [he.seq]; exact .idle
    · rw [he.seq, he.busy]; rfl
    · rw [he.seq]; exact nofun
    · rw [he.seq]; exact nofun
    · obtain ⟨hc, -, -⟩ | ⟨e, hc, -, -⟩ := he.report <;> rw [hc]
      · exact Nat.zero_le _
      · exact e.code_le
    · intro h0
      obtain ⟨-, hi, -⟩ | ⟨e, hc, -, -⟩ := he.report
      · exact hi
      · have := e.code_pos
        rw [← hc, h0] at this
        simp at this

theorem State.Inv.runJob {s : State} (h : s.Inv) {j : Job} {js : List Job} (hs : s.seq.jobs = j :: js) :
    (runJob j (s.at js)).Inv := by
  have hm := moves_runJob (s.at js) j
  have hb : j.Before js := (hs ▸ h.legal : LegalJobs (j :: js)).before
  have hst : (s.at js).Stores (.codesDone ∈ j :: js) := hs ▸ h.stores.seq _
  cases hg : j.generates with
  | false =>
    have hn : .codesDone ∉ j :: js := by
      intro hmem
      obtain rfl | hmem := List.mem_cons.1 hmem
      · cases hg
      · rw [Job.generates_of_walks (hb.walks hmem)] at hg
        cases hg
    have hn' : .codesDone ∉ (Machine.runJob j (s.at js)).seq.jobs := by
      obtain hc | he := hm
      · obtain ⟨ks, hks, hj⟩ := hc.jobs
        rw [hj, List.mem_append, not_or]
        exact ⟨fun hk => by simp [hks.generates hk] at hg, fun hk => hn (List.mem_cons_of_mem _ hk)⟩
      · rw [he.seq]; exact nofun
    exact hm.inv h hs ((hst.runJob hb hg).mono fun hmem => absurd hmem hn) fun hmem => absurd hmem hn'
  | true =>
    cases j with
    | gencodes =>
      have hn : .codesDone ∉ Job.gencodes :: js := by
        obtain rfl := hb.eq_ret rfl (by simp)
        simp
      refine hm.inv h hs ?_ ?_ <;> rw [Machine.runJob, runGencodes] <;> split
      · exact { hst with noCodes := fun _ hn => absurd (by simp) hn }
      · exact (hst.mono fun hmem => absurd hmem hn).raise _ _
      · exact fun _ => ‹_›
      · exact nofun
    | walk i p =>
      obtain ⟨ks, hk, rfl⟩ := hb.of_walk
      have hv : s.flags.treeValid = true := h.walking (by simp [hs])
      obtain ⟨-, -, -, -, hv'⟩ := (frame_runJob (s.at (ks ++ [Job.codesDone, Job.ret])) (.walk i p)).tree
        (by simp [Job.writes])
      refine hm.inv h hs ?_ fun _ => hv'.trans hv
      rw [Machine.runJob, runWalk]
      split
      · exact { hst with noCodes := fun _ hn => absurd (by simp) hn }
      · exact { hst with noCodes := fun _ hn => absurd (by simp) hn }
    | codesDone =>
      have hv : s.flags.treeValid = true := h.walking (by simp [hs])
      exact hm.inv h hs
          { hst with noTree := fun hf => by simp [Machine.runJob, runCodesDone, hv] at hf, noCodes := nofun }
        fun _ => hv
    | _ => cases hg

theorem State.Inv.advance {s : State} (h : s.Inv) : (advance s).Inv := by
  cases hs : s.seq.jobs with
  | nil => rw [Machine.advance, hs]; exact h
  | cons j js => rw [advance_eq hs]; exact h.runJob hs

theorem State.Inv.run {s : State} (h : s.Inv) (n : Nat) : (run n s).Inv :=
  run_keeps (fun _ h _ _ => h.advance) n h

/-! ## The outside world -/

theorem decodeN_eq {v : Word} {i j : Instr} (h : decodeN v i = .command j) : j = i := by
  rw [decodeN] at h
  split at h
  · cases h; rfl
  · cases h

theorem decodeF_eq {v : Word} {i : Bool → Instr} {j : Instr} (h : decodeF v i = .command j) : ∃ b, j = i b := by
  rw [decodeF] at h
  split at h
  · cases h; exact ⟨_, rfl⟩
  · cases h

theorem decodeF2_eq {v : Word} {i : Bool → Bool → Instr} {j : Instr} (h : decodeF2 v i = .command j) :
    ∃ b c, j = i b c := by
  rw [decodeF2] at h
  split at h
  · cases h; exact ⟨_, _, rfl⟩
  · cases h

theorem decodeS_eq {v : Word} {i : Symbol → Instr} {j : Instr} (h : decodeS v i = .command j) :
    ∃ x : Symbol, x.toNat ≤ 256 ∧ j = i x := by
  rw [decodeS] at h
  split at h
  · split at h
    · cases h; exact ⟨_, ‹_›, rfl⟩
    · cases h
  · cases h

/-- A command that the decoder finds is well-formed (R102, R106). -/
theorem decode_wf {v : Word} {i : Instr} (h : decode v = .command i) : i.wf = true := by
  rw [decode] at h
  split at h
  iterate 4 · obtain rfl := decodeN_eq h; rfl
  iterate 2 · obtain ⟨b, rfl⟩ := decodeF_eq h; rfl
  · obtain ⟨x, hx, rfl⟩ := decodeS_eq h; exact decide_eq_true hx
  · obtain ⟨b, rfl⟩ := decodeF_eq h; rfl
  iterate 2 · obtain rfl := decodeN_eq h; rfl
  · obtain ⟨b, c, rfl⟩ := decodeF2_eq h; rfl
  · cases h

/-- The jobs of a well-formed command are a position of the sequencer. -/
theorem Instr.jobs_legal {i : Instr} (h : i.wf = true) : LegalJobs (Instr.jobs i) := by
  cases i with
  | nop => exact .ret
  | encsym x => exact .solo (.encsym x) h
  | flush k y =>
    cases k <;> cases y
    · exact .ret
    · exact .solo _ rfl
    · exact .solo _ rfl
    · exact .flushes
  | _ => exact .solo _ rfl

theorem Instr.jobs_ne_nil (i : Instr) : Instr.jobs i ≠ [] := by
  cases i with
  | flush k y => simp [Instr.jobs]
  | _ => simp [Instr.jobs]

theorem Instr.codesDone_not_mem_jobs (i : Instr) : .codesDone ∉ Instr.jobs i := by
  cases i with
  | flush k y => cases k <;> cases y <;> simp [Instr.jobs]
  | _ => simp [Instr.jobs]

namespace State.Inv

variable {s : State}

/-- Acceptance of jobs that are a position keeps the invariant. -/
theorem accept (h : s.Inv) (hb : s.flags.busy = false) {js : List Job} (hl : LegalJobs js) (hne : js ≠ [])
    (hc : .codesDone ∉ js) : (s.accept js).Inv where
  legal := hl
  busy := by simpa using hne
  hidden := nofun
  usesIn j hj p hp := by simpa [State.uses] using ⟨j, hj, hp⟩
  waitsIn := nofun
  noTree := h.noTree
  walking hm := absurd hm hc
  noCodes hf _ := h.noCodes hf (by simp [h.hidden hb, Seq.idle])
  errCode := h.errCode
  errInfo := h.errInfo
  leafSym := h.leafSym
  sym := h.sym

theorem start (h : s.Inv) (hb : s.flags.busy = false) {i : Instr} (hi : i.wf = true) : (start i s).Inv := by
  rw [start_eq_accept]
  exact h.accept hb (Instr.jobs_legal hi) (Instr.jobs_ne_nil i) (Instr.codesDone_not_mem_jobs i)

theorem beginIllegal (h : s.Inv) (hb : s.flags.busy = false) (v : Word) : (beginIllegal v s).Inv :=
  h.accept hb (.solo _ rfl) (by simp) (by simp)

theorem launch (h : s.Inv) (hb : s.flags.busy = false) {v : Word} {t : State} (ht : launch v s = .next t) : t.Inv := by
  obtain ⟨i, hi, rfl | he⟩ | ⟨-, rfl | rfl⟩ := launch_cases ht
  · exact h.start hb (decode_wf hi)
  · rw [exec_eq_runOn] at he
    cases he
    exact (h.start hb (decode_wf hi)).run _
  · exact h.beginIllegal hb v
  · exact (h.beginIllegal hb v).run _

theorem writeReg (h : s.Inv) (off : Nat) (v : Word) : (s.writeReg off v).Inv := by
  unfold State.writeReg
  split
  · exact { h with }
  · exact { h with }
  · exact { h with }
  · exact { h with }
  · split
    · exact { h with }
    · exact h

theorem hostRead (h : s.Inv) (off : Nat) : (s.hostRead off).Inv := by
  rw [State.hostRead]
  split
  · exact { h with }
  · exact { h with }

theorem hostWrite (h : s.Inv) {off width : Nat} {v : Word} {t : State} (ht : hostWrite off width v s = .next t) :
    t.Inv := by
  obtain ⟨-, ⟨-, rfl⟩ | ⟨hb, -, hl⟩ | ⟨-, -, rfl⟩⟩ := hostWrite_cases ht
  · exact { h with }
  · exact h.launch hb hl
  · exact h.writeReg off v

theorem setEvents (h : s.Inv) (es : List Event) : ({ s with events := es } : State).Inv := { h with }

theorem setAnswering (h : s.Inv) (p : Port) (on : Bool) : (s.setAnswering p on).Inv := by
  cases p <;> exact { h with }

theorem reset : State.reset.Inv where
  legal := .idle
  busy := rfl
  hidden _ := rfl
  usesIn := nofun
  waitsIn := nofun
  noTree _ := ⟨rfl, rfl, rfl, rfl⟩
  walking := nofun
  noCodes _ _ x := by
    by_cases hx : x.toNat < 257 <;> simp [State.code, State.reset, Vector.getD, Array.getD, hx, Code.blank]
  errCode := Nat.zero_le _
  errInfo _ := rfl
  leafSym i hi := by
    by_cases hx : i.toNat < 513 <;> simp [State.node, State.reset, Vector.getD, Array.getD, hx, Node.blank] at hi
  sym := Nat.zero_le _

theorem doReset (s : State) : s.doReset.Inv := { reset with }

/-- An action of the outside world keeps the invariant. -/
theorem act (h : s.Inv) {a : Action} {t : State} (ht : act a s = .next t) : t.Inv := by
  cases a with
  | read off width =>
    rw [Machine.act] at ht
    split at ht
    · cases ht; exact h.hostRead off
    · cases ht
  | write off width v => exact h.hostWrite ht
  | reset => cases ht; exact doReset s
  | answer p on => cases ht; exact h.setAnswering p on
  | attachBitSource rest term | attachByteSource rest term | attachBitSink answers thereafter
  | attachByteSink answers thereafter =>
    obtain ⟨-, rfl⟩ := attach_cases ht
    exact { h with }

end State.Inv

/-! ## The statements on the invariant -/

/-- Settles O20, by the cases of a step: the sequencer moves, or the outside world acts. -/
theorem stepKeepsTheInvariant : Obligations.StepKeepsTheInvariant := by
  intro s t h ht
  obtain ⟨-, -, rfl⟩ | ⟨-, rfl⟩ | ⟨e, es, n, -, -, -, rfl⟩ | ⟨e, es, -, -, ha⟩ := step_cases ht
  · exact h
  · exact h.run _
  · exact (h.setEvents _).run _
  · exact (h.setEvents es).act ha

/-- Settles O21: nothing runs after reset, and no entry of a store is a leaf or a code. -/
theorem resetHasTheInvariant : Obligations.ResetHasTheInvariant := State.Inv.reset

end Sys2Proof.Machine
end

section
/-! SUPPORT. The host's accesses while the block is idle: the registers of the map and the two windows. -/

namespace Sys2Proof.Machine

/-! ## One access -/

theorem legalAccess_word {off : Nat} (h : off < 0x1000) (h4 : off % 4 = 0) : legalAccess off 4 = true := by
  simp [legalAccess, h, h4]

theorem step_of_idle {s : State} {e : Event} {es : List Event} (hb : s.flags.busy = false) (he : s.events = e :: es) :
    step s = act e.what { s with events := es } := by
  rw [step, turn, he]
  simp [hb]

/-- A read of an idle block (R81). -/
theorem step_read {s : State} {e : Event} {es : List Event} {off : Nat} (hb : s.flags.busy = false)
    (h : off < 0x1000) (h4 : off % 4 = 0) (he : s.events = e :: es) (ha : e.what = .read off 4) :
    step s = .next { s with events := es, readData := s.readReg off } := by
  rw [step_of_idle hb he, ha, act, if_pos (legalAccess_word h h4), State.hostRead, if_neg (by simp [hb])]
  rfl

/-- A write to an idle block, but of `CMD` (R84). -/
theorem step_write {s : State} {e : Event} {es : List Event} {off : Nat} {v : Word} (hb : s.flags.busy = false)
    (h : off < 0x1000) (h4 : off % 4 = 0) (hc : off ≠ 0x004) (he : s.events = e :: es) (ha : e.what = .write off 4 v) :
    step s = .next (State.writeReg { s with events := es } off v) := by
  rw [step_of_idle hb he, ha, act, hostWrite, if_pos (legalAccess_word h h4), if_neg (by simp [hb]), if_neg hc]

/-! ## The map -/

variable (s : State)

theorem State.readReg_codeBits {j : Nat} (hj : j < 8) : s.readReg (0x044 + 4 * j) = s.codeBits j := by
  interval_cases j <;> rfl

theorem State.readReg_freq (k : Fin 256) : s.readReg (0x400 + 4 * k) = s.freq[k] := by
  have hk := k.isLt
  unfold State.readReg
  split
  iterate 20 · omega
  rw [if_neg (by omega), if_pos (by omega), State.freqAt, if_neg (by omega),
    show (0x400 + 4 * k.val - 0x400) / 4 = k.val by omega]
  simp [Vector.getD]

/-- Nothing is at the offsets between the counters and `FREQ`, and none after it (R32). -/
theorem State.readReg_hole {off : Nat} (h : 0x074 ≤ off ∧ off ≤ 0x3FC ∨ 0x804 ≤ off) : s.readReg off = 0#32 := by
  have hc : ¬ (0x044 ≤ off ∧ off ≤ 0x060) := by omega
  have hf : ¬ (0x400 ≤ off ∧ off ≤ 0x800) := by omega
  unfold State.readReg
  split
  iterate 20 · omega
  rw [if_neg hc, if_neg hf]

/-- The bits of `STATUS` (R36-R40). -/
theorem State.status_bits :
    s.status.getLsbD 0 = s.flags.busy ∧ s.status.getLsbD 1 = s.flags.done ∧ s.status.getLsbD 2 = s.flags.err ∧
    s.status.getLsbD 3 = s.flags.ovr ∧ s.status.getLsbD 4 = s.flags.treeValid ∧
    s.status.getLsbD 5 = s.flags.codesValid ∧ s.status.getLsbD 6 = s.flags.eos ∧
    s.status.getLsbD 7 = s.rootLeaf ∧ s.status.toNat < 256 := by
  rw [State.status]
  generalize s.rootLeaf = a, s.flags.eos = b, s.flags.codesValid = c, s.flags.treeValid = d, s.flags.ovr = e,
    s.flags.err = f, s.flags.done = g, s.flags.busy = h
  revert a b c d e f g h
  decide

theorem bitWord_bits (b : Bool) : (bitWord b).getLsbD 0 = b ∧ (bitWord b).toNat ≤ 1 := by
  cases b <;> decide

theorem toNat_widened {w : Nat} (x : BitVec w) (h : w ≤ 32) : (x.setWidth 32).toNat = x.toNat :=
  BitVec.toNat_setWidth_of_le h

/-- Settles O12: the read is that of the map, offset by offset. -/
theorem idleReadsFollowTheRegisterMap : Obligations.IdleReadsFollowTheRegisterMap := by
  intro s e es off hb ho h4 he ha
  refine ⟨s.readReg off, step_read hb ho h4 he ha, ?_⟩
  refine ⟨?id, ?cmd, ?ctrl, ?status, ?errCode, ?errInfo, ?magic, ?root, ?nodeCount, ?leafCount, ?sym, ?nodeSel,
    ?nodeInfo, ?nodeWlo, ?nodeWhi, ?codeSel, ?codeLen, ?codeBits, ?bitsIn, ?bitsOut, ?bytesIn, ?bytesOut, ?hole, ?freq,
    ?sentinel, ?past⟩
  case ctrl => rintro rfl; exact bitWord_bits s.irqEn
  case status => rintro rfl; exact hb ▸ s.status_bits
  case codeBits => rintro j hj rfl; exact s.readReg_codeBits hj
  case hole => exact fun h h' => s.readReg_hole (.inl ⟨h, h'⟩)
  case freq => rintro k rfl; exact s.readReg_freq k
  case past => exact fun h => s.readReg_hole (.inr h)
  case errCode | root | nodeCount | leafCount | sym | nodeSel | codeSel =>
    rintro rfl; exact toNat_widened _ (by decide)
  all_goals rintro rfl; rfl

theorem extractLsb'_zero_eq_ofNat {w : Nat} (v : BitVec w) (n : Nat) : v.extractLsb' 0 n = BitVec.ofNat n v.toNat := by
  apply BitVec.eq_of_toNat_eq
  simp

theorem State.writeReg_freq (k : Fin 256) (v : Word) :
    s.writeReg (0x400 + 4 * k) v = { s with freq := s.freq.set k v } := by
  have hk := k.isLt
  unfold State.writeReg
  split
  iterate 4 · omega
  rw [if_pos (by omega), show (0x400 + 4 * k.val - 0x400) / 4 = k.val by omega, State.setFreq]
  congr 1
  ext j hj
  simp [Vector.getElem_set, Vector.getElem_setIfInBounds]

/-- A write of any other register is ignored (R32). -/
theorem State.writeReg_ignored {off : Nat} (v : Word) (hn : off ∉ [0x008, 0x00C, 0x02C, 0x03C])
    (hf : ¬ (0x400 ≤ off ∧ off < 0x800)) (h4 : off % 4 = 0) : s.writeReg off v = s := by
  have hf' : ¬ (0x400 ≤ off ∧ off ≤ 0x7FC) := by omega
  unfold State.writeReg
  split
  iterate 4 · simp at hn
  rw [if_neg hf']

/-- Settles O14: the write is that of the register, offset by offset. -/
theorem idleWritesFollowTheAccessTypes : Obligations.IdleWritesFollowTheAccessTypes := by
  intro s e es off v hb ho h4 hc he ha
  rw [step_write hb ho h4 hc he ha]
  refine ⟨?_, ?_, ?_, ?_, ?_, fun hn hf => ?_⟩
  · rintro rfl; rfl
  · rintro rfl; rfl
  · rintro rfl
    rw [← extractLsb'_zero_eq_ofNat]
    rfl
  · rintro rfl
    rw [← extractLsb'_zero_eq_ofNat]
    rfl
  · rintro k rfl
    rw [State.writeReg_freq]
  · rw [State.writeReg_ignored _ v hn hf h4]

/-! ## The windows -/

section
variable {a b : Nat} (x : BitVec a) (y : BitVec b)

theorem getLsbD_append_high (k : Nat) : (x ++ y).getLsbD (b + k) = x.getLsbD k := by
  simp [BitVec.getLsbD_append]

theorem extractLsb'_append_high (k n : Nat) : (x ++ y).extractLsb' (b + k) n = x.extractLsb' k n := by
  ext i hi
  simp [BitVec.getLsbD_append, Nat.add_assoc]

theorem extractLsb'_append_low : (x ++ y).extractLsb' 0 b = y := by
  ext i hi
  simp [BitVec.getLsbD_append, hi, BitVec.getLsbD_eq_getElem]
end

/-- The fields of `NODE_INFO` (R46). -/
theorem Node.info_fields (n : Node) :
    n.info.getLsbD 31 = true ∧ n.info.getLsbD 30 = n.leaf ∧ n.info.getLsbD 29 = false ∧
    n.info.extractLsb' 20 9 = (if n.leaf then n.sym else 0) ∧
    n.info.extractLsb' 10 10 = (if n.leaf then 0 else n.r) ∧
    n.info.extractLsb' 0 10 = (if n.leaf then 0 else n.l) := by
  -- the three flags stand above 29 bits, whatever the fields below hold
  have flags (a b : BitVec 1) (x : BitVec 9) (y z : BitVec 10) (k : Nat) :
      (a ++ b ++ 0#1 ++ x ++ y ++ z).getLsbD (10 + (10 + (9 + k))) = (a ++ b ++ 0#1).getLsbD k := by
    rw [getLsbD_append_high, getLsbD_append_high, getLsbD_append_high]
  have fields (a b : BitVec 1) (x : BitVec 9) (y z : BitVec 10) :
      (a ++ b ++ 0#1 ++ x ++ y ++ z).extractLsb' (10 + (10 + 0)) 9 = x ∧
      (a ++ b ++ 0#1 ++ x ++ y ++ z).extractLsb' (10 + 0) 10 = y ∧
      (a ++ b ++ 0#1 ++ x ++ y ++ z).extractLsb' 0 10 = z := by
    rw [extractLsb'_append_high, extractLsb'_append_high, extractLsb'_append_high]
    simp only [extractLsb'_append_low, and_self]
  obtain ⟨leaf, x, w, l, r⟩ := n
  cases leaf
  · exact ⟨flags 1#1 0#1 0#9 r l 2, flags 1#1 0#1 0#9 r l 1, flags 1#1 0#1 0#9 r l 0, fields 1#1 0#1 0#9 r l⟩
  · exact ⟨flags 1#1 1#1 x 0#10 0#10 2, flags 1#1 1#1 x 0#10 0#10 1, flags 1#1 1#1 x 0#10 0#10 0,
      fields 1#1 1#1 x 0#10 0#10⟩

theorem ofBits_testBit (bits : List Bool) {k : Nat} (hk : k < bits.length) :
    (ofBits bits).testBit (bits.length - 1 - k) = bits[k] := by
  induction bits generalizing k with
  | nil => simp at hk
  | cons b bits ih =>
    rw [ofBits_cons, List.length_cons, Nat.add_sub_cancel]
    have hlt := ofBits_lt bits
    cases k with
    | zero =>
      rw [Nat.testBit_two_pow_mul_add _ hlt]
      cases b <;> simp
    | succ k =>
      have hk : k < bits.length := by simpa using hk
      rw [Nat.testBit_two_pow_mul_add _ hlt, if_pos (by omega),
        show bits.length - (k + 1) = bits.length - 1 - k by omega,
        ih hk]
      rfl

/-- Bit `31 - k` of a word of the code window is path bit `32 * j + k` (R48). -/
theorem codeWord_getLsbD (bits : List Bool) (j : Nat) {k : Nat} (hk : k < 32) :
    (codeWord bits j).getLsbD (31 - k) = bits.getD (32 * j + k) false := by
  have h := ofBits_testBit ((List.range 32).map (fun k => bits.getD (32 * j + k) false)) (k := k) (by simpa using hk)
  rw [codeWord, BitVec.getLsbD_ofNat]
  simpa [show 31 - k < 32 by omega] using h

/-- The field of `CODE_LEN` below its bit 31 is the length (R48). -/
theorem Code.len_field (c : Code) (h : c.bits.length ≤ 256) :
    (1#1 ++ 0#22 ++ c.len).toNat % 2 ^ 31 = c.bits.length := by
  have hl : c.len.toNat = c.bits.length := by rw [Code.len, BitVec.toNat_ofNat]; omega
  rw [BitVec.toNat_append, show (1#1 ++ 0#22).toNat = 2 ^ 22 from rfl, ← Nat.shiftLeft_add_eq_or_of_lt c.len.isLt, hl,
    Nat.shiftLeft_eq]
  omega

/-- Settles O13: field by field, where an entry is shown, and 0 where none is. -/
theorem windowsShowTheSelectedEntries : Obligations.WindowsShowTheSelectedEntries := by
  intro s
  refine ⟨fun ht hn => ?_, fun hn => ?_, fun hc hx hv hl => ?_, fun hn => ?_⟩
  · have hs : s.nodeShown = true := by simp [State.nodeShown, ht, hn]
    obtain ⟨h31, h30, h29, hsym, hr, hl⟩ := (s.node s.nodeSel).info_fields
    rw [State.nodeInfo, State.nodeWlo, State.nodeWhi, if_pos hs, if_pos hs, if_pos hs]
    refine ⟨h31, h30, h29, hsym, hr, hl, ?_, ?_⟩
    · simp
    · have := (s.node s.nodeSel).w.isLt
      simp [Nat.shiftRight_eq_div_pow]
      omega
  · have hs : ¬ s.nodeShown = true := by simpa [State.nodeShown] using hn
    rw [State.nodeInfo, State.nodeWlo, State.nodeWhi, if_neg hs, if_neg hs, if_neg hs]
    exact ⟨rfl, rfl, rfl⟩
  · have hs : s.codeShown = true := by simp [State.codeShown, hc, hx, hv]
    refine ⟨?_, ?_, fun j k _ hk => ?_⟩
    · rw [State.codeLen, if_pos hs]
      exact (getLsbD_append_high (1#1 ++ 0#22) (s.code s.codeSel).len 22)
    · rw [State.codeLen, if_pos hs]
      exact (s.code s.codeSel).len_field hl
    · rw [State.codeBits, if_pos hs]
      exact codeWord_getLsbD _ j hk
  · have hs : ¬ s.codeShown = true := by simpa [State.codeShown, and_assoc] using hn
    rw [State.codeLen, if_neg hs]
    exact ⟨rfl, fun j => by rw [State.codeBits, if_neg hs]⟩

end Sys2Proof.Machine
end

section
/-! SUPPORT. Tree and code-table validity (R57, R58): where it is kept because nothing of it is written, where there is
no tree, and after `GENCODES`. -/

namespace Sys2Proof.Machine

/-! ## Runs that end -/

/-- A run that ends, ends where the sequencer gets to. -/
theorem Goes.run_unique {n k : Nat} {s t : State} (h : Goes n s t) (ht : t.flags.busy = false)
    (hk : (run k s).flags.busy = false) : run k s = t := by
  obtain hle | hlt := Nat.le_total n k
  · exact h.run_eq ht hle
  · obtain ⟨m, rfl⟩ := Nat.exists_eq_add_of_le hlt
    have := h 0
    rw [Nat.add_zero, run_add, run_of_idle _ hk, run] at this
    exact this

/-- A command that completes, completes where the sequencer gets to. -/
theorem exec_eq_of_goes {i : Instr} {s t u : State} {n : Nat} (h : exec i s = .next u) (hu : u.flags.busy = false)
    (hg : Goes n ((s.accept (Instr.jobs i)).at (Instr.jobs i)) t) (ht : t.flags.busy = false) : u = t := by
  rw [exec_eq_runOn, start_eq_accept, accept_eq_at] at h
  cases h
  exact hg.run_unique ht hu

/-! ## Trees that are kept -/

theorem State.indices_congr {s t : State} (h : s.nodes = t.nodes) (T : Tree) (i : NodeIx) :
    s.indices i T = t.indices i T := by
  induction T generalizing i with
  | leaf x => rfl
  | node l r ihl ihr => rw [State.indices, State.indices, ihl, ihr, State.node_congr h]

/-- Whether the block holds a tree is a matter of the tree's store and registers. -/
theorem State.HoldsTree.congr {s t : State} {T : Tree} (h : s.HoldsTree T) (hn : t.nodes = s.nodes)
    (hr : t.root = s.root) (hc : t.nodeCount = s.nodeCount) (hl : t.leafCount = s.leafCount)
    (hv : t.flags.treeValid = s.flags.treeValid) : t.HoldsTree T where
  valid := hv.trans h.valid
  holds := hr ▸ h.holds.congr hn.symm
  legal := h.legal
  nodeCount := hc ▸ h.nodeCount
  leafCount := hl ▸ h.leafCount
  indices := by rw [hr, State.indices_congr hn]; exact h.indices

/-- What leaves the tree and the code table alone keeps them valid. -/
theorem State.TreeInv.congr {s t : State} (h : s.TreeInv)
    (ht : t.nodes = s.nodes ∧ t.root = s.root ∧ t.nodeCount = s.nodeCount ∧ t.leafCount = s.leafCount ∧
      t.flags.treeValid = s.flags.treeValid)
    (hc : t.codes = s.codes ∧ t.flags.codesValid = s.flags.codesValid) : t.TreeInv := by
  obtain ⟨hn, hr, hnc, hl, hv⟩ := ht
  obtain ⟨hco, hcv⟩ := hc
  refine ⟨fun h' => ?_, fun h' => ?_, fun h' => ?_, fun h' x => ?_⟩
  · obtain ⟨T, hT⟩ := h.tree (hv ▸ h')
    exact ⟨T, hT.congr hn hr hnc hl hv⟩
  · rw [hr, hnc, hl, hcv]
    exact h.noTree (hv ▸ h')
  · obtain ⟨T, hT, hC⟩ := h.codes (hcv ▸ h')
    exact ⟨T, hT.congr hn hr hnc hl hv, hC.congr hco.symm⟩
  · rw [State.code, hco]
    exact h.noCodes (hcv ▸ h') x

/-! ## No tree -/

/-- There is no tree and no code (R57, R58). -/
structure State.Dropped (s : State) : Prop where
  tree  : s.flags.treeValid = false
  table : s.root = 0#10 ∧ s.nodeCount = 0#10 ∧ s.leafCount = 0#9 ∧ s.flags.codesValid = false
  codes : ∀ x : Symbol, (s.code x).valid = false

theorem State.Dropped.treeInv {s : State} (h : s.Dropped) : s.TreeInv where
  tree ht := by simp [h.tree] at ht
  noTree _ := h.table
  codes hc := by simp [h.table] at hc
  noCodes _ := h.codes

theorem State.dropped (s : State) : s.dropTree.dropCodes.Dropped :=
  ⟨rfl, ⟨rfl, rfl, rfl, rfl⟩, s.dropTree.code_dropCodes⟩

/-! ## GENCODES -/

theorem Tree.holdsCodes_codeTable {s : State} {T : Tree} {codes : Vector Code 257} (h : s.codes = T.codeTable codes) :
    s.HoldsCodes T := by
  intro x hx
  have hc : s.code x = (T.codeTable codes)[x.toNat]'(by omega) := by
    simp [State.code, h, Vector.getD, show x.toNat < 257 by omega]
  rw [hc, Tree.codeTable, Vector.getElem_ofFn, BitVec.ofNat_toNat, BitVec.setWidth_eq]
  cases T.code x <;> simp

/-- `GENCODES` of a valid tree writes its code table (R151). -/
theorem goes_gencodes {T : Tree} {s : State} (hr : s.Runs) (hT : s.HoldsTree T) (js : List Job) :
    Goes (T.size + 2) (s.at (.gencodes :: js))
      ({ s with codes := T.codeTable s.codes, flags.codesValid := true }.at js) := by
  have h1 := goes_job s .gencodes js hr
  rw [runJob, runGencodes, if_pos (by exact hT.valid)] at h1
  have h2 := goes_walk (s := { s with codes := invalidated s.codes }) ⟨hr.busy, hr.free⟩ (i := s.root)
    (hT.holds.congr rfl) [] (.codesDone :: js)
  have h3 := goes_job { s with codes := walked T [] (invalidated s.codes) } .codesDone js ⟨hr.busy, hr.free⟩
  rw [walked_invalidated hT.legal] at h2 h3
  exact ((h1.trans h2).trans h3).cast (by omega)

theorem treeInv_gencodes {s t : State} (h : s.TreeInv) (ht : exec .gencodes s = .next t) (hb : t.flags.busy = false) :
    t.TreeInv := by
  have hr := accept_runs s (Instr.jobs .gencodes)
  cases hv : s.flags.treeValid with
  | false =>
    have h1 := goes_job _ .gencodes [.ret] hr
    rw [runJob, runGencodes, if_neg (by simp [hv])] at h1
    rw [exec_eq_of_goes ht hb h1 rfl]
    exact h.congr ⟨rfl, rfl, rfl, rfl, rfl⟩ ⟨rfl, rfl⟩
  | true =>
    obtain ⟨T, hT⟩ := h.tree hv
    have h1 := goes_gencodes hr (hT.congr rfl rfl rfl rfl rfl) [.ret]
    rw [exec_eq_of_goes ht hb (h1.trans (goes_ret _ ⟨hr.busy, hr.free⟩)) rfl]
    refine ⟨fun _ => ⟨T, hT.congr rfl rfl rfl rfl rfl⟩, fun hf => ?_,
      fun _ => ⟨T, hT.congr rfl rfl rfl rfl rfl, Tree.holdsCodes_codeTable rfl⟩, nofun⟩
    exact absurd (hf.symm.trans hv) (by simp)

/-- After `CLEAR` there is no tree (R245). -/
theorem treeInv_clear {s t : State} (ht : exec .clear s = .next t) (hb : t.flags.busy = false) : t.TreeInv := by
  have hr := accept_runs s (Instr.jobs .clear)
  have h1 := goes_job _ .clear [.ret] hr
  have h2 := goes_ret (runClear (s.accept (Instr.jobs .clear))) ⟨hr.busy, hr.free⟩
  rw [exec_eq_of_goes ht hb (h1.trans h2) rfl]
  exact State.Dropped.treeInv { s.dropped with }

/-- A command that writes neither the tree nor the code table keeps them valid. -/
theorem treeInv_of_not_writes {i : Instr} {s t : State} (h : s.TreeInv) (ht : exec i s = .next t)
    (hw : .tree ∉ Instr.writes i) (hc : .codes ∉ Instr.writes i) : t.TreeInv :=
  h.congr ((exec_reaches ht).frame.tree hw) ((exec_reaches ht).frame.codes hc)

end Sys2Proof.Machine
end

section
/-! SUPPORT. `HDRRD` on any bits: `parse()` reads the header of a legal tree, or fails; and a tree laid out in preorder
is held by the store (R181, R185-R188). -/

namespace Sys2Proof.Machine

/-! ## The layout -/

/-- A store in which a tree is laid out in preorder holds it there, and its nodes are the entries written (R186). -/
theorem holds_of_layout {T : Tree} {s : State} {n : Nat} (hn : n + T.size ≤ 513)
    (h : ∀ k x, (T.layout n)[k]? = some x → s.node (BitVec.ofNat 10 (n + k)) = x) :
    s.Holds (BitVec.ofNat 10 n) T ∧ s.indices (BitVec.ofNat 10 n) T = List.range' n T.size := by
  induction T generalizing n with
  | leaf x =>
    have h0 := h 0 _ rfl
    simp only [Tree.size] at hn
    rw [Nat.add_zero] at h0
    refine ⟨by simp [State.Holds, h0, leafNode], ?_⟩
    simp [State.indices, Tree.size, Nat.mod_eq_of_lt (show n < 1024 by omega)]
  | node l r ihl ihr =>
    have h0 := h 0 _ rfl
    rw [Nat.add_zero] at h0
    simp only [Tree.size] at hn
    obtain ⟨hl, hil⟩ := ihl (n := n + 1) (by omega) fun k x hk => by
      rw [Nat.add_assoc, Nat.add_comm 1]
      refine h (k + 1) x ?_
      rw [Tree.layout, List.getElem?_cons_succ]
      exact List.getElem?_append_left (List.getElem?_eq_some_iff.1 hk).1 ▸ hk
    obtain ⟨hr, hir⟩ := ihr (n := n + 1 + l.size) (by omega) fun k x hk => by
      rw [show n + 1 + l.size + k = n + (l.size + k + 1) by omega]
      refine h (l.size + k + 1) x ?_
      rw [Tree.layout, List.getElem?_cons_succ, List.getElem?_append_right (by simp [Tree.layout_length])]
      simpa [Tree.layout_length] using hk
    refine ⟨by simp [State.Holds, h0, internalNode, hl, hr], ?_⟩
    rw [State.indices, h0]
    simp only [internalNode, hil, hir, Tree.size]
    rw [List.range'_append_1, Nat.add_assoc 1, Nat.add_comm 1, List.range'_succ]
    simp [Nat.mod_eq_of_lt (show n < 1024 by omega)]

/-- Distinct symbols below `n` are at most `n`. -/
theorem length_le_of_nodup {xs : List Symbol} {n : Nat} (h : xs.Nodup) (hx : ∀ x ∈ xs, x.toNat < n) :
    xs.length ≤ n := by
  have hn : (xs.map BitVec.toNat).Nodup := h.map fun a b hab => BitVec.eq_of_toNat_eq hab
  have hs : xs.map BitVec.toNat ⊆ List.range n := by
    intro k hk
    obtain ⟨x, hm, rfl⟩ := List.mem_map.1 hk
    exact List.mem_range.2 (hx x hm)
  simpa using (hn.subperm hs).length_le

theorem Tree.size_eq_add (T : Tree) : T.size = T.ints + T.syms.length := by
  have := T.size_eq
  have := T.ints_eq
  omega

/-! ## The tree phase -/

/-- The tree phase of `HDRRD`: the source answers, there is no tree, and what has been read is within the bounds
of R185. -/
structure State.Reading (s : State) : Prop where
  runs    : s.Runs
  source  : s.ports.bitSource.answering = true
  dropped : s.Dropped
  nodup   : s.seq.seen.Nodup
  seen    : ∀ x ∈ s.seq.seen, x.toNat ≤ 256
  ints    : s.seq.ints ≤ 256
  next    : s.seq.next = s.seq.ints + s.seq.seen.length

/-- What stands at the source is the header of a tree that `HDRRD` can still take. -/
structure State.Readable (s : State) (T : Tree) (more : List Bool) : Prop where
  legal : T.Legal
  fresh : ∀ x ∈ T.syms, x ∉ s.seq.seen
  ints  : s.seq.ints + T.ints ≤ 256
  rest  : s.ports.bitSource.rest = T.ser ++ more

/-- The command has failed, without a tree (R188). -/
structure State.Failed (s : State) : Prop where
  busy    : s.flags.busy = false
  dropped : s.Dropped

theorem State.Dropped.congr {s t : State} (h : s.Dropped) (hv : t.flags.treeValid = s.flags.treeValid)
    (hr : t.root = s.root) (hn : t.nodeCount = s.nodeCount) (hl : t.leafCount = s.leafCount)
    (hcv : t.flags.codesValid = s.flags.codesValid) (hc : t.codes = s.codes) : t.Dropped where
  tree := hv.trans h.tree
  table := by rw [hr, hn, hl, hcv]; exact h.table
  codes x := by rw [State.code, hc]; exact h.codes x

theorem State.Dropped.raise {s : State} (h : s.Dropped) (e : Err) (v : Word) : (s.raise e v).Failed :=
  ⟨rfl, h.congr rfl rfl rfl rfl rfl rfl⟩

theorem State.Readable.nodup_append {s : State} (h : s.Reading) {T : Tree} {more : List Bool} (hT : s.Readable T more) :
    (T.syms.reverse ++ s.seq.seen).Nodup ∧ ∀ x ∈ T.syms.reverse ++ s.seq.seen, x.toNat ≤ 256 := by
  refine ⟨List.nodup_append.2 ⟨List.nodup_reverse.2 hT.legal.1, h.nodup, ?_⟩, fun x hx => ?_⟩
  · rintro x hx y hy rfl
    exact hT.fresh x (List.mem_reverse.1 hx) hy
  · obtain hx | hx := List.mem_append.1 hx
    · exact hT.legal.2 x (List.mem_reverse.1 hx)
    · exact h.seen x hx

/-- There is room in the node store for what can still be taken (R10). -/
theorem State.Readable.size_le {s : State} (h : s.Reading) {T : Tree} {more : List Bool} (hT : s.Readable T more) :
    s.seq.next + T.size ≤ 513 := by
  obtain ⟨hn, hx⟩ := hT.nodup_append h
  have hl := length_le_of_nodup hn fun x hm => Nat.lt_succ_of_le (hx x hm)
  have := hT.ints
  rw [List.length_append, List.length_reverse] at hl
  rw [h.next, T.size_eq_add]
  omega

/-- `parse()` of a header that can be taken (R181). -/
theorem State.Readable.goes {s : State} (h : s.Reading) {T : Tree} {more : List Bool} (hT : s.Readable T more)
    (k : Link) (js : List Job) :
    Goes (T.size + T.syms.length) (s.at (.parse k :: js))
      ((s.parsed T (layAt (s.link k (BitVec.ofNat 10 s.seq.next)).nodes s.seq.next (T.layout s.seq.next))
        more).at js) :=
  goes_parse h.runs h.source hT.legal hT.fresh hT.ints (hT.size_le h) hT.rest k js

theorem State.Readable.reading_parsed {s : State} (h : s.Reading) {T : Tree} {more : List Bool} (hT : s.Readable T more)
    (nodes : Vector Node 513) : (s.parsed T nodes more).Reading where
  runs := ⟨h.runs.busy, h.runs.free⟩
  source := h.source
  dropped := h.dropped.congr rfl rfl rfl rfl rfl rfl
  nodup := (hT.nodup_append h).1
  seen := (hT.nodup_append h).2
  ints := hT.ints
  next := by
    show s.seq.next + T.size = s.seq.ints + T.ints + (T.syms.reverse ++ s.seq.seen).length
    rw [h.next, T.size_eq_add, List.length_append, List.length_reverse]
    omega

/-- A read that the source cannot answer with bits fails the command (R184). -/
theorem State.get_short {s : State} (ha : s.ports.bitSource.answering = true) (hd : s.Dropped) {k : Nat}
    (hk : s.ports.bitSource.rest.length < k) (j : Job) (use : Nat → State → State) : (s.get k j use).Failed := by
  have hd' : (s.answered (.bitRead k)).endBits.Dropped := hd.congr rfl rfl rfl rfl rfl rfl
  rw [State.get, State.bitRead_end ha hk]
  cases s.ports.bitSource.term with
  | eod => exact hd'.raise _ _
  | err => exact hd'.raise _ _

/-- `parse()` once its discriminator has been read, with `rest` still at the source: its node has an index. -/
def State.entered (s : State) (k : Link) (rest : List Bool) : State :=
  { s.haveRead [1] rest with
    nodes    := (s.link k (BitVec.ofNat 10 s.seq.next)).nodes
    seq.got  := s.seq.got + 1
    seq.next := s.seq.next + 1 }

/-- `parse()` once the discriminator of an internal node has been read, and the node recorded (R187). -/
def State.branched (s : State) (k : Link) (rest : List Bool) : State :=
  let i := BitVec.ofNat 10 s.seq.next
  { (s.entered k rest).setNode i (internalNode i 0 (Config.deadLeft i) (Config.deadRight i)) with
    seq.ints := s.seq.ints + 1 }

theorem State.Dropped.seq {s : State} (h : s.Dropped) (q : Seq) : ({ s with seq := q } : State).Dropped :=
  h.congr rfl rfl rfl rfl rfl rfl

theorem State.Dropped.setNode {s : State} (h : s.Dropped) (i : NodeIx) (n : Node) : (s.setNode i n).Dropped :=
  h.congr rfl rfl rfl rfl rfl rfl

theorem State.Dropped.haveRead {s : State} (h : s.Dropped) (a : List Nat) (xs : List Bool) :
    (s.haveRead a xs).Dropped :=
  h.congr rfl rfl rfl rfl rfl rfl

theorem State.Dropped.entered {s : State} (h : s.Dropped) (k : Link) (ys : List Bool) : (s.entered k ys).Dropped :=
  (h.haveRead [1] ys).congr rfl rfl rfl rfl rfl rfl

theorem State.Dropped.link {s : State} (h : s.Dropped) (k : Link) (i : NodeIx) : (s.link k i).Dropped := by
  cases k with
  | root => exact h
  | left p => exact h.setNode p _
  | right p => exact h.setNode p _

theorem runParse_leaf {s : State} (h : s.Reading) {ys : List Bool} (hx : s.ports.bitSource.rest = true :: ys) (k : Link)
    (js : List Job) :
    runJob (.parse k) (s.at js) = (s.entered k ys).at (.leafSym (BitVec.ofNat 10 s.seq.next) :: js) := by
  rw [runJob, runParse, State.get_data (k := 1) (xs := [true]) h.runs h.source hx rfl, parseNode]
  cases k <;> rfl

theorem runParse_node {s : State} (h : s.Reading) {ys : List Bool} (hx : s.ports.bitSource.rest = false :: ys)
    (hi : s.seq.ints ≠ 256) (k : Link) (js : List Job) :
    runJob (.parse k) (s.at js) = (s.branched k ys).at
      (.parse (.left (BitVec.ofNat 10 s.seq.next)) :: .parse (.right (BitVec.ofNat 10 s.seq.next)) :: js) := by
  rw [runJob, runParse, State.get_data (k := 1) (xs := [false]) h.runs h.source hx rfl, parseNode]
  dsimp only
  rw [if_neg (by simp [ofBits]), State.link_seq, if_neg (by exact hi)]
  cases k <;> rfl

/-- A 257th internal node (R185 (c)). -/
theorem runParse_full {s : State} (h : s.Reading) {ys : List Bool} (hx : s.ports.bitSource.rest = false :: ys)
    (hi : s.seq.ints = 256) (k : Link) (js : List Job) : (runJob (.parse k) (s.at js)).Failed := by
  rw [runJob, runParse, State.get_data (k := 1) (xs := [false]) h.runs h.source hx rfl, parseNode]
  dsimp only
  rw [if_neg (by simp [ofBits]), State.link_seq, if_pos (by exact hi)]
  refine State.Dropped.raise (State.Dropped.link ?_ k _) _ _
  exact (((h.dropped.haveRead [1] ys).seq _).seq _).seq _

theorem State.Reading.branched {s : State} (h : s.Reading) (hi : s.seq.ints < 256) (k : Link) (ys : List Bool) :
    (s.branched k ys).Reading where
  runs := ⟨h.runs.busy, h.runs.free⟩
  source := h.source
  dropped := ((h.dropped.entered k ys).setNode _ _).seq _
  nodup := h.nodup
  seen := h.seen
  ints := hi
  next := by
    show s.seq.next + 1 = s.seq.ints + 1 + s.seq.seen.length
    rw [h.next]
    omega

/-- Two subtrees that can be taken, one after the other, make a tree that can be taken. -/
theorem State.Readable.node {s : State} {k : Link} {ys more more' : List Bool} {l r : Tree} {nodes : Vector Node 513}
    (hl : (s.branched k ys).Readable l more) (hx : s.ports.bitSource.rest = false :: ys)
    (hr : ((s.branched k ys).parsed l nodes more).Readable r more') : s.Readable (.node l r) more' := by
  have hys : ys = l.ser ++ more := hl.rest
  have hmore : more = r.ser ++ more' := hr.rest
  have hints : s.seq.ints + 1 + l.ints + r.ints ≤ 256 := hr.ints
  have hfresh : ∀ x ∈ r.syms, x ∉ l.syms.reverse ++ s.seq.seen := hr.fresh
  simp only [List.mem_append, List.mem_reverse, not_or] at hfresh
  refine ⟨⟨List.nodup_append.2 ⟨hl.legal.1, hr.legal.1, ?_⟩, fun x hm => ?_⟩, fun x hm => ?_, ?_, ?_⟩
  · rintro x hxl y hyr rfl
    exact (hfresh x hyr).1 hxl
  · exact (List.mem_append.1 hm).elim (hl.legal.2 x) (hr.legal.2 x)
  · exact (List.mem_append.1 hm).elim (hl.fresh x) fun h => (hfresh x h).2
  · simp only [Tree.ints]; omega
  · rw [hx, hys, hmore, Tree.ser, List.cons_append, List.append_assoc]

/-- A leaf's symbol field: a symbol that can be taken, or the command fails (R184, R185 (a), (b)). -/
theorem readable_leaf_or_failed {s : State} (h : s.Reading) {ys : List Bool} (hx : s.ports.bitSource.rest = true :: ys)
    (k : Link) (js : List Job) :
    (∃ T more, s.Readable T more) ∨
      (runJob (.leafSym (BitVec.ofNat 10 s.seq.next)) ((s.entered k ys).at js)).Failed := by
  have hd := h.dropped.entered k ys
  have hr : (s.entered k ys).Runs := ⟨h.runs.busy, h.runs.free⟩
  by_cases hlen : ys.length < 9
  · exact .inr (State.get_short (s := (s.entered k ys).at js) h.source (hd.seq _) hlen _ _)
  · have hys : (s.entered k ys).ports.bitSource.rest = ys.take 9 ++ ys.drop 9 := (List.take_append_drop 9 ys).symm
    have h9 : (ys.take 9).length = 9 := by simp; omega
    by_cases hv : ofBits (ys.take 9) > 256
    · right
      rw [runJob, runLeafSym, State.get_data hr h.source hys h9, parseSym, if_pos hv]
      refine State.Dropped.raise ?_ _ _
      exact ((hd.haveRead _ _).seq _).seq _
    · by_cases hs : s.seq.seen.contains (BitVec.ofNat 9 (ofBits (ys.take 9))) = true
      · right
        rw [runJob, runLeafSym, State.get_data hr h.source hys h9, parseSym, if_neg hv, if_pos (by exact hs)]
        refine State.Dropped.raise ?_ _ _
        exact ((hd.haveRead _ _).seq _).seq _
      · left
        have hx9 : (BitVec.ofNat 9 (ofBits (ys.take 9))).toNat = ofBits (ys.take 9) := by
          rw [BitVec.toNat_ofNat]; omega
        refine ⟨.leaf (BitVec.ofNat 9 (ofBits (ys.take 9))), ys.drop 9, ?_, ?_, by simpa [Tree.ints] using h.ints, ?_⟩
        · exact ⟨by simp [Tree.syms], by simpa [Tree.syms, hx9] using hv⟩
        · simpa [Tree.syms] using hs
        · rw [hx, Tree.ser, hx9]
          have := bin_ofBits (ys.take 9)
          rw [h9] at this
          rw [this, List.cons_append, List.take_append_drop]

/-- `parse()` on any bits: the header of a tree that can be taken stands there, or the command fails (R184, R185). -/
theorem readable_or_failed {s : State} (h : s.Reading) (k : Link) (js : List Job) :
    (∃ T more, s.Readable T more) ∨ ∃ n t, Goes n (s.at (.parse k :: js)) t ∧ t.Failed := by
  induction hn : s.ports.bitSource.rest.length using Nat.strong_induction_on generalizing s k js with
  | _ n ih =>
    have h1 := goes_job s (.parse k) js h.runs
    cases hx : s.ports.bitSource.rest with
    | nil => exact .inr ⟨1, _, h1, State.get_short (s := s.at js) h.source (h.dropped.seq _) (by simp [hx]) _ _⟩
    | cons b ys =>
      rw [hx, List.length_cons] at hn
      cases b with
      | true =>
        rw [runParse_leaf h hx] at h1
        have h2 := goes_job (s.entered k ys) (.leafSym (BitVec.ofNat 10 s.seq.next)) js ⟨h.runs.busy, h.runs.free⟩
        exact (readable_leaf_or_failed h hx k js).imp_right fun hf => ⟨_, _, h1.trans h2, hf⟩
      | false =>
        by_cases hi : s.seq.ints = 256
        · exact .inr ⟨1, _, h1, runParse_full h hx hi k js⟩
        · rw [runParse_node h hx hi] at h1
          have hv := h.branched (by have := h.ints; omega) k ys
          obtain ⟨l, more, hl⟩ | ⟨m, t, h2, ht⟩ := ih ys.length (by omega) hv (.left (BitVec.ofNat 10 s.seq.next))
            (.parse (.right (BitVec.ofNat 10 s.seq.next)) :: js) rfl
          · have h2 := hl.goes hv (.left (BitVec.ofNat 10 s.seq.next))
              (.parse (.right (BitVec.ofNat 10 s.seq.next)) :: js)
            have hw := hl.reading_parsed hv (layAt ((s.branched k ys).link (.left (BitVec.ofNat 10 s.seq.next))
              (BitVec.ofNat 10 (s.branched k ys).seq.next)).nodes (s.branched k ys).seq.next
              (l.layout (s.branched k ys).seq.next))
            have hys : ys = l.ser ++ more := hl.rest
            obtain ⟨r, more', hr⟩ | ⟨m, t, h3, ht⟩ := ih more.length (by rw [hys, List.length_append] at hn; omega) hw
              (.right (BitVec.ofNat 10 s.seq.next)) js rfl
            · exact .inl ⟨_, _, hl.node hx hr⟩
            · exact .inr ⟨_, t, (h1.trans h2).trans h3, ht⟩
          · exact .inr ⟨_, t, h1.trans h2, ht⟩

end Sys2Proof.Machine
end

section
/-! SUPPORT. `HDRRD` keeps tree and code-table validity, whatever the source holds (R181, R182, R188). -/

namespace Sys2Proof.Machine

/-- A run that gets to a silent port is not over. -/
theorem Goes.busy_of_blocked {n : Nat} {s t : State} (h : Goes n s t) (hb : t.flags.busy = true)
    (hw : t.blocked = true) (k : Nat) : (run k s).flags.busy = true := by
  by_contra hk
  have h0 := h 0
  obtain hle | hlt := Nat.le_total n k
  · obtain ⟨m, rfl⟩ := Nat.exists_eq_add_of_le hle
    rw [h m, run_of_blocked _ hw] at hk
    exact hk hb
  · obtain ⟨m, rfl⟩ := Nat.exists_eq_add_of_le hlt
    rw [Nat.add_zero, run_add, run_of_idle _ (by simpa using hk), run] at h0
    rw [h0] at hk
    exact hk hb

/-- A command that gets to a silent port has not completed. -/
theorem exec_busy_of_blocked {i : Instr} {s t u : State} {n : Nat} (h : exec i s = .next u)
    (hg : Goes n ((s.accept (Instr.jobs i)).at (Instr.jobs i)) t) (hb : t.flags.busy = true) (hw : t.blocked = true) :
    u.flags.busy = true := by
  rw [exec_eq_runOn, start_eq_accept, accept_eq_at] at h
  cases h
  exact hg.busy_of_blocked hb hw _

/-! ## The tree phase -/

/-- The state in which the tree phase begins: the old tree and code table are discarded, nothing has been read
(R181). -/
def State.treePhase (s : State) : State :=
  { s.dropTree.dropCodes with seq.seen := [], seq.next := 0, seq.ints := 0, seq.leaves := 0 }

theorem goes_treeStart {s : State} (hr : s.Runs) (js : List Job) :
    Goes 1 (s.at (.treeStart :: js)) (s.treePhase.at (.parse .root :: .treeDone :: js)) :=
  goes_job s .treeStart js hr

theorem State.treePhase_reading {s : State} (hr : s.Runs) (ha : s.ports.bitSource.answering = true) :
    s.treePhase.Reading where
  runs := ⟨hr.busy, hr.free⟩
  source := ha
  dropped := s.dropped.congr rfl rfl rfl rfl rfl rfl
  nodup := List.nodup_nil
  seen := nofun
  ints := Nat.zero_le _
  next := rfl

/-- The store with a tree laid out from entry 0 on (R186). -/
def State.laid (s : State) (T : Tree) (more : List Bool) : State :=
  s.treePhase.parsed T (layAt s.nodes 0 (T.layout 0)) more

/-- The tree that the tree phase has read is held (R57, R186). -/
theorem State.Readable.holdsTree {s : State} {T : Tree} {more : List Bool} (hT : s.treePhase.Readable T more) :
    (runTreeDone (s.laid T more)).HoldsTree T := by
  have hsize := hT.legal.size_le
  have hlen := hT.legal.length_le
  have hnext : (s.laid T more).seq.next = T.size := Nat.zero_add _
  have hleaves : (s.laid T more).seq.leaves = T.syms.length := Nat.zero_add _
  obtain ⟨hh, hi⟩ := holds_of_layout (T := T) (n := 0) (s := runTreeDone (s.laid T more)) (by omega) fun k x hk => by
    have hkT : k < T.size := T.layout_length 0 ▸ (List.getElem?_eq_some_iff.1 hk).1
    rw [Nat.zero_add, State.node_getElem (n := k) (by rw [BitVec.toNat_ofNat]; omega) (by omega)]
    show (layAt s.nodes 0 (T.layout 0))[k] = x
    rw [getElem_layAt, if_pos (Nat.zero_le k), Nat.sub_zero, List.getD_eq_getElem?_getD, hk]
    rfl
  exact
    { valid := rfl
      holds := hh
      legal := hT.legal
      nodeCount := by rw [runTreeDone, State.setTree_nodeCount, hnext, BitVec.toNat_ofNat]; omega
      leafCount := by rw [runTreeDone, State.setTree_leafCount, hleaves, BitVec.toNat_ofNat]; omega
      indices := by
        rw [List.range_eq_range']
        exact hi ▸ List.Perm.refl _ }

/-- A block that holds a tree, and has no code table. -/
theorem State.HoldsTree.treeInv {s : State} {T : Tree} (h : s.HoldsTree T) (hc : s.flags.codesValid = false)
    (hx : ∀ x : Symbol, (s.code x).valid = false) : s.TreeInv where
  tree _ := ⟨T, h⟩
  noTree hv := by simp [h.valid] at hv
  codes hv := by simp [hc] at hv
  noCodes _ := hx

/-- The tree phase completes the command with a valid tree, or with none. -/
theorem goes_treePhase {s : State} (hr : s.Runs) (ha : s.ports.bitSource.answering = true) :
    ∃ n t, Goes n (s.at [.treeStart, .ret]) t ∧ t.flags.busy = false ∧ t.TreeInv := by
  have h1 := goes_treeStart hr [.ret]
  have hread := State.treePhase_reading hr ha
  obtain ⟨T, more, hT⟩ | ⟨n, t, h2, hf⟩ := readable_or_failed hread .root [.treeDone, .ret]
  · have h2 : Goes _ _ ((s.laid T more).at [.treeDone, .ret]) := hT.goes hread .root [.treeDone, .ret]
    have h3 := goes_job (s.laid T more) .treeDone [.ret] ⟨hr.busy, hr.free⟩
    have h4 := goes_ret (runTreeDone (s.laid T more)) ⟨hr.busy, hr.free⟩
    have hh : (runTreeDone (s.laid T more)).complete.HoldsTree T := hT.holdsTree.congr rfl rfl rfl rfl rfl
    exact ⟨_, _, ((h1.trans h2).trans h3).trans h4, rfl, hh.treeInv rfl s.dropTree.code_dropCodes⟩
  · exact ⟨_, t, h1.trans h2, hf.busy, hf.dropped.treeInv⟩

/-! ## The command -/

theorem goes_hdrrd {s : State} (hr : s.Runs) (m : Bool) (js : List Job) :
    Goes 1 (s.at (.hdrrd m :: js))
      ({ s with seq.got := 0 }.at ((if m then [Job.readMagic] else []) ++ [Job.treeStart] ++ js)) :=
  goes_job s (.hdrrd m) js hr

/-- The magic phase and the tree phase complete the command with a tree that is valid, the old one or a new one, or
with none (R182, R188). -/
theorem goes_magicPhase {s : State} (hr : s.Runs) (ha : s.ports.bitSource.answering = true) (h : s.TreeInv) :
    ∃ n t, Goes n (s.at [.readMagic, .treeStart, .ret]) t ∧ t.flags.busy = false ∧ t.TreeInv := by
  have h1 := goes_job s .readMagic [.treeStart, .ret] hr
  by_cases hlen : s.ports.bitSource.rest.length < 32
  · rw [runJob, runReadMagic, State.bitRead_end (s := s.at [.treeStart, .ret]) ha hlen] at h1
    cases ht : s.ports.bitSource.term with
    | eod =>
      simp only [State.at_ports, ht, endResponse] at h1
      exact ⟨1, _, h1, rfl, h.congr ⟨rfl, rfl, rfl, rfl, rfl⟩ ⟨rfl, rfl⟩⟩
    | err =>
      simp only [State.at_ports, ht, endResponse] at h1
      exact ⟨1, _, h1, rfl, h.congr ⟨rfl, rfl, rfl, rfl, rfl⟩ ⟨rfl, rfl⟩⟩
  · have hx := (List.take_append_drop 32 s.ports.bitSource.rest).symm
    rw [runJob, runReadMagic, State.bitRead_data (s := s.at [.treeStart, .ret]) hr.free ha hx (by simp; omega)] at h1
    dsimp only at h1
    split at h1
    · obtain ⟨n, t, h2, ht⟩ := goes_treePhase
        (s := { s.haveRead [32] (s.ports.bitSource.rest.drop 32) with seq.got := 32 }) ⟨hr.busy, hr.free⟩ ha
      exact ⟨_, t, h1.trans h2, ht⟩
    · exact ⟨1, _, h1, rfl, h.congr ⟨rfl, rfl, rfl, rfl, rfl⟩ ⟨rfl, rfl⟩⟩

/-- A silent source leaves the command at its first request. -/
theorem goes_hdrrd_silent {s : State} (hr : s.Runs) (ha : s.ports.bitSource.answering = false) (m : Bool) :
    ∃ n t, Goes n (s.at [.hdrrd m, .ret]) t ∧ t.flags.busy = true ∧ t.blocked = true := by
  have h1 := goes_hdrrd hr m [.ret]
  cases m with
  | true =>
    have h2 := goes_job { s with seq.got := 0 } .readMagic [.treeStart, .ret] ⟨hr.busy, hr.free⟩
    rw [runJob, runReadMagic, State.bitRead_silent (by exact ha)] at h2
    exact ⟨_, _, h1.trans h2, hr.busy, by simp [State.blocked, State.answering, ha]⟩
  | false =>
    have h2 := goes_treeStart (s := { s with seq.got := 0 }) ⟨hr.busy, hr.free⟩ [.ret]
    have h3 := goes_job (State.treePhase { s with seq.got := 0 }) (.parse .root) [.treeDone, .ret] ⟨hr.busy, hr.free⟩
    rw [runJob, runParse, State.get, State.bitRead_silent (by exact ha)] at h3
    exact ⟨_, _, (h1.trans h2).trans h3, hr.busy, by simp [State.blocked, State.answering, State.treePhase, ha]⟩

/-- A source that answers lets the command complete. -/
theorem goes_hdrrd_answered {s : State} (hr : s.Runs) (ha : s.ports.bitSource.answering = true) (h : s.TreeInv)
    (m : Bool) : ∃ n t, Goes n (s.at [.hdrrd m, .ret]) t ∧ t.flags.busy = false ∧ t.TreeInv := by
  have h1 := goes_hdrrd hr m [.ret]
  cases m with
  | true =>
    obtain ⟨n, t, h2, ht⟩ := goes_magicPhase (s := { s with seq.got := 0 }) ⟨hr.busy, hr.free⟩ ha
      (h.congr ⟨rfl, rfl, rfl, rfl, rfl⟩ ⟨rfl, rfl⟩)
    exact ⟨_, t, h1.trans h2, ht⟩
  | false =>
    obtain ⟨n, t, h2, ht⟩ := goes_treePhase (s := { s with seq.got := 0 }) ⟨hr.busy, hr.free⟩ ha
    exact ⟨_, t, h1.trans h2, ht⟩

theorem treeInv_hdrrd {s t : State} (m : Bool) (h : s.TreeInv) (ht : exec (.hdrrd m) s = .next t)
    (hb : t.flags.busy = false) : t.TreeInv := by
  have hr := accept_runs s (Instr.jobs (.hdrrd m))
  cases ha : s.ports.bitSource.answering with
  | false =>
    obtain ⟨n, u, hg, hu, hw⟩ := goes_hdrrd_silent hr ha m
    exact absurd ((exec_busy_of_blocked ht hg hu hw).symm.trans hb) (by simp)
  | true =>
    obtain ⟨n, u, hg, hu, hinv⟩ := goes_hdrrd_answered hr ha (h.congr ⟨rfl, rfl, rfl, rfl, rfl⟩ ⟨rfl, rfl⟩) m
    exact exec_eq_of_goes ht hb hg hu ▸ hinv

end Sys2Proof.Machine
end

section
/-! SUPPORT. `BUILD`: the queue holds the roots of a forest, whose nodes are the entries written so far (R131, R133). -/

namespace Sys2Proof.Machine

/-! ## Trees in a store that is written -/

theorem State.mem_indices_self (s : State) (i : NodeIx) (T : Tree) : i.toNat ∈ s.indices i T := by
  cases T <;> simp [State.indices]

theorem State.indices_length (s : State) (i : NodeIx) (T : Tree) : (s.indices i T).length = T.size := by
  induction T generalizing i with
  | leaf x => rfl
  | node l r ihl ihr => simp [State.indices, Tree.size, ihl, ihr]; omega

theorem State.node_setNode_of_ne (s : State) {i k : NodeIx} (h : i ≠ k) (n : Node) :
    (s.setNode i n).node k = s.node k := by
  rw [State.node_setNode, if_neg fun hik => h hik.1]

theorem State.node_setNode_self (s : State) {i : NodeIx} (h : i.toNat < 513) (n : Node) :
    (s.setNode i n).node i = n := by
  rw [State.node_setNode, if_pos ⟨rfl, h⟩]

theorem State.indices_setNode {s : State} {i k : NodeIx} {T : Tree} (hi : i.toNat ∉ s.indices k T) (n : Node) :
    (s.setNode i n).indices k T = s.indices k T := by
  induction T generalizing k with
  | leaf x => rfl
  | node l r ihl ihr =>
    simp only [State.indices, List.mem_cons, List.mem_append, not_or] at hi
    obtain ⟨hk, hl, hr⟩ := hi
    have hne : i ≠ k := fun h => hk (h ▸ rfl)
    rw [State.indices, State.indices, s.node_setNode_of_ne hne, ihl hl, ihr hr]

/-- A write of an entry that is not one of a tree's nodes leaves the tree. -/
theorem State.Holds.setNode {s : State} {i k : NodeIx} {T : Tree} (h : s.Holds k T) (hi : i.toNat ∉ s.indices k T)
    (n : Node) : (s.setNode i n).Holds k T := by
  induction T generalizing k with
  | leaf x =>
    simp only [State.indices, List.mem_singleton] at hi
    have hne : i ≠ k := fun h => hi (h ▸ rfl)
    rwa [State.Holds, s.node_setNode_of_ne hne]
  | node l r ihl ihr =>
    simp only [State.indices, List.mem_cons, List.mem_append, not_or] at hi
    obtain ⟨hk, hl, hr⟩ := hi
    have hne : i ≠ k := fun h => hk (h ▸ rfl)
    rw [State.Holds, s.node_setNode_of_ne hne]
    exact ⟨h.1, ihl h.2.1 hl, ihr h.2.2 hr⟩

/-! ## Forests -/

/-- The leaf symbols of the trees `τ` at the roots `q`. -/
def forestSyms (τ : NodeIx → Tree) (q : List NodeIx) : List Symbol := q.flatMap fun i => (τ i).syms

/-- The nodes of the trees `τ` at the roots `q`. -/
def State.forestNodes (s : State) (τ : NodeIx → Tree) (q : List NodeIx) : List Nat :=
  q.flatMap fun i => s.indices i (τ i)

/-- The store holds at each of the roots `q` the tree that `τ` gives; the trees' nodes are the entries `0..n-1`, and
their leaf symbols are distinct and below `x`. -/
structure State.Forest (s : State) (τ : NodeIx → Tree) (q : List NodeIx) (n x : Nat) : Prop where
  holds : ∀ i ∈ q, s.Holds i (τ i)
  nodes : (s.forestNodes τ q).Perm (List.range n)
  nodup : (forestSyms τ q).Nodup
  below : ∀ y ∈ forestSyms τ q, y.toNat < x

namespace State.Forest

variable {s : State} {τ : NodeIx → Tree} {q : List NodeIx} {n x : Nat}

theorem perm (h : s.Forest τ q n x) {q' : List NodeIx} (hq : q.Perm q') : s.Forest τ q' n x where
  holds i hi := h.holds i (hq.mem_iff.2 hi)
  nodes := ((hq.flatMap_right _).symm).trans h.nodes
  nodup := (hq.flatMap_right _).nodup_iff.1 h.nodup
  below y hy := h.below y ((hq.flatMap_right _).mem_iff.2 hy)

theorem congr {t : State} (h : s.Forest τ q n x) (e : s.nodes = t.nodes) : t.Forest τ q n x where
  holds i hi := (h.holds i hi).congr e
  nodes := by
    have : t.forestNodes τ q = s.forestNodes τ q := by
      simp only [State.forestNodes, State.indices_congr e]
    rw [this]; exact h.nodes
  nodup := h.nodup
  below := h.below

/-- Two symbols' worth of nodes for each leaf, but one for each root. -/
theorem count (h : s.Forest τ q n x) : n + q.length = 2 * (forestSyms τ q).length := by
  have hn : (s.forestNodes τ q).length = n := by simpa using h.nodes.length_eq
  rw [← hn]
  clear h hn
  induction q with
  | nil => rfl
  | cons i q ih =>
    have := (τ i).size_eq
    simp only [State.forestNodes, forestSyms, List.flatMap_cons, List.length_append, List.length_cons,
      State.indices_length] at ih ⊢
    omega

theorem length_le (h : s.Forest τ q n x) : (forestSyms τ q).length ≤ x := length_le_of_nodup h.nodup h.below

/-- The next entry is no node of the forest. -/
theorem fresh (h : s.Forest τ q n x) {i k : NodeIx} (hi : i.toNat = n) (hk : k ∈ q) : i.toNat ∉ s.indices k (τ k) := by
  intro hm
  have : n ∈ List.range n := h.nodes.mem_iff.1 (List.mem_flatMap.2 ⟨k, hk, hi ▸ hm⟩)
  simp at this

theorem ne (h : s.Forest τ q n x) {i k : NodeIx} (hi : i.toNat = n) (hk : k ∈ q) : k ≠ i := by
  rintro rfl
  exact h.fresh hi hk (s.mem_indices_self _ _)

/-- The roots `p` of a forest, none or two, are replaced by the next entry, the root of a new tree `T` over them. -/
theorem grow {p : List NodeIx} (h : s.Forest τ (p ++ q) n x) {i : NodeIx} (hi : i.toNat = n) {N : Node} {T : Tree}
    {x' : Nat} (hT : (s.setNode i N).Holds i T)
    (hnodes : ((s.setNode i N).indices i T) = n :: s.forestNodes τ p)
    (hsyms : (T.syms ++ forestSyms τ q).Nodup) (hbelow : ∀ y ∈ T.syms ++ forestSyms τ q, y.toNat < x') :
    (s.setNode i N).Forest (Function.update τ i T) (i :: q) (n + 1) x' := by
  have hmem {k : NodeIx} (hk : k ∈ q) : k ∈ p ++ q := List.mem_append_right p hk
  have hτ {k : NodeIx} (hk : k ∈ q) : Function.update τ i T k = τ k := Function.update_of_ne (h.ne hi (hmem hk)) _ _
  have hs : forestSyms (Function.update τ i T) (i :: q) = T.syms ++ forestSyms τ q := by
    rw [forestSyms, List.flatMap_cons, Function.update_self, forestSyms]
    congr 1
    exact List.flatMap_congr fun k hk => by rw [hτ hk]
  have hn : (s.setNode i N).forestNodes (Function.update τ i T) (i :: q) = n :: s.forestNodes τ (p ++ q) := by
    rw [State.forestNodes, List.flatMap_cons, Function.update_self, hnodes, List.cons_append, State.forestNodes,
      State.forestNodes, List.flatMap_append]
    congr 2
    exact List.flatMap_congr fun k hk => by rw [hτ hk, State.indices_setNode (h.fresh hi (hmem hk))]
  refine ⟨fun k hk => ?_, ?_, hs ▸ hsyms, hs ▸ hbelow⟩
  · obtain rfl | hk := List.mem_cons.1 hk
    · rwa [Function.update_self]
    · rw [hτ hk]
      exact (h.holds k (hmem hk)).setNode (h.fresh hi (hmem hk)) N
  · rw [hn, List.range_succ]
    exact (h.nodes.cons n).trans (List.perm_append_singleton n _).symm

/-- A new leaf. -/
theorem leaf (h : s.Forest τ q n x) (hx : x ≤ 256) {i : NodeIx} (hi : i.toNat = n) (hn : n < 513) (w : Weight) :
    (s.setNode i (leafNode i (BitVec.ofNat 9 x) w)).Forest (Function.update τ i (.leaf (BitVec.ofNat 9 x))) (i :: q)
      (n + 1) (x + 1) := by
  have hself := s.node_setNode_self (hi ▸ hn) (leafNode i (BitVec.ofNat 9 x) w)
  have hx9 : (BitVec.ofNat 9 x).toNat = x := by rw [BitVec.toNat_ofNat]; omega
  refine grow (p := []) h hi ?_ (by simp [State.indices, hi, State.forestNodes]) ?_ ?_
  · rw [State.Holds, hself]
    exact ⟨rfl, rfl⟩
  · rw [Tree.syms, List.singleton_append, List.nodup_cons]
    refine ⟨fun hm => ?_, h.nodup⟩
    have := h.below _ hm
    omega
  · intro y hy
    obtain rfl | hy := List.mem_cons.1 hy
    · omega
    · exact Nat.lt_succ_of_lt (h.below y hy)

/-- Two trees become the subtrees of a new one (R131). -/
theorem merge {a b : NodeIx} (h : s.Forest τ (a :: b :: q) n x) {i : NodeIx} (hi : i.toNat = n) (hn : n < 513)
    (w : Weight) :
    (s.setNode i (internalNode i w a b)).Forest (Function.update τ i (.node (τ a) (τ b))) (i :: q) (n + 1) x := by
  have hself := s.node_setNode_self (hi ▸ hn) (internalNode i w a b)
  have ha : a ∈ a :: b :: q := by simp
  have hb : b ∈ a :: b :: q := by simp
  have hsyms : (Tree.node (τ a) (τ b)).syms ++ forestSyms τ q = forestSyms τ (a :: b :: q) := by
    simp [Tree.syms, forestSyms]
  refine grow (p := [a, b]) h hi ?_ ?_ (hsyms ▸ h.nodup) (hsyms ▸ h.below)
  · rw [State.Holds, hself]
    exact ⟨rfl, (h.holds a ha).setNode (h.fresh hi ha) _, (h.holds b hb).setNode (h.fresh hi hb) _⟩
  · rw [State.indices, hself]
    simp only [internalNode, State.indices_setNode (h.fresh hi ha), State.indices_setNode (h.fresh hi hb), hi]
    simp [State.forestNodes]

end State.Forest

theorem State.insertKey_perm (s : State) (i : NodeIx) (q : List NodeIx) : (s.insertKey i q).Perm (i :: q) := by
  induction q with
  | nil => exact .refl _
  | cons j q ih =>
    rw [State.insertKey]
    split
    · exact .refl _
    · exact (ih.cons j).trans (.swap i j q)

/-! ## The queue -/

/-- `BUILD` while it examines symbol `x` or, with `x = 257`, merges: the queue holds the roots of a forest. -/
structure State.Building (s : State) (τ : NodeIx → Tree) (x : Nat) : Prop where
  runs   : s.Runs
  forest : s.Forest τ s.seq.queue s.seq.next x
  leaves : 2 * s.seq.leaves = s.seq.next + s.seq.queue.length

theorem State.enqueue_queue_length (s : State) (node : NodeIx → Node) :
    (s.enqueue node).seq.queue.length = s.seq.queue.length + 1 :=
  (State.insertKey_perm _ _ _).length_eq

/-- The next entry, once written, goes into the queue. -/
theorem State.Forest.enqueue {s : State} {τ : NodeIx → Tree} {n x : Nat} {node : NodeIx → Node}
    (h : (s.setNode (BitVec.ofNat 10 s.seq.next) (node (BitVec.ofNat 10 s.seq.next))).Forest τ
      (BitVec.ofNat 10 s.seq.next :: s.seq.queue) n x) :
    (s.enqueue node).Forest τ (s.enqueue node).seq.queue n x :=
  (h.perm (State.insertKey_perm _ _ _).symm).congr rfl

theorem State.Building.next_le {s : State} {τ : NodeIx → Tree} {x : Nat} (h : s.Building τ x) :
    s.seq.next + s.seq.queue.length ≤ 2 * x := by
  have := h.forest.count
  have := h.forest.length_le
  omega

theorem State.toNat_next {s : State} (h : s.seq.next < 513) : (BitVec.ofNat 10 s.seq.next).toNat = s.seq.next := by
  rw [BitVec.toNat_ofNat]
  omega

/-- A symbol is examined (R131). -/
theorem State.Building.scanSymbol {s : State} {τ : NodeIx → Tree} {x : Nat} (h : s.Building τ x) (hx : x ≤ 256) :
    ∃ τ', (s.scanSymbol x).Building τ' (x + 1) ∧ (s.freqAt x ≠ 0#32 → (s.scanSymbol x).seq.queue ≠ []) := by
  have hn : s.seq.next < 513 := by have := h.next_le; omega
  rw [State.scanSymbol]
  dsimp only
  split
  · exact ⟨τ, ⟨h.runs, { h.forest with below := fun y hy => Nat.lt_succ_of_lt (h.forest.below y hy) }, h.leaves⟩,
      fun hne => absurd ‹_› hne⟩
  · have hlen := s.enqueue_queue_length fun i => leafNode i (BitVec.ofNat 9 x) ((s.freqAt x).setWidth 41)
    have hf := (h.forest.leaf hx (State.toNat_next hn) hn ((s.freqAt x).setWidth 41)).enqueue
      (node := fun i => leafNode i (BitVec.ofNat 9 x) ((s.freqAt x).setWidth 41))
    refine ⟨_, ⟨⟨h.runs.busy, h.runs.free⟩, hf.congr rfl, ?_⟩, fun _ hnil => ?_⟩
    · show 2 * (s.seq.leaves + 1) = s.seq.next + 1 + _
      rw [hlen, Nat.mul_add, h.leaves]
      omega
    · rw [List.length_eq_zero_iff.2 hnil] at hlen
      omega

theorem State.insertKey_congr {s t : State} (h : s.nodes = t.nodes) (i : NodeIx) (q : List NodeIx) :
    s.insertKey i q = t.insertKey i q := by
  induction q with
  | nil => rfl
  | cons j q ih =>
    have hk : s.keyLe i j = t.keyLe i j := by simp only [State.keyLe, State.node_congr h]
    rw [State.insertKey, State.insertKey, hk, ih]

theorem State.enqueue_at (s : State) (js : List Job) (node : NodeIx → Node) :
    (s.at js).enqueue node = (s.enqueue node).at js := by
  rw [State.enqueue, State.enqueue]
  dsimp only
  rw [State.insertKey_congr (s := State.setNode (s.at js) _ _) (t := s.setNode _ _) rfl]
  rfl

theorem runScan_at (s : State) (x : Nat) (js : List Job) :
    runJob (.scan x) (s.at js) = (s.scanSymbol x).at ((if x < 256 then .scan (x + 1) else .merge) :: js) := by
  rw [runJob, runScan, State.scanSymbol, State.scanSymbol, show (s.at js).freqAt x = s.freqAt x from rfl]
  dsimp only
  rw [State.enqueue_at]
  split <;> rfl

/-- The loop over the symbols: the queue has at least the sentinel's leaf (R131, R138). -/
theorem State.Building.goes_scan {s : State} {τ : NodeIx → Tree} {x : Nat} (h : s.Building τ x) (hx : x ≤ 256)
    (js : List Job) :
    ∃ (n : Nat) (t : State) (τ' : NodeIx → Tree),
      Goes n (s.at (.scan x :: js)) (t.at (.merge :: js)) ∧ t.Building τ' 257 ∧ t.seq.queue ≠ [] := by
  induction hd : 256 - x generalizing s τ x with
  | zero =>
    obtain rfl : x = 256 := by omega
    have h1 := goes_job s (.scan 256) js h.runs
    rw [runScan_at] at h1
    obtain ⟨τ', hb, hq⟩ := h.scanSymbol hx
    exact ⟨1, _, τ', h1, hb, hq (by simp [State.freqAt])⟩
  | succ d ih =>
    have hlt : x < 256 := by omega
    have h1 := goes_job s (.scan x) js h.runs
    rw [runScan_at, if_pos hlt] at h1
    obtain ⟨τ', hb, -⟩ := h.scanSymbol hx
    obtain ⟨n, t, τ'', h2, ht⟩ := ih hb hlt (by omega)
    exact ⟨_, t, τ'', h1.trans h2, ht⟩

/-! ## The merge loop -/

theorem runMerge_two {s : State} {a b : NodeIx} {q : List NodeIx} (hq : s.seq.queue = a :: b :: q) (js : List Job) :
    runJob .merge (s.at js) = (State.enqueue { s with seq.queue := q }
      (fun i => internalNode i ((s.node a).w + (s.node b).w) a b)).at (.merge :: js) := by
  rw [runJob, runMerge, show (s.at js).seq.queue = a :: b :: q from hq]
  exact congrArg (State.push · [.merge]) (State.enqueue_at { s with seq.queue := q } js _)

theorem runMerge_one {s : State} {a : NodeIx} (hq : s.seq.queue = [a]) (js : List Job) :
    runJob .merge (s.at js) = (s.buildDone a).at js := by
  rw [runJob, runMerge, show (s.at js).seq.queue = [a] from hq]
  rfl

/-- A merge keeps the forest. -/
theorem State.Building.merge {s : State} {τ : NodeIx → Tree} (h : s.Building τ 257) {a b : NodeIx} {q : List NodeIx}
    (hq : s.seq.queue = a :: b :: q) (w : Weight) :
    ∃ τ', (State.enqueue { s with seq.queue := q } (fun i => internalNode i w a b)).Building τ' 257 := by
  have hn : s.seq.next < 513 := by have := h.next_le; rw [hq, List.length_cons, List.length_cons] at this; omega
  have hlen : (State.enqueue { s with seq.queue := q } fun i => internalNode i w a b).seq.queue.length = q.length + 1 :=
    State.enqueue_queue_length _ _
  have hf := ((hq ▸ h.forest).merge (State.toNat_next hn) hn w)
  refine ⟨_, ⟨h.runs.busy, h.runs.free⟩, State.Forest.enqueue (hf.congr rfl), ?_⟩
  show 2 * s.seq.leaves = s.seq.next + 1 + _
  rw [hlen, h.leaves, hq, List.length_cons, List.length_cons]
  omega

/-- The last tree of the queue is the block's tree (R131, R133). -/
theorem State.Building.holdsTree {s : State} {τ : NodeIx → Tree} (h : s.Building τ 257) {a : NodeIx}
    (hq : s.seq.queue = [a]) : (s.buildDone a).HoldsTree (τ a) := by
  have hf := h.forest
  rw [hq] at hf
  have hsyms : forestSyms τ [a] = (τ a).syms := by simp [forestSyms]
  have hnodes : s.forestNodes τ [a] = s.indices a (τ a) := by simp [State.forestNodes]
  have hlegal : (τ a).Legal :=
    ⟨hsyms ▸ hf.nodup, fun y hy => Nat.le_of_lt_succ (hf.below y (hsyms ▸ hy))⟩
  have hsize : s.seq.next = (τ a).size := by
    have := hf.nodes.length_eq
    rw [hnodes, State.indices_length, List.length_range] at this
    exact this.symm
  have hleaves : s.seq.leaves = (τ a).syms.length := by
    have h1 := h.leaves
    have h2 := (τ a).size_eq
    rw [hq, List.length_singleton] at h1
    omega
  have := hlegal.size_le
  have := hlegal.length_le
  exact
    { valid := rfl
      holds := (hf.holds a (by simp)).congr rfl
      legal := hlegal
      nodeCount := by
        show (BitVec.ofNat 10 s.seq.next).toNat = _
        rw [BitVec.toNat_ofNat]; omega
      leafCount := by
        show (BitVec.ofNat 9 s.seq.leaves).toNat = _
        rw [BitVec.toNat_ofNat]; omega
      indices := by
        rw [← hsize, State.indices_congr (s := s.buildDone a) (t := s) rfl]
        exact hnodes ▸ hf.nodes }

/-- The merge loop ends with one tree (R131). -/
theorem State.Building.goes_merge {s : State} {τ : NodeIx → Tree} (h : s.Building τ 257) (hq : s.seq.queue ≠ [])
    (js : List Job) :
    ∃ (n : Nat) (t : State) (τ' : NodeIx → Tree) (a : NodeIx),
      Goes n (s.at (.merge :: js)) ((t.buildDone a).at js) ∧ t.Building τ' 257 ∧ t.seq.queue = [a] := by
  induction hd : s.seq.queue.length generalizing s τ with
  | zero => exact absurd (List.length_eq_zero_iff.1 hd) hq
  | succ d ih =>
    have h1 := goes_job s .merge js h.runs
    match hq' : s.seq.queue with
    | [] => exact absurd hq' hq
    | [a] =>
      rw [runMerge_one hq'] at h1
      exact ⟨1, s, τ, a, h1, h, hq'⟩
    | a :: b :: q =>
      rw [runMerge_two hq'] at h1
      obtain ⟨τ', hb⟩ := h.merge hq' ((s.node a).w + (s.node b).w)
      have hlen : (State.enqueue { s with seq.queue := q } fun i =>
          internalNode i ((s.node a).w + (s.node b).w) a b).seq.queue.length = q.length + 1 :=
        State.enqueue_queue_length _ _
      rw [hq', List.length_cons, List.length_cons] at hd
      obtain ⟨n, t, τ'', r, h2, ht⟩ := ih hb (by rintro hnil; rw [hnil] at hlen; cases hlen) (hlen.trans (by omega))
      exact ⟨_, t, τ'', r, h1.trans h2, ht⟩

/-! ## The command -/

theorem treeInv_build {s t : State} (ht : exec .build s = .next t) (hb : t.flags.busy = false) : t.TreeInv := by
  have h0 : (s.accept (Instr.jobs .build)).Building (fun _ => .leaf 0) 0 :=
    ⟨accept_runs s _, ⟨nofun, .refl _, List.nodup_nil, nofun⟩, rfl⟩
  obtain ⟨n, u, τ, h1, hu, hq⟩ := h0.goes_scan (Nat.zero_le _) [.ret]
  obtain ⟨m, v, τ', a, h2, hv, hq'⟩ := hu.goes_merge hq [.ret]
  have h3 := goes_ret (v.buildDone a) ⟨hv.runs.busy, hv.runs.free⟩
  rw [exec_eq_of_goes ht hb ((h1.trans h2).trans h3) rfl]
  have hh : (v.buildDone a).complete.HoldsTree (τ' a) := (hv.holdsTree hq').congr rfl rfl rfl rfl rfl
  exact hh.treeInv rfl (State.code_dropCodes _)

/-- Settles O22: a command that writes neither tree nor codes keeps them; `CLEAR` leaves none,
`GENCODES` writes the codes of the tree, `HDRRD` reads a tree or leaves none, and `BUILD` makes one
of its forest. -/
theorem commandsKeepTreeAndCodeValidity : Obligations.CommandsKeepTreeAndCodeValidity := by
  intro i s t h ht hb
  cases i with
  | clear => exact treeInv_clear ht hb
  | build => exact treeInv_build ht hb
  | gencodes => exact treeInv_gencodes h ht hb
  | hdrrd m => exact treeInv_hdrrd m h ht hb
  | _ => exact treeInv_of_not_writes h ht (by simp) (by simp)

end Sys2Proof.Machine
end

section
/-! SUPPORT. Which ports a command reaches: a job makes requests only to the ports it uses, and leads only to jobs that
use no others. -/

namespace Sys2Proof.Machine

/-! ## Ports that are left alone -/

/-- Between `s` and `t` no port outside of `W` was reached. -/
structure State.Reached (W : List Port) (s t : State) : Prop where
  bitSource  : .bitSource ∉ W → t.ports.bitSource = s.ports.bitSource
  bitSink    : .bitSink ∉ W → t.ports.bitSink = s.ports.bitSink
  byteSource : .byteSource ∉ W → t.ports.byteSource = s.ports.byteSource
  byteSink   : .byteSink ∉ W → t.ports.byteSink = s.ports.byteSink
  none       : W = [] → t.ports = s.ports ∧ t.draws = s.draws

namespace State.Reached

variable {W : List Port} {s t u : State}

/-- What leaves ports and draws as they are reaches no port. -/
theorem of_eq (hp : t.ports = s.ports) (hd : t.draws = s.draws) : State.Reached W s t where
  bitSource _ := congrArg Ports.bitSource hp
  bitSink _ := congrArg Ports.bitSink hp
  byteSource _ := congrArg Ports.byteSource hp
  byteSink _ := congrArg Ports.byteSink hp
  none _ := ⟨hp, hd⟩

theorem trans (h : State.Reached W s t) (h' : State.Reached W t u) : State.Reached W s u where
  bitSource hn := (h'.bitSource hn).trans (h.bitSource hn)
  bitSink hn := (h'.bitSink hn).trans (h.bitSink hn)
  byteSource hn := (h'.byteSource hn).trans (h.byteSource hn)
  byteSink hn := (h'.byteSink hn).trans (h.byteSink hn)
  none hW := ⟨(h'.none hW).1.trans (h.none hW).1, (h'.none hW).2.trans (h.none hW).2⟩

theorem refl (W : List Port) (s : State) : State.Reached W s s := of_eq rfl rfl

/-- A request, and then what reaches no port. -/
theorem congr (h : State.Reached W s t) (hp : u.ports = t.ports) (hd : u.draws = t.draws) : State.Reached W s u :=
  h.trans (of_eq hp hd)

theorem push (h : State.Reached W s t) (js : List Job) : State.Reached W s (t.push js) := h.congr rfl rfl

theorem raise (h : State.Reached W s t) (e : Err) (v : Word) : State.Reached W s (t.raise e v) := h.congr rfl rfl

theorem raiseDec (h : State.Reached W s t) (e : Err) (v : Word) : State.Reached W s (t.raiseDec e v) := h.congr rfl rfl

theorem seq (h : State.Reached W s t) (q : Seq) : State.Reached W s { t with seq := q } := h.congr rfl rfl

theorem link (h : State.Reached W s t) (k : Link) (i : NodeIx) : State.Reached W s (t.link k i) := by
  cases k <;> exact h.congr rfl rfl

theorem mono {W' : List Port} (h : State.Reached W s t) (hW : W ⊆ W') : State.Reached W' s t where
  bitSource hn := h.bitSource fun hm => hn (hW hm)
  bitSink hn := h.bitSink fun hm => hn (hW hm)
  byteSource hn := h.byteSource fun hm => hn (hW hm)
  byteSink hn := h.byteSink fun hm => hn (hW hm)
  none hW' := h.none (List.subset_nil.1 (hW' ▸ hW))

end State.Reached

/-! ## The requests -/

section

variable {s t : State}

theorem State.bitRead_reached {n : Nat} {r : Response Nat} (h : s.bitRead n = some (r, t)) :
    State.Reached [.bitSource] s t := by
  rw [State.bitRead] at h
  split at h
  · split at h <;> cases h <;>
      exact ⟨fun hn => absurd (by simp) hn, fun _ => rfl, fun _ => rfl, fun _ => rfl, nofun⟩
  · cases h

theorem State.byteRead_reached {r : Response Byte} (h : s.byteRead = some (r, t)) :
    State.Reached [.byteSource] s t := by
  rw [State.byteRead] at h
  split at h
  · split at h <;> cases h <;>
      exact ⟨fun _ => rfl, fun _ => rfl, fun hn => absurd (by simp) hn, fun _ => rfl, nofun⟩
  · cases h

theorem State.bitWrite_reached {n v : Nat} {r : Reply} (h : s.bitWrite n v = some (r, t)) :
    State.Reached [.bitSink] s t := by
  rw [State.bitWrite] at h
  split at h
  · split at h <;> cases h <;>
      exact ⟨fun _ => rfl, fun hn => absurd (by simp) hn, fun _ => rfl, fun _ => rfl, nofun⟩
  · cases h

theorem State.byteWrite_reached {b : Byte} {r : Reply} (h : s.byteWrite b = some (r, t)) :
    State.Reached [.byteSink] s t := by
  rw [State.byteWrite] at h
  split at h
  · split at h <;> cases h <;>
      exact ⟨fun _ => rfl, fun _ => rfl, fun _ => rfl, fun hn => absurd (by simp) hn, nofun⟩
  · cases h

theorem State.flushBitSink_reached {r : Reply} (h : s.flushBitSink = some (r, t)) :
    State.Reached [.bitSink] s t := by
  rw [State.flushBitSink] at h
  split at h
  · cases h
    exact ⟨fun _ => rfl, fun hn => absurd (by simp) hn, fun _ => rfl, fun _ => rfl, nofun⟩
  · cases h

theorem State.flushByteSink_reached {r : Reply} (h : s.flushByteSink = some (r, t)) :
    State.Reached [.byteSink] s t := by
  rw [State.flushByteSink] at h
  split at h
  · cases h
    exact ⟨fun _ => rfl, fun _ => rfl, fun _ => rfl, fun hn => absurd (by simp) hn, nofun⟩
  · cases h

end

/-! ## The jobs -/

section

variable (s : State) (W : List Port)

theorem reached_encode (x : Symbol) : State.Reached W s (s.encode x) := by
  rw [State.encode]
  split <;> exact .of_eq rfl rfl

theorem reached_runPut (n v : Nat) : State.Reached [.bitSink] s (runPut n v s) := by
  rw [runPut]
  split
  · exact .of_eq rfl rfl
  · exact State.bitWrite_reached ‹_›
  · exact (State.bitWrite_reached ‹_›).raise _ _

theorem reached_scanSymbol (x : Nat) : State.Reached W s (s.scanSymbol x) := by
  rw [State.scanSymbol]
  dsimp only
  split <;> exact .of_eq rfl rfl

theorem reached_runReadMagic : State.Reached [.bitSource] s (runReadMagic s) := by
  rw [runReadMagic]
  split
  · exact .of_eq rfl rfl
  · exact (State.bitRead_reached ‹_›).raise _ _
  · exact (State.bitRead_reached ‹_›).raise _ _
  · split
    · exact (State.bitRead_reached ‹_›).seq _
    · exact (State.bitRead_reached ‹_›).raise _ _

/-- A read of the tree phase reaches the bit source, if the use of its value reaches no other port. -/
theorem reached_get {use : Nat → State → State} (k : Nat) (j : Job)
    (hu : ∀ v t, State.Reached [.bitSource] t (use v t)) : State.Reached [.bitSource] s (s.get k j use) := by
  rw [State.get]
  split
  · exact .of_eq rfl rfl
  · exact (State.bitRead_reached ‹_›).raise _ _
  · exact (State.bitRead_reached ‹_›).raise _ _
  · exact ((State.bitRead_reached ‹_›).seq _).trans (hu _ _)

theorem reached_parseNode (l : Link) (b : Nat) : State.Reached W s (parseNode l b s) := by
  have hl : State.Reached W s (State.link { s with seq.next := s.seq.next + 1 } l (BitVec.ofNat 10 s.seq.next)) :=
    ((State.Reached.refl W s).seq _).link _ _
  rw [parseNode]
  dsimp only
  split
  · exact hl.push _
  · split
    · exact hl.raise _ _
    · exact hl.congr rfl rfl

theorem reached_parseSym (i : NodeIx) (v : Nat) : State.Reached W s (parseSym i v s) := by
  rw [parseSym]
  dsimp only
  split
  · exact .of_eq rfl rfl
  · split <;> exact .of_eq rfl rfl

theorem reached_runEncByte (b : Bool) : State.Reached [.byteSource] s (runEncByte b s) := by
  rw [runEncByte]
  split
  · exact .of_eq rfl rfl
  · exact (State.byteRead_reached ‹_›).raise _ _
  · split
    · exact (State.byteRead_reached ‹_›).trans (reached_encode _ _ _)
    · exact State.byteRead_reached ‹_›
  · exact ((State.byteRead_reached ‹_›).push _).trans (reached_encode _ _ _)

theorem reached_runDescend (b : Bool) (i : NodeIx) (m : Bool) : State.Reached [.bitSource] s (runDescend b i m s) := by
  rw [runDescend]
  split
  · split
    · rw [State.gotStreamSymbol]
      split <;> exact .of_eq rfl rfl
    · exact .of_eq rfl rfl
  · split
    · exact .of_eq rfl rfl
    · exact (State.bitRead_reached ‹_›).raiseDec _ _
    · exact (State.bitRead_reached ‹_›).raiseDec _ _
    · exact (State.bitRead_reached ‹_›).push _

theorem reached_runPutByte (b : Byte) : State.Reached [.byteSink] s (runPutByte b s) := by
  rw [runPutByte]
  split
  · exact .of_eq rfl rfl
  · exact State.byteWrite_reached ‹_›
  · exact (State.byteWrite_reached ‹_›).raiseDec _ _

theorem reached_runFlushBits : State.Reached [.bitSink] s (runFlushBits s) := by
  rw [runFlushBits]
  split
  · exact .of_eq rfl rfl
  · exact State.flushBitSink_reached ‹_›
  · exact (State.flushBitSink_reached ‹_›).raise _ _

theorem reached_runFlushBytes : State.Reached [.byteSink] s (runFlushBytes s) := by
  rw [runFlushBytes]
  split
  · exact .of_eq rfl rfl
  · exact State.flushByteSink_reached ‹_›
  · exact (State.flushByteSink_reached ‹_›).raise _ _

/-- A job reaches no port but those it uses. -/
theorem reached_runJob (j : Job) : State.Reached j.uses s (runJob j s) := by
  cases j with
  | ret | illegal v | clear | codesDone | hdrrd m | treeStart | treeDone => exact .of_eq rfl rfl
  | put n v => exact reached_runPut s n v
  | scan x => exact (reached_scanSymbol s _ x).push _
  | merge => rw [runJob, runMerge]; split <;> exact .of_eq rfl rfl
  | gencodes => rw [runJob, runGencodes]; split <;> exact .of_eq rfl rfl
  | walk i p => rw [runJob, runWalk]; split <;> exact .of_eq rfl rfl
  | hdrwr m => rw [runJob, runHdrwr]; split <;> exact .of_eq rfl rfl
  | emit i => rw [runJob, runEmit]; split <;> exact .of_eq rfl rfl
  | readMagic => exact reached_runReadMagic s
  | parse l => exact reached_get s 1 _ fun b t => reached_parseNode t _ l b
  | leafSym i => exact reached_get s 9 _ fun v t => reached_parseSym t _ i v
  | encsym x =>
    rw [runJob, runEncsym]
    split
    · exact reached_encode s _ x
    · exact .of_eq rfl rfl
  | encstream b => rw [runJob, runEncstream]; split <;> exact .of_eq rfl rfl
  | encByte b => exact (reached_runEncByte s b).mono (by simp [Job.uses])
  | decode b => rw [runJob, runDecode]; split <;> exact .of_eq rfl rfl
  | decode1 b => rw [runJob, runDecode1]; split <;> exact .of_eq rfl rfl
  | descend b i m => exact (reached_runDescend s b i m).mono (by cases b <;> simp [Job.uses])
  | putByte b => exact reached_runPutByte s b
  | flushBits => exact reached_runFlushBits s
  | flushBytes => exact reached_runFlushBytes s

end

/-! ## The commands -/

/-- The ports that a command uses, by the jobs that it is accepted with (R302). -/
def Instr.uses (i : Instr) : List Port := (Instr.jobs i).flatMap Job.uses

@[simp] theorem Instr.bitSource_mem_uses (i : Instr) :
    .bitSource ∈ Instr.uses i ↔ (∃ m, i = .hdrrd m) ∨ i = .decsym ∨ i = .decstream := by
  cases i with
  | flush k y => cases k <;> cases y <;> simp [Instr.uses, Instr.jobs, Job.uses]
  | _ => simp [Instr.uses, Instr.jobs, Job.uses]

@[simp] theorem Instr.bitSink_mem_uses (i : Instr) :
    .bitSink ∈ Instr.uses i ↔
      (∃ m, i = .hdrwr m) ∨ (∃ x, i = .encsym x) ∨ (∃ b, i = .encstream b) ∨ ∃ y, i = .flush true y := by
  cases i with
  | flush k y => cases k <;> cases y <;> simp [Instr.uses, Instr.jobs, Job.uses]
  | _ => simp [Instr.uses, Instr.jobs, Job.uses]

@[simp] theorem Instr.byteSource_mem_uses (i : Instr) : .byteSource ∈ Instr.uses i ↔ ∃ b, i = .encstream b := by
  cases i with
  | flush k y => cases k <;> cases y <;> simp [Instr.uses, Instr.jobs, Job.uses]
  | _ => simp [Instr.uses, Instr.jobs, Job.uses]

@[simp] theorem Instr.byteSink_mem_uses (i : Instr) :
    .byteSink ∈ Instr.uses i ↔ i = .decstream ∨ ∃ k, i = .flush k true := by
  cases i with
  | flush k y => cases k <;> cases y <;> simp [Instr.uses, Instr.jobs, Job.uses]
  | _ => simp [Instr.uses, Instr.jobs, Job.uses]

/-- From `s`, only ports in `W` have been reached, and what `t` has still to do uses no others. -/
structure State.Confined (W : List Port) (s t : State) : Prop where
  jobs    : ∀ j ∈ t.seq.jobs, j.uses ⊆ W
  reached : State.Reached W s t

theorem State.Confined.advance {W : List Port} {s u : State} (h : State.Confined W s u) :
    State.Confined W s (advance u) := by
  obtain ⟨hjobs, hreached⟩ := h
  cases hu : u.seq.jobs with
  | nil => rw [Machine.advance, hu]; exact ⟨hjobs, hreached⟩
  | cons j js =>
    rw [advance_eq hu]
    have hj : j.uses ⊆ W := hjobs j (by simp [hu])
    refine ⟨fun k hk => ?_, (hreached.seq _).trans ((reached_runJob (u.at js) j).mono hj)⟩
    obtain hc | he := moves_runJob (u.at js) j
    · obtain ⟨ks, hks, hseq⟩ := hc.jobs
      rw [hseq, List.mem_append] at hk
      obtain hk | hk := hk
      · exact List.Subset.trans (hks.uses hk) hj
      · exact hjobs k (by rw [hu]; exact List.mem_cons_of_mem _ hk)
    · rw [he.seq] at hk
      cases hk

/-- A command reaches no port but those it uses. -/
theorem exec_reached {i : Instr} {s t : State} (h : exec i s = .next t) : State.Reached (Instr.uses i) s t :=
  have haccept : State.Confined (Instr.uses i) s (s.accept (Instr.jobs i)) :=
    ⟨fun j hj _ hp => List.mem_flatMap.2 ⟨j, hj, hp⟩, .of_eq rfl rfl⟩
  (exec_keeps (fun _ hu _ _ => hu.advance) haccept h).reached

/-- Settles O28: from the ports that the jobs of each command use. -/
theorem commandsLeaveOtherPortsAlone : Obligations.CommandsLeaveOtherPortsAlone := by
  intro i s t h
  have hr := exec_reached h
  refine ⟨fun hh hd hs => hr.bitSource (by simp [hh, hd, hs]),
    fun hh hx hb hf => hr.bitSink (by simp [hh, hx, hb, hf]),
    fun hb => hr.byteSource (by simp [hb]),
    fun hd hf => hr.byteSink (by simp [hd, hf]), ?_⟩
  rintro (rfl | rfl | rfl | rfl) <;> exact hr.none rfl

end Sys2Proof.Machine
end

section
/-! SUPPORT. The host's accesses while the block is busy, accesses that do not exist, and the steps in which no access
comes. -/

namespace Sys2Proof.Machine

/-! ## When an action comes -/

/-- The action of an event that is due: the block is idle, or no position is left before it (log entry 2). -/
theorem step_of_due {s : State} {e : Event} {es : List Event} (he : s.events = e :: es)
    (hd : s.flags.busy = true → e.after = some 0) : step s = act e.what { s with events := es } := by
  cases hb : s.flags.busy with
  | false => exact step_of_idle hb he
  | true =>
    rw [step, turn, he]
    simp [hb, hd hb]

/-- With no access to come before the completion, a busy block runs on. -/
theorem step_runOn {s : State} (hb : s.flags.busy = true) (he : ∀ e es, s.events = e :: es → e.after = none) :
    step s = .next s.runOn := by
  rw [step, turn]
  split
  · rw [if_pos hb]
  · rename_i e es h
    rw [if_pos hb, he e es h]

/-- The block with the action `e` to come next, and now, with `es` after it. -/
def State.due (s : State) (e : Event) (es : List Event) : State :=
  { s with events := { after := some 0, what := e.what } :: es }

/-- With an access to come after `n + 1` positions, a busy block goes on to there, and the access is then due. -/
theorem step_until_due {s : State} {e : Event} {es : List Event} {n : Nat} (hb : s.flags.busy = true)
    (he : s.events = e :: es) (ha : e.after = some (n + 1)) :
    step s = .next (run (n + 1) (s.due e es)) := by
  rw [step, turn, he]
  simp [hb, ha, State.due]

/-! ## Accesses -/

/-- Settles O15: neither a read nor a write of such an access is legal. -/
theorem onlyAlignedWordAccessesExist : Obligations.OnlyAlignedWordAccessesExist := by
  intro s e es off width v he hd ha hbad
  have hl : ¬ legalAccess off width = true := by
    simp only [legalAccess, Bool.and_eq_true, decide_eq_true_eq]
    omega
  rw [step_of_due he hd]
  obtain ha | ha := ha <;> rw [ha, act]
  · rw [if_neg hl]
  · rw [hostWrite, if_neg hl]

/-- Settles O10: the write is due, and the busy block drops it. -/
theorem busyWriteIsDropped : Obligations.BusyWriteIsDropped := by
  intro s es off v hb ho h4 he
  rw [step_of_due he fun _ => rfl, act, hostWrite, if_pos (legalAccess_word ho h4), if_pos hb]
  rfl

theorem State.readBusy_status_busy (s : State) (any : Word) : (s.readBusy 0x00C any).getLsbD 0 = true := by
  simp [State.readBusy]

/-- Settles O11: the read is due, and only its word and the draw counter are written. -/
theorem busyReadsReturnOnlyWhatIsDefined : Obligations.BusyReadsReturnOnlyWhatIsDefined := by
  intro s es off hb ho h4 he
  refine ⟨s.readBusy off (Config.freeWord s.draws), ?step, ?id, ?ctrl, ?status, ?magic⟩
  case step =>
    rw [step_of_due he fun _ => rfl, act, if_pos (legalAccess_word ho h4), State.hostRead, if_pos hb]
    rfl
  case status => rintro rfl; exact s.readBusy_status_busy _
  all_goals rintro rfl; rfl

/-! ## A command accepted before the next access -/

theorem State.early_of_after {s : State} {e : Event} {es : List Event} {n : Nat} (he : s.events = e :: es)
    (ha : e.after = some n) : s.early = true := by
  obtain ⟨after, what⟩ := e
  obtain rfl : after = some n := ha
  rw [State.early, he]

/-- A write of `CMD` to an idle block launches the word (R34). -/
theorem step_launch {s : State} {e : Event} {es : List Event} {w : Word} (hb : s.flags.busy = false)
    (he : s.events = e :: es) (ha : e.what = .write 0x004 4 w) : step s = launch w { s with events := es } := by
  rw [step_of_idle hb he, ha, act, hostWrite, if_pos (by decide), if_neg (by simp [hb]), if_pos rfl]

theorem launch_early_command {s : State} {w : Word} {i : Instr} (hs : s.early = true) (hd : decode w = .command i) :
    launch w s = .next (start i s) := by
  rw [launch, hd]
  simp [hs]

theorem launch_early_illegal {s : State} {w : Word} {why : IllegalReason} (hs : s.early = true)
    (hd : decode w = .illegal why) : launch w s = .next (beginIllegal w s) := by
  rw [launch, hd]
  simp [hs]

/-- Settles O8: the word is launched with an access to come, so it is only accepted. -/
theorem acceptedCommandIsSeenBusy : Obligations.AcceptedCommandIsSeenBusy := by
  intro s e e' es n w hb he ha ha'
  have hearly : ({ s with events := e' :: es } : State).early = true := State.early_of_after rfl ha'
  rw [step_launch hb he ha]
  refine ⟨fun i => launch_early_command hearly, fun why => launch_early_illegal hearly, ?_⟩
  cases hd : decode w with
  | command i =>
    rw [launch_early_command hearly hd, start_eq_accept]
    exact ⟨_, rfl, Instr.jobs_ne_nil i⟩
  | illegal why =>
    rw [launch_early_illegal hearly hd]
    exact ⟨_, rfl, List.cons_ne_nil _ _⟩

/-! ## Steps without an access -/

/-- A request is outstanding at a port that does not answer (R86). -/
theorem State.blocked_of_silent {s : State} {p : Port} (hp : s.seq.outstanding = some p)
    (hs : s.answering p = false) : s.blocked = true := by
  rw [State.blocked, hp]
  simp [hs]

theorem State.not_blocked_of_answering {s : State} (h : ∀ p, s.seq.outstanding = some p → s.answering p = true) :
    s.blocked = false := by
  rw [State.blocked]
  split
  · rfl
  · rename_i p hp
    simp [h p hp]

theorem run_succ_of_runs {s : State} (hb : s.flags.busy = true) (hs : s.blocked = false) (n : Nat) :
    run (n + 1) s = run n (advance s) := by
  rw [run, if_pos (by simp [hb, hs])]

/-- A step takes at least one position (log entry 1). -/
theorem State.burst_pos (s : State) : 0 < s.burst := by
  rw [State.burst]
  omega

theorem advance_events (s : State) : (advance s).events = s.events := by
  cases hs : s.seq.jobs with
  | nil => rw [advance, hs]
  | cons j js => rw [advance_eq hs]; exact (frame_runJob (s.at js) j).events

/-- The sequencer takes nothing of what is still to come. -/
theorem run_events (n : Nat) (s : State) : (run n s).events = s.events :=
  run_keeps (P := fun t => t.events = s.events) (fun t ht _ _ => (advance_events t).trans ht) n rfl

/-- Settles O17: an idle block has nothing to do, a blocked run stays where it is, and any other takes its first
position. -/
theorem nothingMovesWithoutAnActionOrAnAnswer : Obligations.NothingMovesWithoutAnActionOrAnAnswer := by
  intro s
  refine ⟨fun hb he => ?idle, fun hb he => ⟨fun p hp hs => ?waits, fun ha => ?moves⟩, fun hb e es n he ha => ?comes⟩
  case idle =>
    rw [step, turn, he]
    simp [hb]
  case waits => rw [step_runOn hb he, State.runOn, run_of_blocked s (State.blocked_of_silent hp hs)]
  case moves =>
    obtain ⟨k, hk⟩ := Nat.exists_eq_succ_of_ne_zero s.burst_pos.ne'
    refine ⟨k, ?_, (run_events k _).trans (advance_events s)⟩
    rw [step_runOn hb he, State.runOn, hk, run_succ_of_runs hb (State.not_blocked_of_answering ha)]
  case comes =>
    have hstep : step s = .next (run (n + 1) (s.due e es)) := step_until_due hb he ha
    refine ⟨fun p hp hs => ?_, fun hans => ⟨?_, (run_events n _).trans (advance_events (s.due e es))⟩⟩
    · rw [hstep, run_of_blocked _ (State.blocked_of_silent (s := s.due e es) hp hs)]
      rfl
    · rw [hstep, run_succ_of_runs (s := s.due e es) hb (State.not_blocked_of_answering (s := s.due e es) hans)]
      rfl

end Sys2Proof.Machine
end

section
/-! SUPPORT. The decoder and the encoder, field by field and under the masks of the opcode map (R100-R107). -/

namespace Sys2Proof.Machine

/-! ## Fields and masks -/

/-- The mask of the `n` bits from bit `lo` on. -/
def fieldMask (lo n : Nat) : Word := (BitVec.allOnes n).setWidth 32 <<< lo

theorem getLsbD_fieldMask (lo n k : Nat) :
    (fieldMask lo n).getLsbD k = decide (k < 32 ∧ lo ≤ k ∧ k < lo + n) := by
  simp only [fieldMask, BitVec.getLsbD_shiftLeft, BitVec.getLsbD_setWidth, BitVec.getLsbD_allOnes]
  grind

/-- Under its mask a word is the field, in its place. -/
theorem and_fieldMask (v : Word) (lo n : Nat) :
    v &&& fieldMask lo n = (v.extractLsb' lo n).setWidth 32 <<< lo := by
  apply BitVec.eq_of_getLsbD_eq
  intro k hk
  simp only [BitVec.getLsbD_and, getLsbD_fieldMask, BitVec.getLsbD_shiftLeft, BitVec.getLsbD_setWidth,
    BitVec.getLsbD_extractLsb']
  grind

theorem extractLsb'_eq_zero_iff (v : Word) (lo n : Nat) :
    v.extractLsb' lo n = 0#n ↔ v &&& fieldMask lo n = 0#32 := by
  refine ⟨fun hz => by rw [and_fieldMask, hz]; simp, fun hz => ?_⟩
  apply BitVec.eq_of_getLsbD_eq
  intro k hk
  have := congrArg (BitVec.getLsbD · (lo + k)) hz
  simp only [BitVec.getLsbD_and, getLsbD_fieldMask] at this
  grind

/-- A word is what two complementary masks let through. -/
theorem and_or_and_not (v m : Word) : v &&& m ||| v &&& ~~~m = v := by
  rw [← BitVec.and_or_distrib_left, BitVec.or_not_self, BitVec.and_allOnes]

theorem and_flag (v : Word) (n : Nat) : v &&& 1#32 <<< n = flagAt n (v.getLsbD n) := by
  rw [flagAt, ← BitVec.twoPow_eq, BitVec.and_twoPow]

theorem extractLsb'_setWidth_shiftLeft {lo n : Nat} (h : lo + n ≤ 32) (x : BitVec n) :
    (x.setWidth 32 <<< lo).extractLsb' lo n = x := by
  apply BitVec.eq_of_getLsbD_eq
  intro k hk
  simp only [BitVec.getLsbD_extractLsb', BitVec.getLsbD_shiftLeft, BitVec.getLsbD_setWidth]
  grind

theorem opField_eq (v : Word) : opField v = v.toNat % 256 := by
  simp [opField]

theorem opField_eq_and (v : Word) : opField v = (v &&& 0xFF#32).toNat := by
  rw [opField_eq, BitVec.toNat_and]
  exact (Nat.and_two_pow_sub_one_eq_mod v.toNat 8).symm

theorem symField_toNat (v : Word) : (symField v).toNat = (v >>> 16).toNat % 512 := by
  rw [symField, BitVec.extractLsb'_toNat, BitVec.toNat_ushiftRight]

/-- The opcode and the must-be-zero bits together are the bits under the mask of the opcode map (R103). -/
theorem and_mask_of_fields {v hi c : Word} (hop : opField v = c.toNat) (hhi : v &&& hi = 0#32) :
    v &&& (0xFF#32 ||| hi) = c := by
  rw [BitVec.and_or_distrib_left, hhi, BitVec.or_zero]
  exact BitVec.eq_of_toNat_eq (opField_eq_and v ▸ hop)

/-! ## The word of a command, from its bits under the mask and its fields -/

theorem match_eq_of_masked {v c : Word} (h : v &&& 0xFFFFFFFF#32 = c) : c = v := by
  rw [← h]
  exact BitVec.and_allOnes

theorem match_or_flag_of_masked {v c : Word} (h : v &&& 0xFFFFFEFF#32 = c) : c ||| flagAt 8 (v.getLsbD 8) = v := by
  rw [← h, ← and_flag]
  exact and_or_and_not v 0xFFFFFEFF#32

theorem match_or_flags_of_masked {v c : Word} (h : v &&& 0xFFFFFCFF#32 = c) :
    c ||| flagAt 8 (v.getLsbD 8) ||| flagAt 9 (v.getLsbD 9) = v := by
  rw [← h, ← and_flag, ← and_flag, BitVec.or_assoc, ← BitVec.and_or_distrib_left]
  exact and_or_and_not v 0xFFFFFCFF#32

theorem match_or_symField_of_masked {v c : Word} (h : v &&& 0xFE00FFFF#32 = c) :
    c ||| (symField v).setWidth 32 <<< 16 = v := by
  rw [← h, symField, ← and_fieldMask]
  exact and_or_and_not v 0xFE00FFFF#32

/-! ## The four formats (R101) -/

theorem ite_illegal_eq_command {p : Prop} [Decidable p] {d : Decoded} {why : IllegalReason} {j : Instr} :
    (if p then d else .illegal why) = .command j ↔ p ∧ d = .command j := by
  split <;> simp [*]

section Formats

variable {v : Word} {j : Instr}

theorem decodeN_eq_command {i : Instr} : decodeN v i = .command j ↔ v &&& 0xFFFFFF00#32 = 0#32 ∧ i = j := by
  rw [decodeN, ite_illegal_eq_command, extractLsb'_eq_zero_iff, Decoded.command.injEq]
  rfl

theorem decodeF_eq_command {i : Bool → Instr} :
    decodeF v i = .command j ↔ v &&& 0xFFFFFE00#32 = 0#32 ∧ i (v.getLsbD 8) = j := by
  rw [decodeF, ite_illegal_eq_command, extractLsb'_eq_zero_iff, Decoded.command.injEq]
  rfl

theorem decodeF2_eq_command {i : Bool → Bool → Instr} :
    decodeF2 v i = .command j ↔ v &&& 0xFFFFFC00#32 = 0#32 ∧ i (v.getLsbD 8) (v.getLsbD 9) = j := by
  rw [decodeF2, ite_illegal_eq_command, extractLsb'_eq_zero_iff, Decoded.command.injEq]
  rfl

theorem decodeS_eq_command {i : Symbol → Instr} :
    decodeS v i = .command j ↔
      v &&& 0xFE00FF00#32 = 0#32 ∧ (symField v).toNat ≤ 256 ∧ i (symField v) = j := by
  rw [decodeS, ite_illegal_eq_command, ite_illegal_eq_command, extractLsb'_eq_zero_iff, extractLsb'_eq_zero_iff,
    ← BitVec.or_eq_zero_iff, ← BitVec.and_or_distrib_left, Decoded.command.injEq]
  rfl

end Formats

/-! ## The word of `ENCSYM` -/

/-- The symbol in its place is 0 under a mask that leaves out `IMM9`. -/
theorem encode_encsym_and {m : Word} (hm : fieldMask 16 9 &&& m = 0#32) (x : Symbol) :
    encode (.encsym x) &&& m = 6#32 &&& m := by
  have hx : x.setWidth 32 <<< 16 &&& fieldMask 16 9 = x.setWidth 32 <<< 16 := by
    rw [and_fieldMask, extractLsb'_setWidth_shiftLeft (by decide)]
  rw [encode, BitVec.and_or_distrib_right, ← hx, BitVec.and_assoc, hm, BitVec.and_zero, BitVec.or_zero]

theorem opField_encsym (x : Symbol) : opField (encode (.encsym x)) = 6 := by
  rw [opField_eq_and, encode_encsym_and rfl]
  rfl

theorem ushiftRight_encsym (x : Symbol) : encode (.encsym x) >>> 16 = x.setWidth 32 := by
  rw [encode, BitVec.ushiftRight_or_distrib]
  apply BitVec.eq_of_toNat_eq
  have hx : x.toNat * 2 ^ 16 % 2 ^ 32 / 2 ^ 16 = x.toNat % 2 ^ 32 := by omega
  simpa [Nat.shiftLeft_eq, Nat.shiftRight_eq_div_pow] using hx

theorem symField_encsym (x : Symbol) : symField (encode (.encsym x)) = x := by
  rw [symField, encode, BitVec.extractLsb'_or, extractLsb'_setWidth_shiftLeft (by decide)]
  exact BitVec.zero_or

/-! ## The decoder inverts the encoder, and the encoder the decoder -/

/-- Settles O1, command by command: a flag has two values, and a symbol is the field of its word. -/
theorem decodeInvertsEncode : Obligations.DecodeInvertsEncode := by
  intro i hi
  cases i with
  | encsym x =>
    have hx : (symField (encode (.encsym x))).toNat ≤ 256 := by
      rw [symField_encsym]
      exact of_decide_eq_true hi
    rw [decode, opField_encsym]
    exact decodeS_eq_command.2 ⟨encode_encsym_and rfl x, hx, by rw [symField_encsym]⟩
  | hdrwr m | hdrrd m | encstream m => cases m <;> rfl
  | flush k y => cases k <;> cases y <;> rfl
  | nop | clear | build | gencodes | decsym | decstream => rfl

/-- The encoder gives back the word that was decoded: its bits under the mask, with its fields. -/
theorem encode_of_decode {v : Word} {i : Instr} (h : decode v = .command i) : encode i = v := by
  rw [decode] at h
  split at h
  case h_7 hop =>
    obtain ⟨hz, -, rfl⟩ := decodeS_eq_command.1 h
    exact match_or_symField_of_masked (and_mask_of_fields hop hz)
  case h_11 hop =>
    obtain ⟨hz, rfl⟩ := decodeF2_eq_command.1 h
    exact match_or_flags_of_masked (and_mask_of_fields hop hz)
  case h_5 hop | h_6 hop | h_8 hop =>
    obtain ⟨hz, rfl⟩ := decodeF_eq_command.1 h
    exact match_or_flag_of_masked (and_mask_of_fields hop hz)
  case h_12 => cases h
  all_goals
    rename_i hop
    obtain ⟨hz, rfl⟩ := decodeN_eq_command.1 h
    exact match_eq_of_masked (and_mask_of_fields hop hz)

/-- Settles O2: what is decoded is well-formed, and is encoded to the word again. -/
theorem encodeInvertsDecode : Obligations.EncodeInvertsDecode :=
  fun _ _ h => ⟨decode_wf h, encode_of_decode h⟩

/-- The words that decode to a command: only its own. -/
theorem decode_eq_command_iff {v : Word} {i : Instr} : decode v = .command i ↔ i.wf = true ∧ encode i = v := by
  refine ⟨encodeInvertsDecode v i, ?_⟩
  rintro ⟨hi, rfl⟩
  exact decodeInvertsEncode i hi

/-- Settles O5: each word is the encoding of its command. -/
theorem sampleWordsDecode : Obligations.SampleWordsDecode := by
  simp only [Obligations.SampleWordsDecode, decode_eq_command_iff]
  decide

/-! ## The opcode map (R103) -/

/-- A row with no fields. -/
theorem decode_eq_iff_masked {i : Instr} (hi : i.wf = true) (w : Word) :
    decode w = .command i ↔ w &&& 0xFFFFFFFF#32 = encode i := by
  rw [decode_eq_command_iff, and_iff_right hi, eq_comm]
  exact Eq.congr_left BitVec.and_allOnes.symm

/-- A row with the flag in bit 8. -/
theorem decode_flag_iff_masked {c : Word} {i : Bool → Instr} (hi : ∀ m, (i m).wf = true)
    (he : ∀ m, encode (i m) = c ||| flagAt 8 m) (hc : ∀ m, (c ||| flagAt 8 m) &&& 0xFFFFFEFF#32 = c) (w : Word) :
    (∃ m, decode w = .command (i m)) ↔ w &&& 0xFFFFFEFF#32 = c := by
  simp only [decode_eq_command_iff, hi, he, true_and]
  exact ⟨by rintro ⟨m, rfl⟩; exact hc m, fun h => ⟨_, match_or_flag_of_masked h⟩⟩

theorem decode_flush_iff_masked (w : Word) :
    (∃ k y, decode w = .command (.flush k y)) ↔ w &&& 0xFFFFFCFF#32 = 0x0000000A#32 := by
  simp only [decode_eq_command_iff]
  constructor
  · rintro ⟨k, y, -, rfl⟩
    cases k <;> cases y <;> rfl
  · exact fun h => ⟨_, _, rfl, match_or_flags_of_masked h⟩

theorem decode_encsym_iff_masked (w : Word) :
    (∃ x, decode w = .command (.encsym x)) ↔ w &&& 0xFE00FFFF#32 = 0x00000006#32 ∧ (w >>> 16).toNat ≤ 256 := by
  simp only [decode_eq_command_iff]
  constructor
  · rintro ⟨x, hx, rfl⟩
    refine ⟨encode_encsym_and rfl x, ?_⟩
    rw [ushiftRight_encsym, BitVec.toNat_setWidth]
    exact (Nat.mod_le _ _).trans (of_decide_eq_true hx)
  · rintro ⟨hm, hx⟩
    have hs : (symField w).toNat ≤ 256 := by
      rw [symField_toNat]
      exact (Nat.mod_le _ _).trans hx
    exact ⟨_, decide_eq_true hs, match_or_symField_of_masked hm⟩

/-- Settles O3, row by row. -/
theorem decodeAgreesWithTheOpcodeMap : Obligations.DecodeAgreesWithTheOpcodeMap := by
  intro w
  exact ⟨decode_eq_iff_masked rfl w, decode_eq_iff_masked rfl w, decode_eq_iff_masked rfl w,
    decode_eq_iff_masked rfl w, decode_flag_iff_masked (fun _ => rfl) (fun _ => rfl) (by decide) w,
    decode_flag_iff_masked (fun _ => rfl) (fun _ => rfl) (by decide) w, decode_encsym_iff_masked w,
    decode_flag_iff_masked (fun _ => rfl) (fun _ => rfl) (by decide) w, decode_eq_iff_masked rfl w,
    decode_eq_iff_masked rfl w, decode_flush_iff_masked w⟩

/-! ## Illegal words (R106) -/

theorem illegal_of_forall_ne {w : Word} (h : ∀ i, decode w ≠ .command i) : ∃ why, decode w = .illegal why := by
  cases hd : decode w with
  | command i => exact absurd hd (h i)
  | illegal why => exact ⟨why, rfl⟩

theorem State.early_of_waits {s : State} (h : ∀ e es, s.events = e :: es → e.after = none) : s.early = false := by
  rw [State.early]
  split
  · rename_i he
    exact absurd (h _ _ he) nofun
  · rfl

theorem launch_waiting_illegal {s : State} {w : Word} {why : IllegalReason} (hs : s.early = false)
    (hd : decode w = .illegal why) : launch w s = .next (beginIllegal w s).runOn := by
  rw [launch, hd]
  simp [hs]

/-- An illegal word that has been accepted completes at the first position (R106). -/
theorem runOn_beginIllegal (w : Word) (s : State) :
    (beginIllegal w s).runOn = ((s.accept [.illegal w, .ret]).at [.ret]).raise .illegalCmd w :=
  Goes.runOn_eq (goes_job _ (.illegal w) [.ret] (accept_runs s _)) rfl (State.burst_pos _)

/-- Settles O4: the illegal words by opcode, and the one position that such a word takes. -/
theorem illegalWordsCompleteWithIllegalCmd : Obligations.IllegalWordsCompleteWithIllegalCmd := by
  refine ⟨fun w => ?cases, fun s e es w hb he hw hd hes => ?step⟩
  case cases =>
    rw [decode, ← opField_eq, ← symField_toNat]
    split
    case h_7 hop =>
      by_cases hz : w &&& 0xFE00FF00#32 = 0#32 <;> simp [hop, hz, decodeS_eq_command, Nat.succ_le_iff]
    case h_11 hop => simp [hop, decodeF2_eq_command]
    case h_5 hop | h_6 hop | h_8 hop => simp [hop, decodeF_eq_command]
    case h_12 =>
      have hop : 0x0B ≤ opField w := by grind
      exact iff_of_true nofun (.inl hop)
    all_goals
      rename_i hop
      simp [hop, decodeN_eq_command]
  case step =>
    obtain ⟨why, hd⟩ := illegal_of_forall_ne hd
    have hearly : ({ s with events := es } : State).early = false := State.early_of_waits hes
    rw [step_launch hb he hw, launch_waiting_illegal hearly hd, runOn_beginIllegal]
    rfl

end Sys2Proof.Machine
end

section
/-! SUPPORT. The assembler: numerals and symbol operands, and the two forms of a line (R115, R116; log entry 27). -/

namespace Sys2Proof.Machine

/-! ## Numerals -/

theorem digitChar_toNat {d : Nat} (hd : d < 16) : (digitChar d).toNat = if d < 10 then 48 + d else 55 + d := by
  rw [digitChar, Char.toNat_ofNat, if_pos (by split <;> exact .inl (by omega))]

/-- A digit is read back in every base that has it. -/
theorem digit_digitChar {base d : Nat} (hb : base ≤ 16) (hd : d < base) : digit base (digitChar d) = some d := by
  simp only [digit, digitChar_toNat (hd.trans_le hb)]
  by_cases h : d < 10
  · rw [if_pos h, if_pos (by omega), Nat.add_sub_cancel_left]
    exact if_pos hd
  · rw [if_neg h, if_neg (by omega), if_pos (by omega), Nat.add_sub_cancel_left]
    exact if_pos hd

/-- The number that digits stand for, the first being the highest. -/
def valueOf (base : Nat) (ds : List Nat) : Nat := ds.foldl (fun v d => base * v + d) 0

theorem foldl_map_digitChar {base : Nat} {ds : List Nat} (hb : base ≤ 16) (hd : ∀ d ∈ ds, d < base) (v : Nat) :
    (ds.map digitChar).foldl (fun v c => v.bind fun n => (digit base c).map fun k => base * n + k) (some v) =
      some (ds.foldl (fun v d => base * v + d) v) := by
  induction ds generalizing v with
  | nil => rfl
  | cons d ds ih =>
    rw [List.forall_mem_cons] at hd
    simpa [digit_digitChar hb hd.1] using ih hd.2 _

/-- Digits as characters are read back as the number that they stand for. -/
theorem numeral_map_digitChar {base d : Nat} {ds : List Nat} (hb : base ≤ 16) (hd : ∀ k ∈ d :: ds, k < base) :
    numeral base ((d :: ds).map digitChar) = some (valueOf base (d :: ds)) :=
  foldl_map_digitChar hb hd 0

/-- A number of at most three digits is written with digits of its base that stand for it. -/
theorem numeralText_digits {base n : Nat} (hn : n < base * base * base) :
    ∃ d ds, numeralText base n = (d :: ds).map digitChar ∧ (∀ k ∈ d :: ds, k < base) ∧ valueOf base (d :: ds) = n := by
  have hmod : ∀ m, m % base < base := fun m => Nat.mod_lt m (Nat.pos_of_ne_zero (by rintro rfl; simp at hn))
  rw [numeralText]
  split
  · rename_i h1
    exact ⟨n, [], rfl, by simpa, by simp [valueOf]⟩
  · split
    · rename_i h2
      exact ⟨n / base, [n % base], rfl, by simp [hmod, Nat.div_lt_of_lt_mul h2], by simp [valueOf, Nat.div_add_mod]⟩
    · have h3 : n / (base * base) < base := Nat.div_lt_of_lt_mul hn
      refine ⟨n / (base * base), [n / base % base, n % base], rfl, by simp [hmod, h3], ?_⟩
      simp [valueOf, ← Nat.div_div_eq_div_mul, Nat.div_add_mod]

/-- A numeral of a number of at most three digits is read back (R115). -/
theorem numeral_numeralText {base n : Nat} (hb : base ≤ 16) (hn : n < base * base * base) :
    numeral base (numeralText base n) = some n := by
  obtain ⟨d, ds, ht, hd, hv⟩ := numeralText_digits hn
  rw [ht, numeral_map_digitChar hb hd, hv]

/-! ## Symbol operands -/

/-- No character of a decimal numeral opens another form of operand. -/
theorem ne_of_mem_numeralText {c : Char} {n : Nat} (hn : n < 1000) (hc : c ∈ numeralText 10 n) :
    c ≠ 'E' ∧ c ≠ '\'' ∧ c ≠ 'x' := by
  obtain ⟨d, ds, ht, hd, -⟩ := numeralText_digits (base := 10) hn
  rw [ht] at hc
  obtain ⟨k, hk, rfl⟩ := List.mem_map.1 hc
  have hdigit : ∀ k < 10, digitChar k ≠ 'E' ∧ digitChar k ≠ '\'' ∧ digitChar k ≠ 'x' := by decide
  exact hdigit k (hd k hk)

theorem operand_of_ne {cs : List Char} (h : ∀ c ∈ cs, c ≠ 'E' ∧ c ≠ '\'' ∧ c ≠ 'x') :
    operand cs = numeral 10 cs := by
  unfold operand
  split
  · simp at h
  · simp at h
  · simp at h
  · rfl

theorem operand_decimal {n : Nat} (hn : n < 1000) : operand (numeralText 10 n) = some n := by
  rw [operand_of_ne fun c => ne_of_mem_numeralText hn]
  exact numeral_numeralText (by decide) hn

theorem operand_hex {n : Nat} (hn : n < 4096) : operand ('0' :: 'x' :: numeralText 16 n) = some n :=
  numeral_numeralText (by decide) hn

theorem operand_char (b : Byte) : operand ['\'', Char.ofNat b.toNat, '\''] = some b.toNat := by
  have hb : (Char.ofNat b.toNat).toNat = b.toNat := by
    rw [Char.toNat_ofNat, if_pos (.inl (by omega))]
  simpa [operand, hb] using b.isLt

/-! ## Lines -/

theorem assemble_eq_word {word : List Char} (h : ' ' ∉ word) :
    assemble word = assembleWord (word.map upper) none := by
  have hw : ∀ c ∈ word, decide (c ≠ ' ') = true := by grind
  rw [assemble, List.takeWhile_eq_self_iff.2 hw, List.dropWhile_eq_nil_iff.2 hw]

theorem assemble_eq_word_operand {word : List Char} (h : ' ' ∉ word) (arg : List Char) :
    assemble (word ++ ' ' :: arg) = assembleWord (word.map upper) (some arg) := by
  have hw : ∀ c ∈ word, decide (c ≠ ' ') = true := by grind
  rw [assemble, List.takeWhile_append_of_pos hw, List.dropWhile_append_of_pos hw]
  simp

theorem space_not_mem_mnemonic (i : Instr) : ' ' ∉ Instr.mnemonic i := by
  cases i with
  | hdrwr m | hdrrd m | encstream m => cases m <;> decide
  | flush k y => cases k <;> cases y <;> decide
  | _ => exact of_decide_eq_true rfl

/-- A mnemonic in small letters holds no space either. -/
theorem space_not_mem_of_mnemonic {word : List Char} {i : Instr} (h : word.map upper = Instr.mnemonic i) :
    ' ' ∉ word := fun hs =>
  space_not_mem_mnemonic i (h ▸ List.mem_map_of_mem (f := upper) hs)

theorem assembleWord_mnemonic (i : Instr) (hi : ∀ x, i ≠ .encsym x) :
    assembleWord (Instr.mnemonic i) none = some [i] := by
  cases i with
  | encsym x => exact absurd rfl (hi x)
  | hdrwr m | hdrrd m | encstream m => cases m <;> rfl
  | flush k y => cases k <;> cases y <;> rfl
  | nop | clear | build | gencodes | decsym | decstream => rfl

/-- A line of `ENCSYM` is the command of its operand, if that is a symbol. -/
theorem assemble_encsym {word : List Char} {y : Symbol} (hw : word.map upper = Instr.mnemonic (.encsym y))
    (arg : List Char) : assemble (word ++ ' ' :: arg) =
      (operand arg).bind (fun n => if n ≤ 256 then some [.encsym (BitVec.ofNat 9 n)] else none) := by
  rw [assemble_eq_word_operand (space_not_mem_of_mnemonic hw), hw]
  rfl

theorem assemble_encsym_of_symbol {word arg : List Char} {x y : Symbol}
    (hw : word.map upper = Instr.mnemonic (.encsym y)) (ha : operand arg = some x.toNat) (hx : x.toNat ≤ 256) :
    assemble (word ++ ' ' :: arg) = some [.encsym x] := by
  rw [assemble_encsym hw, ha, Option.bind_some, if_pos hx, BitVec.ofNat_toNat, BitVec.setWidth_eq]

/-- A command without an operand: its line is its mnemonic. -/
theorem assemble_mnemonic {word : List Char} {i : Instr} (hi : ∀ x, i ≠ .encsym x)
    (hw : word.map upper = Instr.mnemonic i) : assemble word = some [i] := by
  rw [assemble_eq_word (space_not_mem_of_mnemonic hw), hw, assembleWord_mnemonic i hi]

theorem operandText_eq_nil {i : Instr} (hi : ∀ x, i ≠ .encsym x) : Instr.operandText i = [] := by
  cases i with
  | encsym x => exact absurd rfl (hi x)
  | _ => rfl

/-- Settles O6: a line is a mnemonic, or `ENCSYM` and a numeral, a character or `EOS`. -/
theorem assemblerReachesEveryCommand : Obligations.AssemblerReachesEveryCommand := by
  refine ⟨fun i word hi hw => ?line, fun x hx => ?hex, fun b => ?char, ?eos, fun n hn hn' => ?above, rfl, rfl, rfl⟩
  case line =>
    by_cases he : ∃ x, i = .encsym x
    · obtain ⟨x, rfl⟩ := he
      have hx : x.toNat ≤ 256 := of_decide_eq_true hi
      exact assemble_encsym_of_symbol hw (operand_decimal (by omega)) hx
    · have hi : ∀ x, i ≠ .encsym x := not_exists.1 he
      rw [operandText_eq_nil hi, List.append_nil]
      exact assemble_mnemonic hi hw
  case hex =>
    rw [List.append_assoc]
    exact assemble_encsym_of_symbol (y := x) rfl (operand_hex (by omega)) hx
  case char =>
    have hb : (b.setWidth 9).toNat = b.toNat := BitVec.toNat_setWidth_of_le (by decide)
    exact assemble_encsym_of_symbol (y := 0) rfl (hb ▸ operand_char b) (by omega)
  case eos => rfl
  case above =>
    rw [assemble_encsym (y := 0) rfl, operand_decimal hn']
    exact if_neg (by omega)

end Sys2Proof.Machine
end

section
/-! SUPPORT. What `BUILD` makes: the leaves in symbol order, then one node for each merge of the two least keys
(R131-R136). -/

namespace Sys2Proof.Machine

/-! ## The order of the queue (R132) -/

/-- A key before another, for two node indices. -/
theorem State.keyBefore_toNat (s : State) (i j : NodeIx) :
    s.keyBefore i.toNat j.toNat ↔
      (s.node i).w.toNat < (s.node j).w.toNat ∨ ((s.node i).w = (s.node j).w ∧ i.toNat < j.toNat) := by
  simp [State.keyBefore]

theorem State.keyBefore_congr {s t : State} {i j : NodeIx} (hi : t.node i = s.node i) (hj : t.node j = s.node j) :
    t.keyBefore i.toNat j.toNat ↔ s.keyBefore i.toNat j.toNat := by
  rw [State.keyBefore_toNat, State.keyBefore_toNat, hi, hj]

theorem State.keyBefore_trans {s : State} {i j k : NodeIx} (h : s.keyBefore i.toNat j.toNat)
    (h' : s.keyBefore j.toNat k.toNat) : s.keyBefore i.toNat k.toNat := by
  simp only [State.keyBefore_toNat, BitVec.toNat_eq] at h h' ⊢
  omega

theorem State.not_keyBefore_self (s : State) (i : NodeIx) : ¬ s.keyBefore i.toNat i.toNat := by
  simp [State.keyBefore_toNat]

/-- The queue's comparison of two different nodes is the order of their keys. -/
theorem State.keyLe_iff {s : State} {i j : NodeIx} (h : i ≠ j) : s.keyLe i j = true ↔ s.keyBefore i.toNat j.toNat := by
  have : i.toNat ≠ j.toNat := fun e => h (BitVec.eq_of_toNat_eq e)
  simp only [State.keyLe, Bool.or_eq_true, Bool.and_eq_true, decide_eq_true_eq, State.keyBefore_toNat, BitVec.toNat_eq,
    BitVec.lt_def, BitVec.le_def]
  omega

theorem State.keyBefore_of_not_keyLe {s : State} {i j : NodeIx} (h : ¬ s.keyLe i j = true) :
    s.keyBefore j.toNat i.toNat := by
  simp only [State.keyLe, Bool.or_eq_true, Bool.and_eq_true, decide_eq_true_eq, BitVec.toNat_eq, BitVec.lt_def,
    BitVec.le_def] at h
  simp only [State.keyBefore_toNat, BitVec.toNat_eq]
  omega

/-- The nodes `q` stand in the order of their keys. -/
def State.Sorted (s : State) (q : List NodeIx) : Prop := q.Pairwise fun i j => s.keyBefore i.toNat j.toNat

theorem State.Sorted.congr {s t : State} {q : List NodeIx} (h : s.Sorted q) (hq : ∀ i ∈ q, t.node i = s.node i) :
    t.Sorted q :=
  h.imp_of_mem fun hi hj hij => (State.keyBefore_congr (hq _ hi) (hq _ hj)).2 hij

/-- `Q.insert(i)` keeps the queue in order (R55). -/
theorem State.Sorted.insertKey {s : State} {q : List NodeIx} {i : NodeIx} (h : s.Sorted q) (hi : i ∉ q) :
    s.Sorted (s.insertKey i q) := by
  induction q with
  | nil => exact List.pairwise_singleton _ _
  | cons j q ih =>
    obtain ⟨hj, hq⟩ := List.pairwise_cons.1 h
    obtain ⟨hij, hiq⟩ := not_or.1 (mt List.mem_cons.2 hi)
    rw [State.insertKey]
    split
    case isTrue hle =>
      have hlt := (State.keyLe_iff hij).1 hle
      refine List.pairwise_cons.2 ⟨fun k hk => ?_, h⟩
      obtain rfl | hk := List.mem_cons.1 hk
      · exact hlt
      · exact State.keyBefore_trans hlt (hj k hk)
    case isFalse hle =>
      refine List.pairwise_cons.2 ⟨fun k hk => ?_, ih hq hiq⟩
      obtain rfl | hk := List.mem_cons.1 ((s.insertKey_perm i q).mem_iff.1 hk)
      · exact State.keyBefore_of_not_keyLe hle
      · exact hj k hk

/-! ## The next entry, written and inserted -/

theorem toNat_index {n : Nat} (h : n < 513) : (BitVec.ofNat 10 n).toNat = n := by
  rw [BitVec.toNat_ofNat]
  omega

section

variable {s : State} {node : NodeIx → Node}

theorem State.enqueue_node_next (h : s.seq.next < 513) :
    (s.enqueue node).node (BitVec.ofNat 10 s.seq.next) = node (BitVec.ofNat 10 s.seq.next) :=
  s.node_setNode_self (by rwa [State.toNat_next h]) _

theorem State.enqueue_node_of_ne (h : s.seq.next < 513) {i : NodeIx} (hi : i.toNat ≠ s.seq.next) :
    (s.enqueue node).node i = s.node i :=
  s.node_setNode_of_ne (by rintro rfl; exact hi (State.toNat_next h)) _

theorem State.mem_enqueue_queue {i : NodeIx} :
    i ∈ (s.enqueue node).seq.queue ↔ i = BitVec.ofNat 10 s.seq.next ∨ i ∈ s.seq.queue :=
  (State.insertKey_perm _ _ _).mem_iff.trans List.mem_cons

/-- An index is the next entry's, or it is another's. -/
theorem State.eq_next_iff (h : s.seq.next < 513) {i : NodeIx} :
    i = BitVec.ofNat 10 s.seq.next ↔ i.toNat = s.seq.next := by
  rw [← BitVec.toNat_inj, State.toNat_next h]

theorem State.Sorted.enqueue (h : s.Sorted s.seq.queue) (hn : s.seq.next < 513)
    (hq : ∀ i ∈ s.seq.queue, i.toNat < s.seq.next) : (s.enqueue node).Sorted (s.enqueue node).seq.queue :=
  have hnew : BitVec.ofNat 10 s.seq.next ∉ s.seq.queue := fun hm => by
    have := hq _ hm
    rw [State.toNat_next hn] at this
    omega
  have hset : (s.setNode _ (node (BitVec.ofNat 10 s.seq.next))).Sorted s.seq.queue :=
    h.congr fun i hi => State.enqueue_node_of_ne hn (Nat.ne_of_lt (hq i hi))
  hset.insertKey hnew

/-- What holds of the entries before the next one, and of what is written there, holds of the entries after. -/
theorem State.enqueue_forall {P : NodeIx → Node → Prop} (hn : s.seq.next < 513)
    (h : ∀ i : NodeIx, i.toNat < s.seq.next → P i (s.node i))
    (hnew : P (BitVec.ofNat 10 s.seq.next) (node (BitVec.ofNat 10 s.seq.next))) (i : NodeIx)
    (hi : i.toNat < s.seq.next + 1) : P i ((s.enqueue node).node i) := by
  obtain hi | hi := Nat.lt_succ_iff_lt_or_eq.1 hi
  · rw [State.enqueue_node_of_ne hn hi.ne]
    exact h i hi
  · obtain rfl := (State.eq_next_iff hn).2 hi
    rwa [State.enqueue_node_next hn]

theorem State.enqueue_past {t : State} (hn : s.seq.next < 513)
    (h : ∀ i : NodeIx, s.seq.next ≤ i.toNat → s.node i = t.node i) (i : NodeIx) (hi : s.seq.next + 1 ≤ i.toNat) :
    (s.enqueue node).node i = t.node i :=
  (State.enqueue_node_of_ne hn (Nat.ne_of_gt hi)).trans (h i (Nat.le_of_succ_le hi))

/-- The weight of the nodes in the queue. -/
def State.queueWeight (s : State) : Nat := (s.seq.queue.map fun i => (s.node i).w.toNat).sum

theorem State.enqueue_queueWeight (hn : s.seq.next < 513) (hq : ∀ i ∈ s.seq.queue, i.toNat < s.seq.next) :
    (s.enqueue node).queueWeight = (node (BitVec.ofNat 10 s.seq.next)).w.toNat + s.queueWeight := by
  have hold : s.seq.queue.map (fun i => ((s.enqueue node).node i).w.toNat) =
      s.seq.queue.map fun i => (s.node i).w.toNat :=
    List.map_congr_left fun i hi => by rw [State.enqueue_node_of_ne hn (Nat.ne_of_lt (hq i hi))]
  have hperm : (s.enqueue node).seq.queue.Perm (BitVec.ofNat 10 s.seq.next :: s.seq.queue) := State.insertKey_perm _ _ _
  rw [State.queueWeight, (hperm.map _).sum_eq, List.map_cons, List.sum_cons, State.enqueue_node_next hn, hold,
    State.queueWeight]

theorem State.le_queueWeight {i : NodeIx} (hi : i ∈ s.seq.queue) : (s.node i).w.toNat ≤ s.queueWeight :=
  List.le_sum_of_mem (List.mem_map.2 ⟨i, hi, rfl⟩)

end

theorem State.Sorted.nodup {s : State} {q : List NodeIx} (h : s.Sorted q) : q.Nodup := by
  refine List.Pairwise.imp ?_ h
  rintro i _ hij rfl
  exact s.not_keyBefore_self i hij

/-! ## Merges (R135) -/

theorem State.usedBefore_congr {s t : State} {n : Nat} (h : ∀ j : NodeIx, j.toNat < n → t.node j = s.node j)
    (k m : Nat) : t.usedBefore k n m ↔ s.usedBefore k n m := by
  refine exists_congr fun j => and_congr_right fun _ => and_congr_right fun hj => ?_
  have hjn : (BitVec.ofNat 10 j).toNat < n := by
    rw [BitVec.toNat_ofNat]
    exact (Nat.mod_le _ _).trans_lt hj
  rw [h _ hjn]

/-- One internal node more uses its two children. -/
theorem State.usedBefore_succ {s : State} {k n m : Nat} (h : k ≤ n) :
    s.usedBefore k (n + 1) m ↔ s.usedBefore k n m ∨
      (s.node (BitVec.ofNat 10 n)).l.toNat = m ∨ (s.node (BitVec.ofNat 10 n)).r.toNat = m := by
  constructor
  · rintro ⟨j, hk, hj, hm⟩
    obtain hj | rfl := Nat.lt_succ_iff_lt_or_eq.1 hj
    · exact .inl ⟨j, hk, hj, hm⟩
    · exact .inr hm
  · rintro (⟨j, hk, hj, hm⟩ | hm)
    · exact ⟨j, hk, Nat.lt_succ_of_lt hj, hm⟩
    · exact ⟨n, h, Nat.lt_succ_self n, hm⟩

theorem State.not_usedBefore_self (s : State) (k m : Nat) : ¬ s.usedBefore k k m := by
  rintro ⟨j, hk, hj, -⟩
  omega

/-- Node `i`, where the leaves are the nodes below `k`, was made by a merge: of the nodes before it that are no
children yet, its children are the two of least key, and it weighs as much as they (R132, R135, R136). -/
structure State.Merged (s : State) (k : Nat) (i : NodeIx) : Prop where
  internal  : (s.node i).leaf = false
  weight    : (s.node i).w.toNat = (s.node (s.node i).l).w.toNat + (s.node (s.node i).r).w.toNat
  left      : (s.node i).l.toNat < i.toNat
  right     : (s.node i).r.toNat < i.toNat
  leftFree  : ¬ s.usedBefore k i.toNat (s.node i).l.toNat
  rightFree : ¬ s.usedBefore k i.toNat (s.node i).r.toNat
  order     : s.keyBefore (s.node i).l.toNat (s.node i).r.toNat
  least     : ∀ j : NodeIx, j.toNat < i.toNat → ¬ s.usedBefore k i.toNat j.toNat →
    j = (s.node i).l ∨ j = (s.node i).r ∨ s.keyBefore (s.node i).r.toNat j.toNat

/-- A merge is a matter of the entries up to its node. -/
theorem State.Merged.congr {s t : State} {k : Nat} {i : NodeIx} (h : s.Merged k i)
    (ht : ∀ j : NodeIx, j.toNat ≤ i.toNat → t.node j = s.node j) : t.Merged k i := by
  have hi := ht i le_rfl
  have hl := ht _ h.left.le
  have hr := ht _ h.right.le
  have hu := State.usedBefore_congr (fun j hj => ht j hj.le) k
  constructor
  case least =>
    intro j hj hf
    rw [hi, State.keyBefore_congr hr (ht j hj.le)]
    exact h.least j hj fun hm => hf ((hu _).2 hm)
  all_goals rw [hi]
  case internal => exact h.internal
  case weight => rw [hl, hr]; exact h.weight
  case left => exact h.left
  case right => exact h.right
  case leftFree => exact fun hm => h.leftFree ((hu _).1 hm)
  case rightFree => exact fun hm => h.rightFree ((hu _).1 hm)
  case order => exact (State.keyBefore_congr hl hr).2 h.order

/-! ## The counts (R130, R136) -/

/-- The symbols below `x` with a count of at least 1, in increasing order. -/
def State.qualifyingBelow (s : State) (x : Nat) : List Nat := (List.range x).filter fun y => s.freqAt y ≠ 0#32

/-- All counts of the symbols below `x` together. -/
def State.countBelow (s : State) (x : Nat) : Nat := ((List.range x).map fun y => (s.freqAt y).toNat).sum

theorem State.qualifyingBelow_257 (s : State) : s.qualifyingBelow 257 = s.qualifying := rfl

theorem State.qualifyingBelow_succ_of_zero {s : State} {x : Nat} (h : s.freqAt x = 0#32) :
    s.qualifyingBelow (x + 1) = s.qualifyingBelow x := by
  simp [State.qualifyingBelow, List.range_succ, h]

theorem State.qualifyingBelow_succ_of_ne {s : State} {x : Nat} (h : s.freqAt x ≠ 0#32) :
    s.qualifyingBelow (x + 1) = s.qualifyingBelow x ++ [x] := by
  simp [State.qualifyingBelow, List.range_succ, h]

theorem State.countBelow_succ (s : State) (x : Nat) :
    s.countBelow (x + 1) = s.countBelow x + (s.freqAt x).toNat := by
  simp [State.countBelow, List.range_succ]

theorem State.mem_qualifying {s : State} {x : Nat} : x ∈ s.qualifying ↔ x ≤ 256 ∧ s.freqAt x ≠ 0#32 := by
  simp [State.qualifying, Nat.lt_succ_iff]

theorem State.length_qualifying_le (s : State) : s.qualifying.length ≤ 257 :=
  (List.length_filter_le _ _).trans (by rw [List.length_range])

@[simp] theorem State.freqAt_sentinel (s : State) : s.freqAt 256 = 1#32 := if_pos rfl

/-- The sentinel always qualifies (R138). -/
theorem State.length_qualifying_pos (s : State) : 0 < s.qualifying.length :=
  List.length_pos_of_mem (State.mem_qualifying.2 ⟨le_rfl, by simp⟩)

theorem State.toNat_setWidth_freqAt (s : State) (x : Nat) :
    ((s.freqAt x).setWidth 41).toNat = (s.freqAt x).toNat := BitVec.toNat_setWidth_of_le (by decide)

/-- The bound of R136: 256 counts of 32 bits, and the sentinel's. -/
theorem State.countBelow_257_le (s : State) : s.countBelow 257 ≤ 2 ^ 40 - 255 := by
  have h : s.countBelow 256 ≤ 256 * (2 ^ 32 - 1) := by
    have := List.sum_le_card_nsmul ((List.range 256).map fun y => (s.freqAt y).toNat) (2 ^ 32 - 1) fun w hw => by
      obtain ⟨y, -, rfl⟩ := List.mem_map.1 hw
      exact Nat.le_sub_one_of_lt (s.freqAt y).isLt
    simpa [State.countBelow] using this
  rw [State.countBelow_succ, State.freqAt_sentinel, BitVec.toNat_ofNat]
  omega

theorem State.countBelow_257_pos (s : State) : 0 < s.countBelow 257 := by
  rw [State.countBelow_succ, State.freqAt_sentinel, BitVec.toNat_ofNat]
  omega

/-! ## What `BUILD` has done so far -/

/-- `BUILD`, accepted in `s`, has got to `u`: the symbols below `x` have their leaves, and the other nodes so far are
merges. -/
structure State.Builds (s u : State) (x : Nat) : Prop where
  /-- only the node store and the sequencer were written -/
  same   : { u with nodes := s.nodes, seq := s.seq } = { s with flags.busy := true, flags.done := false }
  forest : ∃ τ, u.Building τ x
  leaves : u.seq.leaves = (s.qualifyingBelow x).length
  le     : u.seq.leaves ≤ u.seq.next
  leaf   : ∀ (i : NodeIx) (y : Nat), (s.qualifyingBelow x)[i.toNat]? = some y →
    u.node i = leafNode i (BitVec.ofNat 9 y) ((s.freqAt y).setWidth 41)
  merged : ∀ i : NodeIx, u.seq.leaves ≤ i.toNat → i.toNat < u.seq.next → u.Merged u.seq.leaves i
  past   : ∀ i : NodeIx, u.seq.next ≤ i.toNat → u.node i = s.node i
  /-- the queue holds the nodes that are no children yet, the least key first -/
  sorted : u.Sorted u.seq.queue
  queue  : ∀ i : NodeIx, i ∈ u.seq.queue ↔ i.toNat < u.seq.next ∧ ¬ u.usedBefore u.seq.leaves u.seq.next i.toNat
  total  : u.queueWeight = s.countBelow x
  light  : ∀ i : NodeIx, i.toNat < u.seq.next → (u.node i).w.toNat ≤ s.countBelow x

theorem State.Builds.queue_lt {s u : State} {x : Nat} (h : s.Builds u x) {i : NodeIx} (hi : i ∈ u.seq.queue) :
    i.toNat < u.seq.next := ((h.queue i).1 hi).1

theorem State.Builds.next_add_length {s u : State} {x : Nat} (h : s.Builds u x) :
    u.seq.next + u.seq.queue.length = 2 * u.seq.leaves := by
  obtain ⟨τ, hτ⟩ := h.forest
  exact hτ.leaves.symm

theorem State.Builds.next_le {s u : State} {x : Nat} (h : s.Builds u x) :
    u.seq.next + u.seq.queue.length ≤ 2 * x := by
  obtain ⟨τ, hτ⟩ := h.forest
  exact hτ.next_le

theorem State.Builds.freqAt {s u : State} {x : Nat} (h : s.Builds u x) (y : Nat) : u.freqAt y = s.freqAt y := by
  have hf := congrArg State.freq h.same
  dsimp only at hf
  rw [State.freqAt, State.freqAt, hf]

/-- `BUILD` begins with nothing in the queue (R131). -/
theorem State.builds_accept (s : State) : s.Builds (s.accept (Instr.jobs .build)) 0 where
  same := rfl
  forest := ⟨fun _ => .leaf 0, accept_runs s _, ⟨nofun, .refl _, List.nodup_nil, nofun⟩, rfl⟩
  leaves := rfl
  le := le_rfl
  leaf _ _ hy := by simp [State.qualifyingBelow] at hy
  merged _ _ hi := absurd hi (Nat.not_lt_zero _)
  past _ _ := rfl
  sorted := List.Pairwise.nil
  queue i := by simp [Seq.idle]
  total := rfl
  light _ hi := absurd hi (Nat.not_lt_zero _)

/-! ## The loop over the symbols -/

theorem State.scanSymbol_of_zero {u : State} {x : Nat} (h : u.freqAt x = 0#32) : u.scanSymbol x = u := if_pos h

theorem State.scanSymbol_of_ne {u : State} {x : Nat} (h : u.freqAt x ≠ 0#32) :
    u.scanSymbol x =
      { u.enqueue (fun i => leafNode i (BitVec.ofNat 9 x) ((u.freqAt x).setWidth 41)) with
        seq.leaves := u.seq.leaves + 1 } := if_neg h

/-- While the symbols are examined, every node is a leaf. -/
structure State.Scans (s u : State) (x : Nat) : Prop where
  builds : s.Builds u x
  next   : u.seq.next = u.seq.leaves

/-- A symbol without a count gets nothing. -/
theorem State.Scans.skip {s u : State} {x : Nat} (h : s.Scans u x) (hx : x ≤ 256) (hz : s.freqAt x = 0#32) :
    s.Scans u (x + 1) := by
  obtain ⟨hb, hn⟩ := h
  obtain ⟨τ, hτ⟩ := hb.forest
  obtain ⟨τ', hτ', -⟩ := hτ.scanSymbol hx
  rw [State.scanSymbol_of_zero ((hb.freqAt x).trans hz)] at hτ'
  have hq := State.qualifyingBelow_succ_of_zero hz
  have hc : s.countBelow (x + 1) = s.countBelow x := by simp [State.countBelow_succ, hz]
  exact ⟨{ hb with
    forest := ⟨τ', hτ'⟩
    leaves := hq ▸ hb.leaves
    leaf := hq ▸ hb.leaf
    total := hc ▸ hb.total
    light := hc ▸ hb.light }, hn⟩

/-- A symbol with a count gets the next leaf. -/
theorem State.Scans.leaf {s u : State} {x : Nat} (h : s.Scans u x) (hz : s.freqAt x ≠ 0#32) (hlt : u.seq.next < 513)
    {f : NodeIx → Node} (hf : ∀ i, f i = leafNode i (BitVec.ofNat 9 x) ((s.freqAt x).setWidth 41))
    (hτ : ∃ τ, State.Building { u.enqueue f with seq.leaves := u.seq.leaves + 1 } τ (x + 1)) :
    s.Scans { u.enqueue f with seq.leaves := u.seq.leaves + 1 } (x + 1) := by
  obtain ⟨hb, hn⟩ := h
  have hql : ∀ i ∈ u.seq.queue, i.toNat < u.seq.next := fun i => hb.queue_lt
  have hq := State.qualifyingBelow_succ_of_ne hz
  have hc := s.countBelow_succ x
  have hlen : (s.qualifyingBelow (x + 1)).length = u.seq.next + 1 := by
    rw [hq, List.length_append, ← hb.leaves, hn, List.length_singleton]
  have hfw (i : NodeIx) : (f i).w.toNat = (s.freqAt x).toNat := by
    rw [hf]
    exact s.toNat_setWidth_freqAt x
  have hlight : ∀ i : NodeIx, i.toNat < u.seq.next + 1 →
      ((u.enqueue f).node i).w.toNat ≤ s.countBelow (x + 1) := by
    refine State.enqueue_forall (P := fun _ N => N.w.toNat ≤ s.countBelow (x + 1)) hlt (fun i hi => ?_) ?_
    · exact (hb.light i hi).trans (hc ▸ Nat.le_add_right _ _)
    · rw [hfw, hc]
      exact Nat.le_add_left _ _
  refine ⟨{
    same := hb.same
    forest := hτ
    leaves := (congrArg (· + 1) hn).symm.trans hlen.symm
    le := Nat.succ_le_succ hb.le
    leaf := ?leaf
    merged := fun i hk hi => absurd (hn ▸ hk : u.seq.next + 1 ≤ i.toNat) (Nat.not_le.2 hi)
    past := State.enqueue_past (s := u) (node := f) hlt hb.past
    sorted := hb.sorted.enqueue hlt hql
    queue := ?queue
    total := (State.enqueue_queueWeight hlt hql).trans (by rw [hb.total, hfw, hc, Nat.add_comm])
    light := hlight }, congrArg (· + 1) hn⟩
  case leaf =>
    intro i y hy
    have hi : i.toNat < u.seq.next + 1 := hlen ▸ (List.getElem?_eq_some_iff.1 hy).1
    refine State.enqueue_forall (P := fun i N => (s.qualifyingBelow (x + 1))[i.toNat]? = some y →
      N = leafNode i (BitVec.ofNat 9 y) ((s.freqAt y).setWidth 41)) hlt (fun i hi hy => ?_) (fun hy => ?_) i hi hy
    · rw [hq, List.getElem?_append_left (by rwa [← hb.leaves, ← hn])] at hy
      exact hb.leaf i y hy
    · rw [hq, State.toNat_next hlt, hn, hb.leaves, List.getElem?_concat_length] at hy
      cases hy
      exact hf _
  case queue =>
    intro i
    show i ∈ (u.enqueue f).seq.queue ↔ i.toNat < u.seq.next + 1 ∧
      ¬ State.usedBefore _ (u.seq.leaves + 1) (u.seq.next + 1) i.toNat
    rw [State.mem_enqueue_queue, State.eq_next_iff hlt, hb.queue i, hn]
    simp only [State.not_usedBefore_self, not_false_eq_true, and_true]
    omega

theorem State.Scans.scanSymbol {s u : State} {x : Nat} (h : s.Scans u x) (hx : x ≤ 256) :
    s.Scans (u.scanSymbol x) (x + 1) := by
  by_cases hz : s.freqAt x = 0#32
  · rw [State.scanSymbol_of_zero ((h.builds.freqAt x).trans hz)]
    exact h.skip hx hz
  · obtain ⟨τ, hτ⟩ := h.builds.forest
    obtain ⟨τ', hτ', -⟩ := hτ.scanSymbol hx
    have hlt : u.seq.next < 513 := by have := h.builds.next_le; omega
    rw [State.scanSymbol_of_ne (h.builds.freqAt x ▸ hz)] at hτ' ⊢
    exact h.leaf hz hlt (fun i => by rw [h.builds.freqAt x]) ⟨τ', hτ'⟩

theorem State.Builds.runs {s u : State} {x : Nat} (h : s.Builds u x) : u.Runs := by
  obtain ⟨τ, hτ⟩ := h.forest
  exact hτ.runs

/-- The loop over the symbols, one position for each (R131). -/
theorem State.Scans.goes {s u : State} {x : Nat} (h : s.Scans u x) (hx : x ≤ 256) (js : List Job) :
    ∃ v, Goes (257 - x) (u.at (.scan x :: js)) (v.at (.merge :: js)) ∧ s.Builds v 257 := by
  have h1 := goes_job u (.scan x) js h.builds.runs
  rw [runScan_at] at h1
  induction hd : 256 - x generalizing u x with
  | zero =>
    obtain rfl : x = 256 := by omega
    exact ⟨_, h1, (h.scanSymbol hx).builds⟩
  | succ d ih =>
    have hlt : x < 256 := by omega
    rw [if_pos hlt] at h1
    have hs := h.scanSymbol hx
    have h2 := goes_job (u.scanSymbol x) (.scan (x + 1)) js hs.builds.runs
    rw [runScan_at] at h2
    obtain ⟨v, h3, hv⟩ := ih hs hlt h2 (by omega)
    exact ⟨v, (h1.trans h3).cast (by omega), hv⟩

/-! ## The merge loop -/

/-- A child comes before its parent, so the last node made is no child. -/
theorem State.Builds.used_lt {s u : State} {x m : Nat} (h : s.Builds u x) (hle : u.seq.next ≤ 513)
    (hm : u.usedBefore u.seq.leaves u.seq.next m) : m + 1 < u.seq.next := by
  obtain ⟨j, hk, hj, hm⟩ := hm
  have hji := toNat_index (hj.trans_le hle)
  have hmj := h.merged (BitVec.ofNat 10 j) (hji.symm ▸ hk) (hji.symm ▸ hj)
  have := hmj.left
  have := hmj.right
  omega

/-- The weight of the queue is that of its two first nodes and of the others. -/
theorem State.Builds.total_two {s u : State} {x : Nat} (h : s.Builds u x) {a b : NodeIx} {q : List NodeIx}
    (hq : u.seq.queue = a :: b :: q) :
    (u.node a).w.toNat + (u.node b).w.toNat + (q.map fun i => (u.node i).w.toNat).sum = s.countBelow x := by
  rw [← h.total, State.queueWeight, hq, List.map_cons, List.map_cons, List.sum_cons, List.sum_cons, Nat.add_assoc]

/-- The weights of the nodes in the queue add up without a wrap (R136). -/
theorem State.Builds.toNat_add {s u : State} (h : s.Builds u 257) {a b : NodeIx} {q : List NodeIx}
    (hq : u.seq.queue = a :: b :: q) :
    ((u.node a).w + (u.node b).w).toNat = (u.node a).w.toNat + (u.node b).w.toNat := by
  have := h.total_two hq
  have := s.countBelow_257_le
  rw [BitVec.toNat_add, Nat.mod_eq_of_lt (by omega)]

/-- The two first nodes of the queue are the two of least key (R132). -/
theorem State.Builds.merged_next {s u : State} (h : s.Builds u 257) {a b : NodeIx} {q : List NodeIx}
    (hq : u.seq.queue = a :: b :: q) {v : State} (hv : ∀ i : NodeIx, i.toNat < u.seq.next → v.node i = u.node i)
    {i : NodeIx} (hi : i.toNat = u.seq.next)
    (hvi : v.node i = internalNode i ((u.node a).w + (u.node b).w) a b) : v.Merged u.seq.leaves i := by
  obtain ⟨ha, hau⟩ := (h.queue a).1 (by simp [hq])
  obtain ⟨hb, hbu⟩ := (h.queue b).1 (by simp [hq])
  have hs := h.sorted
  rw [hq] at hs
  obtain ⟨hs1, hs2⟩ := List.pairwise_cons.1 hs
  obtain ⟨hs3, -⟩ := List.pairwise_cons.1 hs2
  have hu (m : Nat) := State.usedBefore_congr hv u.seq.leaves m
  have hk {i j : NodeIx} (hi : i.toNat < u.seq.next) (hj : j.toNat < u.seq.next) :=
    State.keyBefore_congr (hv i hi) (hv j hj)
  constructor
  case least =>
    intro j hj hf
    rw [hi] at hj hf
    rw [hvi]
    have hm : j ∈ u.seq.queue := (h.queue j).2 ⟨hj, fun h => hf ((hu _).2 h)⟩
    rw [hq, List.mem_cons, List.mem_cons] at hm
    exact hm.imp_right (Or.imp_right fun hm => (hk hb hj).2 (hs3 j hm))
  all_goals rw [hvi]
  case internal => rfl
  case weight =>
    show ((u.node a).w + (u.node b).w).toNat = (v.node a).w.toNat + (v.node b).w.toNat
    rw [hv a ha, hv b hb, h.toNat_add hq]
  case left => exact hi ▸ ha
  case right => exact hi ▸ hb
  case leftFree => rw [hi]; exact fun hm => hau ((hu _).1 hm)
  case rightFree => rw [hi]; exact fun hm => hbu ((hu _).1 hm)
  case order => exact (hk ha hb).2 (hs1 b (by simp))

/-- A merge uses the two nodes that it takes from the queue, and puts the next one in. -/
theorem State.Builds.mem_queue_merge {s u : State} (h : s.Builds u 257) {a b : NodeIx} {q : List NodeIx}
    (hq : u.seq.queue = a :: b :: q) {v : State} (hv : ∀ i : NodeIx, i.toNat < u.seq.next → v.node i = u.node i)
    (hlt : u.seq.next < 513) (hvn : v.node (BitVec.ofNat 10 u.seq.next) =
      internalNode (BitVec.ofNat 10 u.seq.next) ((u.node a).w + (u.node b).w) a b) (i : NodeIx) :
    i = BitVec.ofNat 10 u.seq.next ∨ i ∈ q ↔
      i.toNat < u.seq.next + 1 ∧ ¬ v.usedBefore u.seq.leaves (u.seq.next + 1) i.toNat := by
  have ha := h.queue_lt (i := a) (by simp [hq])
  have hb := h.queue_lt (i := b) (by simp [hq])
  have hnd := h.sorted.nodup
  rw [hq, List.nodup_cons, List.nodup_cons, List.mem_cons] at hnd
  obtain ⟨hna, hnb, -⟩ := hnd
  rw [State.usedBefore_succ h.le, State.usedBefore_congr hv, hvn, State.eq_next_iff hlt]
  show _ ↔ _ ∧ ¬ (_ ∨ a.toNat = i.toNat ∨ b.toNat = i.toNat)
  rw [BitVec.toNat_inj, BitVec.toNat_inj]
  have hi := h.queue i
  rw [hq, List.mem_cons, List.mem_cons] at hi
  constructor
  · rintro (hin | hiq)
    · refine ⟨by omega, ?_⟩
      rintro (hu | rfl | rfl)
      · exact absurd (h.used_lt hlt.le hu) (by omega)
      · omega
      · omega
    · obtain ⟨hlt, hu⟩ := hi.1 (.inr (.inr hiq))
      refine ⟨Nat.lt_succ_of_lt hlt, ?_⟩
      rintro (hu' | rfl | rfl)
      · exact hu hu'
      · exact hna (.inr hiq)
      · exact hnb hiq
  · rintro ⟨hlt, hu⟩
    obtain hlt | heq := Nat.lt_succ_iff_lt_or_eq.1 hlt
    · obtain rfl | rfl | hiq := hi.2 ⟨hlt, fun hm => hu (.inl hm)⟩
      · exact absurd (.inr (.inl rfl)) hu
      · exact absurd (.inr (.inr rfl)) hu
      · exact .inr hiq
    · exact .inl heq

/-- A merge keeps what `BUILD` has done (R131, R132, R135, R136). -/
theorem State.Builds.merge {s u : State} (h : s.Builds u 257) {a b : NodeIx} {q : List NodeIx}
    (hq : u.seq.queue = a :: b :: q) {f : NodeIx → Node}
    (hf : ∀ i, f i = internalNode i ((u.node a).w + (u.node b).w) a b)
    (hτ : ∃ τ, (State.enqueue { u with seq.queue := q } f).Building τ 257) :
    s.Builds (State.enqueue { u with seq.queue := q } f) 257 := by
  have hlt : u.seq.next < 513 := by
    have := h.next_le
    rw [hq, List.length_cons, List.length_cons] at this
    omega
  have hql : ∀ i ∈ q, i.toNat < u.seq.next := fun i hi => h.queue_lt (by simp [hq, hi])
  have hsq : u.Sorted q := (List.pairwise_cons.1 (List.pairwise_cons.1 (hq ▸ h.sorted)).2).2
  have hfw : (f (BitVec.ofNat 10 u.seq.next)).w.toNat = (u.node a).w.toNat + (u.node b).w.toNat := by
    rw [hf]
    exact h.toNat_add hq
  have htotal := h.total_two hq
  have hnew := (State.enqueue_node_next (s := { u with seq.queue := q }) (node := f) hlt).trans (hf _)
  have hold (i : NodeIx) (hi : i.toNat < u.seq.next) :=
    State.enqueue_node_of_ne (s := { u with seq.queue := q }) (node := f) hlt hi.ne
  have hlight : ∀ i : NodeIx, i.toNat < u.seq.next + 1 →
      ((State.enqueue { u with seq.queue := q } f).node i).w.toNat ≤ s.countBelow 257 :=
    State.enqueue_forall (P := fun _ N => N.w.toNat ≤ s.countBelow 257) hlt h.light
      (hfw.trans_le (htotal ▸ Nat.le_add_right _ _))
  have hweight : (State.enqueue { u with seq.queue := q } f).queueWeight = s.countBelow 257 := by
    rw [State.enqueue_queueWeight (s := { u with seq.queue := q }) hlt hql, ← htotal]
    exact congrArg (· + _) hfw
  exact {
    same := h.same
    forest := hτ
    leaves := h.leaves
    le := Nat.le_succ_of_le h.le
    leaf := fun i y hy =>
      (hold i ((h.leaves ▸ (List.getElem?_eq_some_iff.1 hy).1).trans_le h.le)).trans (h.leaf i y hy)
    merged := fun i hk hi => by
      obtain hi | hi := Nat.lt_succ_iff_lt_or_eq.1 hi
      · exact (h.merged i hk hi).congr fun j hj => hold j (hj.trans_lt hi)
      · obtain rfl := (State.eq_next_iff hlt).2 hi
        exact h.merged_next hq hold hi hnew
    past := State.enqueue_past (s := { u with seq.queue := q }) (node := f) hlt h.past
    sorted := State.Sorted.enqueue (hsq.congr fun _ _ => rfl) hlt hql
    queue := fun i => State.mem_enqueue_queue.trans (h.mem_queue_merge hq hold hlt hnew i)
    total := hweight
    light := hlight }

/-- The merge loop, one position for each node of the queue (R131). -/
theorem State.Builds.goes {s u : State} (h : s.Builds u 257) (js : List Job) :
    ∃ v a, Goes u.seq.queue.length (u.at (.merge :: js)) ((v.buildDone a).at js) ∧ s.Builds v 257 ∧
      v.seq.queue = [a] := by
  have h1 := goes_job u .merge js h.runs
  induction hd : u.seq.queue.length generalizing u with
  | zero =>
    have := s.countBelow_257_pos
    rw [← h.total, State.queueWeight, List.length_eq_zero_iff.1 hd] at this
    exact absurd this (Nat.lt_irrefl 0)
  | succ d ih =>
    match hq : u.seq.queue with
    | [] => rw [hq] at hd; cases hd
    | [a] =>
      rw [runMerge_one hq] at h1
      obtain rfl : d = 0 := by simpa [hq] using hd.symm
      exact ⟨u, a, h1, h, hq⟩
    | a :: b :: q =>
      rw [runMerge_two hq] at h1
      obtain ⟨τ, hτ⟩ := h.forest
      have hv := h.merge hq (fun _ => rfl) (hτ.merge hq _)
      have hlen := State.enqueue_queue_length { u with seq.queue := q } fun i =>
        internalNode i ((u.node a).w + (u.node b).w) a b
      rw [hq, List.length_cons, List.length_cons] at hd
      obtain ⟨v, r, h2, ht⟩ := ih hv (goes_job _ .merge js hv.runs) (hlen.trans (Nat.succ.inj hd))
      exact ⟨v, r, (h1.trans h2).cast (Nat.add_comm 1 d), ht⟩

/-! ## The command -/

/-- `BUILD` completes, with the last node of the queue as the root (R131). -/
theorem exec_build (s : State) :
    ∃ v a, exec .build s = .next (v.buildDone a).complete ∧ s.Builds v 257 ∧ v.seq.queue = [a] := by
  have h0 : s.Scans (s.accept (Instr.jobs .build)) 0 := ⟨s.builds_accept, rfl⟩
  obtain ⟨u, h1, hu⟩ := h0.goes (Nat.zero_le _) [.ret]
  obtain ⟨v, a, h2, hv, hq⟩ := hu.goes [.ret]
  have h3 := goes_ret (v.buildDone a) ⟨hv.runs.busy, hv.runs.free⟩
  refine ⟨v, a, exec_of_goes ((h1.trans h2).trans h3) rfl ?_, hv, hq⟩
  have := hu.next_le
  have : 4096 ≤ s.burst := (Nat.le_add_right _ _).trans (Nat.le_add_right _ _)
  omega

theorem State.Builds.leaves_eq {s u : State} (h : s.Builds u 257) : u.seq.leaves = s.qualifying.length :=
  h.leaves.trans (congrArg List.length s.qualifyingBelow_257)

/-- There are two nodes for each leaf, but one (R134). -/
theorem State.Builds.next_eq {s u : State} (h : s.Builds u 257) {a : NodeIx} (hq : u.seq.queue = [a]) :
    u.seq.next = 2 * s.qualifying.length - 1 := by
  have := h.next_add_length
  rw [hq, List.length_singleton, h.leaves_eq] at this
  omega

/-- The root is the last node made, since that is the one node that is no child (R134). -/
theorem State.Builds.root_eq {s u : State} (h : s.Builds u 257) {a : NodeIx} (hq : u.seq.queue = [a]) :
    a = BitVec.ofNat 10 (2 * s.qualifying.length - 2) := by
  have hnext := h.next_eq hq
  have hpos := s.length_qualifying_pos
  have hle := s.length_qualifying_le
  have hlast := toNat_index (n := 2 * s.qualifying.length - 2) (by omega)
  refine (List.mem_singleton.1 (hq ▸ (h.queue _).2 ⟨by omega, fun hu => ?_⟩)).symm
  have := h.used_lt (by omega) hu
  omega

/-- The block after `BUILD`: all but the tree, the code table and the report of the completion is as it was. -/
theorem State.Builds.complete_eq {s u : State} (h : s.Builds u 257) {a : NodeIx} (hq : u.seq.queue = [a]) :
    (u.buildDone a).complete = { s with
      nodes := u.nodes
      root := BitVec.ofNat 10 (2 * s.qualifying.length - 2)
      nodeCount := BitVec.ofNat 10 (2 * s.qualifying.length - 1)
      leafCount := BitVec.ofNat 9 s.qualifying.length
      codes := s.codes.map (fun c => { c with valid := false })
      flags := { s.flags with treeValid := true, codesValid := false, done := true, busy := false }
      errCode := 0, errInfo := 0, seq := Seq.idle } := by
  rw [← h.root_eq hq, ← h.next_eq hq, ← h.leaves_eq]
  have hsame := congrArg (fun w => (State.buildDone { w with nodes := u.nodes, seq := u.seq } a).complete) h.same
  exact hsame

/-- The block after `BUILD`. -/
theorem exec_build_inv {s t : State} (h : exec .build s = .next t) :
    ∃ u a, t = (u.buildDone a).complete ∧ s.Builds u 257 ∧ u.seq.queue = [a] := by
  obtain ⟨u, a, hu, hb, hq⟩ := exec_build s
  rw [h] at hu
  cases hu
  exact ⟨u, a, rfl, hb, hq⟩

theorem exec_build_leafCount {s t : State} (h : exec .build s = .next t) :
    t.leafCount.toNat = s.qualifying.length := by
  obtain ⟨u, a, rfl, hb, hq⟩ := exec_build_inv h
  have := s.length_qualifying_le
  rw [hb.complete_eq hq]
  dsimp only
  rw [BitVec.toNat_ofNat]
  omega

theorem exec_build_nodeCount {s t : State} (h : exec .build s = .next t) :
    t.nodeCount.toNat = 2 * s.qualifying.length - 1 := by
  obtain ⟨u, a, rfl, hb, hq⟩ := exec_build_inv h
  have := s.length_qualifying_le
  rw [hb.complete_eq hq]
  dsimp only
  rw [BitVec.toNat_ofNat]
  omega

/-- The first nodes are the leaves, in the order of their symbols (R134). -/
theorem exec_build_leaf {s t : State} (h : exec .build s = .next t) {i : NodeIx} {x : Nat}
    (hx : s.qualifying[i.toNat]? = some x) :
    t.node i = leafNode i (BitVec.ofNat 9 x) ((s.freqAt x).setWidth 41) := by
  obtain ⟨u, a, rfl, hb, hq⟩ := exec_build_inv h
  exact hb.leaf i x hx

/-- The others are merges (R134, R135). -/
theorem exec_build_merged {s t : State} (h : exec .build s = .next t) {i : NodeIx}
    (hk : s.qualifying.length ≤ i.toNat) (hi : i.toNat < 2 * s.qualifying.length - 1) :
    t.Merged s.qualifying.length i := by
  obtain ⟨u, a, rfl, hb, hq⟩ := exec_build_inv h
  rw [← hb.leaves_eq] at hk
  rw [← hb.next_eq hq] at hi
  exact hb.leaves_eq ▸ (hb.merged i hk hi).congr fun _ _ => rfl

/-- A node of the tree is the leaf of a symbol that qualifies, or a merge. -/
theorem exec_build_node {s t : State} (h : exec .build s = .next t) {i : NodeIx}
    (hi : i.toNat < 2 * s.qualifying.length - 1) :
    (∃ x, s.qualifying[i.toNat]? = some x ∧ t.node i = leafNode i (BitVec.ofNat 9 x) ((s.freqAt x).setWidth 41)) ∨
      t.Merged s.qualifying.length i := by
  obtain hk | hk := Nat.lt_or_ge i.toNat s.qualifying.length
  · exact .inl ⟨_, List.getElem?_eq_getElem hk, exec_build_leaf h (List.getElem?_eq_getElem hk)⟩
  · exact .inr (exec_build_merged h hk hi)

/-- The symbols of a tree are those of the leaves among its nodes. -/
theorem State.Holds.mem_syms_iff {s : State} {i : NodeIx} {T : Tree} (h : s.Holds i T) (x : Symbol) :
    x ∈ T.syms ↔ ∃ j : NodeIx, j.toNat ∈ s.indices i T ∧ (s.node j).leaf = true ∧ (s.node j).sym = x := by
  induction T generalizing i with
  | leaf y =>
    obtain ⟨hl, rfl⟩ := h
    simp only [Tree.syms, State.indices, List.mem_singleton, BitVec.toNat_inj, exists_eq_left, hl, true_and]
    exact eq_comm
  | node l r ihl ihr =>
    obtain ⟨hi, hl, hr⟩ := h
    rw [Tree.syms, List.mem_append, ihl hl, ihr hr, ← exists_or]
    refine exists_congr fun j => ?_
    rw [← or_and_right, ← List.mem_append, State.indices, List.mem_cons]
    refine and_congr_left fun hj => ⟨.inr, fun hm => hm.resolve_left fun hji => ?_⟩
    obtain rfl := BitVec.eq_of_toNat_eq hji
    rw [hi] at hj
    exact Bool.false_ne_true hj.1

theorem toNat_symbol {x : Nat} (h : x ≤ 256) : (BitVec.ofNat 9 x).toNat = x := by
  rw [BitVec.toNat_ofNat]
  omega

/-! ## The statements on `BUILD` -/

/-- Settles O34: the nodes are the leaves of the symbols examined, and the merges that follow them. -/
theorem buildNumbersLeavesThenInternalNodes : Obligations.BuildNumbersLeavesThenInternalNodes := by
  intro s
  obtain ⟨u, a, h, hb, hq⟩ := exec_build s
  refine ⟨u.nodes, h.trans (congrArg _ (hb.complete_eq hq)), s.length_qualifying_pos, s.length_qualifying_le,
    ?leaves, ?internal, ?past⟩
  all_goals
    intro i
    have hi := toNat_index i.isLt
    rw [show u.nodes[i] = u.node (BitVec.ofNat 10 i) from (State.node_getElem hi i.isLt).symm]
  case leaves =>
    intro x hx
    have hx256 := (State.mem_qualifying.1 (List.mem_of_getElem? hx)).1
    rw [← hi] at hx
    rw [hb.leaf _ x hx]
    exact ⟨rfl, toNat_symbol hx256, s.toNat_setWidth_freqAt x⟩
  case internal =>
    intro hk hn
    rw [← hi, ← hb.leaves_eq] at hk
    rw [← hi, ← hb.next_eq hq] at hn
    exact (hb.merged _ hk hn).internal
  case past =>
    intro hn
    rw [← hi, ← hb.next_eq hq] at hn
    exact (hb.past _ hn).trans (State.node_getElem hi i.isLt)

/-- Settles O35: each internal node was made by a merge of the first two nodes of the queue, which is in order. -/
theorem buildMergesTheTwoLeastKeys : Obligations.BuildMergesTheTwoLeastKeys := by
  intro s t h n hk hn
  rw [exec_build_leafCount h] at hk hn ⊢
  have hle := s.length_qualifying_le
  have hn' := toNat_index (n := n) (by omega)
  have hm := exec_build_merged h (i := BitVec.ofNat 10 n) (hn'.symm ▸ hk) (hn'.symm ▸ hn)
  obtain ⟨-, -, hl, hr, hlf, hrf, hord, hleast⟩ := hm
  rw [hn'] at hl hr hlf hrf hleast
  refine ⟨hl, hr, hlf, hrf, hord, fun m hm hf => ?_⟩
  have hm' := toNat_index (n := m) (by omega)
  have := hleast (BitVec.ofNat 10 m) (hm'.symm ▸ hm) (hm'.symm ▸ hf)
  rwa [← BitVec.toNat_inj, ← BitVec.toNat_inj, hm'] at this

/-- Settles O36: the last tree of the forest, whose leaves are those of the symbols examined. -/
theorem buildMakesAValidTree : Obligations.BuildMakesAValidTree := by
  intro s t h
  obtain ⟨T, hT⟩ : ∃ T, t.HoldsTree T := by
    obtain ⟨u, a, rfl, hb, hq⟩ := exec_build_inv h
    obtain ⟨τ, hτ⟩ := hb.forest
    exact ⟨τ a, (hτ.holdsTree hq).congr rfl rfl rfl rfl rfl⟩
  have hcount := exec_build_nodeCount h
  refine ⟨T, hT, fun x => ?_, fun i hi => ?_⟩
  · rw [hT.holds.mem_syms_iff]
    simp only [hT.indices.mem_iff, List.mem_range, ← hT.nodeCount, hcount]
    constructor
    · rintro ⟨j, hj, hl, rfl⟩
      obtain ⟨x, hx, hjx⟩ | hm := exec_build_node h hj
      · have hq := State.mem_qualifying.1 (List.mem_of_getElem? hx)
        rw [hjx]
        show (BitVec.ofNat 9 x).toNat ≤ 256 ∧ s.freqAt (BitVec.ofNat 9 x).toNat ≠ 0#32
        rwa [toNat_symbol hq.1]
      · rw [hm.internal] at hl
        cases hl
    · intro hx
      obtain ⟨k, hk⟩ := List.mem_iff_getElem?.1 (State.mem_qualifying.2 hx)
      have hlt := (List.getElem?_eq_some_iff.1 hk).1
      have hle := s.length_qualifying_le
      have hk' := toNat_index (n := k) (by omega)
      refine ⟨BitVec.ofNat 10 k, by omega, ?_⟩
      rw [exec_build_leaf h (hk'.symm ▸ hk)]
      exact ⟨rfl, by simp [leafNode]⟩
  · rw [hcount] at hi
    obtain ⟨x, hx, hix⟩ | hm := exec_build_node h hi
    · have hq := State.mem_qualifying.1 (List.mem_of_getElem? hx)
      rw [hix]
      refine ⟨fun _ => ?_, nofun⟩
      show ((s.freqAt x).setWidth 41).toNat = (s.freqAt (BitVec.ofNat 9 x).toNat).toNat
      rw [toNat_symbol hq.1, s.toNat_setWidth_freqAt]
    · exact ⟨fun hl => absurd (hm.internal.symm.trans hl) Bool.false_ne_true, fun _ => hm.weight⟩

/-- Settles O37: the weight of the queue is that of all counts, and the root is all that it holds at the end. -/
theorem buildRootWeighsAllCounts : Obligations.BuildRootWeighsAllCounts := by
  intro s t h
  have hcount := exec_build_nodeCount h
  obtain ⟨u, a, rfl, hb, hq⟩ := exec_build_inv h
  have hroot : (u.node a).w.toNat = s.countBelow 257 := by
    rw [← hb.total, State.queueWeight, hq, List.map_singleton, List.sum_singleton]
  refine ⟨hroot, hroot.trans_le s.countBelow_257_le, fun i hi => ?_⟩
  rw [hcount, ← hb.next_eq hq] at hi
  exact (hb.light i hi).trans hroot.ge

end Sys2Proof.Machine
end

section
/-! SUPPORT. The code table that `GENCODES` writes: its codes are those of the tree's leaves, none of them
begins another, and they fill the code space (R150-R159). -/

namespace Sys2Proof.Machine

/-! ## The command -/

/-- `GENCODES` writes the code table of any legal tree that the store holds, whatever else the store
holds (R151, R156). -/
theorem goes_gencodes_of_holds {T : Tree} {s : State} (hr : s.Runs) (hv : s.flags.treeValid = true)
    (hT : s.Holds s.root T) (hL : T.Legal) (js : List Job) :
    Goes (T.size + 2) (s.at (.gencodes :: js))
      ({ s with codes := T.codeTable s.codes, flags.codesValid := true }.at js) := by
  have h1 := goes_job s .gencodes js hr
  rw [runJob, runGencodes, if_pos (by exact hv)] at h1
  have h2 := goes_walk (s := { s with codes := invalidated s.codes }) ⟨hr.busy, hr.free⟩ (i := s.root)
    (hT.congr rfl) [] (.codesDone :: js)
  have h3 := goes_job { s with codes := walked T [] (invalidated s.codes) } .codesDone js ⟨hr.busy, hr.free⟩
  rw [walked_invalidated hL] at h2 h3
  exact ((h1.trans h2).trans h3).cast (by omega)

/-- Settles O38: the walk of a legal tree writes its code table, and takes no more positions than a step has. -/
theorem gencodesWritesTheCodeTable : Obligations.GencodesWritesTheCodeTable := by
  intro s T hv hT hL
  have hr := accept_runs s (Instr.jobs .gencodes)
  have hwalk := goes_gencodes_of_holds hr hv (hT.congr rfl) hL [.ret]
  have hburst : T.size + 2 + 1 ≤ s.burst := by
    have := hL.size_le
    unfold State.burst
    omega
  exact exec_of_goes (hwalk.trans (goes_ret _ ⟨hr.busy, hr.free⟩)) rfl hburst

theorem exec_gencodes_holdsCodes {s t : State} {T : Tree} (hT : s.HoldsTree T) (h : exec .gencodes s = .next t) :
    t.HoldsCodes T := by
  rw [gencodesWritesTheCodeTable s T hT.valid hT.holds hT.legal] at h
  cases h
  exact Tree.holdsCodes_codeTable rfl

/-! ## A code table that is the tree's -/

theorem State.code_past {s : State} {x : Symbol} (hx : 256 < x.toNat) : s.code x = Code.blank := by
  simp [State.code, Vector.getD, show ¬ x.toNat < 257 by omega]

theorem State.code_ofNat (s : State) (k : Fin 257) : s.code (BitVec.ofNat 9 k) = s.codes[k] := by
  rw [State.code, toNat_symbol (by omega)]
  simp [Vector.getD]

/-- What the table says of a symbol is the symbol's code in the tree (R58). -/
theorem State.HoldsCodes.code_eq {s : State} {T : Tree} (h : s.HoldsCodes T) {x : Symbol} (hx : x.toNat ≤ 256) :
    T.code x = if (s.code x).valid then .some (s.code x).bits else .none := by
  cases hc : T.code x with
  | none => simp [h.none hx hc]
  | some p =>
    obtain ⟨hvalid, hbits⟩ := h.some hx hc
    simp [hvalid, hbits]

theorem State.HoldsCodes.code_of_valid {s : State} {T : Tree} (h : s.HoldsCodes T) {x : Symbol}
    (hv : (s.code x).valid = true) : T.code x = .some (s.code x).bits := by
  have hx : x.toNat ≤ 256 := by
    by_contra hx
    rw [State.code_past (by omega)] at hv
    cases hv
  rw [h.code_eq hx, if_pos hv]

/-- A symbol has an entry exactly if it is a leaf (R154). -/
theorem State.HoldsCodes.valid_iff {s : State} {T : Tree} (h : s.HoldsCodes T) (hL : T.Legal) (x : Symbol) :
    (s.code x).valid = true ↔ x ∈ T.syms := by
  constructor
  · intro hv
    rw [← T.code_isSome, h.code_of_valid hv, Option.isSome_some]
  · intro hx
    obtain ⟨p, hp⟩ := Option.isSome_iff_exists.1 ((T.code_isSome x).2 hx)
    exact (h.some (hL.2 x hx) hp).1

/-! ## Prefixes -/

/-- A code of the left subtree, after the step to the left. -/
theorem Tree.code_node_left {l r : Tree} {x : Symbol} {p : List Bool} :
    (Tree.node l r).code x = some (false :: p) ↔ l.code x = some p := by
  cases hl : l.code x <;> simp [Tree.code, hl]

/-- A code of the right subtree, after the step to the right. -/
theorem Tree.code_node_right {l r : Tree} {x : Symbol} {p : List Bool} :
    (Tree.node l r).code x = some (true :: p) ↔ l.code x = none ∧ r.code x = some p := by
  cases hl : l.code x <;> simp [Tree.code, hl]

/-- Two symbols, one's code beginning the other's, are one: the path that ends first ends at a leaf (R154). -/
theorem Tree.eq_of_code_prefix {T : Tree} {x y : Symbol} {p q : List Bool} (hx : T.code x = some p)
    (hy : T.code y = some q) (hpq : p <+: q) : x = y := by
  induction T generalizing p q with
  | leaf z =>
    have hzx : x ∈ (Tree.leaf z).syms := (Tree.code_isSome _ x).1 (by simp [hx])
    have hzy : y ∈ (Tree.leaf z).syms := (Tree.code_isSome _ y).1 (by simp [hy])
    exact (List.mem_singleton.1 hzx).trans (List.mem_singleton.1 hzy).symm
  | node l r ihl ihr =>
    by_contra hxy
    cases p with
    | nil => exact Tree.code_ne_nil hxy hx hy rfl
    | cons b p =>
      obtain ⟨c, rfl⟩ := hpq
      cases b with
      | false => exact hxy (ihl (code_node_left.1 hx) (code_node_left.1 hy) (List.prefix_append p c))
      | true => exact hxy (ihr (code_node_right.1 hx).2 (code_node_right.1 hy).2 (List.prefix_append p c))

/-- Settles O39: the table is the tree's, and no leaf lies on another leaf's path. -/
theorem codesArePrefixFree : Obligations.CodesArePrefixFree := by
  intro s t T hT h
  have hC := exec_gencodes_holdsCodes hT h
  exact ⟨hC.valid_iff hT.legal, fun x y hxy hx hy hpre =>
    hxy (Tree.eq_of_code_prefix (hC.code_of_valid hx) (hC.code_of_valid hy) hpre)⟩

/-! ## Kraft's sum -/

/-- What a code takes up of a code space of `2 ^ n` words of `n` bits: the words that begin with it (R159). -/
def codeShare (n : Nat) : Option (List Bool) → Nat
  | some p => 2 ^ (n - p.length)
  | none => 0

/-- A symbol's share in a tree is its share in the subtree that it is a leaf of. -/
theorem Tree.codeShare_node {l r : Tree} (h : (Tree.node l r).Legal) (n : Nat) (x : Symbol) :
    codeShare (n + 1) ((Tree.node l r).code x) = codeShare n (l.code x) + codeShare n (r.code x) := by
  cases hl : l.code x with
  | none => cases hr : r.code x <;> simp [Tree.code, hl, hr, codeShare]
  | some p =>
    have hxl : x ∈ l.syms := (l.code_isSome x).1 (by simp [hl])
    have hr : r.code x = none := by
      rw [← Option.not_isSome_iff_eq_none, Tree.code_isSome]
      exact fun hxr => (List.nodup_append.1 h.1).2.2 x hxl x hxr rfl
    simp [Tree.code, hl, hr, codeShare]

theorem ofNat_symbol_inj {j k : Fin 257} : BitVec.ofNat 9 j = BitVec.ofNat 9 k ↔ j = k := by
  rw [← BitVec.toNat_inj, toNat_symbol (by omega), toNat_symbol (by omega), Fin.ext_iff]

/-- The codes of a tree fill the code space, if its words are long enough for every code (R159). -/
theorem Tree.sum_codeShare {T : Tree} (hL : T.Legal) {n : Nat} (hn : T.syms.length ≤ n + 1) :
    ∑ k : Fin 257, codeShare n (T.code (BitVec.ofNat 9 k)) = 2 ^ n := by
  induction T generalizing n with
  | leaf x =>
    have hx : x.toNat ≤ 256 := hL.2 x (List.mem_singleton_self x)
    obtain ⟨j, rfl⟩ : ∃ j : Fin 257, x = BitVec.ofNat 9 j := ⟨⟨x.toNat, by omega⟩, by simp⟩
    calc ∑ k : Fin 257, codeShare n ((Tree.leaf (BitVec.ofNat 9 j)).code (BitVec.ofNat 9 k))
      _ = ∑ k : Fin 257, if j = k then 2 ^ n else 0 := by
        refine Finset.sum_congr rfl fun k _ => ?_
        simp only [Tree.code, ofNat_symbol_inj]
        split <;> rfl
      _ = 2 ^ n := by rw [Finset.sum_ite_eq, if_pos (Finset.mem_univ j)]
  | node l r ihl ihr =>
    rw [Tree.syms, List.length_append] at hn
    have hl0 : 0 < l.syms.length := List.length_pos_of_ne_nil l.syms_ne_nil
    have hr0 : 0 < r.syms.length := List.length_pos_of_ne_nil r.syms_ne_nil
    obtain ⟨m, rfl⟩ : ∃ m, n = m + 1 := ⟨n - 1, by omega⟩
    simp only [Tree.codeShare_node hL, Finset.sum_add_distrib]
    rw [ihl hL.left (by omega), ihr hL.right (by omega), pow_succ]
    omega

/-- What an entry adds to Kraft's sum is its symbol's share of the code space. -/
theorem State.HoldsCodes.kraft_summand {s : State} {T : Tree} (h : s.HoldsCodes T) (n : Nat) (k : Fin 257) :
    (if s.codes[k].valid then 2 ^ (n - s.codes[k].bits.length) else 0) =
      codeShare n (T.code (BitVec.ofNat 9 k)) := by
  have hk : k.val ≤ 256 := Nat.le_of_lt_succ k.isLt
  rw [h.code_eq ((toNat_symbol hk).trans_le hk), s.code_ofNat]
  split <;> rfl

/-- Settles O40: a code is shorter than the number of leaves, and the leaves' shares fill the code space. -/
theorem codeLengthsMeetKraftEquality : Obligations.CodeLengthsMeetKraftEquality := by
  intro s t T hT h
  have hC := exec_gencodes_holdsCodes hT h
  have hleaves := hT.legal.length_le
  refine ⟨fun k hk => ?_, ?_⟩
  · rw [← t.code_ofNat] at hk ⊢
    have := Tree.code_length_lt (hC.code_of_valid hk)
    omega
  · simp only [hC.kraft_summand]
    rw [← Fin.sum_univ_def]
    exact Tree.sum_codeShare hT.legal hleaves

end Sys2Proof.Machine
end

section
/-! SUPPORT. `HDRWR`: the magic and the header of the tree in the store, to an accepting sink and to one that fails
(R171-R174). -/

namespace Sys2Proof.Machine

/-! ## The command -/

/-- A step has room for 4096 positions at least (log entry 1). -/
theorem State.le_burst (s : State) {n : Nat} (hn : n ≤ 4096) : n ≤ s.burst := by
  rw [State.burst]
  exact Nat.le_add_right_of_le (Nat.le_add_right_of_le hn)

/-- `HDRWR` begins with the magic, and then the root (R171). -/
theorem goes_hdrwr {s : State} (hr : s.Runs) (hv : s.flags.treeValid = true) (m : Bool) (js : List Job) :
    Goes 1 (s.at (.hdrwr m :: js))
      (s.at ((magicWrite m).map (fun w => .put w.1 w.2) ++ .emit s.root :: js)) := by
  have h := goes_job s (.hdrwr m) js hr
  rw [runJob, runHdrwr, if_pos (by exact hv)] at h
  cases m <;> exact h

theorem flatMap_magicWrite (m : Bool) : (magicWrite m).flatMap (fun w => bin w.1 w.2) = magicBits m := by
  cases m <;> simp [magicWrite, magicBits]

theorem magicWrite_length_le (m : Bool) : (magicWrite m).length ≤ 1 := by cases m <;> simp [magicWrite]

theorem flatMap_magicWrite_writes (m : Bool) (T : Tree) :
    (magicWrite m ++ T.writes).flatMap (fun w => bin w.1 w.2) = magicBits m ++ T.ser := by
  rw [List.flatMap_append, flatMap_magicWrite, Tree.flatMap_writes]

/-- Settles O41: the root's subtree is emitted behind the magic, in no more positions than a step has. -/
theorem hdrwrWritesTheHeader : Obligations.HdrwrWritesTheHeader := by
  intro s T m hv hT hL ha
  refine ⟨?_, flatMap_magicWrite_writes m T, by have := T.ser_length; omega⟩
  have hr := accept_runs s (Instr.jobs (.hdrwr m))
  have hput := goes_puts hr ha (magicWrite m) (.emit s.root :: [.ret])
  have hemit := goes_emit (hr.wrote (magicWrite m)) (State.wrote_accepts ha _) (hT.congr rfl) [.ret]
  rw [State.wrote_append] at hemit
  refine exec_of_goes ((((goes_hdrwr hr hv m [.ret]).trans hput).trans hemit).trans
    (goes_ret _ (hr.wrote _))) rfl (s.le_burst ?_)
  have := hL.size_le
  have := hL.length_le
  have := T.writes_length
  have := magicWrite_length_le m
  omega

/-! ## One write, by the sink's next answer -/

theorem Sink.replyAt_zero {α : Type} (k : Sink α) : k.replyAt 0 = k.reply := by
  cases h : k.answers <;> simp [Sink.replyAt, Sink.reply, h]

/-- A write to which the sink's next answer is `Ok` (R89). -/
theorem State.bitWrite_ok {s : State} (hr : s.seq.outstanding = none) (ha : s.ports.bitSink.answering = true)
    (h : s.ports.bitSink.reply = .ok) (n v : Nat) : s.bitWrite n v = some (.ok, s.wrote [(n, v)]) := by
  have : { s.seq with outstanding := none } = s.seq := by rw [← hr]
  simp [State.bitWrite, ha, h, State.wrote, State.answered, Sink.replied, this]

/-- The effect of a write that the sink has answered with `Err`: nothing lands (R89). -/
def State.refusedWrite (s : State) (w : Nat × Nat) : State :=
  { s with ports := { s.ports with
      bitSink := { s.ports.bitSink with answers := s.ports.bitSink.answers.tail }
      trace := s.ports.trace ++ [Request.bitWrite w.1 w.2] } }

/-- A write to which the sink's next answer is `Err` (R89). -/
theorem State.bitWrite_err {s : State} (hr : s.seq.outstanding = none) (ha : s.ports.bitSink.answering = true)
    (h : s.ports.bitSink.reply = .err) (n v : Nat) : s.bitWrite n v = some (.err, s.refusedWrite (n, v)) := by
  have : { s.seq with outstanding := none } = s.seq := by rw [← hr]
  simp [State.bitWrite, ha, h, State.refusedWrite, State.answered, Sink.replied, this]

theorem Sink.FailsAt.reply_ok {α : Type} {k : Sink α} {j : Nat} (h : k.FailsAt (j + 1)) : k.reply = .ok := by
  obtain ⟨-, hok, -⟩ := h
  exact k.replyAt_zero ▸ hok 0 (Nat.succ_pos j)

theorem Sink.FailsAt.reply_err {α : Type} {k : Sink α} (h : k.FailsAt 0) : k.reply = .err :=
  k.replyAt_zero ▸ h.2.2

/-- After an accepted write the error is one write nearer. -/
theorem State.wrote_failsAt {s : State} {j : Nat} (h : s.ports.bitSink.FailsAt (j + 1)) (w : Nat × Nat) :
    (s.wrote [w]).ports.bitSink.FailsAt j := by
  have hrep (i : Nat) : (s.wrote [w]).ports.bitSink.replyAt i = s.ports.bitSink.replyAt (i + 1) := by
    simp [Sink.replyAt, State.wrote, List.getD_eq_getElem?_getD]
  obtain ⟨ha, hok, herr⟩ := h
  exact ⟨ha, fun i hi => (hrep i).trans (hok (i + 1) (by omega)), (hrep j).trans herr⟩

/-! ## Writes one by one -/

/-- The jobs `js` of the serializer, with the trees of their nodes in the store, stand for the writes `ws` (R171). -/
inductive State.Emits (s : State) : List Job → List (Nat × Nat) → Prop where
  | nil : Emits s [] []
  | put {n v : Nat} {js : List Job} {ws : List (Nat × Nat)} (h : Emits s js ws) :
      Emits s (.put n v :: js) ((n, v) :: ws)
  | emit {i : NodeIx} {T : Tree} {js : List Job} {ws : List (Nat × Nat)} (hT : s.Holds i T) (h : Emits s js ws) :
      Emits s (.emit i :: js) (T.writes ++ ws)

theorem State.Emits.congr {s t : State} {js : List Job} {ws : List (Nat × Nat)} (h : s.Emits js ws)
    (hn : s.nodes = t.nodes) : t.Emits js ws := by
  induction h with
  | nil => exact .nil
  | put _ ih => exact .put ih
  | emit hT _ ih => exact .emit (hT.congr hn) ih

/-- In at most one position the serializer stands before its next write. -/
theorem State.Emits.goes_next {s : State} (hr : s.Runs) {js : List Job} {w : Nat × Nat} {ws : List (Nat × Nat)}
    (h : s.Emits js (w :: ws)) (ks : List Job) :
    ∃ n ls, n ≤ 1 ∧ s.Emits ls ws ∧ Goes n (s.at (js ++ ks)) (s.at (.put w.1 w.2 :: (ls ++ ks))) := by
  generalize hx : w :: ws = xs at h
  cases h with
  | nil => cases hx
  | @put n v ls _ h => cases hx; exact ⟨0, ls, Nat.zero_le 1, h, Goes.refl _⟩
  | @emit i T ls vs hT h =>
    have hgo := goes_job s (.emit i) (ls ++ ks) hr
    rw [runJob, runEmit, State.at_node] at hgo
    cases T with
    | leaf x =>
      obtain ⟨hleaf, hsym⟩ := hT
      cases hx
      rw [hsym, if_pos hleaf] at hgo
      exact ⟨1, .put 9 x.toNat :: ls, le_rfl, .put h, hgo⟩
    | node l r =>
      obtain ⟨hleaf, hl, hr'⟩ := hT
      cases hx
      rw [hleaf, if_neg Bool.false_ne_true] at hgo
      have hsub : s.Emits (.emit (s.node i).l :: .emit (s.node i).r :: ls) (l.writes ++ (r.writes ++ vs)) :=
        .emit hl (.emit hr' h)
      rw [← List.append_assoc] at hsub
      exact ⟨1, _, le_rfl, hsub, hgo⟩

/-- The serializer stops at the first write that the sink refuses (R174). -/
theorem State.Emits.goes_refused {j : Nat} {s : State} (hr : s.Runs) (hf : s.ports.bitSink.FailsAt j) {js : List Job}
    {ws : List (Nat × Nat)} (h : s.Emits js ws) {w : Nat × Nat} (hw : ws[j]? = some w) (ks : List Job) :
    ∃ n, n ≤ 2 * (j + 1) ∧
      Goes n (s.at (js ++ ks)) (((s.wrote (ws.take j)).refusedWrite w).raise .io 1) := by
  induction j generalizing s js ws with
  | zero =>
    obtain ⟨ws, rfl⟩ : ∃ vs, ws = w :: vs := by cases ws <;> simp_all
    obtain ⟨n, ls, hn, -, hnext⟩ := h.goes_next hr ks
    have hput := goes_job s (.put w.1 w.2) (ls ++ ks) hr
    rw [runJob, runPut, State.bitWrite_err (s := s.at (ls ++ ks)) hr.free hf.1 hf.reply_err] at hput
    refine ⟨n + 1, by omega, ?_⟩
    rw [List.take_zero, State.wrote_nil]
    exact hnext.trans hput
  | succ j ih =>
    obtain ⟨v, ws, rfl⟩ : ∃ v vs, ws = v :: vs := by cases ws <;> simp_all
    obtain ⟨n, ls, hn, hls, hnext⟩ := h.goes_next hr ks
    have hput := goes_job s (.put v.1 v.2) (ls ++ ks) hr
    rw [runJob, runPut, State.bitWrite_ok (s := s.at (ls ++ ks)) hr.free hf.1 hf.reply_ok] at hput
    obtain ⟨k, hk, hrest⟩ := ih (hr.wrote [v]) (State.wrote_failsAt hf v) (hls.congr rfl) (by simpa using hw)
    rw [State.wrote_append] at hrest
    exact ⟨n + 1 + k, by omega, (hnext.trans hput).trans hrest⟩

/-- The jobs behind `HDRWR` stand for the magic and the header (R172). -/
theorem State.Holds.emits {s : State} {T : Tree} (hT : s.Holds s.root T) (m : Bool) :
    s.Emits ((magicWrite m).map (fun w => .put w.1 w.2) ++ [.emit s.root]) (magicWrite m ++ T.writes) := by
  have h : s.Emits [.emit s.root] (T.writes ++ []) := .emit hT .nil
  rw [List.append_nil] at h
  cases m
  · exact h
  · exact .put h

/-- Settles O42: the serializer goes from write to write up to the one that is refused. -/
theorem hdrwrStopsAtASinkError : Obligations.HdrwrStopsAtASinkError := by
  intro s T m j w hv hT hL hf hw
  have hr := accept_runs s (Instr.jobs (.hdrwr m))
  have hT' : (s.accept (Instr.jobs (.hdrwr m))).Holds s.root T := hT.congr rfl
  obtain ⟨n, hn, hstop⟩ := (hT'.emits m).goes_refused hr hf hw [.ret]
  rw [List.append_assoc] at hstop
  refine exec_of_goes ((goes_hdrwr hr hv m [.ret]).trans hstop) rfl (s.le_burst ?_)
  have hj : j < (magicWrite m ++ T.writes).length := (List.getElem?_eq_some_iff.1 hw).1
  rw [List.length_append] at hj
  have := magicWrite_length_le m
  have := T.writes_length
  have := hL.length_le
  omega

end Sys2Proof.Machine
end

section
/-! SUPPORT. The fields of a header, one after another, and which of them `HDRRD` takes (R110, R185). -/

namespace Sys2Proof.Machine

/-! ## The first fields of a header -/

/-- A field of a header: the first one, the symbol of a leaf, or a field of the left or the right subtree. -/
theorem Tree.field_induction {motive : (T : Tree) → (k : Nat) → k < T.writes.length → Prop}
    (first : ∀ T h, motive T 0 h) (sym : ∀ x h, motive (.leaf x) 1 h)
    (left : ∀ l r k hk h, motive l k hk → motive (.node l r) (k + 1) h)
    (right : ∀ l r k hk h, motive r k hk → motive (.node l r) (l.writes.length + k + 1) h)
    (T : Tree) (k : Nat) (hk : k < T.writes.length) : motive T k hk := by
  induction T generalizing k with
  | leaf x =>
    match k, hk with
    | 0, _ => exact first _ _
    | 1, _ => exact sym x _
  | node l r ihl ihr =>
    cases k with
    | zero => exact first _ hk
    | succ k =>
      by_cases hl : k < l.writes.length
      · exact left l r k hl hk (ihl k hl)
      · obtain ⟨d, rfl⟩ := Nat.exists_eq_add_of_le (Nat.le_of_not_lt hl)
        have hd : d < r.writes.length := by simp [Tree.writes] at hk; omega
        exact right l r d hd hk (ihr d hd)

theorem Tree.writes_getElem_left {l r : Tree} {k : Nat} (hk : k < l.writes.length) :
    (Tree.node l r).writes[k + 1]? = l.writes[k]? := by
  simp [Tree.writes, List.getElem?_append_left hk]

theorem Tree.writes_getElem_right (l r : Tree) (k : Nat) :
    (Tree.node l r).writes[l.writes.length + k + 1]? = r.writes[k]? := by
  simp [Tree.writes, List.getElem?_append_right]

theorem Tree.writes_take_left {l r : Tree} {k : Nat} (hk : k ≤ l.writes.length) :
    (Tree.node l r).writes.take (k + 1) = (1, 0) :: l.writes.take k := by
  simp [Tree.writes, List.take_append_of_le_length hk]

theorem Tree.writes_take_right (l r : Tree) (k : Nat) :
    (Tree.node l r).writes.take (l.writes.length + k + 1) = (1, 0) :: (l.writes ++ r.writes.take k) := by
  simp [Tree.writes, List.take_append]

/-- A header has a symbol field for each leaf. -/
theorem Tree.countP_writes (T : Tree) : T.writes.countP (fun w => w.1 = 9) = T.syms.length := by
  induction T with
  | leaf x => rfl
  | node l r ihl ihr => simpa [Tree.writes, Tree.syms] using congrArg₂ (· + ·) ihl ihr

theorem Tree.countP_take_le (T : Tree) (k : Nat) : (T.writes.take k).countP (fun w => w.1 = 9) ≤ T.syms.length :=
  T.countP_writes ▸ (List.take_sublist k T.writes).countP_le

/-- A header has an internal node's discriminator for each internal node. -/
theorem Tree.count_writes (T : Tree) : T.writes.count (1, 0) = T.ints := by
  induction T with
  | leaf x => simp [Tree.writes, Tree.ints]
  | node l r ihl ihr => simp [Tree.writes, Tree.ints, ihl, ihr]; omega

@[simp] theorem Tree.bitsTo_all (T : Tree) : T.bitsTo T.writes.length = T.ser := by
  rw [Tree.bitsTo, List.take_length, Tree.flatMap_writes]

@[simp] theorem Tree.symsTo_all (T : Tree) : T.symsTo T.writes.length = T.syms := by
  rw [Tree.symsTo, List.take_length, Tree.countP_writes, List.take_length]

@[simp] theorem Tree.intsTo_all (T : Tree) : T.intsTo T.writes.length = T.ints := by
  rw [Tree.intsTo, List.take_length, Tree.count_writes]

@[simp] theorem Tree.bitsTo_zero (T : Tree) : T.bitsTo 0 = [] := rfl

@[simp] theorem Tree.symsTo_zero (T : Tree) : T.symsTo 0 = [] := rfl

@[simp] theorem Tree.intsTo_zero (T : Tree) : T.intsTo 0 = 0 := rfl

@[simp] theorem Tree.bitsTo_leaf_one (x : Symbol) : (Tree.leaf x).bitsTo 1 = [true] := rfl

@[simp] theorem Tree.symsTo_leaf_one (x : Symbol) : (Tree.leaf x).symsTo 1 = [] := rfl

@[simp] theorem Tree.intsTo_leaf_one (x : Symbol) : (Tree.leaf x).intsTo 1 = 0 := rfl

theorem Tree.bitsTo_left {l r : Tree} {k : Nat} (hk : k ≤ l.writes.length) :
    (Tree.node l r).bitsTo (k + 1) = false :: l.bitsTo k := by
  rw [Tree.bitsTo, Tree.writes_take_left hk]
  rfl

@[simp] theorem Tree.bitsTo_right (l r : Tree) (k : Nat) :
    (Tree.node l r).bitsTo (l.writes.length + k + 1) = false :: (l.ser ++ r.bitsTo k) := by
  rw [Tree.bitsTo, Tree.writes_take_right, List.flatMap_cons, List.flatMap_append, Tree.flatMap_writes]
  rfl

theorem Tree.symsTo_left {l r : Tree} {k : Nat} (hk : k ≤ l.writes.length) :
    (Tree.node l r).symsTo (k + 1) = l.symsTo k := by
  rw [Tree.symsTo, Tree.writes_take_left hk]
  simp [Tree.syms, Tree.symsTo, List.take_append_of_le_length (l.countP_take_le k)]

@[simp] theorem Tree.symsTo_right (l r : Tree) (k : Nat) :
    (Tree.node l r).symsTo (l.writes.length + k + 1) = l.syms ++ r.symsTo k := by
  rw [Tree.symsTo, Tree.writes_take_right]
  simp [Tree.syms, Tree.symsTo, l.countP_writes, List.take_append]

theorem Tree.intsTo_left {l r : Tree} {k : Nat} (hk : k ≤ l.writes.length) :
    (Tree.node l r).intsTo (k + 1) = l.intsTo k + 1 := by
  rw [Tree.intsTo, Tree.writes_take_left hk, List.count_cons_self]
  rfl

@[simp] theorem Tree.intsTo_right (l r : Tree) (k : Nat) :
    (Tree.node l r).intsTo (l.writes.length + k + 1) = l.ints + r.intsTo k + 1 := by
  rw [Tree.intsTo, Tree.writes_take_right, List.count_cons_self, List.count_append, Tree.count_writes]
  rfl

/-- One field more. -/
theorem Tree.bitsTo_succ {T : Tree} {k : Nat} {w : Nat × Nat} (hw : T.writes[k]? = some w) :
    T.bitsTo (k + 1) = T.bitsTo k ++ bin w.1 w.2 := by
  simp [Tree.bitsTo, List.take_add_one, hw]

/-- The first fields have a bit each at least, and no more than their nodes and symbols have. -/
theorem Tree.bitsTo_length_bounds {T : Tree} {k : Nat} (hk : k < T.writes.length) :
    k ≤ (T.bitsTo k).length ∧ (T.bitsTo k).length ≤ T.intsTo k + 10 * (T.symsTo k).length + 1 := by
  induction T, k, hk using Tree.field_induction with
  | first T h => simp
  | sym x h => simp
  | left l r k hk h ih => simp [Tree.bitsTo_left hk.le, Tree.symsTo_left hk.le, Tree.intsTo_left hk.le]; omega
  | right l r k hk h ih =>
    have := l.ser_length
    have := l.ints_eq
    have := l.writes_length
    simp
    omega

/-! ## The fields that are taken -/

/-- In the first `k` fields of the header there is nothing that `HDRRD` refuses once it has seen the symbols `seen` and
`ints` internal nodes (R185). -/
def Tree.CleanAfter (T : Tree) (seen : List Symbol) (ints k : Nat) : Prop :=
  ((T.symsTo k).reverse ++ seen).Nodup ∧ (∀ x ∈ T.symsTo k, x.toNat ≤ 256) ∧ ints + T.intsTo k ≤ 256

theorem Tree.cleanAfter_nil {T : Tree} {k : Nat} : T.CleanAfter [] 0 k ↔ T.CleanTo k := by
  simp [Tree.CleanAfter, Tree.CleanTo]

/-- What a whole clean header leaves behind is within the bounds again. -/
theorem Tree.CleanAfter.all {T : Tree} {seen : List Symbol} {ints : Nat}
    (h : T.CleanAfter seen ints T.writes.length) : (T.syms.reverse ++ seen).Nodup ∧ ints + T.ints ≤ 256 := by
  obtain ⟨hn, -, hi⟩ := h
  rw [Tree.symsTo_all] at hn
  rw [Tree.intsTo_all] at hi
  exact ⟨hn, hi⟩

theorem Tree.cleanAfter_zero {T : Tree} {seen : List Symbol} {ints : Nat} (hs : seen.Nodup) (hi : ints ≤ 256) :
    T.CleanAfter seen ints 0 := ⟨hs, nofun, hi⟩

theorem Tree.cleanAfter_leaf_one {x : Symbol} {seen : List Symbol} {ints : Nat} (hs : seen.Nodup) (hi : ints ≤ 256) :
    (Tree.leaf x).CleanAfter seen ints 1 := ⟨hs, nofun, hi⟩

theorem Tree.cleanAfter_left {l r : Tree} {seen : List Symbol} {ints k : Nat} (hk : k ≤ l.writes.length) :
    (Tree.node l r).CleanAfter seen ints (k + 1) ↔ l.CleanAfter seen (ints + 1) k := by
  simp only [Tree.CleanAfter, Tree.symsTo_left hk, Tree.intsTo_left hk]
  rw [show ints + (l.intsTo k + 1) = ints + 1 + l.intsTo k by omega]

theorem Tree.cleanAfter_right {l r : Tree} {seen : List Symbol} {ints k : Nat} :
    (Tree.node l r).CleanAfter seen ints (l.writes.length + k + 1) ↔
      l.CleanAfter seen (ints + 1) l.writes.length ∧ r.CleanAfter (l.syms.reverse ++ seen) (ints + 1 + l.ints) k := by
  simp only [Tree.CleanAfter, Tree.symsTo_right, Tree.intsTo_right, Tree.symsTo_all, Tree.intsTo_all,
    List.reverse_append, List.append_assoc, List.forall_mem_append]
  constructor
  · rintro ⟨hn, ⟨hl, hr⟩, hi⟩
    obtain ⟨-, hn', -⟩ := List.nodup_append.1 hn
    exact ⟨⟨hn', hl, by omega⟩, hn, hr, by omega⟩
  · rintro ⟨⟨-, hl, -⟩, hn, hr, hi⟩
    exact ⟨hn, ⟨hl, hr⟩, by omega⟩

/-- Clean fields are no more than the alphabet has room for (R10). -/
theorem Tree.CleanTo.bitsTo_length_le {T : Tree} {k : Nat} (h : T.CleanTo k) (hk : k < T.writes.length) :
    k ≤ (T.bitsTo k).length ∧ (T.bitsTo k).length ≤ 2827 := by
  obtain ⟨hn, hx, hi⟩ := h
  have hsyms := length_le_of_nodup hn fun x hm => Nat.lt_succ_of_le (hx x hm)
  have := Tree.bitsTo_length_bounds hk
  omega

/-! ## Any bits -/

/-- A field `w` of a header, with `tail` at the source, is cut short or refused, once `HDRRD` has seen the symbols `seen`
and `ints` internal nodes (R184, R185). -/
def FieldFails (seen : List Symbol) (ints : Nat) (w : Nat × Nat) (tail : List Bool) : Prop :=
  tail.length < w.1 ∨ ∃ more, tail = bin w.1 w.2 ++ more ∧
    ((∃ x : Symbol, w = (9, x.toNat) ∧ (256 < x.toNat ∨ x ∈ seen)) ∨ (w = (1, 0) ∧ ints = 256))

/-- `bits` are the header of `T` up to field `k`, at which `HDRRD` fails (R184, R185). -/
structure Tree.FailsAt (T : Tree) (seen : List Symbol) (ints : Nat) (bits : List Bool) (k : Nat) (w : Nat × Nat)
    (tail : List Bool) : Prop where
  clean : T.CleanAfter seen ints k
  field : T.writes[k]? = some w
  bits  : bits = T.bitsTo k ++ tail
  fails : FieldFails ((T.symsTo k).reverse ++ seen) (ints + T.intsTo k) w tail

theorem Tree.FailsAt.lt {T : Tree} {seen : List Symbol} {ints k : Nat} {bits tail : List Bool} {w : Nat × Nat}
    (h : T.FailsAt seen ints bits k w tail) : k < T.writes.length := (List.getElem?_eq_some_iff.1 h.field).1

theorem Tree.FailsAt.left {l : Tree} (r : Tree) {seen : List Symbol} {ints k : Nat} {bits tail : List Bool}
    {w : Nat × Nat} (h : l.FailsAt seen (ints + 1) bits k w tail) :
    (Tree.node l r).FailsAt seen ints (false :: bits) (k + 1) w tail where
  clean := (Tree.cleanAfter_left h.lt.le).2 h.clean
  field := (Tree.writes_getElem_left h.lt).trans h.field
  bits := by rw [h.bits, Tree.bitsTo_left h.lt.le, List.cons_append]
  fails := by
    rw [Tree.symsTo_left h.lt.le, Tree.intsTo_left h.lt.le, Nat.add_comm _ 1, ← Nat.add_assoc]
    exact h.fails

theorem Tree.FailsAt.right {l r : Tree} {seen : List Symbol} {ints k : Nat} {bits tail : List Bool}
    {w : Nat × Nat} (hl : l.CleanAfter seen (ints + 1) l.writes.length)
    (h : r.FailsAt (l.syms.reverse ++ seen) (ints + 1 + l.ints) bits k w tail) :
    (Tree.node l r).FailsAt seen ints (false :: (l.ser ++ bits)) (l.writes.length + k + 1) w tail where
  clean := Tree.cleanAfter_right.2 ⟨hl, h.clean⟩
  field := (Tree.writes_getElem_right l r k).trans h.field
  bits := by rw [h.bits, Tree.bitsTo_right, List.cons_append, List.append_assoc]
  fails := by
    have hints : ints + (l.ints + r.intsTo k + 1) = ints + 1 + l.ints + r.intsTo k := by omega
    rw [Tree.symsTo_right, Tree.intsTo_right, List.reverse_append, List.append_assoc, hints]
    exact h.fails

/-- The bits behind a leaf's discriminator: a symbol that is taken, or the field fails. -/
theorem leaf_clean_or_fails {seen : List Symbol} {ints : Nat} (hs : seen.Nodup) (hi : ints ≤ 256) (ys : List Bool) :
    (∃ x more, true :: ys = (Tree.leaf x).ser ++ more ∧ (Tree.leaf x).CleanAfter seen ints 2) ∨
      ∃ x w, (Tree.leaf x).FailsAt seen ints (true :: ys) 1 w ys := by
  by_cases hlen : ys.length < 9
  · exact .inr ⟨0, _, Tree.cleanAfter_leaf_one hs hi, rfl, rfl, .inl hlen⟩
  · have h9 : (ys.take 9).length = 9 := by simp; omega
    let x : Symbol := BitVec.ofNat 9 (ofBits (ys.take 9))
    have hx : bin 9 x.toNat = ys.take 9 := by
      rw [BitVec.toNat_ofNat, bin_mod]
      have := bin_ofBits (ys.take 9)
      rwa [h9] at this
    have hys : ys = bin 9 x.toNat ++ ys.drop 9 := by rw [hx, List.take_append_drop]
    by_cases hbad : 256 < x.toNat ∨ x ∈ seen
    · exact .inr ⟨x, _, Tree.cleanAfter_leaf_one hs hi, rfl, rfl, .inr ⟨_, hys, .inl ⟨x, rfl, hbad⟩⟩⟩
    · rw [not_or, Nat.not_lt] at hbad
      refine .inl ⟨x, ys.drop 9, congrArg (true :: ·) hys, ?_⟩
      exact ⟨List.nodup_cons.2 ⟨hbad.2, hs⟩, by simpa [Tree.symsTo, Tree.syms, Tree.writes] using hbad.1, hi⟩

/-- Any bits begin with the header of a tree that `HDRRD` takes, or with the fields of one up to a field at which it
fails (R184, R185). -/
theorem header_clean_or_fails {seen : List Symbol} {ints : Nat} (hs : seen.Nodup) (hi : ints ≤ 256) (bits : List Bool) :
    (∃ (T : Tree) (more : List Bool), bits = T.ser ++ more ∧ T.CleanAfter seen ints T.writes.length) ∨
      ∃ (T : Tree) (k : Nat) (w : Nat × Nat) (tail : List Bool), T.FailsAt seen ints bits k w tail := by
  induction hn : bits.length using Nat.strong_induction_on generalizing seen ints bits with
  | _ n ih =>
    match bits with
    | [] => exact .inr ⟨.leaf 0, 0, _, [], Tree.cleanAfter_zero hs hi, rfl, rfl, .inl Nat.one_pos⟩
    | true :: ys =>
      obtain ⟨x, more, h⟩ | ⟨x, w, h⟩ := leaf_clean_or_fails hs hi ys
      · exact .inl ⟨_, more, h⟩
      · exact .inr ⟨_, _, _, _, h⟩
    | false :: ys =>
      by_cases hfull : ints = 256
      · exact .inr ⟨.node (.leaf 0) (.leaf 0), 0, _, _, Tree.cleanAfter_zero hs hi, rfl, rfl,
          .inr ⟨ys, rfl, .inr ⟨rfl, hfull⟩⟩⟩
      · rw [List.length_cons] at hn
        obtain ⟨l, more, hl, hlc⟩ | ⟨l, k, w, tail, hl⟩ := ih ys.length (by omega) hs
          (show ints + 1 ≤ 256 by omega) ys rfl
        · obtain ⟨hseen, hints⟩ := hlc.all
          rw [hl]
          obtain ⟨r, more', hr, hrc⟩ | ⟨r, k, w, tail, hr⟩ := ih more.length
            (by rw [hl, List.length_append] at hn; omega) hseen hints more rfl
          · refine .inl ⟨.node l r, more', by rw [hr, Tree.ser, List.cons_append, List.append_assoc], ?_⟩
            have := Tree.cleanAfter_right.2 ⟨hlc, hrc⟩
            rwa [← List.length_append] at this
          · exact .inr ⟨_, _, _, _, .right hlc hr⟩
        · exact .inr ⟨_, _, _, _, .left (.leaf 0) hl⟩

end Sys2Proof.Machine
end

section
/-! SUPPORT. `HDRRD`: the magic phase, the header of a legal tree, and the field at which a header fails
(R181-R189). -/

namespace Sys2Proof.Machine

/-! ## The magic phase -/

/-- The widths of the reads of the magic phase (R189). -/
def magicReads (m : Bool) : List Nat := if m then [32] else []

theorem sum_magicReads (m : Bool) : (magicReads m).sum = (magicBits m).length := by
  cases m <;> simp [magicReads, magicBits]

theorem ofBits_bin_word (v : Word) : ofBits (bin 32 v.toNat) = v.toNat := by
  rw [ofBits_bin, Nat.mod_eq_of_lt v.isLt]

/-- The state in which the tree phase begins, once the magic has been read if `M = 1`, with `rest` still at the source
(R181). -/
def State.atHeader (s : State) (m : Bool) (rest : List Bool) : State :=
  State.treePhase { s.haveRead (magicReads m) rest with seq.got := (magicBits m).length }

/-- `HDRRD` with the magic at the source gets to its tree phase (R181, R182). -/
theorem goes_atHeader {s : State} (hr : s.Runs) (ha : s.ports.bitSource.answering = true) {m : Bool} {rest : List Bool}
    (hs : s.ports.bitSource.rest = magicBits m ++ rest) :
    ∃ n, n ≤ 3 ∧ Goes n (s.at [.hdrrd m, .ret]) ((s.atHeader m rest).at [.parse .root, .treeDone, .ret]) := by
  have hbegin := goes_hdrrd hr m [.ret]
  have htree := goes_treeStart (s := { s.haveRead (magicReads m) rest with seq.got := (magicBits m).length })
    ⟨hr.busy, hr.free⟩ [.ret]
  cases m with
  | false =>
    have hrest : s.haveRead [] rest = s := (congrArg (s.haveRead []) hs).symm.trans s.haveRead_nil
    simp only [State.atHeader, magicReads, Bool.false_eq_true, if_false, hrest] at htree ⊢
    exact ⟨2, by omega, hbegin.trans htree⟩
  | true =>
    have hmagic := goes_job { s with seq.got := 0 } .readMagic [.treeStart, .ret] ⟨hr.busy, hr.free⟩
    rw [runJob, runReadMagic, State.bitRead_data (s := State.at { s with seq.got := 0 } [.treeStart, .ret]) hr.free ha
      hs (bin_length _ _)] at hmagic
    dsimp only [magicBits] at hmagic
    rw [if_pos rfl, ofBits_bin_word, BitVec.ofNat_toNat, BitVec.setWidth_eq, if_pos rfl] at hmagic
    exact ⟨3, le_rfl, (hbegin.trans hmagic).trans htree⟩

theorem State.atHeader_reading {s : State} (hr : s.Runs) (ha : s.ports.bitSource.answering = true) (m : Bool)
    (rest : List Bool) : (s.atHeader m rest).Reading := State.treePhase_reading ⟨hr.busy, hr.free⟩ ha

/-- A read of more bits than the source has left, by how the source ends (R87). -/
theorem State.bitRead_ended {s : State} (ha : s.ports.bitSource.answering = true) {n : Nat}
    (hn : s.ports.bitSource.rest.length < n) {k : EndKind} (hk : s.ports.bitSource.term = k) :
    s.bitRead n = some (endResponse k, (s.answered (.bitRead n)).endBits) := hk ▸ State.bitRead_end ha hn

/-- The magic phase of an accepted `HDRRD`, up to the answer to its one request. -/
theorem goes_readMagic {s : State} (hr : s.Runs) :
    Goes 2 (s.at [.hdrrd true, .ret]) (runReadMagic (State.at { s with seq.got := 0 } [.treeStart, .ret])) :=
  (goes_hdrrd hr true [.ret]).trans (goes_job { s with seq.got := 0 } .readMagic [.treeStart, .ret] ⟨hr.busy, hr.free⟩)

/-- Settles O44: the answer to the one request of the magic phase decides. -/
theorem hdrrdChecksTheMagicFirst : Obligations.HdrrdChecksTheMagicFirst := by
  intro s ha
  let a := s.accept (Instr.jobs (.hdrrd true))
  have hr : a.Runs := accept_runs s _
  have hgo := goes_readMagic hr
  refine ⟨fun v more hv hs => ?_, fun hlen hterm => ?_, fun hlen hterm => ?_⟩
  · rw [runReadMagic, State.bitRead_data (s := State.at { a with seq.got := 0 } [.treeStart, .ret]) hr.free ha hs
      (bin_length _ _)] at hgo
    dsimp only at hgo
    rw [ofBits_bin_word, BitVec.ofNat_toNat, BitVec.setWidth_eq, if_neg hv] at hgo
    exact exec_of_goes hgo rfl (s.le_burst (by omega))
  all_goals
    rw [runReadMagic,
      State.bitRead_ended (s := State.at { a with seq.got := 0 } [.treeStart, .ret]) ha hlen hterm] at hgo
    exact exec_of_goes hgo rfl (s.le_burst (by omega))

/-! ## The header of a legal tree -/

theorem Tree.Legal.readable {T : Tree} (hL : T.Legal) {s : State} (hseen : s.seq.seen = []) (hints : s.seq.ints = 0)
    {more : List Bool} (hs : s.ports.bitSource.rest = T.ser ++ more) : s.Readable T more where
  legal := hL
  fresh x _ := hseen ▸ List.not_mem_nil
  ints := by
    have := hL.length_le
    have := T.ints_eq
    omega
  rest := hs

/-- `HDRRD` of the header of a legal tree gets to its completion (R181, R183). -/
theorem goes_header {s : State} (hr : s.Runs) (ha : s.ports.bitSource.answering = true) {T : Tree} (hL : T.Legal)
    {m : Bool} {more : List Bool} (hs : s.ports.bitSource.rest = magicBits m ++ (T.ser ++ more)) :
    ∃ n, n ≤ 4096 ∧ Goes n (s.at [.hdrrd m, .ret])
      (runTreeDone (State.laid { s.haveRead (magicReads m) (T.ser ++ more) with seq.got := (magicBits m).length }
        T more)).complete := by
  obtain ⟨n, hn, hmagic⟩ := goes_atHeader hr ha hs
  have hT : (s.atHeader m (T.ser ++ more)).Readable T more := hL.readable rfl rfl rfl
  have hparse := hT.goes (State.atHeader_reading hr ha m _) .root [.treeDone, .ret]
  have hdone := goes_job (State.laid { s.haveRead (magicReads m) (T.ser ++ more) with
    seq.got := (magicBits m).length } T more) .treeDone [.ret] ⟨hr.busy, hr.free⟩
  refine ⟨_, ?_, ((hmagic.trans hparse).trans hdone).trans (goes_ret (runTreeDone _) ⟨hr.busy, hr.free⟩)⟩
  have := hL.size_le
  have := hL.length_le
  omega

/-- What `HDRRD` has made of the state when it completes (R183, R186, R187). -/
theorem complete_laid (s : State) (T : Tree) (widths : List Nat) (rest more : List Bool) (got : Nat) :
    (runTreeDone (State.laid { s.haveRead widths rest with seq.got := got } T more)).complete =
      { s.haveRead (widths ++ T.reads) more with
        nodes     := overwritten s.nodes (T.layout 0)
        root      := 0
        nodeCount := BitVec.ofNat 10 T.size
        leafCount := BitVec.ofNat 9 T.syms.length
        codes     := invalidated s.codes
        flags     := { s.flags with treeValid := true, codesValid := false, done := true, busy := false }
        errCode   := 0
        errInfo   := 0
        seq       := Seq.idle } := by
  rw [← State.haveRead_haveRead s widths T.reads rest more, ← layAt_zero, ← Nat.zero_add T.size,
    ← Nat.zero_add T.syms.length]
  rfl

/-- Settles O43: the tree phase lays out the tree whose header stands behind the magic. -/
theorem hdrrdReadsTheHeader : Obligations.HdrrdReadsTheHeader := by
  intro s T m more hL ha hs
  rw [List.append_assoc] at hs
  obtain ⟨n, hn, hgo⟩ := goes_header (accept_runs s (Instr.jobs (.hdrrd m))) ha hL hs
  rw [complete_laid] at hgo
  exact exec_of_goes hgo rfl (s.le_burst hn)

/-! ## The first fields of a header -/

/-- The jobs that read a field of a header, by its width (R181). -/
inductive Job.ReadsField : Job → Nat → Prop where
  | parse (k : Link) : ReadsField (.parse k) 1
  | leafSym (i : NodeIx) : ReadsField (.leafSym i) 9

theorem Job.ReadsField.runJob_eq {j : Job} {n : Nat} (h : j.ReadsField n) :
    ∃ use, ∀ s, runJob j s = s.get n j use := by
  cases h with
  | parse k => exact ⟨_, fun s => rfl⟩
  | leafSym i => exact ⟨_, fun s => rfl⟩

/-- From `s` the tree phase has read `bits` and got to `u`: `syms` and `ints` are the symbols and the number of internal
nodes in them. -/
structure State.HasParsed (s : State) (bits : List Bool) (syms : List Symbol) (ints : Nat) (u : State) : Prop where
  runs    : u.Runs
  source  : u.ports.bitSource.answering = true
  dropped : u.Dropped
  rest    : s.ports.bitSource.rest = bits ++ u.ports.bitSource.rest
  term    : u.ports.bitSource.term = s.ports.bitSource.term
  bitsIn  : u.counters.bitsIn = s.counters.bitsIn + BitVec.ofNat 32 bits.length
  got     : u.seq.got = s.seq.got + bits.length
  seen    : u.seq.seen = syms.reverse ++ s.seq.seen
  ints    : u.seq.ints = s.seq.ints + ints

theorem State.HasParsed.refl {s : State} (h : s.Reading) : s.HasParsed [] [] 0 s :=
  ⟨h.runs, h.source, h.dropped, rfl, rfl, by simp, rfl, rfl, rfl⟩

theorem State.HasParsed.trans {s u v : State} {as bs : List Bool} {xs ys : List Symbol} {a b : Nat}
    (h : s.HasParsed as xs a u) (h' : u.HasParsed bs ys b v) : s.HasParsed (as ++ bs) (xs ++ ys) (a + b) v where
  runs := h'.runs
  source := h'.source
  dropped := h'.dropped
  rest := by rw [h.rest, h'.rest, List.append_assoc]
  term := h'.term.trans h.term
  bitsIn := by rw [h'.bitsIn, h.bitsIn, List.length_append, BitVec.ofNat_add, BitVec.add_assoc]
  got := by rw [h'.got, h.got, List.length_append, Nat.add_assoc]
  seen := by rw [h'.seen, h.seen, List.reverse_append, List.append_assoc]
  ints := by rw [h'.ints, h.ints, Nat.add_assoc]

theorem State.HasParsed.entered {s : State} (h : s.Reading) {ys : List Bool} (hx : s.ports.bitSource.rest = true :: ys)
    (k : Link) : s.HasParsed [true] [] 0 (s.entered k ys) :=
  ⟨⟨h.runs.busy, h.runs.free⟩, h.source, h.dropped.entered k ys, hx, rfl, rfl, rfl, rfl, rfl⟩

theorem State.HasParsed.branched {s : State} (h : s.Reading) (hi : s.seq.ints < 256) {ys : List Bool}
    (hx : s.ports.bitSource.rest = false :: ys) (k : Link) : s.HasParsed [false] [] 1 (s.branched k ys) :=
  have hb := h.branched hi k ys
  ⟨hb.runs, hb.source, hb.dropped, hx, rfl, rfl, rfl, rfl, rfl⟩

theorem State.HasParsed.parsed {s : State} (h : s.Reading) {T : Tree} {more : List Bool} (hT : s.Readable T more)
    (nodes : Vector Node 513) : s.HasParsed T.ser T.syms T.ints (s.parsed T nodes more) :=
  have hp := hT.reading_parsed h nodes
  ⟨hp.runs, hp.source, hp.dropped, hT.rest, rfl, by rw [← T.sum_reads]; rfl, rfl, rfl, rfl⟩

/-- A whole header whose fields are clean can be taken. -/
theorem Tree.CleanAfter.readable {T : Tree} {s : State}
    (h : T.CleanAfter s.seq.seen s.seq.ints T.writes.length) {more : List Bool}
    (hs : s.ports.bitSource.rest = T.ser ++ more) : s.Readable T more := by
  obtain ⟨hn, hi⟩ := h.all
  obtain ⟨-, hx, -⟩ := h
  rw [Tree.symsTo_all] at hx
  obtain ⟨hsyms, -, hdis⟩ := List.nodup_append.1 hn
  exact ⟨⟨List.nodup_reverse.1 hsyms, hx⟩, fun x hm hseen => hdis x (List.mem_reverse.2 hm) x hseen rfl, hi, hs⟩

/-- `parse()` gets through clean fields to the job that reads the next one (R181, R189). -/
theorem goes_fields {T : Tree} {k : Nat} (hk : k < T.writes.length) {s : State} (h : s.Reading)
    (hc : T.CleanAfter s.seq.seen s.seq.ints k) {rest : List Bool} (hs : s.ports.bitSource.rest = T.bitsTo k ++ rest)
    (link : Link) (js : List Job) :
    ∃ u j ks, Goes k (s.at (.parse link :: js)) (u.at (j :: ks)) ∧
      (∀ w, T.writes[k]? = some w → j.ReadsField w.1) ∧ s.HasParsed (T.bitsTo k) (T.symsTo k) (T.intsTo k) u := by
  induction T, k, hk using Tree.field_induction generalizing s rest link js with
  | first T hk =>
    refine ⟨s, .parse link, js, Goes.refl _, fun w hw => ?_, .refl h⟩
    have hwidth : w.1 = 1 := by cases T <;> · cases hw; rfl
    exact hwidth ▸ .parse link
  | sym x hk =>
    have hgo := goes_job s (.parse link) js h.runs
    rw [runParse_leaf h hs] at hgo
    refine ⟨_, _, js, hgo, fun w hw => ?_, .entered h hs link⟩
    cases hw
    exact .leafSym _
  | left l r k hk hk' ih =>
    rw [Tree.bitsTo_left hk.le] at hs
    obtain ⟨-, -, hints⟩ := (Tree.cleanAfter_left hk.le).1 hc
    have hi : s.seq.ints < 256 := by omega
    have hgo := goes_job s (.parse link) js h.runs
    rw [runParse_node h hs hi.ne] at hgo
    have hb := h.branched hi link (l.bitsTo k ++ rest)
    obtain ⟨u, j, ks, hu, hj, hp⟩ := ih hb ((Tree.cleanAfter_left hk.le).1 hc) rfl _ _
    refine ⟨u, j, ks, (hgo.trans hu).cast (Nat.add_comm 1 k), fun w hw => hj w ?_, ?_⟩
    · rwa [Tree.writes_getElem_left hk] at hw
    · rw [Tree.bitsTo_left hk.le, Tree.symsTo_left hk.le, Tree.intsTo_left hk.le, Nat.add_comm]
      exact (State.HasParsed.branched h hi hs link).trans hp
  | right l r k hk hk' ih =>
    rw [Tree.bitsTo_right, List.cons_append, List.append_assoc] at hs
    obtain ⟨hl, hr⟩ := Tree.cleanAfter_right.1 hc
    obtain ⟨-, hints⟩ := hl.all
    have hi : s.seq.ints < 256 := by omega
    have hgo := goes_job s (.parse link) js h.runs
    rw [runParse_node h hs hi.ne] at hgo
    have hb := h.branched hi link (l.ser ++ (r.bitsTo k ++ rest))
    have hread : (s.branched link (l.ser ++ (r.bitsTo k ++ rest))).Readable l (r.bitsTo k ++ rest) := hl.readable rfl
    have hleft := hread.goes hb (.left (BitVec.ofNat 10 s.seq.next)) (.parse (.right (BitVec.ofNat 10 s.seq.next)) :: js)
    obtain ⟨u, j, ks, hu, hj, hp⟩ := ih (hread.reading_parsed hb _) hr rfl _ _
    refine ⟨u, j, ks, ((hgo.trans hleft).trans hu).cast ?_, fun w hw => hj w ?_, ?_⟩
    · have := l.size_eq
      have := l.writes_length
      omega
    · rwa [Tree.writes_getElem_right] at hw
    · rw [Tree.bitsTo_right, Tree.symsTo_right, Tree.intsTo_right, Nat.add_comm, ← Nat.add_assoc]
      exact ((State.HasParsed.branched h hi hs link).trans (.parsed hb hread _)).trans hp

/-! ## The field at which a header fails -/

/-- `HDRRD` gets through the magic and through clean fields, and ends as the next field makes it end. -/
theorem exec_hdrrd_at_field {s : State} {T : Tree} {m : Bool} {k : Nat} {w : Nat × Nat} {rest : List Bool}
    (ha : s.ports.bitSource.answering = true) (hc : T.CleanTo k) (hw : T.writes[k]? = some w)
    (hs : s.ports.bitSource.rest = magicBits m ++ (T.bitsTo k ++ rest)) :
    ∃ u j ks, j.ReadsField w.1 ∧
      ((s.accept (Instr.jobs (.hdrrd m))).atHeader m (T.bitsTo k ++ rest)).HasParsed
        (T.bitsTo k) (T.symsTo k) (T.intsTo k) u ∧
      ((runJob j (u.at ks)).flags.busy = false → exec (.hdrrd m) s = .next (runJob j (u.at ks))) := by
  have hr := accept_runs s (Instr.jobs (.hdrrd m))
  have hk : k < T.writes.length := (List.getElem?_eq_some_iff.1 hw).1
  obtain ⟨n, hn, hmagic⟩ := goes_atHeader hr ha hs
  obtain ⟨u, j, ks, hfields, hj, hp⟩ := goes_fields hk (State.atHeader_reading hr ha m (T.bitsTo k ++ rest))
    (Tree.cleanAfter_nil.2 hc) rfl .root [.treeDone, .ret]
  refine ⟨u, j, ks, hj w hw, hp, fun hb => ?_⟩
  refine exec_of_goes ((hmagic.trans hfields).trans (goes_job u j ks hp.runs)) hb (s.le_burst ?_)
  have := hc.bitsTo_length_le hk
  omega

/-- The report of a read that the source's end has cut short (R184). -/
theorem State.get_end_reports {s : State} (ha : s.ports.bitSource.answering = true) {k : Nat}
    (hk : s.ports.bitSource.rest.length < k) (j : Job) (use : Nat → State → State) :
    (s.get k j use).flags.err = true ∧ (s.get k j use).counters.bitsIn = s.counters.bitsIn ∧
    (s.ports.bitSource.term = .eod →
      (s.get k j use).errCode = 2#4 ∧ (s.get k j use).errInfo = BitVec.ofNat 32 s.seq.got) ∧
    (s.ports.bitSource.term = .err → (s.get k j use).errCode = 7#4 ∧ (s.get k j use).errInfo = 0#32) := by
  rw [State.get, State.bitRead_end ha hk]
  cases s.ports.bitSource.term with
  | eod => exact ⟨rfl, rfl, fun _ => ⟨rfl, rfl⟩, nofun⟩
  | err => exact ⟨rfl, rfl, nofun, fun _ => ⟨rfl, rfl⟩⟩

/-- Settles O45: the field that is cut short is the first read that the source cannot answer. -/
theorem hdrrdRefusesATruncatedHeader : Obligations.HdrrdRefusesATruncatedHeader := by
  intro s T m k w part ha hc hw hpart hs
  rw [List.append_assoc] at hs
  obtain ⟨u, j, ks, hj, hp, hexec⟩ := exec_hdrrd_at_field ha hc hw hs
  obtain ⟨use, huse⟩ := hj.runJob_eq
  rw [huse] at hexec
  have hrest : part = u.ports.bitSource.rest := List.append_cancel_left hp.rest
  rw [hrest] at hpart
  have hfail := State.get_short (s := u.at ks) hp.source (hp.dropped.seq _) hpart j use
  obtain ⟨herr, hbits, heod, hio⟩ := State.get_end_reports (s := u.at ks) hp.source hpart j use
  have hterm : u.ports.bitSource.term = s.ports.bitSource.term := hp.term
  have hgot : u.seq.got = (magicBits m).length + (T.bitsTo k).length := hp.got
  have hbitsIn : u.counters.bitsIn = s.counters.bitsIn + BitVec.ofNat 32 (magicReads m).sum +
    BitVec.ofNat 32 (T.bitsTo k).length := hp.bitsIn
  obtain ⟨hroot, hnodes, hleaves, hcodes⟩ := hfail.dropped.table
  refine ⟨_, hexec hfail.busy, hfail.busy, herr, hfail.dropped.tree, hcodes, hroot, hnodes, hleaves,
    hfail.dropped.codes, ?_, fun he => ?_, fun he => hio (hterm.trans he)⟩
  · rw [hbits, List.length_append, BitVec.ofNat_add, ← BitVec.add_assoc, ← sum_magicReads]
    exact hbitsIn
  · obtain ⟨hcode, hinfo⟩ := heod (hterm.trans he)
    have hinfo' : (State.get _ _ _ _).errInfo = BitVec.ofNat 32 u.seq.got := hinfo
    have hlen := hc.bitsTo_length_le (List.getElem?_eq_some_iff.1 hw).1
    refine ⟨hcode, ?_⟩
    rw [hinfo', hgot, BitVec.toNat_ofNat]
    cases m <;> simp [magicBits] <;> omega

/-- A leaf's symbol that is above 256 or has been seen (R185 (a), (b)). -/
theorem runLeafSym_refused {u : State} (hr : u.Runs) (ha : u.ports.bitSource.answering = true) (hd : u.Dropped)
    {bad : Symbol} {more : List Bool} (hx : u.ports.bitSource.rest = bin 9 bad.toNat ++ more)
    (hbad : 256 < bad.toNat ∨ bad ∈ u.seq.seen) (i : NodeIx) (ks : List Job) :
    ∃ v : State, v.Dropped ∧ v.ports.bitSource.rest = more ∧
      runJob (.leafSym i) (u.at ks) = v.raise .hdrInvalid (symInfo (if 256 < bad.toNat then 1 else 2) bad.toNat) := by
  have hv : ofBits (bin 9 bad.toNat) = bad.toNat := by rw [ofBits_bin, Nat.mod_eq_of_lt bad.isLt]
  let v := State.at { u.haveRead [9] more with seq.got := u.seq.got + 9 } ks
  refine ⟨v, (hd.haveRead _ _).seq _, rfl, ?_⟩
  rw [runJob, runLeafSym, State.get_data hr ha hx (bin_length _ _), hv, parseSym]
  by_cases hbig : 256 < bad.toNat
  · rw [if_pos hbig, if_pos hbig]
  · have hseen : v.seq.seen.contains (BitVec.ofNat 9 bad.toNat) = true := by
      simpa using (show bad ∈ v.seq.seen from hbad.resolve_left hbig)
    rw [if_neg hbig, if_neg hbig, if_pos hseen]

/-- A 257th internal node (R185 (c)). -/
theorem runParse_refused {u : State} (hr : u.Runs) (ha : u.ports.bitSource.answering = true) (hd : u.Dropped)
    {more : List Bool} (hx : u.ports.bitSource.rest = false :: more) (hi : u.seq.ints = 256) (k : Link)
    (ks : List Job) :
    ∃ v : State, v.Dropped ∧ v.ports.bitSource.rest = more ∧
      runJob (.parse k) (u.at ks) = v.raise .hdrInvalid 3 := by
  let t := State.at { u.haveRead [1] more with seq.got := u.seq.got + 1 } ks
  let v := State.link { t with seq.next := t.seq.next + 1 } k (BitVec.ofNat 10 t.seq.next)
  have hvi : v.seq.ints = Config.intMax := (congrArg Seq.ints (State.link_seq _ _ _)).trans hi
  refine ⟨v, State.Dropped.link (((hd.haveRead [1] more).seq _).seq _) _ _, by cases k <;> rfl, ?_⟩
  rw [runJob, runParse, State.get_data (k := 1) (xs := [false]) hr ha hx rfl, parseNode]
  dsimp only
  rw [if_neg (by simp [ofBits]), if_pos hvi]

theorem symInfo_toNat {reason : Word} {v : Nat} (hr : reason.toNat ≤ 2) (hv : v < 512) :
    (symInfo reason v).toNat = reason.toNat + v * 2 ^ 16 := by
  have hshift : (BitVec.ofNat 32 v <<< 16).toNat = v * 2 ^ 16 := by
    rw [BitVec.toNat_shiftLeft, Nat.shiftLeft_eq, BitVec.toNat_ofNat]
    omega
  rw [symInfo, BitVec.toNat_add, hshift]
  omega

/-- Settles O46: the field that is refused is the first one that is. -/
theorem hdrrdRefusesAnInvalidHeader : Obligations.HdrrdRefusesAnInvalidHeader := by
  intro s T m k more ha hc hs
  have hbits {w : Nat × Nat} (hw : T.writes[k]? = some w) :
      s.ports.bitSource.rest = magicBits m ++ (T.bitsTo k ++ (bin w.1 w.2 ++ more)) := by
    rw [hs, Tree.bitsTo_succ hw, List.append_assoc, List.append_assoc]
  refine ⟨fun bad hw hbad => ?_, fun hw hints => ?_⟩
  · obtain ⟨u, j, ks, hj, hp, hexec⟩ := exec_hdrrd_at_field ha hc hw (hbits hw)
    cases hj with
    | leafSym i =>
      have hseen : bad ∈ T.symsTo k → bad ∈ u.seq.seen := fun hm => by
        rw [hp.seen]
        exact List.mem_append_left _ (List.mem_reverse.2 hm)
      obtain ⟨v, hd, hrest, hv⟩ := runLeafSym_refused hp.runs hp.source hp.dropped
        (List.append_cancel_left hp.rest).symm (hbad.imp_right hseen) i ks
      rw [hv] at hexec
      obtain ⟨-, -, -, hcodes⟩ := hd.table
      refine ⟨_, hexec rfl, rfl, rfl, ?_, hd.tree, hcodes, hrest⟩
      show (symInfo _ _).toNat = _
      rw [symInfo_toNat (by split <;> decide) bad.isLt]
      split <;> rfl
  · obtain ⟨u, j, ks, hj, hp, hexec⟩ := exec_hdrrd_at_field ha hc hw (hbits hw)
    cases hj with
    | parse link =>
      have hi : u.seq.ints = 256 := hp.ints.trans ((Nat.zero_add _).trans hints)
      obtain ⟨v, hd, hrest, hv⟩ := runParse_refused hp.runs hp.source hp.dropped
        (List.append_cancel_left hp.rest).symm hi link ks
      rw [hv] at hexec
      obtain ⟨-, -, -, hcodes⟩ := hd.table
      exact ⟨_, hexec rfl, rfl, rfl, rfl, hd.tree, hcodes, hrest⟩

end Sys2Proof.Machine
end

section
/-! SUPPORT. What `HDRWR` writes, `HDRRD` accepts, and what `HDRRD` accepts, `HDRWR` writes again (R190). -/

namespace Sys2Proof.Machine

/-- `HDRRD` of the header of a legal tree succeeds, and the block holds that tree. -/
theorem exec_hdrrd_holdsTree {s : State} {T : Tree} {m : Bool} {more : List Bool} (hL : T.Legal)
    (ha : s.ports.bitSource.answering = true) (hs : s.ports.bitSource.rest = magicBits m ++ T.ser ++ more) :
    ∃ u, exec (.hdrrd m) s = .next u ∧ u.Succeeded ∧ u.HoldsTree T ∧ u.ports.bitSource.rest = more := by
  have hT : (s.haveRead [] (T.ser ++ more)).treePhase.Readable T more := hL.readable rfl rfl rfl
  have hsize : 0 + T.size = T.size := Nat.zero_add _
  have hleaves : 0 + T.syms.length = T.syms.length := Nat.zero_add _
  refine ⟨_, hdrrdReadsTheHeader s T m more hL ha hs, ⟨rfl, rfl⟩, ?_, rfl⟩
  exact hT.holdsTree.congr (layAt_zero _ _).symm rfl (congrArg (BitVec.ofNat 10) hsize.symm)
    (congrArg (BitVec.ofNat 9) hleaves.symm) rfl

/-! ## What `HDRRD` accepts -/

/-- An `HDRRD` that has completed has had a source that answers (R86). -/
theorem source_answers_of_exec_hdrrd {s t : State} {m : Bool} (h : exec (.hdrrd m) s = .next t)
    (hb : t.flags.busy = false) : s.ports.bitSource.answering = true := by
  by_contra ha
  obtain ⟨n, u, hgo, hu, hw⟩ := goes_hdrrd_silent (accept_runs s (Instr.jobs (.hdrrd m)))
    (Bool.eq_false_iff.2 ha) m
  exact absurd (exec_busy_of_blocked h hgo hu hw) (by simp [hb])

/-- A command that has ended with an error has not succeeded. -/
theorem State.Succeeded.not_error {i : Instr} {s t u : State} (ht : t.Succeeded) (h : exec i s = .next t)
    (h' : exec i s = .next u) (e : Err) (hc : u.errCode = e.code) : False := by
  rw [h] at h'
  cases h'
  have := e.code_pos
  rw [← hc, ht.2] at this
  exact absurd this (by decide)

/-- The source of an `HDRRD` that has succeeded begins with the magic, if `M = 1` (R182). -/
theorem magic_of_succeeded {s t : State} {m : Bool} (h : exec (.hdrrd m) s = .next t) (ht : t.Succeeded) :
    ∃ bits, s.ports.bitSource.rest = magicBits m ++ bits := by
  cases m with
  | false => exact ⟨_, rfl⟩
  | true =>
    obtain ⟨hformat, heod, herr⟩ := hdrrdChecksTheMagicFirst s (source_answers_of_exec_hdrrd h ht.1)
    by_cases hlen : s.ports.bitSource.rest.length < 32
    · cases hterm : s.ports.bitSource.term with
      | eod => exact (ht.not_error h (heod hlen hterm) .truncHdr rfl).elim
      | err => exact (ht.not_error h (herr hlen hterm) .io rfl).elim
    · let v : Word := BitVec.ofNat 32 (ofBits (s.ports.bitSource.rest.take 32))
      have hv : bin 32 v.toNat = s.ports.bitSource.rest.take 32 := by
        have := bin_ofBits (s.ports.bitSource.rest.take 32)
        rw [List.length_take_of_le (Nat.le_of_not_lt hlen)] at this
        rwa [BitVec.toNat_ofNat, bin_mod]
      have hs : s.ports.bitSource.rest = bin 32 v.toNat ++ s.ports.bitSource.rest.drop 32 := by
        rw [hv, List.take_append_drop]
      by_cases hmagic : v = Config.magic
      · exact ⟨_, hmagic ▸ hs⟩
      · exact (ht.not_error h (hformat v _ hmagic hs) .format rfl).elim

/-- A header that fails at one of its fields ends `HDRRD` with an error (R184, R185). -/
theorem not_failsAt_of_succeeded {s t : State} {m : Bool} (h : exec (.hdrrd m) s = .next t) (ht : t.Succeeded)
    {bits tail : List Bool} (hs : s.ports.bitSource.rest = magicBits m ++ bits) {T : Tree} {k : Nat} {w : Nat × Nat} :
    ¬ T.FailsAt [] 0 bits k w tail := by
  rintro ⟨hc, hw, rfl, hfail⟩
  have ha := source_answers_of_exec_hdrrd h ht.1
  rw [← List.append_assoc] at hs
  obtain hcut | ⟨more, rfl, hbad⟩ := hfail
  · obtain ⟨u, hu, -, -, -, -, -, -, -, -, -, heod, herr⟩ :=
      hdrrdRefusesATruncatedHeader s T m k w tail ha (Tree.cleanAfter_nil.1 hc) hw hcut hs
    cases hterm : s.ports.bitSource.term with
    | eod => exact ht.not_error h hu .truncHdr (heod hterm).1
    | err => exact ht.not_error h hu .io (herr hterm).1
  · have hs' : s.ports.bitSource.rest = magicBits m ++ T.bitsTo (k + 1) ++ more := by
      rw [hs, Tree.bitsTo_succ hw]
      simp only [List.append_assoc]
    obtain ⟨hsym, hfull⟩ := hdrrdRefusesAnInvalidHeader s T m k more ha (Tree.cleanAfter_nil.1 hc) hs'
    obtain ⟨x, rfl, hx⟩ | ⟨rfl, hi⟩ := hbad
    · obtain ⟨u, hu, -, hcode, -⟩ := hsym x hw (by simpa using hx)
      exact ht.not_error h hu .hdrInvalid hcode
    · obtain ⟨u, hu, -, hcode, -⟩ := hfull hw (by simpa using hi)
      exact ht.not_error h hu .hdrInvalid hcode

/-- What `HDRRD` accepts is the header of a legal tree (R181, R185). -/
theorem header_of_succeeded {s t : State} {m : Bool} (h : exec (.hdrrd m) s = .next t) (ht : t.Succeeded) :
    ∃ (T : Tree) (more : List Bool), T.Legal ∧ s.ports.bitSource.rest = magicBits m ++ T.ser ++ more := by
  obtain ⟨bits, hs⟩ := magic_of_succeeded h ht
  obtain ⟨T, more, rfl, hc⟩ | ⟨T, k, w, tail, hf⟩ := header_clean_or_fails List.nodup_nil (Nat.zero_le 256) bits
  · have hL := Tree.cleanAfter_nil.1 hc
    rw [Tree.CleanTo, Tree.symsTo_all] at hL
    exact ⟨T, more, ⟨hL.1, hL.2.1⟩, by rw [hs, List.append_assoc]⟩
  · exact absurd hf (not_failsAt_of_succeeded h ht hs)

/-! ## The statement on the round trip -/

/-- Settles O47: both commands speak of the same legal tree, and only the header of one is accepted. -/
theorem headerRoundTrip : Obligations.HeaderRoundTrip := by
  refine ⟨fun s t s' T m more hT hacc ht ha hs => ?_, fun s t m h ht hacc => ?_⟩
  · obtain ⟨hwrite, hbits, -⟩ := hdrwrWritesTheHeader s T m hT.valid hT.holds hT.legal hacc
    rw [hwrite] at ht
    cases ht
    have hout : (s.wrote (magicWrite m ++ T.writes)).complete.ports.bitSink.out =
        s.ports.bitSink.out ++ (magicBits m ++ T.ser) := congrArg (s.ports.bitSink.out ++ ·) hbits
    rw [hout, List.drop_left] at hs
    exact exec_hdrrd_holdsTree hT.legal ha hs
  · obtain ⟨T, more, hL, hs⟩ := header_of_succeeded h ht
    obtain ⟨u, hu, -, hT, hrest⟩ := exec_hdrrd_holdsTree hL (source_answers_of_exec_hdrrd h ht.1) hs
    rw [h] at hu
    cases hu
    obtain ⟨hwrite, hbits, -⟩ := hdrwrWritesTheHeader t T m hT.valid hT.holds hL hacc
    exact ⟨_, magicBits m ++ T.ser, by rw [hs, hrest], hwrite, ⟨rfl, rfl⟩, congrArg (t.ports.bitSink.out ++ ·) hbits⟩

end Sys2Proof.Machine
end

section
/-! SUPPORT. `ENCSYM`, `ENCSTREAM` and `FLUSH`: codes written to a sink that grants the writes, and to one that refuses
one of them (R199-R211). -/

namespace Sys2Proof.Machine

/-! ## Sinks that grant the next writes -/

/-- The sink answers every request, and the next `n` of them with `Ok` (R89). -/
def Sink.Grants {α : Type} (k : Sink α) (n : Nat) : Prop := k.answering = true ∧ ∀ i, i < n → k.replyAt i = .ok

theorem Sink.Accepts.grants {α : Type} {k : Sink α} (h : k.Accepts) (n : Nat) : k.Grants n := by
  obtain ⟨ha, hok, hafter⟩ := h
  refine ⟨ha, fun i _ => ?_⟩
  rw [Sink.replyAt, List.getD_eq_getElem?_getD]
  cases hi : k.answers[i]? with
  | none => exact hafter
  | some a => exact hok a (List.mem_of_getElem? hi)

theorem Sink.FailsAt.grants {α : Type} {k : Sink α} {n j : Nat} (h : k.FailsAt (n + j)) : k.Grants n := by
  obtain ⟨ha, hok, -⟩ := h
  exact ⟨ha, fun i hi => hok i (Nat.lt_add_right j hi)⟩

theorem Sink.Grants.reply {α : Type} {k : Sink α} {n : Nat} (h : k.Grants (n + 1)) : k.reply = .ok := by
  obtain ⟨-, hok⟩ := h
  exact k.replyAt_zero ▸ hok 0 n.succ_pos

theorem Sink.Grants.mono {α : Type} {k : Sink α} {m n : Nat} (h : k.Grants n) (hm : m ≤ n) : k.Grants m := by
  obtain ⟨ha, hok⟩ := h
  exact ⟨ha, fun i hi => hok i (Nat.lt_of_lt_of_le hi hm)⟩

/-- Accepted writes use up as many of the sink's answers. -/
theorem State.wrote_replyAt (s : State) (ws : List (Nat × Nat)) (i : Nat) :
    (s.wrote ws).ports.bitSink.replyAt i = s.ports.bitSink.replyAt (ws.length + i) := by
  simp [Sink.replyAt, State.wrote, List.getD_eq_getElem?_getD]

theorem State.wrote_grants {s : State} {ws : List (Nat × Nat)} {n : Nat}
    (h : s.ports.bitSink.Grants (ws.length + n)) : (s.wrote ws).ports.bitSink.Grants n := by
  obtain ⟨ha, hok⟩ := h
  exact ⟨ha, fun i hi => (s.wrote_replyAt ws i).trans (hok _ (Nat.add_lt_add_left hi _))⟩

/-- After accepted writes the error is as many writes nearer. -/
theorem State.wrote_failsAt_add {s : State} {ws : List (Nat × Nat)} {j : Nat}
    (h : s.ports.bitSink.FailsAt (ws.length + j)) : (s.wrote ws).ports.bitSink.FailsAt j := by
  obtain ⟨ha, hok, herr⟩ := h
  exact ⟨ha, fun i hi => (s.wrote_replyAt ws i).trans (hok _ (Nat.add_lt_add_left hi _)),
    (s.wrote_replyAt ws j).trans herr⟩

/-- A write that the sink grants (R89). -/
theorem goes_put_ok {s : State} (hr : s.Runs) (ha : s.ports.bitSink.answering = true)
    (h : s.ports.bitSink.reply = .ok) (n v : Nat) (js : List Job) :
    Goes 1 (s.at (.put n v :: js)) ((s.wrote [(n, v)]).at js) := by
  have hgo := goes_job s (.put n v) js hr
  rwa [runJob, runPut, State.bitWrite_ok (s := s.at js) hr.free ha h] at hgo

/-- Writes that the sink grants, one after another. -/
theorem goes_puts_granted {ws : List (Nat × Nat)} {s : State} (hr : s.Runs) (h : s.ports.bitSink.Grants ws.length)
    (js : List Job) :
    Goes ws.length (s.at (ws.map (fun w => .put w.1 w.2) ++ js)) ((s.wrote ws).at js) := by
  induction ws generalizing s with
  | nil => simpa [State.wrote_nil] using Goes.refl _
  | cons w ws ih =>
    have hput := goes_put_ok hr h.1 h.reply w.1 w.2 (ws.map (fun w => .put w.1 w.2) ++ js)
    have hrest := ih (hr.wrote [w]) (State.wrote_grants ((Nat.add_comm 1 _).symm ▸ h))
    rw [State.wrote_append] at hrest
    exact (hput.trans hrest).cast (Nat.add_comm 1 _)

/-! ## Codes -/

theorem sum_codeWrites (p : List Bool) : ((codeWrites p).map Prod.fst).sum = p.length := by
  simp [codeWrites, Function.comp_def]

/-- A symbol with a code: its writes are to be done next (R199). -/
theorem State.encode_of_code {s : State} {x : Symbol} {q : List Bool} (hv : (s.code x).valid = true)
    (hq : (s.code x).bits = q) (js : List Job) :
    (s.at js).encode x = s.at ((codeWrites q).map (fun w => .put w.1 w.2) ++ js) := by
  rw [State.encode, State.at_code, if_pos hv, State.push_at, putcode_eq, hq]

/-- A symbol without a code stops the command (R202). -/
theorem State.encode_of_noCode {s : State} {x : Symbol} (hv : (s.code x).valid = false) (js : List Job) :
    (s.at js).encode x = s.raise .noCode (x.setWidth 32) := by
  rw [State.encode, State.at_code, hv, if_neg Bool.false_ne_true]
  rfl

/-- The command that stood at `u` has stopped at a bit-sink `Err`, after the bits `c` (R207). -/
structure State.StopsAfter (u : State) (c : List Bool) (t : State) : Prop where
  busy    : t.flags.busy = false
  errCode : t.errCode = 7#4
  errInfo : t.errInfo = 1#32
  out     : t.ports.bitSink.out = u.ports.bitSink.out ++ c
  bitsOut : t.counters.bitsOut = u.counters.bitsOut + BitVec.ofNat 32 c.length
  source  : t.ports.byteSource = u.ports.byteSource
  bytesIn : t.counters.bytesIn = u.counters.bytesIn

theorem State.stopsAfter_refusedWrite (u : State) (c : List Bool) (w : Nat × Nat) :
    u.StopsAfter c (((u.wrote (codeWrites c)).refusedWrite w).raise .io 1) where
  busy    := rfl
  errCode := rfl
  errInfo := rfl
  out     := congrArg (u.ports.bitSink.out ++ ·) (flatMap_codeWrites c)
  bitsOut := congrArg (u.counters.bitsOut + BitVec.ofNat 32 ·) (sum_codeWrites c)
  source  := rfl
  bytesIn := rfl

theorem State.emits_puts (s : State) (ws : List (Nat × Nat)) :
    s.Emits (ws.map (fun w => .put w.1 w.2)) ws := by
  induction ws with
  | nil => exact .nil
  | cons w ws ih => exact .put ih

/-- A code of which the sink refuses bit `j` (R207). -/
theorem goes_code_refused {s : State} (hr : s.Runs) {q : List Bool} {j : Nat} (hj : j < q.length)
    (hf : s.ports.bitSink.FailsAt j) (js : List Job) :
    ∃ n t, n ≤ 2 * q.length ∧ s.StopsAfter (q.take j) t ∧
      Goes n (s.at ((codeWrites q).map (fun w => .put w.1 w.2) ++ js)) t := by
  have hw : (codeWrites q)[j]? = some (1, q[j].toNat) := by simp [codeWrites, hj]
  obtain ⟨n, hn, hgo⟩ := (s.emits_puts (codeWrites q)).goes_refused hr hf hw js
  have htake : (codeWrites q).take j = codeWrites (q.take j) := List.map_take.symm
  rw [htake] at hgo
  exact ⟨n, _, by omega, s.stopsAfter_refusedWrite _ _, hgo⟩

/-! ## ENCSYM -/

/-- With a code table, `ENCSYM` goes on to the code of its symbol (R200, R201). -/
theorem goes_encsym {s : State} (hr : s.Runs) (hv : s.flags.codesValid = true) (x : Symbol) (js : List Job) :
    Goes 1 (s.at (.encsym x :: js)) ((s.at js).encode x) := by
  have hgo := goes_job s (.encsym x) js hr
  rwa [runJob, runEncsym, State.at_flags, if_pos hv] at hgo

/-- `ENCSYM` of a symbol with a code goes on to its writes (R199, R200). -/
theorem goes_encsym_code {s : State} (hr : s.Runs) (hv : s.flags.codesValid = true) {x : Symbol}
    (hx : (s.code x).valid = true) (js : List Job) :
    Goes 1 (s.at (.encsym x :: js)) (s.at ((codeWrites (s.code x).bits).map (fun w => .put w.1 w.2) ++ js)) :=
  State.encode_of_code hx rfl js ▸ goes_encsym hr hv x js

/-- Settles O48: the jobs of the code are the writes of its bits. -/
theorem encsymWritesTheCode : Obligations.EncsymWritesTheCode := by
  intro s x hv hx hlen hacc
  have hr := accept_runs s (Instr.jobs (.encsym x))
  have hputs := goes_puts hr hacc (codeWrites (s.code x).bits) [.ret]
  refine exec_of_goes (((goes_encsym_code hr hv hx [.ret]).trans hputs).trans (goes_ret _ (hr.wrote _))) rfl
    (s.le_burst ?_)
  rw [codeWrites_length]
  omega

/-- Without a code, `ENCSYM` stops before any bit is written (R202). -/
theorem exec_encsym_noCode {s : State} {x : Symbol} (hv : s.flags.codesValid = true)
    (hx : (s.code x).valid = false) : exec (.encsym x) s = .next (s.raise .noCode (x.setWidth 32)) := by
  let a := s.accept (Instr.jobs (.encsym x))
  have hgo := goes_encsym (s := a) (accept_runs s _) hv x [.ret]
  rw [State.encode_of_noCode (s := a) hx] at hgo
  exact exec_of_goes hgo rfl (s.le_burst (by decide))

/-- `ENCSYM` stops at the bit that the sink refuses (R207). -/
theorem exec_encsym_refused {s : State} {x : Symbol} {j : Nat} (hv : s.flags.codesValid = true)
    (hx : (s.code x).valid = true) (hj : j < (s.code x).bits.length) (hlen : (s.code x).bits.length ≤ 256)
    (hf : s.ports.bitSink.FailsAt j) :
    ∃ t, exec (.encsym x) s = .next t ∧
      (s.accept (Instr.jobs (.encsym x))).StopsAfter ((s.code x).bits.take j) t := by
  have hr := accept_runs s (Instr.jobs (.encsym x))
  obtain ⟨n, t, hn, ht, hstop⟩ := goes_code_refused hr hj hf [.ret]
  exact ⟨t, exec_of_goes ((goes_encsym_code hr hv hx [.ret]).trans hstop) ht.busy (s.le_burst (by omega)), ht⟩

/-! ## The loop of ENCSTREAM -/

theorem Tree.Legal.code_length_le {T : Tree} (hL : T.Legal) {x : Symbol} {q : List Bool} (hq : T.code x = some q) :
    q.length ≤ 256 := by
  have := T.code_length_lt hq
  have := hL.length_le
  omega

/-- The codes of `n` bytes are no longer than `256 * n` bits. -/
theorem Tree.Legal.payload_length_le {T : Tree} (hL : T.Legal) {bytes : List Byte} {p : List Bool}
    (hp : T.payload bytes = some p) : p.length ≤ 256 * bytes.length := by
  induction bytes generalizing p with
  | nil => cases hp; exact Nat.zero_le _
  | cons b bytes ih =>
    obtain ⟨q, r, hq, hr, rfl⟩ := Tree.payload_cons hp
    have := hL.code_length_le hq
    have := ih hr
    rw [List.length_append, List.length_cons]
    omega

/-- The effect of the read of a byte behind which the source has `post` (R47, R90). -/
def State.gotByte (s : State) (post : List Byte) : State :=
  { s with
    ports.byteSource.rest := post
    ports.trace           := s.ports.trace ++ [.byteRead]
    counters.bytesIn      := s.counters.bytesIn + 1 }

/-- The effect of the read that finds the byte source at its end (R93). -/
def State.gotEnd (s : State) : State := (s.answered .byteRead).endBytes

theorem State.Runs.gotByte {s : State} (hr : s.Runs) (post : List Byte) : (s.gotByte post).Runs := ⟨hr.busy, hr.free⟩

theorem State.Runs.gotEnd {s : State} (hr : s.Runs) : s.gotEnd.Runs := ⟨hr.busy, rfl⟩

theorem State.Runs.encoded {s : State} (hr : s.Runs) (T : Tree) (bytes : List Byte) (p : List Bool)
    (post : List Byte) : (s.encoded T bytes p post).Runs := ⟨hr.busy, hr.free⟩

/-- A turn of the loop that reads a byte (R204). -/
theorem goes_encByte_data {s : State} (hr : s.Runs) (ha : s.ports.byteSource.answering = true) {b : Byte}
    {post : List Byte} (hb : s.ports.byteSource.rest = b :: post) (t : Bool) (js : List Job) :
    Goes 1 (s.at (.encByte t :: js)) (((s.gotByte post).at (.encByte t :: js)).encode (b.setWidth 9)) := by
  have hgo := goes_job s (.encByte t) js hr
  rwa [runJob, runEncByte, State.byteRead_data (s := s.at js) hr.free ha hb] at hgo

/-- A turn of the loop that reads a byte with a code (R204). -/
theorem goes_encByte_code {s : State} (hr : s.Runs) (ha : s.ports.byteSource.answering = true) {T : Tree}
    (hT : s.HoldsCodes T) {b : Byte} {q : List Bool} (hq : T.code (b.setWidth 9) = some q) {post : List Byte}
    (hb : s.ports.byteSource.rest = b :: post) (t : Bool) (js : List Job) :
    Goes 1 (s.at (.encByte t :: js))
      ((s.gotByte post).at ((codeWrites q).map (fun w => .put w.1 w.2) ++ .encByte t :: js)) := by
  obtain ⟨hv, hbits⟩ := hT.some (byte_le b) hq
  exact State.encode_of_code (s := s.gotByte post) hv hbits (.encByte t :: js) ▸ goes_encByte_data hr ha hb t js

/-- The turn of the loop that finds `EOD`: the terminator follows if `T = 1` (R204). -/
theorem goes_encByte_eod {s : State} (hr : s.Runs) (ha : s.ports.byteSource.answering = true)
    (hb : s.ports.byteSource.rest = []) (he : s.ports.byteSource.term = .eod) (t : Bool) (js : List Job) :
    Goes 1 (s.at (.encByte t :: js)) (if t then (s.gotEnd.at js).encode 256#9 else s.gotEnd.at js) := by
  have hgo := goes_job s (.encByte t) js hr
  rwa [runJob, runEncByte, State.byteRead_end (s := s.at js) ha hb, State.at_ports, he] at hgo

/-- The turn of the loop that finds `Err` (R207). -/
theorem goes_encByte_err {s : State} (hr : s.Runs) (ha : s.ports.byteSource.answering = true)
    (hb : s.ports.byteSource.rest = []) (he : s.ports.byteSource.term = .err) (t : Bool) (js : List Job) :
    Goes 1 (s.at (.encByte t :: js)) (s.gotEnd.raise .io 2) := by
  have hgo := goes_job s (.encByte t) js hr
  rwa [runJob, runEncByte, State.byteRead_end (s := s.at js) ha hb, State.at_ports, he] at hgo

/-- The byte source holds `bytes` before `post`, the codes of `T` make `p` of them, and the bit sink grants `p`. -/
structure State.Encodes (s : State) (T : Tree) (bytes : List Byte) (p : List Bool) (post : List Byte) : Prop where
  codes   : s.HoldsCodes T
  payload : T.payload bytes = some p
  source  : s.ports.byteSource.answering = true
  rest    : s.ports.byteSource.rest = bytes ++ post
  sink    : s.ports.bitSink.Grants p.length

theorem State.encoded_nil (s : State) (T : Tree) : s.encoded T [] [] s.ports.byteSource.rest = s := by
  simp [State.encoded, State.wrote, codeWrites, Tree.encodeTrace]

/-- A byte read and encoded, and then more bytes. -/
theorem State.encoded_cons {s : State} {T : Tree} {b : Byte} {q : List Bool} (hq : T.code (b.setWidth 9) = some q)
    (bytes more : List Byte) (r : List Bool) (post : List Byte) :
    ((s.gotByte more).wrote (codeWrites q)).encoded T bytes r post = s.encoded T (b :: bytes) (q ++ r) post := by
  simp [State.gotByte, State.encoded, State.wrote, Tree.encodeTrace, Tree.byteCode_eq hq, codeWrites,
    Function.comp_def, BitVec.add_assoc, BitVec.ofNat_add, Nat.add_comm]

/-- A payload whose writes the sink grants, whatever it answers to later ones (R204, R205). -/
theorem State.Encodes.goes {bytes : List Byte} {s : State} {T : Tree} {p : List Bool} {post : List Byte}
    (h : s.Encodes T bytes p post) (hr : s.Runs) (t : Bool) (js : List Job) :
    Goes (bytes.length + p.length) (s.at (.encByte t :: js)) ((s.encoded T bytes p post).at (.encByte t :: js)) := by
  obtain ⟨hT, hp, ha, hb, hg⟩ := h
  induction bytes generalizing s p with
  | nil =>
    cases hp
    rw [← show s.ports.byteSource.rest = post from hb, State.encoded_nil]
    exact Goes.refl _
  | cons b bytes ih =>
    obtain ⟨q, r, hq, hr', rfl⟩ := Tree.payload_cons hp
    rw [List.length_append] at hg
    have hread := goes_encByte_code hr ha hT hq hb t js
    have hputs := goes_puts_granted (ws := codeWrites q) (hr.gotByte (bytes ++ post))
      (by rw [codeWrites_length]; exact hg.mono (Nat.le_add_right _ _)) (.encByte t :: js)
    have hrest := ih (s := (s.gotByte (bytes ++ post)).wrote (codeWrites q)) ((hr.gotByte _).wrote _) (hT.congr rfl) hr'
      ha rfl (State.wrote_grants (by rw [codeWrites_length]; exact hg))
    rw [State.encoded_cons hq] at hrest
    refine ((hread.trans hputs).trans hrest).cast ?_
    simp only [codeWrites_length, List.length_append, List.length_cons]
    omega

/-! ## ENCSTREAM -/

/-- The accepted `ENCSTREAM` after the bytes that it has read and encoded. -/
def State.midStream (s : State) (b : Bool) (T : Tree) (bytes : List Byte) (p : List Bool) (post : List Byte) : State :=
  (s.accept (Instr.jobs (.encstream b))).encoded T bytes p post

theorem State.midStream_runs (s : State) (b : Bool) (T : Tree) (bytes : List Byte) (p : List Bool)
    (post : List Byte) : (s.midStream b T bytes p post).Runs :=
  (accept_runs s _).encoded T bytes p post

/-- `ENCSTREAM` gets through a payload that the sink grants, and ends as what follows makes it end. -/
theorem exec_encstream {s t : State} {T : Tree} {bytes : List Byte} {p : List Bool} {post : List Byte}
    (hv : s.flags.codesValid = true) (hL : T.Legal) (h : s.Encodes T bytes p post) {b : Bool} {n : Nat}
    (hend : Goes n ((s.midStream b T bytes p post).at [.encByte b, .ret]) t) (hn : n ≤ 4096)
    (ht : t.flags.busy = false) : exec (.encstream b) s = .next t := by
  have hr := accept_runs s (Instr.jobs (.encstream b))
  have hstart := goes_job _ (.encstream b) [.ret] hr
  rw [runJob, runEncstream, State.at_flags, if_pos (by exact hv), State.push_at] at hstart
  have h' : (s.accept (Instr.jobs (.encstream b))).Encodes T bytes p post :=
    ⟨h.codes.congr rfl, h.payload, h.source, h.rest, h.sink⟩
  refine exec_of_goes ((hstart.trans (h'.goes hr b [.ret])).trans hend) ht ?_
  have := hL.payload_length_le h.payload
  rw [State.burst, h.rest, List.length_append]
  omega

/-- `ENCSTREAM` at the end of its input goes on to the writes of the sentinel's code, if `T = 1` (R204). -/
theorem goes_encByte_end {s : State} (hr : s.Runs) (ha : s.ports.byteSource.answering = true)
    (hb : s.ports.byteSource.rest = []) (heod : s.ports.byteSource.term = .eod) {T : Tree} (hT : s.HoldsCodes T)
    {t : Bool} {e : List Bool} (he : if t then T.code 256#9 = some e else e = []) (js : List Job) :
    Goes 1 (s.at (.encByte t :: js)) (s.gotEnd.at ((codeWrites e).map (fun w => .put w.1 w.2) ++ js)) := by
  have hgo := goes_encByte_eod hr ha hb heod t js
  cases t with
  | false =>
    obtain rfl : e = [] := he
    exact hgo
  | true =>
    obtain ⟨hv, hbits⟩ := hT.some (by decide) he
    rwa [if_pos rfl, State.encode_of_code (s := s.gotEnd) hv hbits] at hgo

/-- `ENCSTREAM` in front of a byte without a code (R206). -/
theorem exec_encstream_noCode {s : State} {T : Tree} {pre post : List Byte} {x : Byte} {p : List Bool}
    (hv : s.flags.codesValid = true) (hL : T.Legal) (h : s.Encodes T pre p (x :: post))
    (hx : T.code (x.setWidth 9) = none) (b : Bool) :
    exec (.encstream b) s =
      .next (((s.midStream b T pre p (x :: post)).gotByte post).raise .noCode (x.setWidth 32)) := by
  let u := s.midStream b T pre p (x :: post)
  have hno : ((u.gotByte post).code (x.setWidth 9)).valid = false := h.codes.none (byte_le x) hx
  have hgo := goes_encByte_data (s := u) (s.midStream_runs ..) h.source rfl b [.ret]
  rw [State.encode_of_noCode hno, BitVec.setWidth_setWidth (by decide)] at hgo
  exact exec_encstream hv hL h hgo (by decide) rfl

/-- `ENCSTREAM` whose terminator has no code (R206). -/
theorem exec_encstream_noTerminator {s : State} {T : Tree} {input : List Byte} {p : List Bool}
    (hv : s.flags.codesValid = true) (hL : T.Legal) (h : s.Encodes T input p [])
    (heod : s.ports.byteSource.term = .eod) (hx : T.code 256#9 = none) :
    exec (.encstream true) s = .next ((s.midStream true T input p []).gotEnd.raise .noCode 256) := by
  let u := s.midStream true T input p []
  have hno : (u.gotEnd.code 256#9).valid = false := h.codes.none (by decide) hx
  have hgo := goes_encByte_eod (s := u) (s.midStream_runs ..) h.source rfl heod true [.ret]
  rw [if_pos rfl, State.encode_of_noCode hno] at hgo
  exact exec_encstream hv hL h hgo (by decide) rfl

/-- Settles O49: the codes of the bytes before it are written, and the symbol without a code stops the command. -/
theorem missingCodeStopsTheEncoder : Obligations.MissingCodeStopsTheEncoder := by
  refine ⟨fun s x hv hx => exec_encsym_noCode hv hx, ?_, ?_⟩
  · intro s T b pre x post p hv hT hL hp hx ha hs hacc u
    rw [BitVec.ofNat_add, ← BitVec.add_assoc]
    exact exec_encstream_noCode hv hL ⟨hT, hp, ha, hs, hacc.grants _⟩ hx b
  · intro s T input p hv hT hL hp hx ha hs heod hacc
    exact exec_encstream_noTerminator hv hL ⟨hT, hp, ha, by simpa using hs, hacc.grants _⟩ heod hx

/-- The requests of a code's writes. -/
theorem map_bitWrite_codeWrites (e : List Bool) :
    (codeWrites e).map (fun w => Request.bitWrite w.1 w.2) = e.map (fun c : Bool => Request.bitWrite 1 c.toNat) := by
  simp [codeWrites, Function.comp_def]

/-- Settles O50: the payload, the `EOD`, and the sentinel's code, in that order. -/
theorem encstreamWritesThePayload : Obligations.EncstreamWritesThePayload := by
  intro s T b input p e hv hT hL hp he ha hs heod hacc
  have h : s.Encodes T input p [] := ⟨hT, hp, ha, by simpa using hs, hacc.grants _⟩
  let u := s.midStream b T input p []
  have hu : u.Runs := s.midStream_runs ..
  have hlast := goes_encByte_end (s := u) hu ha rfl heod (hT.congr rfl) he [.ret]
  have hputs := goes_puts (s := u.gotEnd) hu.gotEnd (State.wrote_accepts hacc _) (codeWrites e) [.ret]
  have hlen : e.length ≤ 256 := by
    cases b with
    | false => exact (show e = [] from he) ▸ Nat.zero_le _
    | true => exact hL.code_length_le he
  rw [codeWrites_append, ← State.wrote_append, ← map_bitWrite_codeWrites]
  exact exec_encstream hv hL h ((hlast.trans hputs).trans (goes_ret _ (hu.gotEnd.wrote _)))
    (by rw [codeWrites_length]; omega) rfl

/-! ## Transport errors -/

/-- A byte-source `Err` stops `ENCSTREAM` after the bytes before it (R207). -/
theorem exec_encstream_err {s : State} {T : Tree} {input : List Byte} {p : List Bool}
    (hv : s.flags.codesValid = true) (hL : T.Legal) (h : s.Encodes T input p [])
    (herr : s.ports.byteSource.term = .err) (b : Bool) :
    exec (.encstream b) s = .next ((s.midStream b T input p []).gotEnd.raise .io 2) := by
  have hgo := goes_encByte_err (s := s.midStream b T input p []) (s.midStream_runs ..) h.source rfl herr b [.ret]
  exact exec_encstream hv hL h hgo (by decide) rfl

theorem State.midStream_out (s : State) (b : Bool) (T : Tree) (bytes : List Byte) (p : List Bool) (post : List Byte) :
    (s.midStream b T bytes p post).ports.bitSink.out = s.ports.bitSink.out ++ p :=
  congrArg (s.ports.bitSink.out ++ ·) (flatMap_codeWrites p)

theorem State.midStream_bitsOut (s : State) (b : Bool) (T : Tree) (bytes : List Byte) (p : List Bool)
    (post : List Byte) :
    (s.midStream b T bytes p post).counters.bitsOut = s.counters.bitsOut + BitVec.ofNat 32 p.length :=
  congrArg (s.counters.bitsOut + BitVec.ofNat 32 ·) (sum_codeWrites p)

theorem State.gotByte_midStream_bytesIn (s : State) (b : Bool) (T : Tree) (bytes : List Byte) (p : List Bool)
    (more post : List Byte) :
    ((s.midStream b T bytes p more).gotByte post).counters.bytesIn =
      s.counters.bytesIn + BitVec.ofNat 32 (bytes.length + 1) := by
  rw [BitVec.ofNat_add, ← BitVec.add_assoc]
  rfl

theorem State.midStream_failsAt {s : State} {p : List Bool} {j : Nat} (hf : s.ports.bitSink.FailsAt (p.length + j))
    (b : Bool) (T : Tree) (bytes : List Byte) (post : List Byte) :
    (s.midStream b T bytes p post).ports.bitSink.FailsAt j :=
  State.wrote_failsAt_add (s := s) (ws := codeWrites p) (by rwa [codeWrites_length])

/-- `ENCSTREAM` stops at the bit that the sink refuses in the code `q`, which follows the payload (R207): `u` is the
state after the read that led to `q`. -/
theorem exec_encstream_refused {s u : State} {T : Tree} {bytes post : List Byte} {p q : List Bool} {b : Bool} {j : Nat}
    (hv : s.flags.codesValid = true) (hL : T.Legal) (h : s.Encodes T bytes p post)
    (hf : s.ports.bitSink.FailsAt (p.length + j)) (hj : j < q.length) (hq : q.length ≤ 256) (hu : u.Runs)
    {js : List Job}
    (hcode : Goes 1 ((s.midStream b T bytes p post).at [.encByte b, .ret])
      (u.at ((codeWrites q).map (fun w => .put w.1 w.2) ++ js)))
    (hsink : u.ports.bitSink = (s.midStream b T bytes p post).ports.bitSink)
    (hbits : u.counters.bitsOut = (s.midStream b T bytes p post).counters.bitsOut) :
    ∃ t, exec (.encstream b) s = .next t ∧ t.flags.busy = false ∧ t.errCode = 7#4 ∧ t.errInfo = 1#32 ∧
      t.ports.bitSink.out = s.ports.bitSink.out ++ p ++ q.take j ∧
      t.counters.bitsOut = s.counters.bitsOut + BitVec.ofNat 32 (p.length + j) ∧
      t.ports.byteSource = u.ports.byteSource ∧ t.counters.bytesIn = u.counters.bytesIn := by
  obtain ⟨n, t, hn, ht, hstop⟩ := goes_code_refused hu hj (hsink ▸ State.midStream_failsAt hf b T bytes post) js
  refine ⟨t, exec_encstream hv hL h (hcode.trans hstop) (by omega) ht.busy, ht.busy, ht.errCode, ht.errInfo, ?_, ?_,
    ht.source, ht.bytesIn⟩
  · rw [ht.out, hsink, State.midStream_out]
  · rw [ht.bitsOut, hbits, State.midStream_bitsOut, List.length_take_of_le hj.le, BitVec.ofNat_add, BitVec.add_assoc]

/-- Settles O51: what the command had written, read and counted when it met the error stands. -/
theorem transportErrorsStopTheEncoder : Obligations.TransportErrorsStopTheEncoder := by
  refine ⟨?_, ?_, ?_, ?_⟩
  · intro s T b input p hv hT hL hp ha hs herr hacc
    have h : s.Encodes T input p [] := ⟨hT, hp, ha, by simpa using hs, hacc.grants _⟩
    exact ⟨_, exec_encstream_err hv hL h herr b, rfl, rfl, rfl, s.midStream_out b T input p [],
      s.midStream_bitsOut b T input p [], rfl⟩
  · intro s x j hv hx hj hlen hf
    obtain ⟨t, ht, hstop⟩ := exec_encsym_refused hv hx hj hlen hf
    have hbits := hstop.bitsOut
    rw [List.length_take_of_le hj.le] at hbits
    exact ⟨t, ht, hstop.busy, hstop.errCode, hstop.errInfo, hstop.out, hbits⟩
  · intro s T b pre x post p q j hv hT hL hp hq hj ha hs hf
    have hu := s.midStream_runs b T pre p (x :: post)
    obtain ⟨t, ht, hbusy, hcode, hinfo, hout, hbits, hsource, hbytes⟩ :=
      exec_encstream_refused hv hL ⟨hT, hp, ha, hs, hf.grants⟩ hf hj (hL.code_length_le hq) (hu.gotByte post)
        (goes_encByte_code hu ha (hT.congr rfl) hq rfl b [.ret]) rfl rfl
    rw [State.gotByte_midStream_bytesIn] at hbytes
    exact ⟨t, ht, hbusy, hcode, hinfo, hout, hbits, congrArg Source.rest hsource, hbytes⟩
  · intro s T input p e j hv hT hL hp he hj ha hs heod hf
    have hu := s.midStream_runs true T input p []
    obtain ⟨t, ht, hbusy, hcode, hinfo, hout, hbits, -, hbytes⟩ :=
      exec_encstream_refused hv hL ⟨hT, hp, ha, by simpa using hs, hf.grants⟩ hf hj (hL.code_length_le he) hu.gotEnd
        (goes_encByte_end (t := true) hu ha rfl heod (hT.congr rfl) he [.ret]) rfl rfl
    exact ⟨t, ht, hbusy, hcode, hinfo, hout, hbits, hbytes⟩

/-! ## FLUSH -/

/-- The ports after the bit sink has answered a flush request (R92). -/
def Ports.askBitSink (q : Ports) : Ports :=
  { q with bitSink := q.bitSink.flushed, trace := q.trace ++ [.flush .bitSink] }

/-- The ports after the byte sink has answered a flush request (R92). -/
def Ports.askByteSink (q : Ports) : Ports :=
  { q with byteSink := q.byteSink.flushed, trace := q.trace ++ [.flush .byteSink] }

theorem State.Runs.with_ports {s : State} (hr : s.Runs) (q : Ports) : State.Runs { s with ports := q } :=
  ⟨hr.busy, hr.free⟩

theorem Sink.flushed_of_ok {α : Type} {k : Sink α} (h : k.reply = .ok) :
    k.flushed = { k with answers := k.answers.tail, flushes := k.flushes + 1 } := by
  rw [Sink.flushed, h]
  rfl

theorem Sink.flushed_of_err {α : Type} {k : Sink α} (h : k.reply = .err) :
    k.flushed = { k with answers := k.answers.tail } := by
  rw [Sink.flushed, h]
  rfl

theorem State.flushBitSink_eq {s : State} (hr : s.seq.outstanding = none) (ha : s.ports.bitSink.answering = true) :
    s.flushBitSink = some (s.ports.bitSink.reply, { s with ports := s.ports.askBitSink }) := by
  have hseq : { s.seq with outstanding := none } = s.seq := by rw [← hr]
  simp [State.flushBitSink, ha, Ports.askBitSink, State.answered, hseq]

theorem State.flushByteSink_eq {s : State} (hr : s.seq.outstanding = none) (ha : s.ports.byteSink.answering = true) :
    s.flushByteSink = some (s.ports.byteSink.reply, { s with ports := s.ports.askByteSink }) := by
  have hseq : { s.seq with outstanding := none } = s.seq := by rw [← hr]
  simp [State.flushByteSink, ha, Ports.askByteSink, State.answered, hseq]

/-- After the answer `r` of the sink at port `p`, `FLUSH` goes on or stops (R210). -/
def State.afterFlush (s : State) (p : Port) (r : Reply) (js : List Job) : State :=
  match r with
  | .ok => s.at js
  | .err => s.raise .io p.number

/-- The flush of the bit sink (R210). -/
theorem goes_flushBits {s : State} (hr : s.Runs) (ha : s.ports.bitSink.answering = true) {r : Reply}
    (h : s.ports.bitSink.reply = r) (js : List Job) :
    Goes 1 (s.at (.flushBits :: js)) (State.afterFlush { s with ports := s.ports.askBitSink } .bitSink r js) := by
  have hgo := goes_job s .flushBits js hr
  rw [runJob, runFlushBits, State.flushBitSink_eq (s := s.at js) hr.free ha, State.at_ports, h] at hgo
  cases r <;> exact hgo

/-- The flush of the byte sink (R210). -/
theorem goes_flushBytes {s : State} (hr : s.Runs) (ha : s.ports.byteSink.answering = true) {r : Reply}
    (h : s.ports.byteSink.reply = r) (js : List Job) :
    Goes 1 (s.at (.flushBytes :: js)) (State.afterFlush { s with ports := s.ports.askByteSink } .byteSink r js) := by
  have hgo := goes_job s .flushBytes js hr
  rw [runJob, runFlushBytes, State.flushByteSink_eq (s := s.at js) hr.free ha, State.at_ports, h] at hgo
  cases r <;> exact hgo

/-- Settles O52: the requests in order, up to the first `Err`. -/
theorem flushAsksTheSinksInOrder : Obligations.FlushAsksTheSinksInOrder := by
  intro s ha hb bitsDone bitsFail bytesDone bytesFail
  have hr (k y : Bool) : (s.accept (Instr.jobs (.flush k y))).Runs := accept_runs s _
  have hbits (hok : s.ports.bitSink.reply = .ok) : bitsDone s.ports = s.ports.askBitSink := by
    rw [Ports.askBitSink, Sink.flushed_of_ok hok]
  have hbytes (q : Ports) (hok : q.byteSink.reply = .ok) : bytesDone q = q.askByteSink := by
    rw [Ports.askByteSink, Sink.flushed_of_ok hok]
  have hbytesErr (q : Ports) (herr : q.byteSink.reply = .err) : bytesFail q = q.askByteSink := by
    rw [Ports.askByteSink, Sink.flushed_of_err herr]
  refine ⟨?_, fun hok => ?_, fun hok => ?_, fun hok hok' => ?_, fun y herr => ?_, fun herr => ?_, fun hok herr => ?_⟩
  · exact exec_of_goes (goes_ret _ (hr false false)) rfl (s.le_burst (by decide))
  · rw [hbits hok]
    have hask := goes_flushBits (hr true false) ha hok [.ret]
    exact exec_of_goes (hask.trans (goes_ret _ ((hr true false).with_ports _))) rfl (s.le_burst (by decide))
  · rw [hbytes _ hok]
    have hask := goes_flushBytes (hr false true) hb hok [.ret]
    exact exec_of_goes (hask.trans (goes_ret _ ((hr false true).with_ports _))) rfl (s.le_burst (by decide))
  · rw [hbits hok, hbytes s.ports.askBitSink hok']
    have hbit := goes_flushBits (hr true true) ha hok [.flushBytes, .ret]
    have hbyte := goes_flushBytes ((hr true true).with_ports s.ports.askBitSink) hb hok' [.ret]
    exact exec_of_goes ((hbit.trans hbyte).trans (goes_ret _ ((hr true true).with_ports _))) rfl
      (s.le_burst (by decide))
  · have hfail : bitsFail s.ports = s.ports.askBitSink := by rw [Ports.askBitSink, Sink.flushed_of_err herr]
    rw [hfail]
    exact exec_of_goes (goes_flushBits (hr true y) ha herr _) rfl (s.le_burst (by decide))
  · rw [hbytesErr _ herr]
    exact exec_of_goes (goes_flushBytes (hr false true) hb herr [.ret]) rfl (s.le_burst (by decide))
  · rw [hbits hok, hbytesErr s.ports.askBitSink herr]
    have hbit := goes_flushBits (hr true true) ha hok [.flushBytes, .ret]
    have hbyte := goes_flushBytes ((hr true true).with_ports s.ports.askBitSink) hb herr [.ret]
    exact exec_of_goes (hbit.trans hbyte) rfl (s.le_burst (by decide))

end Sys2Proof.Machine
end

section
/-! SUPPORT. `DECSYM` and `DECSTREAM`: one code, a code that is cut, and the bytes of a stream, to a sink that grants their
writes and to one that refuses one of them (R221-R238). -/

namespace Sys2Proof.Machine

/-! ## The root -/

/-- With a tree, the decoder goes on to `decode1()` (R221, R231). -/
theorem goes_decode {s : State} (hr : s.Runs) (hv : s.flags.treeValid = true) (stream : Bool) (js : List Job) :
    Goes 1 (s.at (.decode stream :: js)) (s.at (.decode1 stream :: js)) := by
  have hgo := goes_job s (.decode stream) js hr
  rw [runJob, runDecode, State.at_flags, if_pos hv] at hgo
  exact hgo

/-- A root that is a literal leaf stops the decoder (R234). -/
theorem goes_decode1_literal {s : State} (hr : s.Runs) (hl : (s.node s.root).leaf = true)
    (hx : (s.node s.root).sym ≠ 256#9) (stream : Bool) (js : List Job) :
    Goes 1 (s.at (.decode1 stream :: js)) (s.raiseDec .missingTerm 2) := by
  have hgo := goes_job s (.decode1 stream) js hr
  rw [runJob, runDecode1, if_pos ⟨hl, hx⟩] at hgo
  exact hgo

/-- With any other root the decoder goes down from there (R221). -/
theorem goes_decode1 {s : State} (hr : s.Runs) (h : ¬ ((s.node s.root).leaf = true ∧ (s.node s.root).sym ≠ 256#9))
    (stream : Bool) (js : List Job) :
    Goes 1 (s.at (.decode1 stream :: js)) (s.at (.descend stream s.root false :: js)) := by
  have hgo := goes_job s (.decode1 stream) js hr
  rw [runJob, runDecode1, if_neg (by exact h)] at hgo
  exact hgo

/-- The root of a tree in which a symbol has a code is no literal leaf, unless the code is that literal's empty one. -/
theorem State.Holds.not_literal {s : State} {T : Tree} {i : NodeIx} (h : s.Holds i T) {x : Symbol} {p : List Bool}
    (hx : T.code x = some p) (hp : p = [] → x = 256#9) :
    ¬ ((s.node i).leaf = true ∧ (s.node i).sym ≠ 256#9) := by
  rintro ⟨hl, hs⟩
  obtain rfl | hne := eq_or_ne p []
  · cases T with
    | leaf y =>
      obtain ⟨-, rfl⟩ := h
      rw [Tree.code] at hx
      split at hx
      · exact hs (‹_ = x›.trans (hp rfl))
      · cases hx
    | node l r => exact absurd hl (by simp [h.1])
  · exact absurd hl (by simp [h.not_leaf hx hne])

/-! ## One code -/

/-- `decode1()` reads exactly the code that the source holds, and finds its symbol (R221, R222). -/
theorem goes_decode1_code {s : State} (hr : s.Runs) (ha : s.ports.bitSource.answering = true) {T : Tree}
    (hT : s.Holds s.root T) {x : Symbol} {p : List Bool} (hx : T.code x = some p) (hp : p = [] → x = 256#9)
    {more : List Bool} (hs : s.ports.bitSource.rest = p ++ more) (stream : Bool) (js : List Job) :
    Goes (p.length + 2) (s.at (.decode1 stream :: js))
      (let u := (s.haveRead (List.replicate p.length 1) more).at js
       if stream then u.gotStreamSymbol x else u.gotSymbol x) := by
  have hroot := goes_decode1 hr (hT.not_literal hx hp) stream js
  obtain ⟨j, mid, hj, hjx, hcode⟩ := goes_descend hr ha hT hx hs stream false js
  have hleaf := goes_job (s.haveRead (List.replicate p.length 1) more) (.descend stream j mid) js (hr.haveRead _ _)
  rw [runJob, runDescend, if_pos (by exact hj)] at hleaf
  subst hjx
  exact ((hroot.trans hcode).trans hleaf).cast (by omega)

/-- One bit of a code leads to a child (R222). -/
theorem goes_descend_bit {s : State} (hr : s.Runs) (ha : s.ports.bitSource.answering = true) {i : NodeIx}
    (hn : (s.node i).leaf = false) {b : Bool} {rest : List Bool} (hs : s.ports.bitSource.rest = b :: rest)
    (stream mid : Bool) (js : List Job) :
    Goes 1 (s.at (.descend stream i mid :: js))
      ((s.haveRead [1] rest).at (.descend stream (if b then (s.node i).r else (s.node i).l) true :: js)) := by
  have hgo := goes_job s (.descend stream i mid) js hr
  rw [runJob, runDescend, State.at_node, hn,
    State.bitRead_data (s := s.at js) (n := 1) (xs := [b]) hr.free ha hs rfl] at hgo
  cases b <;> exact hgo

/-- The bits of a code that is cut lead to an internal node (R222). -/
theorem goes_descend_cut {p : List Bool} {T : Tree} {s : State} (hr : s.Runs) (ha : s.ports.bitSource.answering = true)
    {i : NodeIx} (hT : s.Holds i T) {x : Symbol} {lost more : List Bool} (hx : T.code x = some (p ++ lost))
    (hlost : lost ≠ []) (hs : s.ports.bitSource.rest = p ++ more) (stream mid : Bool) (js : List Job) :
    ∃ j, (s.node j).leaf = false ∧
      Goes p.length (s.at (.descend stream i mid :: js))
        ((s.haveRead (List.replicate p.length 1) more).at (.descend stream j (mid || !p.isEmpty) :: js)) := by
  induction p generalizing T s i mid with
  | nil =>
    refine ⟨i, hT.not_leaf hx hlost, ?_⟩
    rw [List.isEmpty_nil, Bool.not_true, Bool.or_false, List.length_nil, List.replicate_zero,
      ← show s.ports.bitSource.rest = more from hs, State.haveRead_nil]
    exact Goes.refl _
  | cons b p ih =>
    have hn := hT.not_leaf hx (by simp)
    have hbit := goes_descend_bit hr ha hn hs stream mid js
    obtain ⟨U, hU, hUx⟩ : ∃ U, s.Holds (if b then (s.node i).r else (s.node i).l) U ∧ U.code x = some (p ++ lost) := by
      cases T with
      | leaf y => exact absurd (hT.1.symm.trans hn) (by simp)
      | node l r =>
        obtain ⟨-, hl, hr'⟩ := hT
        rw [Tree.code] at hx
        cases hlx : l.code x with
        | some q =>
          rw [hlx] at hx
          cases hx
          exact ⟨l, hl, hlx⟩
        | none =>
          rw [hlx] at hx
          obtain ⟨q, hq, hqp⟩ := Option.map_eq_some_iff.1 hx
          cases hqp
          exact ⟨r, hr', hq⟩
    obtain ⟨j, hj, hrest⟩ := ih (hr.haveRead [1] (p ++ more)) ha (hU.haveRead _ _) hUx rfl true
    rw [State.haveRead_haveRead] at hrest
    rw [List.isEmpty_cons, Bool.not_false, Bool.or_true]
    exact ⟨j, hj, (hbit.trans hrest).cast (Nat.add_comm 1 _)⟩

/-- The decoder once its source has ended with `k`, `mid` in a code (R224, R232, R262). -/
def State.decoderEnded (s : State) (k : EndKind) (mid : Bool) : State :=
  match k with
  | .eod => (s.answered (.bitRead 1)).endBits.raiseDec .missingTerm (bitWord mid)
  | .err => (s.answered (.bitRead 1)).endBits.raiseDec .io 0

/-- `decode1()` on a source that ends within a code (R224). -/
theorem goes_decode1_cut {s : State} (hr : s.Runs) (ha : s.ports.bitSource.answering = true) {T : Tree}
    (hT : s.Holds s.root T) {x : Symbol} {p lost : List Bool} (hx : T.code x = some (p ++ lost)) (hlost : lost ≠ [])
    (hs : s.ports.bitSource.rest = p) {k : EndKind} (hk : s.ports.bitSource.term = k) (stream : Bool) (js : List Job) :
    Goes (p.length + 2) (s.at (.decode1 stream :: js))
      ((s.haveRead (List.replicate p.length 1) []).decoderEnded k (!p.isEmpty)) := by
  have hroot := goes_decode1 hr (hT.not_literal hx (by simp [hlost])) stream js
  obtain ⟨j, hj, hcode⟩ := goes_descend_cut hr ha hT hx hlost (more := []) (by simpa using hs) stream false js
  let u := s.haveRead (List.replicate p.length 1) []
  have hend := goes_job u (.descend stream j (!p.isEmpty)) js (hr.haveRead _ _)
  rw [runJob, runDescend, State.at_node, show (u.node j).leaf = false from hj,
    State.bitRead_ended (s := u.at js) ha Nat.one_pos hk] at hend
  rw [Bool.false_or] at hcode
  cases k <;> exact ((hroot.trans hcode).trans hend).cast (by omega)

/-! ## DECSYM -/

/-- With a tree, the decoder's command ends as its first `decode1()` makes it end. -/
theorem goes_decoder {s t : State} {i : Instr} {stream : Bool} (hi : Instr.jobs i = [.decode stream, .ret])
    (hv : s.flags.treeValid = true) {n : Nat}
    (h : Goes n ((s.accept (Instr.jobs i)).at [.decode1 stream, .ret]) t) (hn : n + 1 ≤ s.burst)
    (ht : t.flags.busy = false) : exec i s = .next t := by
  have hstart := goes_decode (accept_runs s (Instr.jobs i)) hv stream [.ret]
  rw [← hi] at hstart
  exact exec_of_goes (hstart.trans h) ht (by omega)

/-- Settles O53: the code leads to the leaf, and the leaf's symbol is reported. -/
theorem decsymDecodesOneCode : Obligations.DecsymDecodesOneCode := by
  intro s T x p more hv hT hL hx hp ha hs
  have hr := accept_runs s (Instr.jobs .decsym)
  have hcode := goes_decode1_code hr ha (hT.congr rfl) hx hp hs false [.ret]
  have hlen := hL.code_length_le hx
  refine goes_decoder rfl hv (hcode.trans (goes_ret (State.gotSymbol _ x) ⟨hr.busy, hr.free⟩)) (s.le_burst ?_) rfl
  omega

/-- Settles O54: the bits of the cut code lead to an internal node, where the next read finds the source's end. -/
theorem decsymReportsAMissingTerminator : Obligations.DecsymReportsAMissingTerminator := by
  intro s T x p lost hv hT hL hx hlost ha hs
  have hr := accept_runs s (Instr.jobs .decsym)
  have hn : p.length + 2 + 1 ≤ s.burst := s.le_burst <| by
    have := hL.code_length_le hx
    rw [List.length_append] at this
    omega
  refine ⟨fun hterm => ?_, fun hterm => ?_⟩
  · have hcut := goes_decode1_cut hr ha (hT.congr rfl) hx hlost hs hterm false [.ret]
    rw [goes_decoder rfl hv hcut hn rfl]
    cases p <;> rfl
  · have hcut := goes_decode1_cut hr ha (hT.congr rfl) hx hlost hs hterm false [.ret]
    exact goes_decoder rfl hv hcut hn rfl

/-- The only leaf of a tree that is a leaf. -/
theorem State.HoldsTree.sym_root {s : State} {T : Tree} (h : s.HoldsTree T) (hl : (s.node s.root).leaf = true) :
    T.syms = [(s.node s.root).sym] := by
  have hT := h.holds
  cases T with
  | leaf y => rw [hT.2, Tree.syms]
  | node l r => exact absurd hl (by simp [hT.1])

/-- The sentinel has a leaf in the tree that `BUILD` makes (R138). -/
theorem sentinel_mem_of_exec_build {s t : State} (h : exec .build s = .next t) :
    ∃ T, t.HoldsTree T ∧ 256#9 ∈ T.syms := by
  obtain ⟨T, hT, hsyms, -⟩ := buildMakesAValidTree s t h
  exact ⟨T, hT, (hsyms _).2 ⟨by decide, by simp [State.freqAt]⟩⟩

/-- Settles O55: the root is looked at before the first read; and the one leaf of a `BUILD` is the sentinel's. -/
theorem literalRootHasNoTerminator : Obligations.LiteralRootHasNoTerminator := by
  refine ⟨fun s hv hl hx => ⟨?_, ?_⟩, fun s t h hl => ?_⟩
  · exact goes_decoder rfl hv (goes_decode1_literal (accept_runs s _) hl hx false [.ret]) (s.le_burst (by decide)) rfl
  · exact goes_decoder rfl hv (goes_decode1_literal (accept_runs s _) hl hx true [.ret]) (s.le_burst (by decide)) rfl
  · obtain ⟨T, hT, hmem⟩ := sentinel_mem_of_exec_build h
    rw [hT.sym_root hl, List.mem_singleton] at hmem
    exact hmem.symm

end Sys2Proof.Machine
end

section
/-! SUPPORT. `DECSTREAM`: the bytes of a stream, and how it ends (R231-R238). -/

namespace Sys2Proof.Machine

/-! ## The byte sink, by its next answer -/

/-- A byte to which the sink's next answer is `Ok` (R90). -/
theorem State.byteWrite_ok {s : State} (hr : s.seq.outstanding = none) (ha : s.ports.byteSink.answering = true)
    (h : s.ports.byteSink.reply = .ok) (b : Byte) :
    s.byteWrite b = some (.ok, { s with
      ports.byteSink    := s.ports.byteSink.took [b]
      ports.trace       := s.ports.trace ++ [.byteWrite b]
      counters.bytesOut := s.counters.bytesOut + 1 }) := by
  have hseq : { s.seq with outstanding := none } = s.seq := by rw [← hr]
  simp [State.byteWrite, ha, h, State.answered, Sink.replied, Sink.took, hseq]

/-- The effect of a byte that the sink has answered with `Err`: nothing lands (R89, R90). -/
def State.refusedByte (s : State) (b : Byte) : State :=
  { s with
    ports.byteSink.answers := s.ports.byteSink.answers.tail
    ports.trace            := s.ports.trace ++ [.byteWrite b] }

/-- A byte to which the sink's next answer is `Err` (R89, R90). -/
theorem State.byteWrite_err {s : State} (hr : s.seq.outstanding = none) (ha : s.ports.byteSink.answering = true)
    (h : s.ports.byteSink.reply = .err) (b : Byte) : s.byteWrite b = some (.err, s.refusedByte b) := by
  have hseq : { s.seq with outstanding := none } = s.seq := by rw [← hr]
  simp [State.byteWrite, ha, h, State.refusedByte, State.answered, Sink.replied, hseq]

/-- Accepted data use up as many of the sink's answers. -/
theorem Sink.took_replyAt {α : Type} (k : Sink α) (xs : List α) (i : Nat) :
    (k.took xs).replyAt i = k.replyAt (xs.length + i) := by
  simp [Sink.replyAt, Sink.took, List.getD_eq_getElem?_getD]

theorem Sink.Grants.took {α : Type} {k : Sink α} {xs : List α} {n : Nat} (h : k.Grants (xs.length + n)) :
    (k.took xs).Grants n := by
  obtain ⟨ha, hok⟩ := h
  exact ⟨ha, fun i hi => (k.took_replyAt xs i).trans (hok _ (Nat.add_lt_add_left hi _))⟩

/-- After accepted data the sink's `Err` comes next. -/
theorem Sink.FailsAt.took_reply {α : Type} {k : Sink α} {xs : List α} (h : k.FailsAt xs.length) :
    (k.took xs).reply = .err := by
  obtain ⟨-, -, herr⟩ := h
  exact Sink.replyAt_zero _ ▸ (k.took_replyAt xs 0).trans herr

/-! ## One byte -/

/-- `DECSTREAM` gets through the code of a literal to the write of its byte (R231). -/
theorem goes_decode1_byte {s : State} (hr : s.Runs) (ha : s.ports.bitSource.answering = true) {T : Tree}
    (hT : s.Holds s.root T) {b : Byte} {q : List Bool} (hq : T.code (b.setWidth 9) = some q) (hne : q ≠ [])
    {more : List Bool} (hs : s.ports.bitSource.rest = q ++ more) (js : List Job) :
    Goes (q.length + 2) (s.at (.decode1 true :: js))
      (State.at { s.haveRead (List.replicate q.length 1) more with sym := b.setWidth 9 }
        (.putByte b :: .decode1 true :: js)) := by
  have hgo := goes_decode1_code hr ha hT hq (fun h => absurd h hne) hs true js
  dsimp only at hgo
  rw [if_pos rfl, State.gotStreamSymbol, if_neg (setWidth_byte_ne b), setWidth_byte_byte] at hgo
  exact hgo

/-- `DECSTREAM` gets through the sentinel's code to its end (R231, R233). -/
theorem goes_decode1_sentinel {s : State} (hr : s.Runs) (ha : s.ports.bitSource.answering = true) {T : Tree}
    (hT : s.Holds s.root T) {e : List Bool} (he : T.code 256#9 = some e)
    {more : List Bool} (hs : s.ports.bitSource.rest = e ++ more) (js : List Job) :
    Goes (e.length + 2) (s.at (.decode1 true :: js))
      (State.at { s.haveRead (List.replicate e.length 1) more with sym := 256#9, flags.eos := true } js) :=
  goes_decode1_code hr ha hT he (fun _ => rfl) hs true js

/-- One byte that the sink grants (R231). -/
theorem goes_decodeByte {s : State} (hr : s.Runs) (ha : s.ports.bitSource.answering = true) {T : Tree}
    (hT : s.Holds s.root T) {b : Byte} {q : List Bool} (hq : T.code (b.setWidth 9) = some q) (hne : q ≠ [])
    {more : List Bool} (hs : s.ports.bitSource.rest = q ++ more) (hk : s.ports.byteSink.Grants 1) (js : List Job) :
    Goes (q.length + 3) (s.at (.decode1 true :: js)) ((s.decoded T [b] q.length more).at (.decode1 true :: js)) := by
  let u : State := { s.haveRead (List.replicate q.length 1) more with sym := b.setWidth 9 }
  have hput := goes_job u (.putByte b) (.decode1 true :: js) ⟨hr.busy, hr.free⟩
  rw [runJob, runPutByte, State.byteWrite_ok (s := u.at (.decode1 true :: js)) hr.free hk.1 hk.reply] at hput
  have htrace : T.decodeTrace [b] = List.map Request.bitRead (List.replicate q.length 1) ++ [.byteWrite b] := by
    simp [Tree.decodeTrace, Tree.byteCode_eq hq]
  have hgo := (goes_decode1_byte hr ha hT hq hne hs js).trans hput
  rw [State.decoded, htrace, ← List.append_assoc]
  exact hgo

/-! ## The bytes -/

/-- The bit source holds the codes `p` of `bytes` before `more`, none of them empty, and the byte sink grants the bytes. -/
structure State.Decodes (s : State) (T : Tree) (bytes : List Byte) (p more : List Bool) : Prop where
  holds   : s.Holds s.root T
  payload : T.payload bytes = some p
  inner   : ∀ b ∈ bytes, T.code (b.setWidth 9) ≠ some []
  source  : s.ports.bitSource.answering = true
  rest    : s.ports.bitSource.rest = p ++ more
  sink    : s.ports.byteSink.Grants bytes.length

theorem State.decoded_nil (s : State) (T : Tree) : s.decoded T [] 0 s.ports.bitSource.rest = s := by
  simp [State.decoded, State.haveRead, Tree.decodeTrace, Sink.took]

/-- A byte decoded, and then more bytes. -/
theorem State.decoded_cons (s : State) (T : Tree) (b : Byte) (bytes : List Byte) (m n : Nat) (rest more : List Bool) :
    (s.decoded T [b] m rest).decoded T bytes n more = s.decoded T (b :: bytes) (m + n) more := by
  cases hl : bytes.getLast? <;>
    simp [State.decoded, State.haveRead, Tree.decodeTrace, Sink.took, BitVec.add_assoc, BitVec.ofNat_add,
      Nat.add_comm, List.getLast?_cons, hl]

theorem State.Runs.decoded {s : State} (hr : s.Runs) (T : Tree) (bytes : List Byte) (n : Nat) (more : List Bool) :
    (s.decoded T bytes n more).Runs := ⟨hr.busy, hr.free⟩

/-- The bytes of a stream whose writes the sink grants, whatever it answers to later ones (R231). -/
theorem State.Decodes.goes {bytes : List Byte} {s : State} {T : Tree} {p more : List Bool}
    (h : s.Decodes T bytes p more) (hr : s.Runs) (js : List Job) :
    Goes (p.length + 3 * bytes.length) (s.at (.decode1 true :: js))
      ((s.decoded T bytes p.length more).at (.decode1 true :: js)) := by
  obtain ⟨hT, hp, hin, ha, hs, hk⟩ := h
  induction bytes generalizing s p with
  | nil =>
    cases hp
    rw [← show s.ports.bitSource.rest = more from hs, List.length_nil, State.decoded_nil]
    exact Goes.refl _
  | cons b bytes ih =>
    obtain ⟨q, r, hq, hr', rfl⟩ := Tree.payload_cons hp
    have hne : q ≠ [] := fun h => hin b (by simp) (h ▸ hq)
    rw [List.append_assoc] at hs
    rw [List.length_cons, Nat.add_comm] at hk
    have hbyte := goes_decodeByte hr ha hT hq hne hs (hk.mono (by omega)) js
    have hrest := ih (s := s.decoded T [b] q.length (r ++ more)) (hr.decoded ..) (hT.congr rfl) hr'
      (fun c hc => hin c (by simp [hc])) ha rfl (Sink.Grants.took hk)
    rw [State.decoded_cons, ← List.length_append] at hrest
    exact (hbyte.trans hrest).cast (by rw [List.length_append, List.length_cons]; omega)

/-- A byte takes a bit at least. -/
theorem State.Decodes.length_le {s : State} {T : Tree} {bytes : List Byte} {p more : List Bool}
    (h : s.Decodes T bytes p more) : bytes.length ≤ p.length := by
  obtain ⟨-, hp, hin, -, -, -⟩ := h
  induction bytes generalizing p with
  | nil => exact Nat.zero_le _
  | cons b bytes ih =>
    obtain ⟨q, r, hq, hr, rfl⟩ := Tree.payload_cons hp
    have hne : q ≠ [] := fun h => hin b (by simp) (h ▸ hq)
    have := List.length_pos_of_ne_nil hne
    have := ih hr fun c hc => hin c (by simp [hc])
    rw [List.length_append, List.length_cons]
    omega

/-- Where a symbol has a code that is not empty, no code is empty. -/
theorem Tree.code_ne_some_nil {T : Tree} {x : Symbol} {p : List Bool} (hx : T.code x = some p) (hp : p ≠ [])
    (y : Symbol) : T.code y ≠ some [] := by
  intro hy
  obtain rfl | hxy := eq_or_ne x y
  · exact hp (Option.some.inj (hx.symm.trans hy))
  · exact Tree.code_ne_nil hxy.symm hy hx rfl

/-! ## DECSTREAM -/

/-- The accepted `DECSTREAM` after the bytes that it has decoded. -/
def State.midDecode (s : State) (T : Tree) (bytes : List Byte) (n : Nat) (more : List Bool) : State :=
  (s.accept (Instr.jobs .decstream)).decoded T bytes n more

theorem State.midDecode_runs (s : State) (T : Tree) (bytes : List Byte) (n : Nat) (more : List Bool) :
    (s.midDecode T bytes n more).Runs := (accept_runs s _).decoded T bytes n more

/-- `DECSTREAM` gets through the bytes that the sink grants, and ends as what follows makes it end. -/
theorem exec_decstream {s t : State} {T : Tree} {bytes : List Byte} {p more : List Bool}
    (hv : s.flags.treeValid = true) (h : s.Decodes T bytes p more) {n : Nat}
    (hend : Goes n ((s.midDecode T bytes p.length more).at [.decode1 true, .ret]) t) (hn : n ≤ 4095)
    (ht : t.flags.busy = false) : exec .decstream s = .next t := by
  have h' : (s.accept (Instr.jobs .decstream)).Decodes T bytes p more :=
    ⟨h.holds.congr rfl, h.payload, h.inner, h.source, h.rest, h.sink⟩
  refine goes_decoder rfl hv ((h'.goes (accept_runs s _) [.ret]).trans hend) ?_ ht
  have := h.length_le
  rw [State.burst, h.rest, List.length_append]
  omega

/-- `DECSTREAM` with the sentinel's code behind the bytes (R233). -/
theorem exec_decstream_sentinel {s : State} {T : Tree} {bytes : List Byte} {p e more : List Bool}
    (hv : s.flags.treeValid = true) (hL : T.Legal) (h : s.Decodes T bytes p (e ++ more))
    (he : T.code 256#9 = some e) :
    exec .decstream s = .next (State.complete
      { (s.midDecode T bytes p.length (e ++ more)).haveRead (List.replicate e.length 1) more with
        sym := 256#9, flags.eos := true }) := by
  have hr := s.midDecode_runs T bytes p.length (e ++ more)
  have hend := goes_decode1_sentinel hr h.source (h.holds.congr rfl) he rfl [.ret]
  have hlen := hL.code_length_le he
  exact exec_decstream hv h (hend.trans (goes_ret _ ⟨hr.busy, hr.free⟩)) (by omega) rfl

/-- `DECSTREAM` with a code that is cut behind the bytes (R232). -/
theorem exec_decstream_cut {s : State} {T : Tree} {bytes : List Byte} {x : Symbol} {p q lost : List Bool}
    (hv : s.flags.treeValid = true) (hL : T.Legal) (h : s.Decodes T bytes p q)
    (hx : T.code x = some (q ++ lost)) (hlost : lost ≠ []) {k : EndKind} (hk : s.ports.bitSource.term = k) :
    exec .decstream s = .next
      (((s.midDecode T bytes p.length q).haveRead (List.replicate q.length 1) []).decoderEnded k (!q.isEmpty)) := by
  have hend := goes_decode1_cut (s.midDecode_runs T bytes p.length q) h.source (h.holds.congr rfl) hx hlost rfl
    (k := k) hk true [.ret]
  have hlen := hL.code_length_le hx
  rw [List.length_append] at hlen
  exact exec_decstream hv h hend (by omega) (by cases k <;> rfl)

/-- `DECSTREAM` with a byte that the sink refuses behind the bytes (R238). -/
theorem exec_decstream_refused {s : State} {T : Tree} {bytes : List Byte} {b : Byte} {p q more : List Bool}
    (hv : s.flags.treeValid = true) (hL : T.Legal) (h : s.Decodes T bytes p (q ++ more))
    (hq : T.code (b.setWidth 9) = some q) (hne : q ≠ []) (hf : s.ports.byteSink.FailsAt bytes.length) :
    exec .decstream s = .next ((State.refusedByte
      { (s.midDecode T bytes p.length (q ++ more)).haveRead (List.replicate q.length 1) more with
        sym := b.setWidth 9 } b).raiseDec .io 3) := by
  have hr := s.midDecode_runs T bytes p.length (q ++ more)
  let u : State := { (s.midDecode T bytes p.length (q ++ more)).haveRead (List.replicate q.length 1) more with
    sym := b.setWidth 9 }
  have hcode := goes_decode1_byte hr h.source (h.holds.congr rfl) hq hne rfl [.ret]
  have hput := goes_job u (.putByte b) [.decode1 true, .ret] ⟨hr.busy, hr.free⟩
  rw [runJob, runPutByte, State.byteWrite_err (s := u.at [.decode1 true, .ret]) hr.free hf.1 hf.took_reply] at hput
  have hlen := hL.code_length_le hq
  exact exec_decstream hv h (hcode.trans hput) (by omega) rfl

/-- Settles O56: the bytes, and behind them the sentinel's code. -/
theorem decstreamDecodesToTheSentinel : Obligations.DecstreamDecodesToTheSentinel := by
  intro s T bytes p e more hv hT hL hp he ha hs hacc
  have h : s.Decodes T bytes p (e ++ more) := by
    refine ⟨hT, hp, fun b _ hb => ?_, ha, by rw [hs, List.append_assoc], hacc.grants _⟩
    exact Tree.code_ne_nil (setWidth_byte_ne b) hb he rfl
  rw [exec_decstream_sentinel hv hL h he]
  simp [State.midDecode, State.decoded, State.haveRead, State.complete, State.accept, Seq.idle, BitVec.add_assoc,
    BitVec.ofNat_add, List.map_const']

/-- The bits of the codes, and of what was read behind them, are counted (R47). -/
theorem State.midDecode_haveRead_bitsIn (s : State) (T : Tree) (bytes : List Byte) (p q rest more : List Bool) :
    ((s.midDecode T bytes p.length rest).haveRead (List.replicate q.length 1) more).counters.bitsIn =
      s.counters.bitsIn + BitVec.ofNat 32 (p ++ q).length := by
  simp [State.midDecode, State.decoded, State.haveRead, BitVec.ofNat_add, BitVec.add_assoc]

/-- Settles O57: what the command had decoded, read and written when it met the error stands. -/
theorem decstreamReportsAMissingTerminator : Obligations.DecstreamReportsAMissingTerminator := by
  refine ⟨fun s T bytes x p q lost hv hT hL hp hx hlost ha hs hacc => ?_,
    fun s T bytes b p q more hv hT hL hp hq hne ha hs hf => ?_⟩
  · have h : s.Decodes T bytes p q :=
      ⟨hT, hp, fun b _ => Tree.code_ne_some_nil hx (by simp [hlost]) _, ha, hs, hacc.grants _⟩
    have hbits := s.midDecode_haveRead_bitsIn T bytes p q q []
    cases hterm : s.ports.bitSource.term with
    | eod =>
      refine ⟨_, exec_decstream_cut hv hL h hx hlost hterm, rfl, fun _ => ⟨rfl, ?_⟩, nofun, rfl, rfl, rfl, hbits, rfl, rfl⟩
      cases q <;> rfl
    | err =>
      exact ⟨_, exec_decstream_cut hv hL h hx hlost hterm, rfl, nofun, fun _ => ⟨rfl, rfl⟩, rfl, rfl, rfl, hbits, rfl, rfl⟩
  · have h : s.Decodes T bytes p (q ++ more) :=
      ⟨hT, hp, fun c _ => Tree.code_ne_some_nil hq hne _, ha, by rw [hs, List.append_assoc], (hf.grants (j := 0))⟩
    exact ⟨_, exec_decstream_refused hv hL h hq hne hf, rfl, rfl, rfl, rfl, rfl, rfl, rfl,
      s.midDecode_haveRead_bitsIn T bytes p q (q ++ more) more, rfl, rfl⟩

end Sys2Proof.Machine
end

section
/-! SUPPORT. Every command completes if the ports answer, whatever they answer (R237, R304). -/

namespace Sys2Proof.Machine

/-! ## Any answers of a sink -/

/-- A sink that answers grants the next `n` requests, or refuses one of them (R89). -/
theorem Sink.grants_or_fails {α : Type} {k : Sink α} (ha : k.answering = true) (n : Nat) :
    k.Grants n ∨ ∃ j, j < n ∧ k.FailsAt j := by
  by_cases h : ∃ j, j < n ∧ k.replyAt j = .err
  · right
    obtain ⟨hlt, herr⟩ := Nat.find_spec h
    refine ⟨Nat.find h, hlt, ha, fun i hi => ?_, herr⟩
    have hmin := Nat.find_min h hi
    cases hrep : k.replyAt i with
    | ok => rfl
    | err => exact absurd ⟨hi.trans hlt, hrep⟩ hmin
  · refine .inl ⟨ha, fun i hi => ?_⟩
    cases hrep : k.replyAt i with
    | ok => rfl
    | err => exact absurd ⟨i, hi, hrep⟩ h

/-- The serializer gets through its writes where the sink grants them (R171). -/
theorem State.Emits.goes_granted {ws : List (Nat × Nat)} {s : State} (hr : s.Runs) {js : List Job} (h : s.Emits js ws)
    (hk : s.ports.bitSink.Grants ws.length) (ks : List Job) :
    ∃ n, n ≤ 2 * ws.length ∧ Goes n (s.at (js ++ ks)) ((s.wrote ws).at ks) := by
  induction ws generalizing s js with
  | nil =>
    have hjs : js = [] := by
      generalize hx : ([] : List (Nat × Nat)) = ws at h
      cases h with
      | nil => rfl
      | put h => cases hx
      | @emit i T js ws hT h => cases T <;> cases hx
    subst hjs
    rw [State.wrote_nil]
    exact ⟨0, Nat.zero_le _, Goes.refl _⟩
  | cons w ws ih =>
    obtain ⟨n, ls, hn, hls, hnext⟩ := h.goes_next hr ks
    have hput := goes_put_ok hr hk.1 hk.reply w.1 w.2 (ls ++ ks)
    obtain ⟨m, hm, hrest⟩ := ih (hr.wrote [w]) (hls.congr rfl) (State.wrote_grants ((Nat.add_comm 1 _).symm ▸ hk))
    rw [State.wrote_append] at hrest
    exact ⟨n + 1 + m, by rw [List.length_cons]; omega, (hnext.trans hput).trans hrest⟩

/-- The code of a symbol, if it has one: written, or refused at one of its bits, or missing (R199, R202, R207). -/
theorem goes_encode {s : State} (hr : s.Runs) (ha : s.ports.bitSink.answering = true) {T : Tree} (hL : T.Legal)
    (hT : s.HoldsCodes T) {x : Symbol} (hx : x.toNat ≤ 256) (js : List Job) :
    (∃ p, p.length ≤ 256 ∧ Goes p.length ((s.at js).encode x) ((s.wrote (codeWrites p)).at js)) ∨
      ∃ n t, n ≤ 512 ∧ t.flags.busy = false ∧ Goes n ((s.at js).encode x) t := by
  cases hp : T.code x with
  | none =>
    rw [State.encode_of_noCode (hT.none hx hp)]
    exact .inr ⟨0, s.raise .noCode (x.setWidth 32), Nat.zero_le _, rfl, Goes.refl _⟩
  | some p =>
    obtain ⟨hv, hbits⟩ := hT.some hx hp
    have hlen := hL.code_length_le hp
    rw [State.encode_of_code hv hbits]
    obtain hg | ⟨j, hj, hf⟩ := Sink.grants_or_fails ha p.length
    · rw [← codeWrites_length p] at hg
      have hputs := goes_puts_granted hr hg js
      rw [codeWrites_length] at hputs
      exact .inl ⟨p, hlen, hputs⟩
    · obtain ⟨n, t, hn, ht, hgo⟩ := goes_code_refused hr hj hf js
      exact .inr ⟨n, t, by omega, ht.busy, hgo⟩

/-! ## Any bits at the decoder -/

/-- Any bits begin with a code, or are the beginning of one (R222). -/
theorem Tree.Legal.code_or_cut {T : Tree} (hL : T.Legal) (bits : List Bool) :
    (∃ x p more, T.code x = some p ∧ bits = p ++ more) ∨ ∃ x lost, T.code x = some (bits ++ lost) ∧ lost ≠ [] := by
  induction T generalizing bits with
  | leaf x => exact .inl ⟨x, [], bits, if_pos rfl, rfl⟩
  | node l r ihl ihr =>
    have hleft {x : Symbol} {p : List Bool} (h : l.code x = some p) : (Tree.node l r).code x = some (false :: p) := by
      rw [Tree.code, h]
    have hright {x : Symbol} {p : List Bool} (h : r.code x = some p) : (Tree.node l r).code x = some (true :: p) := by
      have hxr : x ∈ r.syms := (r.code_isSome x).1 (by simp [h])
      have hxl : l.code x = none := by
        rw [← Option.not_isSome_iff_eq_none, Tree.code_isSome]
        exact fun hxl => (List.nodup_append.1 hL.1).2.2 x hxl x hxr rfl
      rw [Tree.code, hxl, h]
      rfl
    match bits with
    | [] =>
      obtain ⟨x, hx⟩ := List.exists_mem_of_ne_nil _ l.syms_ne_nil
      obtain ⟨p, hp⟩ := Option.isSome_iff_exists.1 ((l.code_isSome x).2 hx)
      exact .inr ⟨x, false :: p, hleft hp, by simp⟩
    | false :: bits =>
      obtain ⟨x, p, more, hp, rfl⟩ | ⟨x, lost, hp, hlost⟩ := ihl hL.left bits
      · exact .inl ⟨x, _, more, hleft hp, rfl⟩
      · exact .inr ⟨x, lost, hleft hp, hlost⟩
    | true :: bits =>
      obtain ⟨x, p, more, hp, rfl⟩ | ⟨x, lost, hp, hlost⟩ := ihr hL.right bits
      · exact .inl ⟨x, _, more, hright hp, rfl⟩
      · exact .inr ⟨x, lost, hright hp, hlost⟩

/-- A symbol of 0..256 but the sentinel is a byte. -/
theorem symbol_eq_byte {x : Symbol} (hx : x.toNat ≤ 256) (hne : x ≠ 256#9) : (x.setWidth 8).setWidth 9 = x := by
  have : x.toNat ≠ 256 := fun h => hne (BitVec.eq_of_toNat_eq h)
  apply BitVec.eq_of_toNat_eq
  simp only [BitVec.toNat_setWidth]
  omega

/-- Any bits are the codes of bytes, and behind them the sentinel's code with more, or a code that is cut. -/
theorem Tree.Legal.stream_cases {T : Tree} (hL : T.Legal) (hin : ∀ x, T.code x ≠ some []) (bits : List Bool) :
    ∃ bytes p, T.payload bytes = some p ∧
      ((∃ e more, T.code 256#9 = some e ∧ bits = p ++ (e ++ more)) ∨
        ∃ x q lost, T.code x = some (q ++ lost) ∧ lost ≠ [] ∧ bits = p ++ q) := by
  induction hn : bits.length using Nat.strong_induction_on generalizing bits with
  | _ n ih =>
    obtain ⟨x, q, more, hq, rfl⟩ | ⟨x, lost, hx, hlost⟩ := hL.code_or_cut bits
    · by_cases hx : x = 256#9
      · exact ⟨[], [], rfl, .inl ⟨q, more, hx ▸ hq, rfl⟩⟩
      · have hxT : x ∈ T.syms := (T.code_isSome x).1 (by simp [hq])
        have hb : T.code ((x.setWidth 8).setWidth 9) = some q := by rw [symbol_eq_byte (hL.2 x hxT) hx, hq]
        have hpos : 0 < q.length := List.length_pos_of_ne_nil fun h => hin x (h ▸ hq)
        rw [List.length_append] at hn
        obtain ⟨bytes, p, hp, hend⟩ := ih more.length (by omega) more rfl
        refine ⟨x.setWidth 8 :: bytes, q ++ p, by rw [Tree.payload, hb, hp], ?_⟩
        obtain ⟨e, more', he, rfl⟩ | ⟨y, c, lost, hy, hlost, rfl⟩ := hend
        · exact .inl ⟨e, more', he, by rw [List.append_assoc]⟩
        · exact .inr ⟨y, c, lost, hy, hlost, by rw [List.append_assoc]⟩
    · exact ⟨[], [], rfl, .inr ⟨x, bits, lost, hx, hlost, rfl⟩⟩

theorem Tree.payload_append {T : Tree} {xs ys : List Byte} {p : List Bool} (h : T.payload (xs ++ ys) = some p) :
    ∃ q r, T.payload xs = some q ∧ T.payload ys = some r ∧ p = q ++ r := by
  induction xs generalizing p with
  | nil => exact ⟨[], p, rfl, h, rfl⟩
  | cons x xs ih =>
    obtain ⟨c, d, hc, hd, rfl⟩ := Tree.payload_cons h
    obtain ⟨q, r, hq, hr, rfl⟩ := ih hd
    exact ⟨c ++ q, r, by rw [Tree.payload, hc, hq], hr, by rw [List.append_assoc]⟩

/-- A tree in which a symbol has the empty code is that symbol's leaf. -/
theorem State.Holds.leaf_of_code_nil {s : State} {i : NodeIx} {T : Tree} (h : s.Holds i T) {x : Symbol}
    (hx : T.code x = some []) : (s.node i).leaf = true ∧ (s.node i).sym = x := by
  cases T with
  | leaf y =>
    rw [Tree.code] at hx
    split at hx
    · exact ⟨h.1, h.2.trans ‹_›⟩
    · cases hx
  | node l r =>
    rw [Tree.code] at hx
    split at hx
    · cases hx
    · obtain ⟨q, -, hq⟩ := Option.map_eq_some_iff.1 hx
      cases hq

/-- Any 32 bits are those of a word. -/
theorem word_of_length {bits : List Bool} (h : 32 ≤ bits.length) :
    ∃ (v : Word) (more : List Bool), bits = bin 32 v.toNat ++ more := by
  refine ⟨BitVec.ofNat 32 (ofBits (bits.take 32)), bits.drop 32, ?_⟩
  have hbin := bin_ofBits (bits.take 32)
  rw [List.length_take_of_le h] at hbin
  rw [BitVec.toNat_ofNat, bin_mod, hbin, List.take_append_drop]

/-! ## The commands -/

/-- The command completes within its step. -/
def State.Completes (s : State) (i : Instr) : Prop := ∃ t, exec i s = .next t ∧ t.flags.busy = false

/-- A command that gets to its completion within a step completes. -/
theorem completes_of_goes {i : Instr} {s t : State} {n : Nat}
    (h : Goes n ((s.accept (Instr.jobs i)).at (Instr.jobs i)) t) (ht : t.flags.busy = false) (hn : n ≤ s.burst) :
    s.Completes i := ⟨t, exec_of_goes h ht hn, ht⟩

theorem completes_gencodes {s : State} (h : s.TreeInv) : s.Completes .gencodes := by
  cases hv : s.flags.treeValid with
  | true =>
    obtain ⟨T, hT⟩ := h.tree hv
    exact ⟨_, gencodesWritesTheCodeTable s T hv hT.holds hT.legal, rfl⟩
  | false =>
    have hgo := goes_job (s.accept (Instr.jobs .gencodes)) .gencodes [.ret] (accept_runs s _)
    rw [runJob, runGencodes, if_neg (by simp [hv])] at hgo
    exact completes_of_goes hgo rfl (s.le_burst (by decide))

theorem completes_hdrwr {s : State} (h : s.TreeInv) (ha : s.ports.bitSink.answering = true) (m : Bool) :
    s.Completes (.hdrwr m) := by
  have hr := accept_runs s (Instr.jobs (.hdrwr m))
  cases hv : s.flags.treeValid with
  | true =>
    obtain ⟨T, hT⟩ := h.tree hv
    obtain hg | ⟨j, hj, hf⟩ := Sink.grants_or_fails ha (magicWrite m ++ T.writes).length
    · have hT' : (s.accept (Instr.jobs (.hdrwr m))).Holds s.root T := hT.holds.congr rfl
      obtain ⟨n, hn, hgo⟩ := (hT'.emits m).goes_granted hr hg [.ret]
      rw [List.append_assoc] at hgo
      refine completes_of_goes (((goes_hdrwr hr hv m [.ret]).trans hgo).trans (goes_ret _ (hr.wrote _))) rfl
        (s.le_burst ?_)
      rw [List.length_append] at hn
      have := magicWrite_length_le m
      have := T.writes_length
      have := hT.legal.length_le
      omega
    · exact ⟨_, hdrwrStopsAtASinkError s T m j _ hv hT.holds hT.legal hf (List.getElem?_eq_getElem hj), rfl⟩
  | false =>
    have hgo := goes_job (s.accept (Instr.jobs (.hdrwr m))) (.hdrwr m) [.ret] hr
    rw [runJob, runHdrwr, if_neg (by simp [hv])] at hgo
    exact completes_of_goes hgo rfl (s.le_burst (by decide))

/-- The tree phase ends at a field of the header, or behind it (R184, R185). -/
theorem completes_hdrrd_of_magic {s : State} (ha : s.ports.bitSource.answering = true) {m : Bool} {bits : List Bool}
    (hs : s.ports.bitSource.rest = magicBits m ++ bits) : s.Completes (.hdrrd m) := by
  obtain ⟨T, more, rfl, hc⟩ | ⟨T, k, w, tail, hc, hw, rfl, hfail⟩ :=
    header_clean_or_fails List.nodup_nil (Nat.zero_le 256) bits
  · have hL := Tree.cleanAfter_nil.1 hc
    rw [Tree.CleanTo, Tree.symsTo_all] at hL
    rw [← List.append_assoc] at hs
    exact ⟨_, hdrrdReadsTheHeader s T m more ⟨hL.1, hL.2.1⟩ ha hs, rfl⟩
  · have hclean := Tree.cleanAfter_nil.1 hc
    obtain hcut | ⟨more, rfl, hbad⟩ := hfail
    · rw [← List.append_assoc] at hs
      obtain ⟨t, ht, hb, -⟩ := hdrrdRefusesATruncatedHeader s T m k w tail ha hclean hw hcut hs
      exact ⟨t, ht, hb⟩
    · have hs' : s.ports.bitSource.rest = magicBits m ++ T.bitsTo (k + 1) ++ more := by
        rw [hs, Tree.bitsTo_succ hw]
        simp only [List.append_assoc]
      obtain ⟨hsym, hfull⟩ := hdrrdRefusesAnInvalidHeader s T m k more ha hclean hs'
      obtain ⟨x, rfl, hx⟩ | ⟨rfl, hi⟩ := hbad
      · obtain ⟨t, ht, hb, -⟩ := hsym x hw (by simpa using hx)
        exact ⟨t, ht, hb⟩
      · obtain ⟨t, ht, hb, -⟩ := hfull hw (by simpa using hi)
        exact ⟨t, ht, hb⟩

theorem completes_hdrrd {s : State} (ha : s.ports.bitSource.answering = true) (m : Bool) : s.Completes (.hdrrd m) := by
  cases m with
  | false => exact completes_hdrrd_of_magic ha rfl
  | true =>
    obtain ⟨hformat, heod, herr⟩ := hdrrdChecksTheMagicFirst s ha
    by_cases hlen : s.ports.bitSource.rest.length < 32
    · cases hterm : s.ports.bitSource.term with
      | eod => exact ⟨_, heod hlen hterm, rfl⟩
      | err => exact ⟨_, herr hlen hterm, rfl⟩
    · obtain ⟨v, more, hs⟩ := word_of_length (Nat.le_of_not_lt hlen)
      by_cases hmagic : v = Config.magic
      · exact completes_hdrrd_of_magic ha (m := true) (hmagic ▸ hs)
      · exact ⟨_, hformat v more hmagic hs, rfl⟩

theorem completes_encsym {s : State} (h : s.TreeInv) (ha : s.ports.bitSink.answering = true) (x : Symbol) :
    s.Completes (.encsym x) := by
  have hr := accept_runs s (Instr.jobs (.encsym x))
  cases hv : s.flags.codesValid with
  | true =>
    obtain ⟨T, hT, hC⟩ := h.codes hv
    by_cases hx : x.toNat ≤ 256
    · have hstart := goes_encsym hr hv x [.ret]
      obtain ⟨p, hp, hgo⟩ | ⟨n, t, hn, ht, hgo⟩ := goes_encode hr ha hT.legal (hC.congr rfl) hx [.ret]
      · exact completes_of_goes ((hstart.trans hgo).trans (goes_ret _ (hr.wrote _))) rfl (s.le_burst (by omega))
      · exact completes_of_goes (hstart.trans hgo) ht (s.le_burst (by omega))
    · have hno : s.code x = Code.blank := by simp [State.code, Vector.getD, show ¬ x.toNat < 257 by omega]
      exact ⟨_, exec_encsym_noCode hv (by rw [hno]; rfl), rfl⟩
  | false =>
    have hgo := goes_job (s.accept (Instr.jobs (.encsym x))) (.encsym x) [.ret] hr
    rw [runJob, runEncsym, if_neg (by simp [hv])] at hgo
    exact completes_of_goes hgo rfl (s.le_burst (by decide))

/-- The loop of `ENCSTREAM` comes to an end with its input, or earlier (R204-R207). -/
theorem goes_encByte_ends {bytes : List Byte} {s : State} (hr : s.Runs) (ha : s.ports.bitSink.answering = true)
    (hy : s.ports.byteSource.answering = true) (hs : s.ports.byteSource.rest = bytes) {T : Tree} (hL : T.Legal)
    (hT : s.HoldsCodes T) (b : Bool) :
    ∃ n t, n ≤ 257 * bytes.length + 514 ∧ t.flags.busy = false ∧ Goes n (s.at [.encByte b, .ret]) t := by
  induction bytes generalizing s with
  | nil =>
    cases hterm : s.ports.byteSource.term with
    | err => exact ⟨1, _, by omega, rfl, goes_encByte_err hr hy hs hterm b [.ret]⟩
    | eod =>
      have hend := goes_encByte_eod hr hy hs hterm b [.ret]
      cases b with
      | false => exact ⟨_, _, by omega, rfl, hend.trans (goes_ret _ hr.gotEnd)⟩
      | true =>
        rw [if_pos rfl] at hend
        obtain ⟨p, hp, hgo⟩ | ⟨n, t, hn, ht, hgo⟩ :=
          goes_encode hr.gotEnd ha hL (hT.congr rfl) (x := 256#9) (by decide) [.ret]
        · exact ⟨_, _, by omega, rfl, (hend.trans hgo).trans (goes_ret _ (hr.gotEnd.wrote _))⟩
        · exact ⟨_, t, by omega, ht, hend.trans hgo⟩
  | cons c bytes ih =>
    have hread := goes_encByte_data hr hy hs b [.ret]
    obtain ⟨p, hp, hgo⟩ | ⟨n, t, hn, ht, hgo⟩ :=
      goes_encode (hr.gotByte bytes) ha hL (hT.congr rfl) (byte_le c) [.encByte b, .ret]
    · obtain ⟨m, t, hm, ht, hrest⟩ := ih (s := (s.gotByte bytes).wrote (codeWrites p)) ((hr.gotByte _).wrote _) ha hy rfl
        (hT.congr rfl)
      exact ⟨_, t, by rw [List.length_cons]; omega, ht, (hread.trans hgo).trans hrest⟩
    · exact ⟨_, t, by omega, ht, hread.trans hgo⟩

theorem completes_encstream {s : State} (h : s.TreeInv) (ha : s.ports.bitSink.answering = true)
    (hy : s.ports.byteSource.answering = true) (b : Bool) : s.Completes (.encstream b) := by
  have hr := accept_runs s (Instr.jobs (.encstream b))
  have hstart := goes_job (s.accept (Instr.jobs (.encstream b))) (.encstream b) [.ret] hr
  cases hv : s.flags.codesValid with
  | true =>
    obtain ⟨T, hT, hC⟩ := h.codes hv
    rw [runJob, runEncstream, if_pos (by exact hv)] at hstart
    obtain ⟨n, t, hn, ht, hgo⟩ := goes_encByte_ends hr ha hy rfl hT.legal (hC.congr rfl) b
    refine completes_of_goes (hstart.trans hgo) ht ?_
    rw [State.accept_ports] at hn
    rw [State.burst]
    omega
  | false =>
    rw [runJob, runEncstream, if_neg (by simp [hv])] at hstart
    exact completes_of_goes hstart rfl (s.le_burst (by decide))

/-- A decoder's command without a tree (R251). -/
theorem completes_decoder_noTree {s : State} {i : Instr} {stream : Bool} (hi : Instr.jobs i = [.decode stream, .ret])
    (hv : s.flags.treeValid = false) : s.Completes i := by
  have hgo := goes_job (s.accept (Instr.jobs i)) (.decode stream) [.ret] (accept_runs s _)
  rw [runJob, runDecode, if_neg (by simp [hv]), ← hi] at hgo
  exact completes_of_goes hgo rfl (s.le_burst (by decide))

theorem completes_decsym {s : State} (h : s.TreeInv) (ha : s.ports.bitSource.answering = true) :
    s.Completes .decsym := by
  cases hv : s.flags.treeValid with
  | false => exact completes_decoder_noTree rfl hv
  | true =>
    obtain ⟨T, hT⟩ := h.tree hv
    by_cases hlit : (s.node s.root).leaf = true ∧ (s.node s.root).sym ≠ 256#9
    · exact ⟨_, (literalRootHasNoTerminator.1 s hv hlit.1 hlit.2).1, rfl⟩
    · obtain ⟨x, p, more, hx, hs⟩ | ⟨x, lost, hx, hlost⟩ := hT.legal.code_or_cut s.ports.bitSource.rest
      · refine ⟨_, decsymDecodesOneCode s T x p more hv hT.holds hT.legal hx ?_ ha hs, rfl⟩
        rintro rfl
        obtain ⟨hl, rfl⟩ := hT.holds.leaf_of_code_nil hx
        exact not_not.1 fun hne => hlit ⟨hl, hne⟩
      · obtain ⟨heod, herr⟩ := decsymReportsAMissingTerminator s T x _ lost hv hT.holds hT.legal hx hlost ha rfl
        cases hterm : s.ports.bitSource.term with
        | eod => exact ⟨_, heod hterm, rfl⟩
        | err => exact ⟨_, herr hterm, rfl⟩

/-- `DECSTREAM` whose sink refuses one of the bytes that the source holds the codes of (R238). -/
theorem completes_decstream_of_refusal {s : State} {T : Tree} (hT : s.HoldsTree T) (hin : ∀ x, T.code x ≠ some [])
    (ha : s.ports.bitSource.answering = true) {bytes : List Byte} {p more : List Bool} (hp : T.payload bytes = some p)
    (hs : s.ports.bitSource.rest = p ++ more) {j : Nat} (hj : j < bytes.length) (hf : s.ports.byteSink.FailsAt j) :
    s.Completes .decstream := by
  rw [← List.take_append_drop j bytes, List.drop_eq_getElem_cons hj] at hp
  obtain ⟨p₁, r, hp₁, hr, rfl⟩ := Tree.payload_append hp
  obtain ⟨q, p₂, hq, -, rfl⟩ := Tree.payload_cons hr
  rw [← List.length_take_of_le hj.le] at hf
  have hd : s.Decodes T (bytes.take j) p₁ (q ++ (p₂ ++ more)) :=
    ⟨hT.holds, hp₁, fun b _ => hin _, ha, by rw [hs]; simp only [List.append_assoc], hf.grants (j := 0)⟩
  exact ⟨_, exec_decstream_refused hT.valid hT.legal hd hq (fun hnil => hin _ (hnil ▸ hq)) hf, rfl⟩

/-- `DECSTREAM` with a tree whose root is no leaf, on any bits (R231-R238). -/
theorem completes_decstream_of_inner {s : State} {T : Tree} (hT : s.HoldsTree T) (hin : ∀ x, T.code x ≠ some [])
    (ha : s.ports.bitSource.answering = true) (hk : s.ports.byteSink.answering = true) : s.Completes .decstream := by
  obtain ⟨bytes, p, hp, ⟨e, more, he, hs⟩ | ⟨x, q, lost, hx, hlost, hs⟩⟩ :=
    hT.legal.stream_cases hin s.ports.bitSource.rest
  all_goals obtain hg | ⟨j, hj, hf⟩ := Sink.grants_or_fails hk bytes.length
  · have hd : s.Decodes T bytes p (e ++ more) := ⟨hT.holds, hp, fun b _ => hin _, ha, hs, hg⟩
    exact ⟨_, exec_decstream_sentinel hT.valid hT.legal hd he, rfl⟩
  · exact completes_decstream_of_refusal hT hin ha hp hs hj hf
  · have hd : s.Decodes T bytes p q := ⟨hT.holds, hp, fun b _ => hin _, ha, hs, hg⟩
    refine ⟨_, exec_decstream_cut hT.valid hT.legal hd hx hlost rfl, ?_⟩
    cases s.ports.bitSource.term <;> rfl
  · exact completes_decstream_of_refusal hT hin ha hp hs hj hf

theorem completes_decstream {s : State} (h : s.TreeInv) (ha : s.ports.bitSource.answering = true)
    (hk : s.ports.byteSink.answering = true) : s.Completes .decstream := by
  cases hv : s.flags.treeValid with
  | false => exact completes_decoder_noTree rfl hv
  | true =>
    obtain ⟨T, hT⟩ := h.tree hv
    by_cases hin : ∀ x, T.code x ≠ some []
    · exact completes_decstream_of_inner hT hin ha hk
    · obtain ⟨x, hx⟩ := not_forall_not.1 hin
      obtain ⟨hl, rfl⟩ := hT.holds.leaf_of_code_nil hx
      by_cases hlit : (s.node s.root).sym = 256#9
      · rw [hlit] at hx
        have hd : s.Decodes T [] [] ([] ++ s.ports.bitSource.rest) := ⟨hT.holds, rfl, nofun, ha, rfl, hk, nofun⟩
        exact ⟨_, exec_decstream_sentinel hv hT.legal hd hx, rfl⟩
      · exact ⟨_, (literalRootHasNoTerminator.1 s hv hl hlit).2, rfl⟩

theorem completes_flush {s : State} (ha : s.ports.bitSink.answering = true) (hk : s.ports.byteSink.answering = true)
    (k y : Bool) : s.Completes (.flush k y) := by
  obtain ⟨hnone, hbits, hbytes, hboth, hbitsErr, hbytesErr, hbothErr⟩ := flushAsksTheSinksInOrder s ha hk
  cases k with
  | false =>
    cases y with
    | false => exact ⟨_, hnone, rfl⟩
    | true =>
      cases hy : s.ports.byteSink.reply with
      | ok => exact ⟨_, hbytes hy, rfl⟩
      | err => exact ⟨_, hbytesErr hy, rfl⟩
  | true =>
    cases hb : s.ports.bitSink.reply with
    | err => exact ⟨_, hbitsErr y hb, rfl⟩
    | ok =>
      cases y with
      | false => exact ⟨_, hbits hb, rfl⟩
      | true =>
        cases hy : s.ports.byteSink.reply with
        | ok => exact ⟨_, hboth hb hy, rfl⟩
        | err => exact ⟨_, hbothErr hb hy, rfl⟩

/-- Settles O23, command by command. -/
theorem commandsCompleteIfPortsAnswer : Obligations.CommandsCompleteIfPortsAnswer := by
  intro i s h hports
  cases i with
  | nop => exact completes_of_goes (goes_ret _ (accept_runs s _)) rfl (s.le_burst (by decide))
  | clear =>
    have hgo := goes_job (s.accept (Instr.jobs .clear)) .clear [.ret] (accept_runs s _)
    exact completes_of_goes (hgo.trans (goes_ret (runClear _) ⟨rfl, rfl⟩)) rfl (s.le_burst (by decide))
  | build =>
    obtain ⟨u, a, hu, -⟩ := exec_build s
    exact ⟨_, hu, rfl⟩
  | gencodes => exact completes_gencodes h
  | hdrwr m => exact completes_hdrwr h (hports .bitSink) m
  | hdrrd m => exact completes_hdrrd (hports .bitSource) m
  | encsym x => exact completes_encsym h (hports .bitSink) x
  | encstream b => exact completes_encstream h (hports .bitSink) (hports .byteSource) b
  | decsym => exact completes_decsym h (hports .bitSource)
  | decstream => exact completes_decstream h (hports .bitSource) (hports .byteSink)
  | flush k y => exact completes_flush (hports .bitSink) (hports .byteSink) k y

end Sys2Proof.Machine
end

section
/-! SUPPORT. The requests of a command: they go to the ports it uses, and each read of the bit source but the last takes
bits from it (R237, R305). -/

namespace Sys2Proof.Machine

/-! ## Requests -/

/-- The port that a request goes to (R15). -/
def Request.port : Request → Port
  | .bitRead _ => .bitSource
  | .bitWrite _ _ => .bitSink
  | .byteRead => .byteSource
  | .byteWrite _ => .byteSink
  | .flush p => p

/-- How many of the requests go to the bit source. -/
def bitReads (reqs : List Request) : Nat := reqs.countP (fun r => r.port = .bitSource)

theorem bitReads_append (as bs : List Request) : bitReads (as ++ bs) = bitReads as + bitReads bs := List.countP_append

/-- Between `s` and `t` the requests `reqs` were answered, at ports in `W`. As long as the command runs, each read of the
bit source has taken a bit from it at least; the one that ends the command may have taken none (R87). -/
structure State.AskedFor (W : List Port) (s t : State) (reqs : List Request) : Prop where
  trace : t.ports.trace = s.ports.trace ++ reqs
  ports : ∀ r ∈ reqs, r.port ∈ W
  bound : bitReads reqs ≤ s.ports.bitSource.rest.length + 1
  spent : t.flags.busy = true → bitReads reqs + t.ports.bitSource.rest.length ≤ s.ports.bitSource.rest.length

/-- Between `s` and `t` no more was asked than that. -/
def State.Asked (W : List Port) (s t : State) : Prop := ∃ reqs, State.AskedFor W s t reqs

namespace State.Asked

variable {W : List Port} {s t u : State}

/-- What leaves the ports as they are asks for nothing. -/
theorem of_eq (h : t.ports = s.ports) : State.Asked W s t :=
  ⟨[], by rw [h, List.append_nil], nofun, Nat.zero_le _, fun _ => by rw [h]; exact (Nat.zero_add _).le⟩

/-- What a running command asks for next adds to what it has asked for. -/
theorem trans (h : State.Asked W s t) (hb : t.flags.busy = true) (h' : State.Asked W t u) : State.Asked W s u := by
  obtain ⟨as, htrace, hports, -, hspent⟩ := h
  obtain ⟨bs, htrace', hports', hbound', hspent'⟩ := h'
  have hs := hspent hb
  refine ⟨as ++ bs, by rw [htrace', htrace, List.append_assoc], fun r hr => ?_, ?_, fun hb' => ?_⟩
  · exact (List.mem_append.1 hr).elim (hports r) (hports' r)
  · rw [bitReads_append]; omega
  · have := hspent' hb'
    rw [bitReads_append]; omega

theorem mono {W' : List Port} (h : State.Asked W s t) (hW : W ⊆ W') : State.Asked W' s t := by
  obtain ⟨reqs, h⟩ := h
  exact ⟨reqs, { h with ports := fun r hr => hW (h.ports r hr) }⟩

/-- What then leaves the ports as they are, and starts no command, asks for nothing more. -/
theorem congr (h : State.Asked W s t) (hp : u.ports = t.ports) (hb : u.flags.busy = true → t.flags.busy = true) :
    State.Asked W s u := by
  obtain ⟨reqs, htrace, hports, hbound, hspent⟩ := h
  exact ⟨reqs, by rw [hp, htrace], hports, hbound, fun hu => by rw [hp]; exact hspent (hb hu)⟩

theorem push (h : State.Asked W s t) (js : List Job) : State.Asked W s (t.push js) := h.congr rfl id

theorem seq (h : State.Asked W s t) (q : Seq) : State.Asked W s { t with seq := q } := h.congr rfl id

theorem raise (h : State.Asked W s t) (e : Err) (v : Word) : State.Asked W s (t.raise e v) := h.congr rfl nofun

theorem raiseDec (h : State.Asked W s t) (e : Err) (v : Word) : State.Asked W s (t.raiseDec e v) :=
  h.congr rfl nofun

theorem encode (h : State.Asked W s t) (x : Symbol) : State.Asked W s (t.encode x) := by
  rw [State.encode]
  split
  · exact h.push _
  · exact h.raise _ _

end State.Asked

section

variable {s t : State}

/-- A read that the source answers with bits has taken them from it (R87). -/
theorem State.bitRead_asked {n v : Nat} (h : s.bitRead n = some (.data v, t)) (hn : 0 < n) :
    State.Asked [.bitSource] s t := by
  rw [State.bitRead] at h
  split at h
  · split at h
    · rename_i bits rest hbits
      obtain ⟨hrest, hlen⟩ := takeExact_eq_some hbits
      cases h
      refine ⟨[.bitRead n], rfl, by simp [Request.port], Nat.le_add_left _ _, fun _ => ?_⟩
      rw [hrest, List.length_append]
      exact Nat.add_le_add_right (hlen ▸ hn) _
    · cases ht : s.ports.bitSource.term <;> rw [ht] at h <;> cases h
  · cases h

/-- A read that ends the command is one request more. -/
theorem State.bitRead_asked_raise {n : Nat} {r : Response Nat} (h : s.bitRead n = some (r, t)) (e : Err) (v : Word) :
    State.Asked [.bitSource] s (t.raise e v) := by
  refine ⟨[.bitRead n], ?_, by simp [Request.port], Nat.le_add_left _ _, nofun⟩
  rw [State.bitRead] at h
  split at h
  · split at h <;> cases h <;> rfl
  · cases h

theorem State.bitRead_asked_raiseDec {n : Nat} {r : Response Nat} (h : s.bitRead n = some (r, t)) (e : Err)
    (v : Word) : State.Asked [.bitSource] s (t.raiseDec e v) :=
  (State.bitRead_asked_raise h e v).congr rfl nofun

/-- A request to another port leaves the bit source alone. -/
theorem State.asked_other {p : Port} {r : Request} (hr : r.port = p) (hp : p ≠ .bitSource)
    (ht : t.ports.trace = s.ports.trace ++ [r]) (hs : t.ports.bitSource = s.ports.bitSource) :
    State.Asked [p] s t := by
  have hreads : bitReads [r] = 0 := by simp [bitReads, hr, hp]
  refine ⟨[r], ht, by simp [hr], by simp [hreads], fun _ => by rw [hreads, hs, Nat.zero_add]⟩

theorem State.byteRead_asked {r : Response Byte} (h : s.byteRead = some (r, t)) : State.Asked [.byteSource] s t := by
  rw [State.byteRead] at h
  split at h
  · split at h <;> cases h <;> exact State.asked_other (r := .byteRead) rfl (by decide) rfl rfl
  · cases h

theorem State.bitWrite_asked {n v : Nat} {r : Reply} (h : s.bitWrite n v = some (r, t)) :
    State.Asked [.bitSink] s t := by
  rw [State.bitWrite] at h
  split at h
  · split at h <;> cases h <;> exact State.asked_other (r := .bitWrite n v) rfl (by decide) rfl rfl
  · cases h

theorem State.byteWrite_asked {b : Byte} {r : Reply} (h : s.byteWrite b = some (r, t)) :
    State.Asked [.byteSink] s t := by
  rw [State.byteWrite] at h
  split at h
  · split at h <;> cases h <;> exact State.asked_other (r := .byteWrite b) rfl (by decide) rfl rfl
  · cases h

theorem State.flushBitSink_asked {r : Reply} (h : s.flushBitSink = some (r, t)) : State.Asked [.bitSink] s t := by
  rw [State.flushBitSink] at h
  split at h
  · cases h; exact State.asked_other (r := .flush .bitSink) rfl (by decide) rfl rfl
  · cases h

theorem State.flushByteSink_asked {r : Reply} (h : s.flushByteSink = some (r, t)) : State.Asked [.byteSink] s t := by
  rw [State.flushByteSink] at h
  split at h
  · cases h; exact State.asked_other (r := .flush .byteSink) rfl (by decide) rfl rfl
  · cases h

end

/-! ## The jobs -/

section

variable (s : State)

theorem asked_runPut (n v : Nat) : State.Asked [.bitSink] s (runPut n v s) := by
  rw [runPut]
  split
  · exact .of_eq rfl
  · exact State.bitWrite_asked ‹_›
  · exact (State.bitWrite_asked ‹_›).raise _ _

theorem asked_runReadMagic : State.Asked [.bitSource] s (runReadMagic s) := by
  rw [runReadMagic]
  split
  · exact .of_eq rfl
  · exact State.bitRead_asked_raise ‹_› _ _
  · exact State.bitRead_asked_raise ‹_› _ _
  · split
    · exact (State.bitRead_asked ‹_› (by decide)).seq _
    · exact State.bitRead_asked_raise ‹_› _ _

/-- A read of the tree phase, if the use of its value leaves the ports alone and starts no command. -/
theorem asked_get {k : Nat} (hk : 0 < k) (j : Job) {use : Nat → State → State}
    (hu : ∀ v t, (use v t).ports = t.ports ∧ ((use v t).flags.busy = true → t.flags.busy = true)) :
    State.Asked [.bitSource] s (s.get k j use) := by
  rw [State.get]
  split
  · exact .of_eq rfl
  · exact State.bitRead_asked_raise ‹_› _ _
  · exact State.bitRead_asked_raise ‹_› _ _
  · exact ((State.bitRead_asked ‹_› hk).seq _).congr (hu _ _).1 (hu _ _).2

theorem State.link_ports (l : Link) (i : NodeIx) : (s.link l i).ports = s.ports := by cases l <;> rfl

theorem parseNode_ports_busy (l : Link) (b : Nat) :
    (parseNode l b s).ports = s.ports ∧ ((parseNode l b s).flags.busy = true → s.flags.busy = true) := by
  rw [parseNode]
  dsimp only
  split
  · simp only [State.push_ports, State.push_flags, State.link_ports, State.link_flags, imp_self, and_self]
  · split
    · exact ⟨State.link_ports _ _ _, nofun⟩
    · simp only [State.push_ports, State.push_flags, State.setNode_ports, State.setNode_flags, State.link_ports,
        State.link_flags, imp_self, and_self]

theorem parseSym_ports_busy (i : NodeIx) (v : Nat) :
    (parseSym i v s).ports = s.ports ∧ ((parseSym i v s).flags.busy = true → s.flags.busy = true) := by
  rw [parseSym]
  dsimp only
  split
  · exact ⟨rfl, nofun⟩
  · split
    · exact ⟨rfl, nofun⟩
    · exact ⟨rfl, id⟩

theorem asked_runEncByte (b : Bool) : State.Asked [.byteSource] s (runEncByte b s) := by
  rw [runEncByte]
  split
  · exact .of_eq rfl
  · exact (State.byteRead_asked ‹_›).raise _ _
  · split
    · exact (State.byteRead_asked ‹_›).encode _
    · exact State.byteRead_asked ‹_›
  · exact ((State.byteRead_asked ‹_›).push _).encode _

theorem asked_runDescend (b : Bool) (i : NodeIx) (m : Bool) : State.Asked [.bitSource] s (runDescend b i m s) := by
  rw [runDescend]
  split
  · split
    · rw [State.gotStreamSymbol]
      split <;> exact .of_eq rfl
    · exact .of_eq rfl
  · split
    · exact .of_eq rfl
    · exact State.bitRead_asked_raiseDec ‹_› _ _
    · exact State.bitRead_asked_raiseDec ‹_› _ _
    · exact (State.bitRead_asked ‹_› Nat.one_pos).push _

theorem asked_runPutByte (b : Byte) : State.Asked [.byteSink] s (runPutByte b s) := by
  rw [runPutByte]
  split
  · exact .of_eq rfl
  · exact State.byteWrite_asked ‹_›
  · exact (State.byteWrite_asked ‹_›).raiseDec _ _

theorem asked_runFlushBits : State.Asked [.bitSink] s (runFlushBits s) := by
  rw [runFlushBits]
  split
  · exact .of_eq rfl
  · exact State.flushBitSink_asked ‹_›
  · exact (State.flushBitSink_asked ‹_›).raise _ _

theorem asked_runFlushBytes : State.Asked [.byteSink] s (runFlushBytes s) := by
  rw [runFlushBytes]
  split
  · exact .of_eq rfl
  · exact State.flushByteSink_asked ‹_›
  · exact (State.flushByteSink_asked ‹_›).raise _ _

/-- A job asks only at the ports it uses; one that uses none leaves them all as they are. -/
theorem asked_runJob (j : Job) : State.Asked j.uses s (runJob j s) := by
  have hnone (h : j.uses = []) : State.Asked j.uses s (runJob j s) := .of_eq ((h ▸ reached_runJob s j).none rfl).1
  cases j with
  | ret | illegal v | clear | codesDone | treeDone | scan x | merge | gencodes | walk i p => exact hnone rfl
  | hdrrd m | treeStart => exact .of_eq rfl
  | put n v => exact asked_runPut s n v
  | hdrwr m => rw [runJob, runHdrwr]; split <;> exact .of_eq rfl
  | emit i => rw [runJob, runEmit]; split <;> exact .of_eq rfl
  | readMagic => exact asked_runReadMagic s
  | parse l => exact asked_get s Nat.one_pos _ fun b t => parseNode_ports_busy t l b
  | leafSym i => exact asked_get s (by decide) _ fun v t => parseSym_ports_busy t i v
  | encsym x =>
    rw [runJob, runEncsym]
    split
    · exact (State.Asked.of_eq rfl).encode x
    · exact .of_eq rfl
  | encstream b => rw [runJob, runEncstream]; split <;> exact .of_eq rfl
  | encByte b => exact (asked_runEncByte s b).mono (by simp [Job.uses])
  | decode b => rw [runJob, runDecode]; split <;> exact .of_eq rfl
  | decode1 b => rw [runJob, runDecode1]; split <;> exact .of_eq rfl
  | descend b i m => exact (asked_runDescend s b i m).mono (by cases b <;> simp [Job.uses])
  | putByte b => exact asked_runPutByte s b
  | flushBits => exact asked_runFlushBits s
  | flushBytes => exact asked_runFlushBytes s

end

/-! ## The commands -/

theorem State.Asked.advance {W : List Port} {s u : State} (h : State.Asked W s u) (hb : u.flags.busy = true)
    (hjobs : ∀ j ∈ u.seq.jobs, j.uses ⊆ W) : State.Asked W s (advance u) := by
  cases hu : u.seq.jobs with
  | nil => rw [Machine.advance, hu]; exact h
  | cons j js =>
    rw [advance_eq hu]
    exact (h.seq { u.seq with jobs := js }).trans hb ((asked_runJob (u.at js) j).mono (hjobs j (by simp [hu])))

/-- A command asks only at the ports it uses, and reads the bit source once more than it has bits at most (R305). -/
theorem exec_asked {i : Instr} {s t : State} (h : exec i s = .next t) : State.Asked (Instr.uses i) s t := by
  have haccept : State.Confined (Instr.uses i) s (s.accept (Instr.jobs i)) ∧
      State.Asked (Instr.uses i) s (s.accept (Instr.jobs i)) :=
    ⟨⟨fun j hj _ hp => List.mem_flatMap.2 ⟨j, hj, hp⟩, .of_eq rfl rfl⟩, .of_eq rfl⟩
  exact (exec_keeps (P := fun u => State.Confined (Instr.uses i) s u ∧ State.Asked (Instr.uses i) s u)
    (fun u ⟨hc, ha⟩ hb _ => ⟨hc.advance, ha.advance hb hc.jobs⟩) haccept h).2

/-- Settles O58: the commands complete, and what they ask for is bounded. -/
theorem readingCommandsTerminate : Obligations.ReadingCommandsTerminate := by
  intro s h hports
  refine ⟨?_, fun m => ?_⟩
  · obtain ⟨t, ht, hb⟩ := commandsCompleteIfPortsAnswer .decstream s h hports
    obtain ⟨reqs, htrace, -, hbound, -⟩ := exec_asked ht
    refine ⟨t, reqs, ht, hb, htrace, le_trans ?_ hbound⟩
    rw [← List.countP_eq_length_filter]
    refine List.countP_mono_left fun r _ hr => ?_
    obtain rfl : r = .bitRead 1 := by simpa using hr
    rfl
  · obtain ⟨t, ht, hb⟩ := commandsCompleteIfPortsAnswer (.hdrrd m) s h hports
    obtain ⟨reqs, htrace, hreqs, hbound, -⟩ := exec_asked ht
    refine ⟨t, reqs, ht, hb, htrace, le_of_eq_of_le (List.countP_eq_length.2 fun r hr => ?_).symm hbound⟩
    simpa [Instr.uses, Instr.jobs, Job.uses] using hreqs r hr

end Sys2Proof.Machine
end

section
/-! SUPPORT. Whole streams: what `BUILD`, `GENCODES`, `HDRWR` and `ENCSTREAM` write, and what `HDRRD` and `DECSTREAM` make
of it, or of its beginning (R235, R236). -/

namespace Sys2Proof.Machine

/-! ## Commands one after another -/

/-- The host goes on after a command that has completed with `OK` (R116). -/
theorem runAll_of_succeeded {i : Instr} {s t : State} (h : exec i s = .next t) (ht : t.Succeeded) (is : List Instr) :
    runAll (i :: is) s = runAll is t := by
  obtain ⟨hb, hc⟩ := ht
  simp [runAll, h, hb, hc]

/-- The host stops at an error (R116). -/
theorem runAll_of_error {i : Instr} {s t : State} (h : exec i s = .next t) (ht : t.errCode ≠ 0#4) (is : List Instr) :
    runAll (i :: is) s = .next t := by
  simp [runAll, h, ht]

/-! ## Compression -/

/-- `BUILD` succeeds, with a tree of the symbols that qualify, and leaves the ports alone (R131, R133, R138). -/
theorem exec_build_succeeds (s : State) :
    ∃ t T, exec .build s = .next t ∧ t.Succeeded ∧ t.ports = s.ports ∧ t.HoldsTree T ∧
      T.syms.length = s.qualifying.length ∧
      ∀ x : Symbol, x ∈ T.syms ↔ x.toNat ≤ 256 ∧ s.freqAt x.toNat ≠ 0#32 := by
  obtain ⟨nodes, hbuild, -⟩ := buildNumbersLeavesThenInternalNodes s
  obtain ⟨T, hT, hsyms, -⟩ := buildMakesAValidTree s _ hbuild
  exact ⟨_, T, hbuild, ⟨rfl, rfl⟩, rfl, hT, hT.leafCount.symm.trans (exec_build_leafCount hbuild), hsyms⟩

/-- `GENCODES` of a tree succeeds, with the tree's codes, and leaves the ports alone (R150, R151). -/
theorem exec_gencodes_succeeds {s : State} {T : Tree} (hT : s.HoldsTree T) :
    ∃ t, exec .gencodes s = .next t ∧ t.Succeeded ∧ t.ports = s.ports ∧ t.HoldsTree T ∧ t.HoldsCodes T ∧
      t.flags.codesValid = true := by
  have h := gencodesWritesTheCodeTable s T hT.valid hT.holds hT.legal
  exact ⟨_, h, ⟨rfl, rfl⟩, rfl, hT.congr rfl rfl rfl rfl rfl, exec_gencodes_holdsCodes hT h, rfl⟩

/-- Bytes that are leaves of the tree have a payload (R113). -/
theorem Tree.exists_payload {T : Tree} {bytes : List Byte} (h : ∀ b ∈ bytes, b.setWidth 9 ∈ T.syms) :
    ∃ p, T.payload bytes = some p := by
  induction bytes with
  | nil => exact ⟨[], rfl⟩
  | cons b bytes ih =>
    obtain ⟨q, hq⟩ := Option.isSome_iff_exists.1 ((T.code_isSome _).2 (h b (by simp)))
    obtain ⟨p, hp⟩ := ih fun c hc => h c (by simp [hc])
    exact ⟨q ++ p, by rw [Tree.payload, hq, hp]⟩

/-- The stream that compression writes: the magic, the header, the codes of the bytes, and the sentinel's (R109-R113). -/
def Tree.stream (T : Tree) (p e : List Bool) : List Bool := magicBits true ++ (T.ser ++ (p ++ e))

/-- What the four commands of compression do, if all bytes of the input have counts (R235). -/
theorem compress_writes_stream {s : State} {input : List Byte} (hfreq : s.FreqCovers input)
    (ha : s.ports.byteSource.answering = true) (hs : s.ports.byteSource.rest = input)
    (heod : s.ports.byteSource.term = .eod) (hacc : s.ports.bitSink.Accepts) :
    ∃ (t : State) (T : Tree) (p e : List Bool), T.Legal ∧ T.syms.length = s.qualifying.length ∧
      T.payload input = some p ∧ T.code 256#9 = some e ∧
      runAll [.build, .gencodes, .hdrwr true, .encstream true] s = .next t ∧ t.Succeeded ∧
      t.ports.bitSink.out = s.ports.bitSink.out ++ T.stream p e := by
  obtain ⟨t₁, T, hbuild, hok₁, hports₁, hT₁, hlen, hsyms⟩ := exec_build_succeeds s
  obtain ⟨t₂, hgen, hok₂, hports₂, hT₂, hC₂, hv₂⟩ := exec_gencodes_succeeds hT₁
  have hports : t₂.ports = s.ports := hports₂.trans hports₁
  rw [← hports] at ha hs heod hacc
  obtain ⟨hwrite, hbits, -⟩ := hdrwrWritesTheHeader t₂ T true hT₂.valid hT₂.holds hT₂.legal hacc
  obtain ⟨p, hp⟩ := Tree.exists_payload (T := T) (bytes := input) fun b hb => by
    have hbyte : (b.setWidth 9).toNat = b.toNat := by
      have := b.isLt
      rw [BitVec.toNat_setWidth]
      omega
    exact (hsyms _).2 ⟨byte_le b, by rw [hbyte]; exact hfreq b hb⟩
  obtain ⟨e, he⟩ := Option.isSome_iff_exists.1 ((T.code_isSome 256#9).2 ((hsyms _).2 ⟨by decide, by simp [State.freqAt]⟩))
  let t₃ := (t₂.wrote (magicWrite true ++ T.writes)).complete
  have hencode := encstreamWritesThePayload t₃ T true input p e hv₂ (hC₂.congr rfl) hT₂.legal hp he ha hs heod
    (State.wrote_accepts hacc _)
  have hrun := calc
    runAll [.build, .gencodes, .hdrwr true, .encstream true] s
    _ = runAll [.gencodes, .hdrwr true, .encstream true] t₁ := runAll_of_succeeded hbuild hok₁ _
    _ = runAll [.hdrwr true, .encstream true] t₂ := runAll_of_succeeded hgen hok₂ _
    _ = runAll [.encstream true] t₃ := runAll_of_succeeded hwrite ⟨rfl, rfl⟩ _
    _ = runAll [] _ := runAll_of_succeeded hencode ⟨rfl, rfl⟩ _
  have hout₃ : t₃.ports.bitSink.out = t₂.ports.bitSink.out ++ (magicBits true ++ T.ser) :=
    congrArg (t₂.ports.bitSink.out ++ ·) hbits
  have hout : t₃.ports.bitSink.out ++ (codeWrites (p ++ e)).flatMap (fun w => bin w.1 w.2) =
      s.ports.bitSink.out ++ T.stream p e := by
    rw [flatMap_codeWrites, hout₃, hports, Tree.stream]
    simp only [List.append_assoc]
  exact ⟨_, T, p, e, hT₂.legal, hlen, hp, he, hrun, ⟨rfl, rfl⟩, hout⟩

/-! ## Decompression -/

/-- `HDRRD` of the header of a legal tree succeeds, with that tree, and leaves the source behind the header and the byte
sink as it was (R183, R189). -/
theorem exec_hdrrd_succeeds {s : State} {T : Tree} {m : Bool} {more : List Bool} (hL : T.Legal)
    (ha : s.ports.bitSource.answering = true) (hs : s.ports.bitSource.rest = magicBits m ++ (T.ser ++ more)) :
    ∃ u, exec (.hdrrd m) s = .next u ∧ u.Succeeded ∧ u.HoldsTree T ∧
      u.ports.bitSource = { s.ports.bitSource with rest := more } ∧ u.ports.byteSink = s.ports.byteSink := by
  rw [← List.append_assoc] at hs
  obtain ⟨u, hu, hok, hT, -⟩ := exec_hdrrd_holdsTree hL ha hs
  have heq := hu.symm.trans (hdrrdReadsTheHeader s T m more hL ha hs)
  cases heq
  exact ⟨_, hu, hok, hT, rfl, rfl⟩

/-- Settles O59: the header gives the tree back, and the tree's codes give the bytes back. -/
theorem compressDecompressRoundTrip : Obligations.CompressDecompressRoundTrip := by
  intro s input hfreq ha hs heod hacc
  obtain ⟨t, T, p, e, hL, -, hp, he, hrun, hok, hout⟩ := compress_writes_stream hfreq ha hs heod hacc
  refine ⟨t, T.stream p e, hrun, hok, hout, fun s' more ha' hs' hacc' => ?_⟩
  rw [Tree.stream] at hs'
  obtain ⟨u, hu, huok, hT, hsource, hsink⟩ :=
    exec_hdrrd_succeeds (T := T) (m := true) (more := p ++ e ++ more) hL ha' (by rw [hs']; simp only [List.append_assoc])
  have hdecode := decstreamDecodesToTheSentinel u T input p e more hT.valid hT.holds hL hp he (by rw [hsource]; exact ha')
    (by rw [hsource]) (by rw [hsink]; exact hacc')
  have hrun' := (runAll_of_succeeded hu huok [.decstream]).trans (runAll_of_succeeded hdecode ⟨rfl, rfl⟩ [])
  exact ⟨_, hrun', ⟨rfl, rfl⟩, congrArg (Sink.out · ++ input) hsink, rfl⟩

/-! ## Streams that are cut -/

/-- Two strings that are cut, in the first or behind it. -/
theorem append_cut {α : Type} {xs ys kept lost : List α} (h : xs ++ ys = kept ++ lost) :
    (∃ cs, xs = kept ++ cs ∧ cs ≠ []) ∨ ∃ zs, kept = xs ++ zs ∧ ys = zs ++ lost := by
  obtain ⟨zs, hkept, hys⟩ | ⟨cs, hxs, hlost⟩ := List.append_eq_append_iff.1 h
  · exact .inr ⟨zs, hkept, hys⟩
  · obtain rfl | hne := eq_or_ne cs []
    · exact .inr ⟨[], by simpa using hxs.symm, by simpa using hlost.symm⟩
    · exact .inl ⟨cs, hxs, hne⟩

/-- Fields that are cut are cut in one of them. -/
theorem fields_cut {ws : List (Nat × Nat)} {kept lost : List Bool}
    (h : ws.flatMap (fun w => bin w.1 w.2) = kept ++ lost) (hlost : lost ≠ []) :
    ∃ k w part, ws[k]? = some w ∧ part.length < w.1 ∧
      kept = (ws.take k).flatMap (fun w => bin w.1 w.2) ++ part := by
  induction ws generalizing kept with
  | nil => exact absurd (List.append_eq_nil_iff.1 h.symm).2 hlost
  | cons w ws ih =>
    obtain ⟨cs, hw, hcs⟩ | ⟨zs, rfl, hrest⟩ := append_cut h
    · have hlen := congrArg List.length hw
      have := List.length_pos_of_ne_nil hcs
      rw [bin_length, List.length_append] at hlen
      exact ⟨0, w, kept, rfl, by omega, rfl⟩
    · obtain ⟨k, w', part, hw', hpart, rfl⟩ := ih hrest
      exact ⟨k + 1, w', part, hw', hpart, (List.append_assoc _ _ _).symm⟩

/-- A header that is cut is cut in one of its fields (R110). -/
theorem Tree.ser_cut {T : Tree} {kept lost : List Bool} (h : T.ser = kept ++ lost) (hlost : lost ≠ []) :
    ∃ k w part, T.writes[k]? = some w ∧ part.length < w.1 ∧ kept = T.bitsTo k ++ part :=
  fields_cut (T.flatMap_writes.trans h) hlost

/-- There is nothing in the header of a legal tree that `HDRRD` refuses (R185). -/
theorem Tree.Legal.cleanTo {T : Tree} (hL : T.Legal) (k : Nat) : T.CleanTo k := by
  obtain ⟨hnodup, hsyms⟩ := hL
  refine ⟨hnodup.sublist (List.take_sublist _ _), fun x hx => hsyms x (List.mem_of_mem_take hx), ?_⟩
  have hcount : T.intsTo k ≤ T.ints := T.count_writes ▸ (List.take_sublist k T.writes).count_le _
  have := T.ints_eq
  have := Tree.Legal.length_le ⟨hnodup, hsyms⟩
  omega

/-- A payload with its terminator that is cut is cut in one of its codes (R112, R113). -/
theorem Tree.payload_cut {T : Tree} {bytes : List Byte} {p e kept lost : List Bool} (hp : T.payload bytes = some p)
    (he : T.code 256#9 = some e) (h : p ++ e = kept ++ lost) (hlost : lost ≠ []) :
    ∃ pre r x q cs, T.payload pre = some r ∧ T.code x = some (q ++ cs) ∧ cs ≠ [] ∧ kept = r ++ q := by
  induction bytes generalizing p kept with
  | nil =>
    cases hp
    exact ⟨[], [], 256#9, kept, lost, rfl, he.trans (congrArg some h), hlost, rfl⟩
  | cons b bytes ih =>
    obtain ⟨c, d, hc, hd, rfl⟩ := Tree.payload_cons hp
    rw [List.append_assoc] at h
    obtain ⟨cs, rfl, hcs⟩ | ⟨zs, rfl, hrest⟩ := append_cut h
    · exact ⟨[], [], b.setWidth 9, kept, cs, rfl, hc, hcs, rfl⟩
    · obtain ⟨pre, r, x, q, cs, hpre, hx, hcs, rfl⟩ := ih hd hrest
      exact ⟨b :: pre, c ++ r, x, q, cs, by rw [Tree.payload, hc, hpre], hx, hcs, (List.append_assoc _ _ _).symm⟩

/-- Decompression of a stream that is cut: the code that it ends with depends on where the cut is (R236). -/
theorem decompress_cut_stream {s : State} {T : Tree} {input : List Byte} {p e kept lost : List Bool} (hL : T.Legal)
    (hp : T.payload input = some p) (he : T.code 256#9 = some e) (hcut : T.stream p e = kept ++ lost) (hlost : lost ≠ [])
    (ha : s.ports.bitSource.answering = true) (hs : s.ports.bitSource.rest = kept)
    (heod : s.ports.bitSource.term = .eod) (hacc : s.ports.byteSink.Accepts) :
    ∃ u, runAll [.hdrrd true, .decstream] s = .next u ∧ u.flags.busy = false ∧ u.flags.err = true ∧
      ((u.errCode = 2#4 ∧ kept.length < 32 + T.ser.length) ∨ (u.errCode = 3#4 ∧ 32 + T.ser.length ≤ kept.length)) := by
  have hmagic : (magicBits true).length = 32 := bin_length _ _
  obtain ⟨cs, hm, hcs⟩ | ⟨kept, rfl, hbehind⟩ := append_cut hcut
  · have hlen : kept.length < 32 := by
      have := List.length_pos_of_ne_nil hcs
      rw [hm, List.length_append] at hmagic
      omega
    obtain ⟨-, htrunc, -⟩ := hdrrdChecksTheMagicFirst s ha
    exact ⟨_, runAll_of_error (htrunc (hs ▸ hlen) heod) nofun _, rfl, rfl, .inl ⟨rfl, Nat.lt_add_right _ hlen⟩⟩
  obtain ⟨cs, hser, hcs⟩ | ⟨kept, rfl, hpayload⟩ := append_cut hbehind
  · obtain ⟨k, w, part, hw, hpart, rfl⟩ := Tree.ser_cut hser hcs
    obtain ⟨u, hu, hb, herr, -, -, -, -, -, -, -, htrunc, -⟩ :=
      hdrrdRefusesATruncatedHeader s T true k w part ha (hL.cleanTo k) hw hpart (by rw [hs, List.append_assoc])
    obtain ⟨hcode, -⟩ := htrunc heod
    refine ⟨u, runAll_of_error hu (by rw [hcode]; decide) _, hb, herr, .inl ⟨hcode, ?_⟩⟩
    have := List.length_pos_of_ne_nil hcs
    simp only [hser, List.length_append, hmagic]
    omega
  · obtain ⟨u, hu, huok, hT, hsource, hsink⟩ := exec_hdrrd_succeeds (T := T) (m := true) (more := kept) hL ha hs
    obtain ⟨pre, r, x, q, cs, hpre, hx, hcs, rfl⟩ := Tree.payload_cut hp he hpayload hlost
    obtain ⟨t, ht, hb, hmissing, -, herr, -⟩ := decstreamReportsAMissingTerminator.1 u T pre x r q cs hT.valid hT.holds hL
      hpre hx hcs (by rw [hsource]; exact ha) (by rw [hsource]) (by rw [hsink]; exact hacc)
    obtain ⟨hcode, -⟩ := hmissing (by rw [hsource]; exact heod)
    refine ⟨t, ?_, hb, herr, .inr ⟨hcode, ?_⟩⟩
    · rw [runAll_of_succeeded hu huok, runAll_of_error ht (by rw [hcode]; decide)]
    · rw [List.length_append, List.length_append, hmagic]
      omega

/-- Settles O60: the stream is cut in the magic, in a field of the header, or in a code behind it. -/
theorem truncatedStreamNeverDecompresses : Obligations.TruncatedStreamNeverDecompresses := by
  intro s t s' input W P lost hfreq ha hs heod hacc hrun hout hW hlost ha' hs' heod' hacc'
  obtain ⟨t', T, p, e, hL, hlen, hp, he, hrun', -, hout'⟩ := compress_writes_stream hfreq ha hs heod hacc
  cases hrun.symm.trans hrun'
  have hstream : T.stream p e = P ++ lost := (List.append_cancel_left (hout'.symm.trans hout)).trans hW
  have hser := T.ser_length
  obtain ⟨u, hu, hb, herr, ⟨hcode, hP⟩ | ⟨hcode, hP⟩⟩ :=
    decompress_cut_stream hL hp he hstream hlost ha' hs' heod' hacc'
  · exact ⟨u, hu, hb, herr, fun _ => hcode, fun h => by omega⟩
  · exact ⟨u, hu, hb, herr, fun h => by omega, fun _ => hcode⟩

end Sys2Proof.Machine
end

section
/-! SUPPORT. A command word written to `CMD` by a host that waits (R240), and the two control commands (R242, R245). -/

namespace Sys2Proof.Machine

/-! ## A command that the host waits for -/

theorem launch_waiting_command {s : State} {w : Word} {i : Instr} (hs : s.early = false) (hd : decode w = .command i) :
    launch w s = exec i s := by
  rw [launch, hd]
  simp [hs]

/-- Settles O7: the write launches the word, and no access comes before the completion. -/
theorem stepRunsTheCommand : Obligations.StepRunsTheCommand := by
  intro s e es w i hb he hw hd hes
  have hearly : ({ s with events := es } : State).early = false := State.early_of_waits hes
  rw [step_launch hb he hw, launch_waiting_command hearly hd]

/-! ## NOP and CLEAR -/

/-- Settles O32: the one position of `NOP` is its `return`. -/
theorem nopOnlyCompletes : Obligations.NopOnlyCompletes := by
  intro s
  exact exec_of_goes (goes_ret _ (accept_runs s _)) rfl s.burst_pos

/-- Settles O33: the two positions of `CLEAR` are its body and its `return`. -/
theorem clearResetsAllButCtrl : Obligations.ClearResetsAllButCtrl := by
  intro s
  have hr := accept_runs s (Instr.jobs .clear)
  have hbody := goes_job _ .clear [.ret] hr
  have hret := goes_ret (runClear (s.accept (Instr.jobs .clear))) ⟨hr.busy, hr.free⟩
  exact exec_of_goes (hbody.trans hret) rfl (s.le_burst (by decide))

end Sys2Proof.Machine
end

section
/-! SUPPORT. The preconditions (R251): which job checks one, and that no other job completes with `NOT_READY`. -/

namespace Sys2Proof.Machine

/-! ## What is checked -/

/-- The store that a job checks before anything else (R251). -/
def Job.needs : Job → Option Store
  | .gencodes | .hdrwr _ | .decode _ => some .tree
  | .encsym _ | .encstream _ => some .codes
  | _ => none

/-- The flag that says that a store holds what a precondition asks for (R57, R58). -/
def State.valid (s : State) : Store → Bool
  | .tree => s.flags.treeValid
  | .codes => s.flags.codesValid
  | .host | .symbol => true

/-- The block has not completed with `NOT_READY`. -/
def State.Passed (s : State) : Prop := s.flags.busy = true ∨ s.errCode ≠ 5#4

/-! ## The jobs -/

theorem State.Serves.busy {s t : State} (h : s.Serves t) : t.flags.busy = s.flags.busy := h.sameRun.busy

theorem passed_raise (s : State) {e : Err} (he : e ≠ .notReady) (v : Word) : (s.raise e v).Passed := by
  refine .inr ?_
  rw [State.raise_errCode]
  cases e with
  | notReady => exact absurd rfl he
  | _ => decide

theorem passed_raiseDec (s : State) {e : Err} (he : e ≠ .notReady) (v : Word) : (s.raiseDec e v).Passed :=
  passed_raise _ he v

section
variable {s : State} (hb : s.flags.busy = true)
include hb

theorem passed_encode (x : Symbol) : (s.encode x).Passed := by
  rw [State.encode]
  split
  · exact .inl hb
  · exact passed_raise _ (by simp) _

theorem passed_runPut (n v : Nat) : (runPut n v s).Passed := by
  rw [runPut]
  obtain h | ⟨r, t, h, ht⟩ := s.bitWrite_cases n v <;> rw [h]
  · exact .inl hb
  · cases r
    · exact .inl (ht.busy.trans hb)
    · exact passed_raise _ (by simp) _

theorem passed_runReadMagic : (runReadMagic s).Passed := by
  rw [runReadMagic]
  obtain h | ⟨r, t, h, ht⟩ := s.bitRead_cases 32 <;> rw [h]
  · exact .inl hb
  · cases r with
    | data v =>
      dsimp only
      split
      · exact .inl (ht.busy.trans hb)
      · exact passed_raise _ (by simp) _
    | eod => exact passed_raise _ (by simp) _
    | err => exact passed_raise _ (by simp) _

theorem passed_get {k : Nat} {j : Job} {use : Nat → State → State}
    (hu : ∀ v t, t.flags.busy = true → (use v t).Passed) : (s.get k j use).Passed := by
  rw [State.get]
  obtain h | ⟨r, t, h, ht⟩ := s.bitRead_cases k <;> rw [h]
  · exact .inl hb
  · cases r with
    | data v => exact hu _ _ (ht.busy.trans hb)
    | eod => exact passed_raise _ (by simp) _
    | err => exact passed_raise _ (by simp) _

theorem passed_parseNode (l : Link) (b : Nat) : (parseNode l b s).Passed := by
  have hl (t : State) (i : NodeIx) (h : t.flags.busy = true) : (t.link l i).flags.busy = true := by
    rw [State.link_flags, h]
  rw [parseNode]
  dsimp only
  split
  · exact .inl (hl _ _ hb)
  · split
    · exact passed_raise _ (by simp) _
    · exact .inl (hl _ _ hb)

theorem passed_parseSym (i : NodeIx) (v : Nat) : (parseSym i v s).Passed := by
  rw [parseSym]
  dsimp only
  split
  · exact passed_raise _ (by simp) _
  · split
    · exact passed_raise _ (by simp) _
    · exact .inl hb

theorem passed_runEncByte (b : Bool) : (runEncByte b s).Passed := by
  rw [runEncByte]
  obtain h | ⟨r, t, h, ht⟩ := s.byteRead_cases <;> rw [h]
  · exact .inl hb
  · have htb := ht.busy.trans hb
    cases r with
    | data x => exact passed_encode (s := t.push _) htb _
    | eod =>
      dsimp only
      split
      · exact passed_encode htb _
      · exact .inl htb
    | err => exact passed_raise _ (by simp) _

theorem passed_runDescend (b : Bool) (i : NodeIx) (m : Bool) : (runDescend b i m s).Passed := by
  rw [runDescend]
  split
  · split
    · rw [State.gotStreamSymbol]
      split <;> exact .inl hb
    · exact .inl hb
  · obtain h | ⟨r, t, h, ht⟩ := s.bitRead_cases 1 <;> rw [h]
    · exact .inl hb
    · cases r with
      | data v => exact .inl (ht.busy.trans hb)
      | eod => exact passed_raiseDec _ (by simp) _
      | err => exact passed_raiseDec _ (by simp) _

theorem passed_runPutByte (b : Byte) : (runPutByte b s).Passed := by
  rw [runPutByte]
  obtain h | ⟨r, t, h, ht⟩ := s.byteWrite_cases b <;> rw [h]
  · exact .inl hb
  · cases r
    · exact .inl (ht.busy.trans hb)
    · exact passed_raiseDec _ (by simp) _

theorem passed_runFlushBits : (runFlushBits s).Passed := by
  rw [runFlushBits]
  obtain h | ⟨r, t, h, ht⟩ := s.flushBitSink_cases <;> rw [h]
  · exact .inl hb
  · cases r
    · exact .inl (ht.busy.trans hb)
    · exact passed_raise _ (by simp) _

theorem passed_runFlushBytes : (runFlushBytes s).Passed := by
  rw [runFlushBytes]
  obtain h | ⟨r, t, h, ht⟩ := s.flushByteSink_cases <;> rw [h]
  · exact .inl hb
  · cases r
    · exact .inl (ht.busy.trans hb)
    · exact passed_raise _ (by simp) _

theorem passed_runMerge : (runMerge s).Passed := by
  rw [runMerge]
  split <;> exact .inl hb

/-- A job that checks nothing, or finds what it checks, does not complete with `NOT_READY`. -/
theorem passed_runJob {j : Job} (hn : ∀ w, j.needs = some w → s.valid w = true) : (runJob j s).Passed := by
  have htree : j.needs = some .tree → s.flags.treeValid = true := hn .tree
  have hcodes : j.needs = some .codes → s.flags.codesValid = true := hn .codes
  cases j with
  | ret => exact .inr (by decide : (0#4 : BitVec 4) ≠ 5#4)
  | put n v => exact passed_runPut hb n v
  | illegal v => exact passed_raise _ (by simp) _
  | clear => exact .inl hb
  | scan x => exact .inl ((s.scanSymbol_sameRun x).busy.trans hb)
  | merge => exact passed_runMerge hb
  | gencodes =>
    rw [runJob, runGencodes, if_pos (htree rfl)]
    exact .inl hb
  | walk i p =>
    rw [runJob, runWalk]
    split <;> exact .inl hb
  | codesDone => exact .inl hb
  | hdrwr m =>
    rw [runJob, runHdrwr, if_pos (htree rfl)]
    exact .inl hb
  | emit i =>
    rw [runJob, runEmit]
    split <;> exact .inl hb
  | hdrrd m => exact .inl hb
  | readMagic => exact passed_runReadMagic hb
  | treeStart => exact .inl hb
  | parse l => exact passed_get hb fun v t ht => passed_parseNode ht l v
  | leafSym i => exact passed_get hb fun v t ht => passed_parseSym ht i v
  | treeDone => exact .inl hb
  | encsym x =>
    rw [runJob, runEncsym, if_pos (hcodes rfl)]
    exact passed_encode hb x
  | encstream t =>
    rw [runJob, runEncstream, if_pos (hcodes rfl)]
    exact .inl hb
  | encByte t => exact passed_runEncByte hb t
  | decode b =>
    rw [runJob, runDecode, if_pos (htree rfl)]
    exact .inl hb
  | decode1 b =>
    rw [runJob, runDecode1]
    split
    · exact passed_raiseDec _ (by simp) _
    · exact .inl hb
  | descend b i m => exact passed_runDescend hb b i m
  | putByte b => exact passed_runPutByte hb b
  | flushBits => exact passed_runFlushBits hb
  | flushBytes => exact passed_runFlushBytes hb

end

/-! ## The commands -/

/-- Command `i` checks a store that is not valid in `s`. -/
def Instr.Lacks (i : Instr) (s : State) : Prop := ∃ j ∈ Instr.jobs i, ∃ w, j.needs = some w ∧ s.valid w = false

theorem State.Frame.valid {W : List Store} {s t : State} (h : State.Frame W s t) {w : Store} (hw : w ∉ W) :
    t.valid w = s.valid w := by
  cases w with
  | tree =>
    obtain ⟨-, -, -, -, hv⟩ := h.tree hw
    exact hv
  | codes => exact (h.codes hw).2
  | host => rfl
  | symbol => rfl

/-- The commands that check a store, and which (R251). -/
theorem Instr.needs_cases {i : Instr} {j : Job} (hj : j ∈ Instr.jobs i) {w : Store} (hw : j.needs = some w) :
    w = .tree ∧ (i = .gencodes ∨ (∃ m, i = .hdrwr m) ∨ i = .decsym ∨ i = .decstream) ∨
    w = .codes ∧ ((∃ x, i = .encsym x) ∨ ∃ b, i = .encstream b) := by
  cases i with
  | flush k y =>
    obtain rfl | rfl | rfl : j = .flushBits ∨ j = .flushBytes ∨ j = .ret := by
      cases k <;> cases y <;> simp [Instr.jobs] at hj <;> tauto
    all_goals cases hw
  | _ =>
    simp only [Instr.jobs, List.mem_cons, List.not_mem_nil, or_false] at hj
    obtain rfl | rfl := hj <;> cases hw <;> simp

/-- No command writes the store that it checks. -/
theorem Instr.needs_not_written {i : Instr} {j : Job} (hj : j ∈ Instr.jobs i) {w : Store} (hw : j.needs = some w) :
    w ∉ Instr.writes i := by
  obtain ⟨rfl, hi⟩ | ⟨rfl, hi⟩ := Instr.needs_cases hj hw
  · obtain rfl | ⟨m, rfl⟩ | rfl | rfl := hi <;> simp
  · obtain ⟨x, rfl⟩ | ⟨b, rfl⟩ := hi <;> simp

theorem Job.needs_of_emits {j : Job} (h : j.emits = true) : j.needs = none := by
  cases j with
  | put n v => rfl
  | emit i => rfl
  | _ => cases h

/-- No job leads to a check, but that it waits for. -/
theorem Job.Leads.needs {j : Job} {ks : List Job} (h : j.Leads ks) {k : Job} (hk : k ∈ ks) :
    k.needs = none ∨ k = j := by
  cases h with
  | again => exact .inr (List.mem_singleton.1 hk)
  | done => cases hk
  | hdrwr m _ h | emit i _ h => exact .inl (Job.needs_of_emits (h k hk))
  | encsym x _ h | terminator t _ h => exact .inl (Job.needs_of_emits (Job.emits_of_puts (h k hk)))
  | byte t js h =>
    obtain hk | hk := List.mem_append.1 hk
    · exact .inl (Job.needs_of_emits (Job.emits_of_puts (h k hk)))
    · exact .inr (List.mem_singleton.1 hk)
  | gencodes | walk | magic | treeStart | node | literal =>
    simp only [List.mem_cons, List.not_mem_nil, or_false] at hk
    obtain rfl | rfl := hk <;> exact .inl rfl
  | _ =>
    obtain rfl := List.mem_singleton.1 hk
    exact .inl rfl

/-- Command `i`, accepted in `s`, has got to `u` with its own checks still to do at most, and has passed those it has
done, or could not. -/
structure Instr.Checks (i : Instr) (s u : State) : Prop where
  reaches : Instr.Reaches i s u
  jobs    : ∀ j ∈ u.seq.jobs, j.needs = none ∨ j ∈ Instr.jobs i
  passed  : u.Passed ∨ Instr.Lacks i s

theorem Instr.Checks.advance {i : Instr} {s u : State} (h : Instr.Checks i s u) (hb : u.flags.busy = true) :
    Instr.Checks i s (advance u) := by
  have hreach := Instr.reaches_advance h.reaches hb
  cases hu : u.seq.jobs with
  | nil =>
    rw [Machine.advance, hu]
    exact h
  | cons j js =>
    rw [advance_eq hu] at hreach ⊢
    have hjobs : ∀ k ∈ j :: js, k.needs = none ∨ k ∈ Instr.jobs i := hu ▸ h.jobs
    refine ⟨hreach, fun k hk => ?jobs, ?passed⟩
    case jobs =>
      obtain hc | he := moves_runJob (u.at js) j
      · obtain ⟨ks, hks, hj⟩ := hc.jobs
        rw [hj, List.mem_append] at hk
        obtain hk | hk := hk
        · obtain hn | rfl := hks.needs hk
          · exact .inl hn
          · exact hjobs k List.mem_cons_self
        · exact hjobs k (List.mem_cons_of_mem _ hk)
      · simp [he.seq, Seq.idle] at hk
    case passed =>
      by_cases hn : ∀ w, j.needs = some w → (u.at js).valid w = true
      · exact .inl (passed_runJob (s := u.at js) hb hn)
      · push Not at hn
        obtain ⟨w, hw, hv⟩ := hn
        have hj : j ∈ Instr.jobs i := (hjobs j List.mem_cons_self).resolve_left (by simp [hw])
        have hkept : u.valid w = s.valid w := h.reaches.frame.valid (Instr.needs_not_written hj hw)
        exact .inr ⟨j, hj, w, hw, hkept ▸ Bool.eq_false_of_not_eq_true hv⟩

/-- A command that completes with `NOT_READY` checks a store that is not valid. -/
theorem lacks_of_notReady {i : Instr} {s t : State} (h : exec i s = .next t) (hb : t.flags.busy = false)
    (he : t.errCode = 5#4) : Instr.Lacks i s := by
  have hchecks : Instr.Checks i s t :=
    exec_keeps (fun _ hu hb _ => hu.advance hb) ⟨Instr.reaches_accept i s, fun _ hj => .inr hj, .inl (.inl rfl)⟩ h
  refine hchecks.passed.resolve_left ?_
  rintro (hp | hp)
  · simp [hb] at hp
  · exact hp he

/-- A command whose first job completes it. -/
theorem exec_of_first_job {i : Instr} {j : Job} {s t : State} (hi : Instr.jobs i = [j, .ret])
    (hj : runJob j ((s.accept (Instr.jobs i)).at [.ret]) = t) (ht : t.flags.busy = false) : exec i s = .next t := by
  have hgo := goes_job (s.accept (Instr.jobs i)) j [.ret] (accept_runs s _)
  rw [hj, ← hi] at hgo
  exact exec_of_goes hgo ht s.burst_pos

/-- Settles O31: the check is the command's first job, and no other job reports `NOT_READY`. -/
theorem preconditionsAreCheckedFirst : Obligations.PreconditionsAreCheckedFirst := by
  intro s
  refine ⟨fun hv => ?tree, fun hv => ?codes, fun i t h hb he => ?others⟩
  case tree =>
    have hn : ¬ s.flags.treeValid = true := by simp [hv]
    exact ⟨exec_of_first_job rfl (if_neg hn) rfl, fun m => exec_of_first_job rfl (if_neg hn) rfl,
      exec_of_first_job rfl (if_neg hn) rfl, exec_of_first_job rfl (if_neg hn) rfl⟩
  case codes =>
    have hn : ¬ s.flags.codesValid = true := by simp [hv]
    exact ⟨fun x => exec_of_first_job rfl (if_neg hn) rfl, fun b => exec_of_first_job rfl (if_neg hn) rfl⟩
  case others =>
    obtain ⟨j, hj, w, hw, hv⟩ := lacks_of_notReady h hb he
    obtain ⟨rfl, hi⟩ | ⟨rfl, hi⟩ := Instr.needs_cases hj hw
    · exact .inl ⟨hi, hv⟩
    · exact .inr ⟨hi, hv⟩

end Sys2Proof.Machine
end

section
/-! SUPPORT. No job reads the events to come or `OVR`: a command runs alike whatever stands there (R253, R303, R304). -/

namespace Sys2Proof.Machine

/-- The state with other events to come, and `OVR` set if a write has been dropped. -/
def State.disturbed (s : State) (es : List Event) (dropped : Bool) : State :=
  { s with events := es, flags.ovr := dropped || s.flags.ovr }

section
variable (s : State) (es : List Event) (d : Bool)

@[simp] theorem State.disturbed_busy : (s.disturbed es d).flags.busy = s.flags.busy := rfl
@[simp] theorem State.disturbed_seq : (s.disturbed es d).seq = s.seq := rfl
@[simp] theorem State.disturbed_ports : (s.disturbed es d).ports = s.ports := rfl
@[simp] theorem State.disturbed_node (i : NodeIx) : (s.disturbed es d).node i = s.node i := rfl
@[simp] theorem State.disturbed_freqAt (x : Nat) : (s.disturbed es d).freqAt x = s.freqAt x := rfl

theorem State.ite_disturbed {c : Prop} [Decidable c] (t u : State) :
    (if c then t.disturbed es d else u.disturbed es d) = (if c then t else u).disturbed es d :=
  (apply_ite (fun t : State => t.disturbed es d) c t u).symm

/-! ## The requests -/

theorem State.bitRead_disturbed (n : Nat) :
    (s.disturbed es d).bitRead n = (s.bitRead n).map (Prod.map id fun t => t.disturbed es d) := by
  rw [State.bitRead, State.bitRead, State.disturbed_ports]
  split
  · split <;> rfl
  · rfl

theorem State.byteRead_disturbed :
    (s.disturbed es d).byteRead = s.byteRead.map (Prod.map id fun t => t.disturbed es d) := by
  rw [State.byteRead, State.byteRead, State.disturbed_ports]
  split
  · split <;> rfl
  · rfl

theorem State.bitWrite_disturbed (n v : Nat) :
    (s.disturbed es d).bitWrite n v = (s.bitWrite n v).map (Prod.map id fun t => t.disturbed es d) := by
  rw [State.bitWrite, State.bitWrite, State.disturbed_ports]
  split
  · split <;> rfl
  · rfl

theorem State.byteWrite_disturbed (b : Byte) :
    (s.disturbed es d).byteWrite b = (s.byteWrite b).map (Prod.map id fun t => t.disturbed es d) := by
  rw [State.byteWrite, State.byteWrite, State.disturbed_ports]
  split
  · split <;> rfl
  · rfl

theorem State.flushBitSink_disturbed :
    (s.disturbed es d).flushBitSink = s.flushBitSink.map (Prod.map id fun t => t.disturbed es d) := by
  rw [State.flushBitSink, State.flushBitSink, State.disturbed_ports]
  split <;> rfl

theorem State.flushByteSink_disturbed :
    (s.disturbed es d).flushByteSink = s.flushByteSink.map (Prod.map id fun t => t.disturbed es d) := by
  rw [State.flushByteSink, State.flushByteSink, State.disturbed_ports]
  split <;> rfl

/-! ## The jobs -/

theorem State.enqueue_disturbed (node : NodeIx → Node) :
    (s.disturbed es d).enqueue node = (s.enqueue node).disturbed es d := by
  rw [State.enqueue, State.enqueue]
  dsimp only
  rw [State.insertKey_congr (s := State.setNode (s.disturbed es d) _ _) (t := s.setNode _ _) rfl]
  rfl

theorem runPut_disturbed (n v : Nat) : runPut n v (s.disturbed es d) = (runPut n v s).disturbed es d := by
  rw [runPut, runPut, State.bitWrite_disturbed]
  obtain _ | ⟨_ | _, t⟩ := s.bitWrite n v <;> rfl

theorem State.encode_disturbed (x : Symbol) : (s.disturbed es d).encode x = (s.encode x).disturbed es d := by
  rw [State.encode, State.encode]
  rw [← State.ite_disturbed]
  rfl

theorem runScan_disturbed (x : Nat) : runScan x (s.disturbed es d) = (runScan x s).disturbed es d := by
  have hscan : (s.disturbed es d).scanSymbol x = (s.scanSymbol x).disturbed es d := by
    simp only [State.scanSymbol, State.disturbed_freqAt, State.enqueue_disturbed]
    split <;> rfl
  rw [runScan, hscan]
  rfl

theorem runMerge_disturbed : runMerge (s.disturbed es d) = (runMerge s).disturbed es d := by
  simp only [runMerge, State.disturbed_seq, State.disturbed_node]
  split
  · rename_i a b q hq
    exact congrArg (State.push · [.merge]) (State.enqueue_disturbed { s with seq.queue := q } es d _)
  · rfl
  · rfl

theorem runWalk_disturbed (i : NodeIx) (p : List Bool) :
    runWalk i p (s.disturbed es d) = (runWalk i p s).disturbed es d := by
  rw [runWalk, runWalk]
  rw [← State.ite_disturbed]
  rfl

theorem runEmit_disturbed (i : NodeIx) : runEmit i (s.disturbed es d) = (runEmit i s).disturbed es d := by
  rw [runEmit, runEmit]
  rw [← State.ite_disturbed]
  rfl

theorem runReadMagic_disturbed : runReadMagic (s.disturbed es d) = (runReadMagic s).disturbed es d := by
  rw [runReadMagic, runReadMagic, State.bitRead_disturbed]
  obtain _ | ⟨v | _ | _, t⟩ := s.bitRead 32
  · rfl
  · simp only [Option.map_some, Prod.map_apply, id_eq]
    split <;> rfl
  · rfl
  · rfl

theorem State.get_disturbed {use : Nat → State → State} (k : Nat) (j : Job)
    (hu : ∀ v t, use v (State.disturbed t es d) = (use v t).disturbed es d) :
    (s.disturbed es d).get k j use = (s.get k j use).disturbed es d := by
  rw [State.get, State.get, State.bitRead_disturbed]
  obtain _ | ⟨v | _ | _, t⟩ := s.bitRead k
  · rfl
  · exact hu v { t with seq.got := t.seq.got + k }
  · rfl
  · rfl

theorem parseNode_disturbed (l : Link) (b : Nat) :
    parseNode l b (s.disturbed es d) = (parseNode l b s).disturbed es d := by
  rw [parseNode, parseNode]
  dsimp only
  rw [← State.ite_disturbed, ← State.ite_disturbed]
  cases l <;> rfl

theorem parseSym_disturbed (i : NodeIx) (v : Nat) :
    parseSym i v (s.disturbed es d) = (parseSym i v s).disturbed es d := by
  rw [parseSym, parseSym]
  dsimp only
  rw [← State.ite_disturbed, ← State.ite_disturbed]
  rfl

theorem runEncByte_disturbed (b : Bool) : runEncByte b (s.disturbed es d) = (runEncByte b s).disturbed es d := by
  rw [runEncByte, runEncByte, State.byteRead_disturbed]
  obtain _ | ⟨v | _ | _, t⟩ := s.byteRead
  · rfl
  · exact (t.push [.encByte b]).encode_disturbed es d _
  · cases b
    · rfl
    · exact t.encode_disturbed es d _
  · rfl

theorem runDescend_disturbed (b : Bool) (i : NodeIx) (m : Bool) :
    runDescend b i m (s.disturbed es d) = (runDescend b i m s).disturbed es d := by
  rw [runDescend, runDescend, State.disturbed_node]
  split
  · cases b
    · rfl
    · rw [if_pos rfl, if_pos rfl, State.gotStreamSymbol, State.gotStreamSymbol]
      rw [← State.ite_disturbed]
      rfl
  · rw [State.bitRead_disturbed]
    obtain _ | ⟨_ | _ | _, t⟩ := s.bitRead 1 <;> rfl

theorem runPutByte_disturbed (b : Byte) : runPutByte b (s.disturbed es d) = (runPutByte b s).disturbed es d := by
  rw [runPutByte, runPutByte, State.byteWrite_disturbed]
  obtain _ | ⟨_ | _, t⟩ := s.byteWrite b <;> rfl

theorem runFlushBits_disturbed : runFlushBits (s.disturbed es d) = (runFlushBits s).disturbed es d := by
  rw [runFlushBits, runFlushBits, State.flushBitSink_disturbed]
  obtain _ | ⟨_ | _, t⟩ := s.flushBitSink <;> rfl

theorem runFlushBytes_disturbed : runFlushBytes (s.disturbed es d) = (runFlushBytes s).disturbed es d := by
  rw [runFlushBytes, runFlushBytes, State.flushByteSink_disturbed]
  obtain _ | ⟨_ | _, t⟩ := s.flushByteSink <;> rfl

/-- No job but `CLEAR`'s body touches `OVR`, and none reads it or the events. -/
theorem runJob_disturbed {j : Job} (hj : j ≠ .clear) : runJob j (s.disturbed es d) = (runJob j s).disturbed es d := by
  cases j with
  | ret => rfl
  | put n v => exact runPut_disturbed s es d n v
  | illegal v => rfl
  | clear => exact absurd rfl hj
  | scan x => exact runScan_disturbed s es d x
  | merge => exact runMerge_disturbed s es d
  | gencodes =>
    rw [runJob, runJob, runGencodes, runGencodes]
    rw [← State.ite_disturbed]
    rfl
  | walk i p => exact runWalk_disturbed s es d i p
  | codesDone => rfl
  | hdrwr m =>
    rw [runJob, runJob, runHdrwr, runHdrwr]
    rw [← State.ite_disturbed]
    rfl
  | emit i => exact runEmit_disturbed s es d i
  | hdrrd m => rfl
  | readMagic => exact runReadMagic_disturbed s es d
  | treeStart => rfl
  | parse l => exact s.get_disturbed es d 1 _ fun v t => parseNode_disturbed t es d l v
  | leafSym i => exact s.get_disturbed es d 9 _ fun v t => parseSym_disturbed t es d i v
  | treeDone => rfl
  | encsym x =>
    rw [runJob, runJob, runEncsym, runEncsym, State.encode_disturbed]
    rw [← State.ite_disturbed]
    rfl
  | encstream t =>
    rw [runJob, runJob, runEncstream, runEncstream]
    rw [← State.ite_disturbed]
    rfl
  | encByte t => exact runEncByte_disturbed s es d t
  | decode b =>
    rw [runJob, runJob, runDecode, runDecode]
    rw [← State.ite_disturbed]
    rfl
  | decode1 b =>
    rw [runJob, runJob, runDecode1, runDecode1]
    rw [← State.ite_disturbed]
    rfl
  | descend b i m => exact runDescend_disturbed s es d b i m
  | putByte b => exact runPutByte_disturbed s es d b
  | flushBits => exact runFlushBits_disturbed s es d
  | flushBytes => exact runFlushBytes_disturbed s es d

/-- `CLEAR` forgets a write dropped before its body (R245). -/
theorem runJob_clear_disturbed : runJob .clear (s.disturbed es d) = (runJob .clear s).disturbed es false := rfl


theorem State.blocked_disturbed : (s.disturbed es d).blocked = s.blocked := by
  rw [State.blocked, State.blocked, State.disturbed_seq]
  cases s.seq.outstanding with
  | none => rfl
  | some p => cases p <;> rfl

/-! ## Runs -/

theorem advance_disturbed : advance (s.disturbed es d) = (advance s).disturbed es d ∨
    .clear ∈ s.seq.jobs ∧ advance (s.disturbed es d) = (advance s).disturbed es false := by
  cases hs : s.seq.jobs with
  | nil =>
    rw [advance, advance, State.disturbed_seq, hs]
    exact .inl rfl
  | cons j js =>
    rw [advance_eq hs, advance_eq (s := s.disturbed es d) hs]
    by_cases hj : j = .clear
    · subst hj
      exact .inr ⟨List.mem_cons_self, runJob_clear_disturbed (s.at js) es d⟩
    · exact .inl (runJob_disturbed (s.at js) es d hj)

end

theorem Instr.Reaches.eq_clear {i : Instr} {s u : State} (h : Instr.Reaches i s u) (hc : .clear ∈ u.seq.jobs) :
    i = .clear := by
  obtain ⟨hw, -⟩ := h.jobs _ hc
  exact (Instr.host_mem_writes i).1 (hw (by simp [Job.writes]))

/-- A command runs alike whatever the events and `OVR`, but that `CLEAR` clears `OVR` (R245, R253). -/
theorem run_disturbed {i : Instr} {s u : State} (h : Instr.Reaches i s u) (k : Nat) (es : List Event) (d : Bool) :
    run k (u.disturbed es d) = (run k u).disturbed es d ∨
    i = .clear ∧ run k (u.disturbed es d) = (run k u).disturbed es false := by
  induction k generalizing u d with
  | zero => exact .inl rfl
  | succ k ih =>
    rw [run, run, State.disturbed_busy, State.blocked_disturbed]
    split
    · rename_i hb
      have hnext := Instr.reaches_advance h (Bool.and_eq_true_iff.1 hb).1
      obtain ha | ⟨hc, ha⟩ := advance_disturbed u es d
      · rw [ha]
        exact ih hnext d
      · rw [ha]
        exact .inr ⟨h.eq_clear hc, (ih hnext false).elim id And.right⟩
    · exact .inl rfl

theorem run_other_events {i : Instr} {s u : State} (h : Instr.Reaches i s u) (k : Nat) (es : List Event) :
    run k (u.disturbed es false) = (run k u).disturbed es false :=
  (run_disturbed h k es false).elim id And.right

theorem run_eq_of_le {k n : Nat} {u t : State} (h : run k u = t) (ht : t.flags.busy = false) (hk : k ≤ n) :
    run n u = t := by
  obtain ⟨m, rfl⟩ := Nat.exists_eq_add_of_le hk
  rw [run_add, h, run_of_idle t ht]

/-! ## Steps -/

theorem core_run_succ {M : Host.Core} {u v : M.State} (h : M.step u = .next v) (m : Nat) :
    M.run (m + 1) u = M.run m v := by
  rw [Host.Core.run, h]

/-- One step, and the steps that follow it. -/
theorem exists_core_run_of_step {u v t : State} (h : step u = .next v)
    (hv : ∃ m, Sys2Proof.core.run m v = .next t) : ∃ m, Sys2Proof.core.run m u = .next t := by
  obtain ⟨m, hm⟩ := hv
  exact ⟨m + 1, (core_run_succ (M := Sys2Proof.core) (u := u) (v := v) h m).trans hm⟩

/-- With no access to come before the completion, the steps bring the command to where the sequencer brings it. -/
theorem exists_core_run_of_run {k : Nat} {u t : State} (hw : ∀ e es, u.events = e :: es → e.after = none)
    (h : run k u = t) (ht : t.flags.busy = false) : ∃ m, Sys2Proof.core.run m u = .next t := by
  induction k using Nat.strong_induction_on generalizing u with
  | _ k ih =>
    cases hb : u.flags.busy with
    | false =>
      rw [run_of_idle u hb] at h
      exact ⟨0, congrArg _ h⟩
    | true =>
      have hk : k ≠ 0 := by
        rintro rfl
        rw [← h, run, hb] at ht
        cases ht
      have hrest : run (k - u.burst) u.runOn = t := by
        rw [State.runOn, ← run_add]
        exact run_eq_of_le h ht (by omega)
      have hlt : k - u.burst < k := by have := u.burst_pos; omega
      have hevents : u.runOn.events = u.events := run_events _ u
      exact exists_core_run_of_step (step_runOn hb hw) (ih _ hlt (hevents ▸ hw) hrest)

/-! ## A command that is cut -/

theorem reaches_run (i : Instr) (s : State) (n : Nat) : Instr.Reaches i s (run n (start i s)) :=
  run_keeps (fun _ hu hb _ => Instr.reaches_advance hu hb) n (start_eq_accept i s ▸ Instr.reaches_accept i s)

/-- A command that completes, completes from any position as it does uncut. -/
theorem exists_run_of_cut {i : Instr} {s t : State} (h : exec i s = .next t) (ht : t.flags.busy = false) (n : Nat) :
    ∃ k, run k (run n (start i s)) = t := by
  rw [exec_eq_runOn] at h
  cases h
  exact ⟨(start i s).burst, by rw [← run_add]; exact run_eq_of_le rfl ht (Nat.le_add_left _ _)⟩

/-- Settles O9: no job reads the events or `OVR`, and the steps take the run to its end. -/
theorem droppedWriteDoesNotDisturbTheCommand : Obligations.DroppedWriteDoesNotDisturbTheCommand := by
  intro i s t n hex ht c
  have hc : Instr.Reaches i s c := reaches_run i s n
  obtain ⟨k, hk⟩ : ∃ k, run k c = t := exists_run_of_cut hex ht n
  have hevents : t.events = c.events := hk ▸ run_events k c
  have hwaits (es : List Event) (he : ∀ e es', es = e :: es' → e.after = none) :
      ∃ m, Sys2Proof.core.run m (c.disturbed es false) = .next (t.disturbed es false) :=
    exists_core_run_of_run he (hk ▸ run_other_events hc k es) ht
  refine ⟨⟨k, hk⟩, hwaits [] nofun, fun e es he => hwaits (e :: es) ?waits, fun hb => ⟨⟨k, ?dropped⟩, ?steps⟩⟩
  case waits =>
    rintro _ _ ⟨⟩
    exact he
  case dropped =>
    have hdrop : c.dropWrite = c.disturbed t.events true := by rw [hevents]; rfl
    have hrun := run_disturbed hc k t.events true
    rw [hk] at hrun
    rw [hdrop]
    exact hrun
  case steps =>
    intro off v ho ha d
    have hstep : step d = .next (c.disturbed [] true) := busyWriteIsDropped d [] off v hb ho ha rfl
    have hsteps {u : State} (hu : run k (c.disturbed [] true) = u) (hi : u.flags.busy = false) :
        ∃ m, Sys2Proof.core.run m d = .next u :=
      exists_core_run_of_step hstep (exists_core_run_of_run (u := c.disturbed [] true) nofun hu hi)
    have hrun := run_disturbed hc k [] true
    rw [hk] at hrun
    obtain hrun | ⟨hi, hrun⟩ := hrun
    · obtain ⟨m, hm⟩ := hsteps hrun ht
      exact ⟨m, .inl hm⟩
    · obtain ⟨m, hm⟩ := hsteps hrun ht
      exact ⟨m, .inr ⟨hi, hm⟩⟩

end Sys2Proof.Machine
end

section
/-! SUPPORT. The reset input, the state after reset, and another stream at a port (R290, R291, R293, R302). -/

namespace Sys2Proof.Machine

/-! ## The reset input -/

/-- What is abandoned reaches no port but the one whose answer is outstanding (R290). -/
theorem State.reached_abandonRequest (s : State) :
    State.Reached s.seq.outstanding.toList s s.abandonRequest := by
  rw [State.abandonRequest]
  split
  · exact .refl _ s
  all_goals
    rename_i p hp
    rw [hp]
    constructor <;> simp

/-- An abandoned request is not answered. -/
theorem State.abandonRequest_trace (s : State) : s.abandonRequest.ports.trace = s.ports.trace := by
  rw [State.abandonRequest]
  split <;> rfl

/-- Settles O18: the reset is due, and of the ports only the one with the abandoned request is reached. -/
theorem resetInputAbandonsTheCommand : Obligations.ResetInputAbandonsTheCommand := by
  intro s e es he hd ha
  have hstep : step s = .next (State.doReset { s with events := es }) := by rw [step_of_due he hd, ha]; rfl
  have hr := State.reached_abandonRequest { s with events := es }
  exact ⟨_, _, hstep, fun hn => hr.none (by simp [hn]), fun hn => hr.bitSource (by simpa using hn),
    fun hn => hr.bitSink (by simpa using hn), fun hn => hr.byteSource (by simpa using hn),
    fun hn => hr.byteSink (by simpa using hn), State.abandonRequest_trace { s with events := es }⟩

/-! ## The state after reset -/

theorem State.reset_freqAt {x : Nat} (h : x < 256) : State.reset.freqAt x = 0#32 := by
  rw [State.freqAt, if_neg (by omega)]
  simp [State.reset, Vector.getD, h]

/-- Settles O19, register by register; the invariant that reset has says that no symbol has a code. -/
theorem resetStateIsAsSpecified : Obligations.ResetStateIsAsSpecified := by
  have hcodes : ∀ x : Symbol, (State.reset.code x).valid = false := State.Inv.reset.noCodes rfl List.not_mem_nil
  exact ⟨rfl, rfl, rfl, rfl, rfl, rfl, rfl, rfl, rfl, rfl, rfl, rfl, rfl, fun _ => State.reset_freqAt,
    State.freqAt_sentinel _, rfl, rfl, fun _ => rfl, hcodes⟩

/-! ## Ports in use -/

theorem State.uses_iff (s : State) (p : Port) : s.uses p = true ↔ p ∈ s.seq.inUse := List.contains_iff_mem

/-- A position after which the command still runs leaves the ports in use as they are. -/
theorem advance_inUse {s : State} (hb : (advance s).flags.busy = true) : (advance s).seq.inUse = s.seq.inUse := by
  cases hs : s.seq.jobs with
  | nil => rw [advance, hs]
  | cons j js =>
    rw [advance_eq hs] at hb ⊢
    obtain hc | he := moves_runJob (s.at js) j
    · exact hc.inUse
    · rw [he.busy] at hb
      cases hb

/-- A command that runs holds in use the ports that its jobs use (R302). -/
theorem run_start_uses {i : Instr} {s : State} {n : Nat} (hb : (run n (start i s)).flags.busy = true) (p : Port) :
    (run n (start i s)).uses p = true ↔ p ∈ Instr.uses i := by
  have hkeep : (run n (start i s)).flags.busy = true → (run n (start i s)).seq.inUse = Instr.uses i := by
    rw [start_eq_accept]
    exact run_keeps (P := fun t => t.flags.busy = true → t.seq.inUse = Instr.uses i)
      (fun t ht hbt _ hba => (advance_inUse hba).trans (ht hbt)) n fun _ => rfl
  rw [State.uses_iff, hkeep hb]

/-- Another stream that comes now is refused at a port in use, and stands at any other (R302). -/
theorem step_attach {s t : State} {e : Event} {es : List Event} {p : Port} (he : s.events = e :: es)
    (hd : s.flags.busy = true → e.after = some 0)
    (ha : act e.what { s with events := es } = attach p { s with events := es } t) :
    (s.uses p = true → step s = .refused .streamInterleaved) ∧ (s.uses p = false → step s = .next t) := by
  rw [step_of_due he hd, ha, attach, show State.uses { s with events := es } p = s.uses p from rfl]
  exact ⟨fun hu => if_pos hu, fun hu => if_neg (by simp [hu])⟩

/-- Settles O16: an attachment asks for the ports in use, which are those of the command's jobs until it completes. -/
theorem interleavedStreamsAreRefused : Obligations.InterleavedStreamsAreRefused := by
  refine ⟨fun s e es bits bytes k as a he hd => ?attached, fun i s n hb => ?running, fun s p hs => ?idle⟩
  case attached =>
    refine ⟨fun ha => ?_, fun ha => ?_, fun ha => ?_, fun ha => ?_⟩
    all_goals exact step_attach he hd (by rw [ha]; rfl)
  case running =>
    have huses := run_start_uses hb
    exact ⟨(huses _).trans (Instr.bitSource_mem_uses i), (huses _).trans (Instr.bitSink_mem_uses i),
      (huses _).trans (Instr.byteSource_mem_uses i), (huses _).trans (Instr.byteSink_mem_uses i)⟩
  case idle => rw [State.uses, hs]; rfl

end Sys2Proof.Machine
end
